-- ==== Sys2Proof/Word.lean ====
section
/-!
DEFINITION. The word types of the audio controller (spec/00_scope.md R13, R16) and the fixed table that
holds one entry per mixer channel, sample-buffer instance or driver region (R12: 32 of each).
-/

namespace Sys2Proof

/-- One byte of memory. -/
abbrev Byte := BitVec 8

/-- A u16 (volumes, samples, `IMM`). -/
abbrev Half := BitVec 16

/-- A u32: every address, handle, position, length, frequency and packet word (R16). -/
abbrev Word := BitVec 32

/-- A u64: tick counts (R16). -/
abbrev Dword := BitVec 64

/-- `MAX_CHANNELS = NUM_SB = AI_NUM_BUFFERS_MAX = 32` (R12). -/
abbrev tableSize : Nat := 32

/-- A table of 32 like things: channels, sample buffers, driver regions. -/
abbrev Table (α : Type) := Vector α tableSize

/-- The u32 that holds a natural number; exact when the number is below 2^32. -/
abbrev w32 (n : Nat) : Word := BitVec.ofNat 32 n

end Sys2Proof
end

