-- ==== Sys2Proof/Syntax.lean ====
section
/-!
DEFINITION. The commands of the host command port, one constructor per row of spec/opcode_table.json
(spec/30_encoding.md R127), and the packet that carries one (R100).
-/

namespace Sys2Proof

/-- The commands, in the table's order.  An 8-bit operand is the packet's `CH`, a 16-bit operand its
`IMM`, a `Bool` operand bit 0 of `IMM`, and a `Word` operand an argument word (R100, R106, R127). -/
inductive Instr where
  | aiInit (numBuffers : Half) (freq : Word)
  | aiClose
  | aiSetFillCallback (cb : Word)
  | aiWriteBegin
  | aiWriteEnd
  | aiPush (blocking : Bool) (src n : Word)
  | aiPause (pause : Bool)
  | aiGetFrequency
  | sbInit (ch : Byte) (base bytes : Word)
  | sbSetBitWidth (ch : Byte) (bits : Half)
  | sbSetDecoder (ch : Byte) (fn ctx : Word)
  | sbGet (ch : Byte) (wpos wlen : Word)
  | sbAppend (ch : Byte) (wlen : Word)
  | sbDiscard (ch : Byte) (wpos : Word)
  | sbFlush (ch : Byte)
  | mxInit (channels : Half) (rate : Word)
  | mxClose
  | mxSampleRate
  | mxSetMasterVolume (vol : Word)
  | mxPoll (n : Word)
  | mxExec (out n : Word)
  | chPlay (ch : Byte) (wave : Word)
  | chStop (ch : Byte)
  | chPlaying (ch : Byte)
  | chSetFrequency (ch : Byte) (freq : Word)
  | chSetPosition (ch : Byte) (pos : Word)
  | chGetPosition (ch : Byte)
  | chSetVolume (ch : Byte) (l r : Word)
  | chSetPan (ch : Byte) (vol pan : Word)
  | chSetDolby (ch : Byte) (fl fr c sl sr : Word)
  | chSetLimits (ch : Byte) (maxBits maxFreq maxBuf : Word)
  | evAdd (delay cb ctx : Word)
  | evRemove (cb : Word)
  | vsInit (fps rate : Word)
  | vsSuggestedBufferSize
  | vsCurrentFrameSamples
  | vsNextFrame
  | irqDisable
  | irqEnable
  deriving DecidableEq, Repr

/-- What an issuer offers at the command port: word 0 and the five words that stand ready behind it.
The decoder takes exactly `NARGS(OP)` of those (R100, R101), at most five (`CH_SET_DOLBY`); the rest are
not part of the packet. -/
structure Packet where
  word0 : Word
  arg0 : Word
  arg1 : Word
  arg2 : Word
  arg3 : Word
  arg4 : Word
  deriving DecidableEq, Repr

/-- The packet's words in the order the port receives them. -/
def Packet.words (p : Packet) : List Word := [p.word0, p.arg0, p.arg1, p.arg2, p.arg3, p.arg4]

end Sys2Proof
end

