-- ==== Sys2Proof/WellFormed.lean ====
section
/-!
DEFINITION. Well-formedness: the opcode table as spec/opcode_table.json gives it (match and mask of word 0,
argument and result counts), when a list of words is one well-formed packet of it (spec/30_encoding.md R100 to
R102), and which instructions may arrive at the command port (R104).  Decode.lean is written from the field
descriptions of R127 instead, so that the two can be held against each other.
-/

namespace Sys2Proof

/-- One row of spec/opcode_table.json: word 0 belongs to the row exactly when its `mask` bits equal
`pattern`; `mask` covers `OP` and every reserved bit (R102). -/
structure OpcodeRow where
  mnemonic : String
  pattern : Word
  mask : Word
  nargs : Nat
  nres : Nat
  deriving DecidableEq, Repr

/-- AI output driver. -/
def aiRows : List OpcodeRow := [
  ⟨"AI_INIT", 0x01000000, 0xFFFF0000, 1, 0⟩,
  ⟨"AI_CLOSE", 0x02000000, 0xFFFFFFFF, 0, 0⟩,
  ⟨"AI_SET_FILL_CALLBACK", 0x03000000, 0xFFFFFFFF, 1, 0⟩,
  ⟨"AI_WRITE_BEGIN", 0x04000000, 0xFFFFFFFF, 0, 1⟩,
  ⟨"AI_WRITE_END", 0x05000000, 0xFFFFFFFF, 0, 0⟩,
  ⟨"AI_PUSH", 0x06000000, 0xFFFFFFFE, 2, 1⟩,
  ⟨"AI_PAUSE", 0x07000000, 0xFFFFFFFE, 0, 0⟩,
  ⟨"AI_GET_FREQUENCY", 0x08000000, 0xFFFFFFFF, 0, 1⟩]

/-- Sample-buffer cache. -/
def sbRows : List OpcodeRow := [
  ⟨"SB_INIT", 0x10000000, 0xFF00FFFF, 2, 0⟩,
  ⟨"SB_SET_BIT_WIDTH", 0x11000000, 0xFF000000, 0, 0⟩,
  ⟨"SB_SET_DECODER", 0x12000000, 0xFF00FFFF, 2, 0⟩,
  ⟨"SB_GET", 0x13000000, 0xFF00FFFF, 2, 2⟩,
  ⟨"SB_APPEND", 0x14000000, 0xFF00FFFF, 1, 1⟩,
  ⟨"SB_DISCARD", 0x15000000, 0xFF00FFFF, 1, 0⟩,
  ⟨"SB_FLUSH", 0x16000000, 0xFF00FFFF, 0, 0⟩]

/-- Mixer engine. -/
def mxRows : List OpcodeRow := [
  ⟨"MX_INIT", 0x20000000, 0xFFFF0000, 1, 0⟩,
  ⟨"MX_CLOSE", 0x21000000, 0xFFFFFFFF, 0, 0⟩,
  ⟨"MX_SAMPLE_RATE", 0x22000000, 0xFFFFFFFF, 0, 1⟩,
  ⟨"MX_SET_MASTER_VOLUME", 0x23000000, 0xFFFFFFFF, 1, 0⟩,
  ⟨"MX_POLL", 0x24000000, 0xFFFFFFFF, 1, 0⟩,
  ⟨"MX_EXEC", 0x25000000, 0xFFFFFFFF, 2, 0⟩]

/-- Channel commands. -/
def chRows : List OpcodeRow := [
  ⟨"CH_PLAY", 0x28000000, 0xFF00FFFF, 1, 0⟩,
  ⟨"CH_STOP", 0x29000000, 0xFF00FFFF, 0, 0⟩,
  ⟨"CH_PLAYING", 0x2A000000, 0xFF00FFFF, 0, 1⟩,
  ⟨"CH_SET_FREQUENCY", 0x2B000000, 0xFF00FFFF, 1, 0⟩,
  ⟨"CH_SET_POSITION", 0x2C000000, 0xFF00FFFF, 1, 0⟩,
  ⟨"CH_GET_POSITION", 0x2D000000, 0xFF00FFFF, 0, 1⟩,
  ⟨"CH_SET_VOLUME", 0x2E000000, 0xFF00FFFF, 2, 0⟩,
  ⟨"CH_SET_PAN", 0x2F000000, 0xFF00FFFF, 2, 0⟩,
  ⟨"CH_SET_DOLBY", 0x30000000, 0xFF00FFFF, 5, 0⟩,
  ⟨"CH_SET_LIMITS", 0x31000000, 0xFF00FFFF, 3, 0⟩]

/-- Event scheduler. -/
def evRows : List OpcodeRow := [
  ⟨"EV_ADD", 0x40000000, 0xFFFFFFFF, 3, 0⟩,
  ⟨"EV_REMOVE", 0x41000000, 0xFFFFFFFF, 1, 0⟩]

/-- VideoSync. -/
def vsRows : List OpcodeRow := [
  ⟨"VS_INIT", 0x50000000, 0xFFFFFFFF, 2, 0⟩,
  ⟨"VS_SUGGESTED_BUFFER_SIZE", 0x51000000, 0xFFFFFFFF, 0, 1⟩,
  ⟨"VS_CURRENT_FRAME_SAMPLES", 0x52000000, 0xFFFFFFFF, 0, 1⟩,
  ⟨"VS_NEXT_FRAME", 0x53000000, 0xFFFFFFFF, 0, 0⟩]

/-- Critical section. -/
def irqRows : List OpcodeRow := [
  ⟨"IRQ_DISABLE", 0x60000000, 0xFFFFFFFF, 0, 0⟩,
  ⟨"IRQ_ENABLE", 0x61000000, 0xFFFFFFFF, 0, 0⟩]

/-- All 39 rows (R127). -/
def opcodeTable : List OpcodeRow := aiRows ++ sbRows ++ mxRows ++ chRows ++ evRows ++ vsRows ++ irqRows

/-- Word 0 belongs to this row. -/
def OpcodeRow.accepts (r : OpcodeRow) (w : Word) : Bool := w &&& r.mask == r.pattern

/-- The row word 0 belongs to, if any (R102, R103). -/
def rowOf (w : Word) : Option OpcodeRow := opcodeTable.find? fun r => r.accepts w

/-- A list of words is one well-formed packet: word 0 belongs to a row, and exactly `NARGS(OP)` argument
words follow it (R100, R101). -/
def packetWellFormed : List Word → Bool
  | [] => false
  | w :: args =>
    match rowOf w with
    | none => false
    | some r => args.length == r.nargs

/-- An instruction that may arrive at the command port: every one but the internal `MX_EXEC` (R104).  Every
operand has exactly the width the packet gives it, so nothing else of an instruction can be ill-formed. -/
def Instr.wellFormed : Instr → Bool
  | .mxExec _ _ => false
  | _ => true

end Sys2Proof
end

