-- ==== Sys2Proof/Decode.lean ====
section
/-!
DEFINITION. The decoder of the command port, total on any list of words and rejecting by name
(spec/30_encoding.md R100 to R104, R127, R129), and the encoder written from the same table.
Ports deliver words, so no byte order applies to a packet (R100).
-/

namespace Sys2Proof

/-! ### The fields of word 0 (R100) -/

/-- `OP`, bits [31:24]. -/
def opOf (w : Word) : Byte := w.extractLsb' 24 8

/-- `CH`, bits [23:16]. -/
def chOf (w : Word) : Byte := w.extractLsb' 16 8

/-- `IMM`, bits [15:0]. -/
def immOf (w : Word) : Half := w.extractLsb' 0 16

/-- Word 0 from its three fields. -/
def headerWord (op ch : Byte) (imm : Half) : Word := (op ++ ch : BitVec 16) ++ imm

/-! ### The opcode map (R127) -/

/-- What R127 says of an opcode: whether `CH` is an operand, which `IMM` bits are defined, and how many
argument words follow. -/
structure OpFormat where
  usesCh : Bool
  immBits : Half
  nargs : Nat
  deriving DecidableEq, Repr

/-- R127, by opcode; `none` for every reserved opcode (R103). -/
def opFormat (op : Byte) : Option OpFormat :=
  match op.toNat with
  | 0x01 => some ⟨false, 0xFFFF, 1⟩
  | 0x02 => some ⟨false, 0, 0⟩
  | 0x03 => some ⟨false, 0, 1⟩
  | 0x04 => some ⟨false, 0, 0⟩
  | 0x05 => some ⟨false, 0, 0⟩
  | 0x06 => some ⟨false, 1, 2⟩
  | 0x07 => some ⟨false, 1, 0⟩
  | 0x08 => some ⟨false, 0, 0⟩
  | 0x10 => some ⟨true, 0, 2⟩
  | 0x11 => some ⟨true, 0xFFFF, 0⟩
  | 0x12 => some ⟨true, 0, 2⟩
  | 0x13 => some ⟨true, 0, 2⟩
  | 0x14 => some ⟨true, 0, 1⟩
  | 0x15 => some ⟨true, 0, 1⟩
  | 0x16 => some ⟨true, 0, 0⟩
  | 0x20 => some ⟨false, 0xFFFF, 1⟩
  | 0x21 => some ⟨false, 0, 0⟩
  | 0x22 => some ⟨false, 0, 0⟩
  | 0x23 => some ⟨false, 0, 1⟩
  | 0x24 => some ⟨false, 0, 1⟩
  | 0x25 => some ⟨false, 0, 2⟩
  | 0x28 => some ⟨true, 0, 1⟩
  | 0x29 => some ⟨true, 0, 0⟩
  | 0x2A => some ⟨true, 0, 0⟩
  | 0x2B => some ⟨true, 0, 1⟩
  | 0x2C => some ⟨true, 0, 1⟩
  | 0x2D => some ⟨true, 0, 0⟩
  | 0x2E => some ⟨true, 0, 2⟩
  | 0x2F => some ⟨true, 0, 2⟩
  | 0x30 => some ⟨true, 0, 5⟩
  | 0x31 => some ⟨true, 0, 3⟩
  | 0x40 => some ⟨false, 0, 3⟩
  | 0x41 => some ⟨false, 0, 1⟩
  | 0x50 => some ⟨false, 0, 2⟩
  | 0x51 => some ⟨false, 0, 0⟩
  | 0x52 => some ⟨false, 0, 0⟩
  | 0x53 => some ⟨false, 0, 0⟩
  | 0x60 => some ⟨false, 0, 0⟩
  | 0x61 => some ⟨false, 0, 0⟩
  | _ => none

/-- The instruction of an opcode, its fields and its argument words; `none` unless exactly the opcode's
number of arguments is given. -/
def assemble (op ch : Byte) (imm : Half) (args : List Word) : Option Instr :=
  match op.toNat, args with
  | 0x01, [f] => some (.aiInit imm f)
  | 0x02, [] => some .aiClose
  | 0x03, [cb] => some (.aiSetFillCallback cb)
  | 0x04, [] => some .aiWriteBegin
  | 0x05, [] => some .aiWriteEnd
  | 0x06, [src, n] => some (.aiPush (imm.getLsbD 0) src n)
  | 0x07, [] => some (.aiPause (imm.getLsbD 0))
  | 0x08, [] => some .aiGetFrequency
  | 0x10, [base, bytes] => some (.sbInit ch base bytes)
  | 0x11, [] => some (.sbSetBitWidth ch imm)
  | 0x12, [fn, ctx] => some (.sbSetDecoder ch fn ctx)
  | 0x13, [wpos, wlen] => some (.sbGet ch wpos wlen)
  | 0x14, [wlen] => some (.sbAppend ch wlen)
  | 0x15, [wpos] => some (.sbDiscard ch wpos)
  | 0x16, [] => some (.sbFlush ch)
  | 0x20, [rate] => some (.mxInit imm rate)
  | 0x21, [] => some .mxClose
  | 0x22, [] => some .mxSampleRate
  | 0x23, [vol] => some (.mxSetMasterVolume vol)
  | 0x24, [n] => some (.mxPoll n)
  | 0x25, [out, n] => some (.mxExec out n)
  | 0x28, [wave] => some (.chPlay ch wave)
  | 0x29, [] => some (.chStop ch)
  | 0x2A, [] => some (.chPlaying ch)
  | 0x2B, [freq] => some (.chSetFrequency ch freq)
  | 0x2C, [pos] => some (.chSetPosition ch pos)
  | 0x2D, [] => some (.chGetPosition ch)
  | 0x2E, [l, r] => some (.chSetVolume ch l r)
  | 0x2F, [vol, pan] => some (.chSetPan ch vol pan)
  | 0x30, [fl, fr, c, sl, sr] => some (.chSetDolby ch fl fr c sl sr)
  | 0x31, [mb, mf, mx] => some (.chSetLimits ch mb mf mx)
  | 0x40, [delay, cb, ctx] => some (.evAdd delay cb ctx)
  | 0x41, [cb] => some (.evRemove cb)
  | 0x50, [fps, rate] => some (.vsInit fps rate)
  | 0x51, [] => some .vsSuggestedBufferSize
  | 0x52, [] => some .vsCurrentFrameSamples
  | 0x53, [] => some .vsNextFrame
  | 0x60, [] => some .irqDisable
  | 0x61, [] => some .irqEnable
  | _, _ => none

/-! ### The decoder -/

/-- Why a packet is an illegal encoding (R102, R103). -/
inductive Illegal where
  /-- `OP` is absent from R127. -/
  | reservedOpcode
  /-- `CH` is nonzero where the row gives it as "0". -/
  | reservedCh
  /-- An undefined `IMM` bit is nonzero. -/
  | reservedImm
  deriving DecidableEq, Repr

/-- What the decoder answers. -/
inductive Decoded where
  /-- One instruction, and the words behind its packet. -/
  | instr (i : Instr) (rest : List Word)
  /-- An illegal encoding with this word 0. -/
  | illegal (word0 : Word) (why : Illegal)
  /-- Fewer words than the packet's length. -/
  | short
  deriving DecidableEq, Repr

/-- Reads word 0, looks up `OP`, checks the reserved fields and then takes exactly `NARGS(OP)` more words
(R101, R102, R103).  `MX_EXEC` decodes; that it is illegal at the port is its meaning's (R104). -/
def decode : List Word → Decoded
  | [] => .short
  | w :: rest =>
    match opFormat (opOf w) with
    | none => .illegal w .reservedOpcode
    | some f =>
      if f.usesCh = false ∧ chOf w ≠ 0 then .illegal w .reservedCh
      else if immOf w &&& ~~~f.immBits ≠ 0 then .illegal w .reservedImm
      else
        match assemble (opOf w) (chOf w) (immOf w) (rest.take f.nargs) with
        | some i => .instr i (rest.drop f.nargs)
        | none => .short

/-! ### The encoder -/

/-- A `bool` operand as an `IMM` field (R106). -/
def boolImm (b : Bool) : Half := if b then 1 else 0

/-- `OP` of an instruction (R127). -/
def Instr.opcode : Instr → Byte
  | .aiInit .. => 0x01
  | .aiClose => 0x02
  | .aiSetFillCallback .. => 0x03
  | .aiWriteBegin => 0x04
  | .aiWriteEnd => 0x05
  | .aiPush .. => 0x06
  | .aiPause .. => 0x07
  | .aiGetFrequency => 0x08
  | .sbInit .. => 0x10
  | .sbSetBitWidth .. => 0x11
  | .sbSetDecoder .. => 0x12
  | .sbGet .. => 0x13
  | .sbAppend .. => 0x14
  | .sbDiscard .. => 0x15
  | .sbFlush .. => 0x16
  | .mxInit .. => 0x20
  | .mxClose => 0x21
  | .mxSampleRate => 0x22
  | .mxSetMasterVolume .. => 0x23
  | .mxPoll .. => 0x24
  | .mxExec .. => 0x25
  | .chPlay .. => 0x28
  | .chStop .. => 0x29
  | .chPlaying .. => 0x2A
  | .chSetFrequency .. => 0x2B
  | .chSetPosition .. => 0x2C
  | .chGetPosition .. => 0x2D
  | .chSetVolume .. => 0x2E
  | .chSetPan .. => 0x2F
  | .chSetDolby .. => 0x30
  | .chSetLimits .. => 0x31
  | .evAdd .. => 0x40
  | .evRemove .. => 0x41
  | .vsInit .. => 0x50
  | .vsSuggestedBufferSize => 0x51
  | .vsCurrentFrameSamples => 0x52
  | .vsNextFrame => 0x53
  | .irqDisable => 0x60
  | .irqEnable => 0x61

/-- `CH` of an instruction; 0 where R127 gives it as "0". -/
def Instr.chField : Instr → Byte
  | .sbInit ch _ _ | .sbSetBitWidth ch _ | .sbSetDecoder ch _ _ | .sbGet ch _ _ | .sbAppend ch _
  | .sbDiscard ch _ | .sbFlush ch | .chPlay ch _ | .chStop ch | .chPlaying ch | .chSetFrequency ch _
  | .chSetPosition ch _ | .chGetPosition ch | .chSetVolume ch _ _ | .chSetPan ch _ _
  | .chSetDolby ch _ _ _ _ _ | .chSetLimits ch _ _ _ => ch
  | _ => 0

/-- `IMM` of an instruction; 0 in every bit R127 does not define. -/
def Instr.immField : Instr → Half
  | .aiInit nb _ => nb
  | .aiPush b _ _ => boolImm b
  | .aiPause p => boolImm p
  | .sbSetBitWidth _ bits => bits
  | .mxInit n _ => n
  | _ => 0

/-- `ARG[0 .. NARGS-1]` of an instruction (R127). -/
def Instr.argWords : Instr → List Word
  | .aiInit _ f => [f]
  | .aiSetFillCallback cb => [cb]
  | .aiPush _ src n => [src, n]
  | .sbInit _ base bytes => [base, bytes]
  | .sbSetDecoder _ fn ctx => [fn, ctx]
  | .sbGet _ wpos wlen => [wpos, wlen]
  | .sbAppend _ wlen => [wlen]
  | .sbDiscard _ wpos => [wpos]
  | .mxInit _ rate => [rate]
  | .mxSetMasterVolume vol => [vol]
  | .mxPoll n => [n]
  | .mxExec out n => [out, n]
  | .chPlay _ wave => [wave]
  | .chSetFrequency _ freq => [freq]
  | .chSetPosition _ pos => [pos]
  | .chSetVolume _ l r => [l, r]
  | .chSetPan _ vol pan => [vol, pan]
  | .chSetDolby _ fl fr c sl sr => [fl, fr, c, sl, sr]
  | .chSetLimits _ mb mf mx => [mb, mf, mx]
  | .evAdd delay cb ctx => [delay, cb, ctx]
  | .evRemove cb => [cb]
  | .vsInit fps rate => [fps, rate]
  | _ => []

/-- Word 0 of an instruction. -/
def Instr.word0 (i : Instr) : Word := headerWord i.opcode i.chField i.immField

/-- The packet of an instruction, word 0 first (R100). -/
def encode (i : Instr) : List Word := i.word0 :: i.argWords

/-! ### Words as the host counts their bits -/

/-- The packet whose words are the 32-bit pieces of `w`, the first word lowest.  Bits at or above `nbits` are
zero, and so are the words behind the given ones. -/
def packetOfBits (nbits w : Nat) : Packet :=
  let v := w % 2 ^ nbits
  let word (k : Nat) : Word := BitVec.ofNat 32 (v >>> (32 * k))
  ⟨word 0, word 1, word 2, word 3, word 4, word 5⟩

/-- The instruction the decoder reads from these bits; `none` where it refuses. -/
def decodeTableWord (nbits w : Nat) : Option Instr :=
  match decode (packetOfBits nbits w).words with
  | .instr i _ => some i
  | .illegal _ _ => none
  | .short => none

end Sys2Proof
end

