-- ==== Sys2Proof/Config.lean ====
section
/-!
DEFINITION. What an implementation fixes and the spec leaves OPEN (spec/00_scope.md R12): the parameters of the
model, the vocabulary in which the environment's choices are written down (host code, callbacks, the order in which
the agents of R10 move), and the free values: opaque constants, of which nothing can be proved but what holds for
every value (spec/93_implementation_defined.md).
-/

namespace Sys2Proof

/-! ### Names the block and its environment share -/

/-- `OWNER` (spec/10_state.md R21). -/
inductive Owner where
  | none
  | driver
  | engine
  deriving DecidableEq, Repr, Inhabited

/-- `CTX`, the context that issues the command now executing (R24). -/
inductive Ctx where
  | host
  | irq
  | decoder (i : Nat)
  | fill
  | event
  deriving DecidableEq, Repr, Inhabited

/-- One output frame, left then right (R125). -/
structure Frame where
  l : Half
  r : Half
  deriving DecidableEq, Repr, Inhabited

/-! ### What the environment does -/

/-- How wide one access of host code is: a byte, an s16 or a u32, each of them single-copy atomic (spec/20_memory.md R77). -/
inductive Width where
  | byte
  | half
  | word
  deriving DecidableEq, Repr

/-- One action of host code, in the foreground or inside a callback: a command packet, one access through either CPU view (the low bits of
`v` are what a narrow write stores), or one of the two cache-maintenance primitives (spec/20_memory.md R72, R77, R79). -/
inductive HostAct where
  | issue (p : Packet)
  | write (cached : Bool) (width : Width) (a v : Word)
  | read (cached : Bool) (width : Width) (a : Word)
  | writeback (a n : Word)
  | invalidate (a n : Word)
  deriving DecidableEq, Repr

/-- One run of a host callback (R360): what it does, in order, and the word it returns.  `none` is a callback that
never returns: the block is stuck in the calling command (U10).  A decoder's and a fill callback's result is not used by
the block (R199, R360). -/
structure CbRun where
  acts : List HostAct
  ret : Option Word
  deriving DecidableEq, Repr, Inhabited

/-- The agent that moves (R10); CALLBACKS act inside the command or the handler that calls them. -/
inductive Agent where
  /-- HOST: the foreground issues its next action, or the command in progress goes on. -/
  | host
  /-- IRQ: the AI interrupt is taken, if R343 allows it. -/
  | irq
  /-- AIDMA: the head transfer finishes draining (R354), or frames no transfer supplied are played (R356). -/
  | aiDma
  /-- COPROC: the engine's started job runs and ends (R265). -/
  | coproc
  /-- Another client of the coprocessor acquires it, if it is free (R357, U25). -/
  | clientStart
  /-- The other client's job ends, having written these bytes of memory that client owns. -/
  | clientDone (ws : List (Nat × Byte))
  deriving DecidableEq, Repr, Inhabited

/-! ### Parameters -/

/-- `PAN_LAW` (R227): the spec's linear default, or the open law. -/
inductive PanLaw where
  | linear
  | other
  deriving DecidableEq, Repr

/-- `AUTO_BUF_BYTES` (R217): the spec's default, or the open function. -/
inductive AutoBuf where
  | default
  | other
  deriving DecidableEq, Repr

/-- `MIX_BACKEND` (R262): the reference backend of R268, or the open one. -/
inductive Backend where
  | reference
  | other
  deriving DecidableEq, Repr

/-- The OPEN parameters of R12 that are arguments of the model; no step writes them.  `DOLBY_MATRIX` and `ALLOC` have no
default in the spec and are free values alone. -/
structure Params where
  /-- `VIDEO_CLOCK_HZ`. -/
  videoClockHz : Nat
  /-- `MEM_BYTES` (R71). -/
  memBytes : Nat
  panLaw : PanLaw
  autoBuf : AutoBuf
  backend : Backend
  deriving DecidableEq, Repr

/-- What a mix backend's output may depend on (R262 (e)): the bytes of `JOBBLK`, the sample bytes the frames of the
job may read, and `COPROC_HIDDEN`. -/
structure MixJob where
  block : List Byte
  samples : List (Nat × Byte)
  hidden : List Byte

namespace Config

/-! ### Implementation constants with no value in the spec -/

/-- `VIDEO_CLOCK_HZ` of the machine that `State.reset` describes (D9, U31). -/
opaque videoClockHz : Nat

/-- `MEM_BYTES` of the machine that `State.reset` describes (D3). -/
opaque memBytes : Nat

/-- An open `PAN_LAW` (U30): two q16 values in [0, 0x10000]. -/
opaque panLaw (vol pan : Word) : Fin 0x10001 × Fin 0x10001

/-- `DOLBY_MATRIX` (U30): two non-negative q16 values, a pure function of its five operands (R228). -/
opaque dolbyMatrix (fl fr c sl sr : Word) : Word × Word

/-- An open `AUTO_BUF_BYTES` before its rounding to a multiple of 8 (U32, R217). -/
opaque autoBufBytes (maxBits : Byte) (maxFreq rate : Word) : Nat

/-- An open mix backend: byte `j` of the `4 * nsamples` output bytes (U2). -/
opaque mixByte (job : MixJob) (j : Nat) : Byte

/-- An open mix backend: `COPROC_HIDDEN` after the job (R265). -/
opaque mixHidden (job : MixJob) : List Byte

/-- The number that stands for an owner in `FAULT.info`; R140 and R210 name the owner and give no number. -/
opaque ownerCode (o : Owner) : Word

/-- The number that stands for a context in `FAULT.info`; R269 and R297 name the context and give no number. -/
opaque ctxCode (c : Ctx) : Word

/-! ### Free values, drawn by the state's draw counter -/

/-- Which agent moves next (U17, U18, U25). -/
opaque freeAgent (draw : Nat) : Agent

/-- Which moves the other agents make at a boundary inside a command (U17, U18). -/
opaque freeMoves (draw : Nat) : List Agent

/-- What a callback does (R360). -/
opaque freeRun (draw : Nat) : CbRun

/-- The address the allocator proposes (U19). -/
opaque freeAlloc (draw : Nat) : Option Word

/-- Which of several due events with the same least tick fires (U1). -/
opaque freeTie (draw : Nat) : Nat

/-- A byte read without the `Invalidate` it needed (U6), or read by hardware outside memory. -/
opaque freeByte (draw addr : Nat) : Byte

/-- Which of several values a byte in a race reads as (U7, U8). -/
opaque freeChoice (draw addr : Nat) : Nat

/-- What an AI register other than `AI_STATUS` reads as (U14). -/
opaque freeIoRead (draw : Nat) : Word

/-- The frames played while no transfer supplies any (U5). -/
opaque freeFrames (draw : Nat) : List Frame

/-- A u32 result whose value the spec does not state because it does not fit. -/
opaque freeWord (draw : Nat) : Word

/-- What stands for a VideoSync frame count that does not fit its u32 result (R312, R314). -/
opaque freeCount (count : Nat) : Nat

/-- How long an agent whose move R391 requires may still wait before it moves. -/
opaque freeWait (draw : Nat) : Nat

/-- A u64 tick whose value the spec does not state because it does not fit (D56). -/
opaque freeTick (draw : Nat) : Dword

/-- `Step` at an actual rate of 0, where R252 divides by 0. -/
opaque freeStep (freq : Word) (b : Nat) : Word

end Config

end Sys2Proof
end

