-- ==== Sys2Proof/Machine/State.lean ====
section
/-!
DEFINITION. The state of the audio controller as plain data (spec/10_state.md R20 to R43), its faults and refusals, and
the state right after power-on reset (spec/70_reset_and_hazards.md R370).  Elements the spec leaves UNSPEC at power-on
hold 0, false or the empty list here (notes/assumptions/1.md).
-/

namespace Sys2Proof.Machine

/-- System or coprocessor memory: the listed cells, by rising address, none equal to what an unlisted address
reads as (Memory.lean). -/
abbrev Memory := List Host.Cell

/-! ### How a step can stop -/

/-- Why the machine stops.  None of these is raised by an instruction of the opcode table on its own account. -/
inductive Fault where
  /-- A step or a command of a block that is FAULTED: R331 says that no agent of the block takes a further step until
  power-on reset.  Raised by `step` and by every meaning when `FAULT ≠ NONE`.  Safe: the spec has no such step. -/
  | halted
  /-- Host code accesses an address outside [0, `MEM_BYTES`), which the spec says is not backed (R71) and where it
  gives only the block's own access an effect.  Raised by host actions alone.  Safe: the machine stops. -/
  | hostAccessOutsideMemory
  deriving DecidableEq, Repr

/-- Why an instruction has no meaning. -/
inductive Refusal where
  /-- The instruction is not modelled yet.  Raised by `exec` alone; no arm does.  Safe: the machine stops. -/
  | notModelled (mnemonic : String)
  deriving DecidableEq, Repr

/-! ### The fault record (R22, R330) -/

/-- The fault codes of R330, in the order of their numbers. -/
inductive FaultCode where
  | badArg
  | bufferTooSmall
  | dualLoop
  | badState
  | eventFull
  | eventNotFound
  | ownerConflict
  | posOverflow
  | limitExceeded
  | illegalCommand
  | nullPtrAlias
  | irqUnbalanced
  | reentrantPoll
  | badAddr
  | hwFifoOverrun
  | noMemory
  deriving DecidableEq, Repr

/-- `FAULT` when it is not `NONE` (R22). -/
structure FaultRecord where
  code : FaultCode
  op : Byte
  ch : Byte
  info : Word
  deriving DecidableEq, Repr

/-! ### The AI DMA device (R25) -/

/-- A queued transfer. -/
structure Xfer where
  addr : Word
  len : Word
  deriving DecidableEq, Repr

/-- The device registers; `FULL` and `BUSY` are views of `fifo` (R26). -/
structure AiDevice where
  fifo : List Xfer
  addr : Word
  dmaEn : Bool
  dacrate : BitVec 14
  bitrate : BitVec 4
  irq : Bool
  deriving DecidableEq, Repr

/-! ### The AI output driver (R27) -/

/-- `DRV_STATE[k]`. -/
inductive RegionState where
  | free
  | full
  | queued
  deriving DecidableEq, Repr, Inhabited

/-- The driver's state, and `closing`, the model's own: `AI_CLOSE` has begun, and nothing more is committed (R158). -/
structure Driver where
  on : Bool
  freq : Word
  n : Word
  q : Word
  region : Table Word
  st : Table RegionState
  wr : Word
  rd : Word
  inflight : List Nat
  fillCb : Word
  savedCb : Word
  paused : Bool
  begun : Bool
  pushOff : Word
  closing : Bool
  deriving DecidableEq, Repr

/-! ### Sample-buffer instances (R29) -/

structure SampleBuf where
  on : Bool
  base : Word
  bytes : Word
  bps : BitVec 2
  wpos : Word
  widx : Word
  ridx : Word
  decFn : Word
  decCtx : Word
  deriving DecidableEq, Repr, Inhabited

/-! ### The mixer engine (R32 to R39) -/

/-- R32, and `subRun`: set while the sub-run loop of `MX_POLL` invokes the internal `MX_EXEC` (R104, R273). -/
structure Mixer where
  on : Bool
  nch : Byte
  rate : Word
  master : Half
  ticks : Dword
  bufMem : Word
  inPoll : Bool
  subRun : Bool
  deriving DecidableEq, Repr

/-- The engine's output ring (R33). -/
structure Ring where
  base : Word
  nf : Word
  w : Word
  pending : Option Xfer
  inflight : List Xfer
  deriving DecidableEq, Repr

/-- A channel descriptor, six u32 fields (R34, R120). -/
structure Desc where
  pos : Word
  step : Word
  len : Word
  loopLen : Word
  ptr : Word
  flags : Word
  deriving DecidableEq, Repr, Inhabited

/-- A channel volume, Q1.15 (R35). -/
structure Volume where
  l : Half
  r : Half
  deriving DecidableEq, Repr, Inhabited

/-- Channel limits (R36). -/
structure Limits where
  maxBits : Byte
  maxFreq : Word
  maxBuf : Word
  deriving DecidableEq, Repr, Inhabited

/-- The bound waveform and its latched fields (R37); `id` is `WAVE[c]`. -/
structure Wave where
  id : Word
  bits : Byte
  freq : Word
  len : Word
  loop : Word
  read : Word
  ctx : Word
  deriving DecidableEq, Repr, Inhabited

/-- A mixer channel. -/
structure Channel where
  desc : Desc
  vol : Volume
  limits : Limits
  wave : Wave
  deriving DecidableEq, Repr, Inhabited

/-- The coprocessor (R39, R73): `JOB_BUSY`, whether another client holds it (R357), its memory and `COPROC_HIDDEN`. -/
structure Coproc where
  jobBusy : Bool
  client : Bool
  mem : Memory
  hidden : List Byte
  deriving DecidableEq, Repr

/-! ### Events and VideoSync (R40, R41) -/

/-- An event record; `id` is the identity by which R295 tells records apart. -/
structure Event where
  id : Nat
  tick : Dword
  cb : Word
  ctx : Word
  deriving DecidableEq, Repr

/-- VideoSync; the two rationals are exact (R311). -/
structure VideoSync where
  on : Bool
  fps : Word
  rate : Word
  spf : Rat
  counter : Rat
  deriving DecidableEq, Repr

/-! ### The CPU cache's view of memory (R42 (a), R80) -/

/-- Bytes written through the cached view with no `Writeback` since, by rising address; the ranges [lo, hi) that hardware wrote with no
`Invalidate` since; and those of them that the CPU has not written through the cached view since either, where memory is newer than a
dirty byte. -/
structure Cache where
  dirty : Memory
  stale : List (Nat × Nat)
  newer : List (Nat × Nat)
  deriving DecidableEq, Repr

/-! ### Observable traces -/

/-- One item of `OUTPUT`, the speaker trace (R354, R356). -/
inductive OutItem where
  | frame (f : Frame)
  | underrun
  deriving DecidableEq, Repr

/-- One call of a host callback: its handle and its arguments (R15, R360). -/
structure Call where
  fn : Word
  args : List Nat
  deriving DecidableEq, Repr

/-! ### The command port -/

/-- `OP` and `CH` of the command now executing; 0 and 0 between commands and in an interrupt handler (R330). -/
structure CmdId where
  op : Byte
  ch : Byte
  deriving DecidableEq, Repr

/-- A command that waits (R380), with what it has done so far. -/
inductive Pending where
  /-- `AI_WRITE_BEGIN` waits for a free region (R151). -/
  | writeBegin
  /-- `AI_PUSH` has accepted `acc` frames and goes on (R153). -/
  | push (blocking : Bool) (src n acc : Nat)
  /-- `AI_CLOSE` waits for the device to drain (R158). -/
  | aiClose
  /-- `MX_CLOSE` waits for the device to drain (R212). -/
  | mxClose
  /-- `MX_POLL n` waits for its ring range (R271). -/
  | pollPlace (n : Nat)
  /-- `MX_POLL n` at ring offset `off` has mixed `done` frames and goes on (R273). -/
  | pollRun (off n done : Nat)
  /-- The same, with the sub-run of `m` frames waiting for the coprocessor (R263). -/
  | pollAcquire (off n done m : Nat)
  /-- The same, with the sub-run's job started and not yet ended (R264). -/
  | pollJob (off n done m : Nat)
  /-- `MX_EXEC out, m` waits for the coprocessor (R263). -/
  | execAcquire (out m : Nat)
  /-- `MX_EXEC` waits for its job to end (R264). -/
  | execJob
  /-- A callback has not returned and never will: the block is stuck in the calling command (R360, R389, U10). -/
  | callback
  deriving DecidableEq, Repr

/-! ### The environment's choices (spec/93_implementation_defined.md) -/

/-- For each agent that R391 does not let wait for ever, how many more turns may pass it by while it is able to move: the AIDMA agent (a),
the coprocessor's job (b), the IRQ agent (c), and the foreground with a command in progress (R380); and how many more times another client
may take the coprocessor while the engine waits for it, which R391 does not let wait for ever either. -/
structure Patience where
  drain : Nat
  job : Nat
  irq : Nat
  host : Nat
  client : Nat
  deriving DecidableEq, Repr

/-- Choices written down in advance, each consumed from the front.  Where a list has run out, `free = true` draws an
opaque free value and `free = false` lets the environment do nothing more; a wait is then a free value in both cases. -/
structure Oracle where
  sched : List Agent
  moves : List (List Agent)
  runs : List CbRun
  allocs : List (Option Word)
  ties : List Nat
  waits : List Nat
  patience : Patience
  free : Bool
  draws : Nat
  deriving DecidableEq, Repr

/-! ### The state -/

/-- Everything the spec gives the machine, and the model's own fields (`nextEvent`, `race`, `allocs`, `calls`, `cmd`,
`pending`, `host`, `lastRead`, `oracle`, `params`; see INVENTORY.md). -/
structure State where
  owner : Owner
  fault : Option FaultRecord
  irqDepth : Word
  ctx : Ctx
  ai : AiDevice
  drv : Driver
  sbs : Table SampleBuf
  mx : Mixer
  ring : Ring
  chans : Table Channel
  coproc : Coproc
  events : List Event
  nextEvent : Nat
  vs : VideoSync
  mem : Memory
  cache : Cache
  race : List Host.Cell
  allocs : List (Nat × Nat)
  output : List OutItem
  calls : List Call
  cmd : CmdId
  res : List Word
  pending : Option Pending
  host : List HostAct
  lastRead : Word
  oracle : Oracle
  params : Params
  deriving DecidableEq, Repr

/-! ### Power-on reset (R43, R370) -/

/-- A sample buffer after power-on: off, the rest UNSPEC. -/
def SampleBuf.reset : SampleBuf := ⟨false, 0, 0, 0, 0, 0, 0, 0, 0⟩

/-- A channel after power-on: UNSPEC. -/
def Channel.reset : Channel := ⟨⟨0, 0, 0, 0, 0, 0⟩, ⟨0, 0⟩, ⟨0, 0, 0⟩, ⟨0, 0, 0, 0, 0, 0, 0⟩⟩

/-- The driver after power-on: off, the rest UNSPEC. -/
def Driver.reset : Driver :=
  ⟨false, 0, 0, 0, Vector.replicate tableSize 0, Vector.replicate tableSize .free, 0, 0, [], 0, 0, false, false, 0, false⟩

/-- The parameters of the machine that reset describes: every OPEN one is a free constant. -/
def Params.ofConfig : Params := ⟨Config.videoClockHz, Config.memBytes, .other, .other, .other⟩

/-- How long the agents may wait after reset: any time. -/
def Patience.ofConfig : Patience :=
  ⟨Config.freeWait 0, Config.freeWait 1, Config.freeWait 2, Config.freeWait 3, Config.freeWait 4⟩

/-- The state right after power-on reset: the elements R43 lists at the values it gives, every UNSPEC element at the value
notes/assumptions/1.md names, nothing listed in memory, no host action, and every choice of the environment free. -/
def State.reset : State where
  owner := .none
  fault := none
  irqDepth := 0
  ctx := .host
  ai := ⟨[], 0, false, 0, 0, false⟩
  drv := Driver.reset
  sbs := Vector.replicate tableSize SampleBuf.reset
  mx := ⟨false, 0, 0, 0, 0, 0, false, false⟩
  ring := ⟨0, 0, 0, none, []⟩
  chans := Vector.replicate tableSize Channel.reset
  coproc := ⟨false, false, [], []⟩
  events := []
  nextEvent := 0
  vs := ⟨false, 0, 0, 0, 0⟩
  mem := []
  cache := ⟨[], [], []⟩
  race := []
  allocs := []
  output := []
  calls := []
  cmd := ⟨0, 0⟩
  res := []
  pending := none
  host := []
  lastRead := 0
  oracle := ⟨[], [], [], [], [], [], Patience.ofConfig, true, 5⟩
  params := Params.ofConfig

end Sys2Proof.Machine
end

