-- ==== Sys2Proof/Machine/Memory.lean ====
section
/-!
DEFINITION. Memory as a canonical list of cells, big-endian values (spec/20_memory.md R70), and what each agent sees of
system memory: the CPU's cached and uncached views, the AI DMA device and the coprocessor (R71, R72, R77 to R84).
-/

namespace Sys2Proof.Machine

/-! ### The list -/

/-- What an address that nothing has written reads as (notes/assumptions/2.md; R370 leaves memory undrawn). -/
def Memory.unlisted : Byte := 0

/-- One byte. -/
def Memory.read : Memory → Nat → Byte
  | [], _ => Memory.unlisted
  | (b, v) :: m, a => if b = a then v else Memory.read m a

/-- The cells below address `a`. -/
def Memory.below (m : Memory) (a : Nat) : Memory := m.filter fun c => decide (c.1 < a)

/-- The cells at or above address `a`. -/
def Memory.above (m : Memory) (a : Nat) : Memory := m.filter fun c => decide (a ≤ c.1)

/-- The cells that bytes `bs` at `a, a+1, …` need. -/
def Memory.cells (a : Nat) : List Byte → Memory
  | [] => []
  | b :: bs => if b = Memory.unlisted then Memory.cells (a + 1) bs else (a, b) :: Memory.cells (a + 1) bs

/-- Writes bytes `bs` at `a, a+1, …`. -/
def Memory.put (m : Memory) (a : Nat) (bs : List Byte) : Memory :=
  m.below a ++ Memory.cells a bs ++ m.above (a + bs.length)

/-- Makes [a, a+n) read as memory nothing has written, which is 0: the n-byte zero write. -/
def Memory.clear (m : Memory) (a n : Nat) : Memory := m.below a ++ m.above (a + n)

/-- `n` bytes in address order. -/
def Memory.bytes (m : Memory) (a : Nat) : Nat → List Byte
  | 0 => []
  | n + 1 => m.read a :: Memory.bytes m (a + 1) n

/-- The canonical form: addresses strictly rising, no entry equal to what an unlisted address reads as. -/
abbrev Memory.wf (m : Memory) : Prop :=
  m.Pairwise (fun x y => x.1 < y.1) ∧ ∀ c ∈ m, c.2 ≠ Memory.unlisted

/-! ### Big-endian values (R70) -/

/-- The four bytes of a u32, most significant first. -/
def be32 (w : Word) : List Byte :=
  [w.extractLsb' 24 8, w.extractLsb' 16 8, w.extractLsb' 8 8, w.extractLsb' 0 8]

/-- The two bytes of a u16, most significant first. -/
def be16 (h : Half) : List Byte := [h.extractLsb' 8 8, h.extractLsb' 0 8]

/-- The unsigned integer whose big-endian form is the list. -/
def beNat (bs : List Byte) : Nat := bs.foldl (fun acc b => acc * 256 + b.toNat) 0

/-- The u32 whose big-endian form is the list. -/
def beWord (bs : List Byte) : Word := w32 (beNat bs)

/-! ### What each agent sees -/

/-- How many bytes are backed by RAM: `MEM_BYTES`, inside the 2^32 addresses (R71). -/
def State.memBytes (s : State) : Nat := min s.params.memBytes (2 ^ 32)

/-- Address `a` lies in one of the ranges. -/
def inRanges (rs : List (Nat × Nat)) (a : Nat) : Bool := rs.any fun r => decide (r.1 ≤ a ∧ a < r.2)

/-- The value the CPU wrote through the cached view and has not written back, if any. -/
def State.dirtyByte (s : State) (a : Nat) : Option Byte := (s.cache.dirty.find? fun c => c.1 == a).map Prod.snd

/-- One of several values; the draw decides (R80, R83), and there is nothing to draw where only one is left. -/
def pickByte (draw a : Nat) (b : Byte) : List Byte → Byte
  | [] => b
  | bs => (b :: bs).getD (Config.freeChoice draw a % (bs.length + 1)) b

/-- What the CPU reads through the uncached view, and what every access of the block reads (R72): the newest value the CPU wrote through
either view, since its accesses are sequentially consistent (R83 (a)), or what hardware wrote after that; it needs no maintenance (R80). -/
def State.cpuByte (s : State) (a : Nat) : Byte :=
  if inRanges s.cache.newer a then s.mem.read a else (s.dirtyByte a).getD (s.mem.read a)

/-- What the CPU reads through the cached view: any value where hardware wrote with no `Invalidate` since (R80). -/
def State.cachedByte (s : State) (a : Nat) : Byte :=
  if inRanges s.cache.stale a then Config.freeByte s.oracle.draws a else s.cpuByte a

/-- The values a byte had since a transfer that covers it was queued and before writes to it (R83 (b)). -/
def State.raceBytes (s : State) (a : Nat) : List Byte :=
  (s.race.filter fun c => c.1 == a).map Prod.snd

/-- What the coprocessor reads: memory, or the value the CPU wrote cached and has not written back (R80); outside memory there is nothing to
read. -/
def State.coprocByte (s : State) (a : Nat) : Byte :=
  if a < s.memBytes then pickByte s.oracle.draws a (s.mem.read a) (s.dirtyByte a).toList else Config.freeByte s.oracle.draws a

/-- What the AI DMA device reads: the same, or a value the byte had since the transfer was queued (R80, R83 (b), R354). -/
def State.dmaByte (s : State) (a : Nat) : Byte :=
  if a < s.memBytes then
    pickByte s.oracle.draws a (s.mem.read a) ((s.dirtyByte a).toList ++ s.raceBytes a)
  else Config.freeByte s.oracle.draws a

/-- `n` bytes at `a, a+1, …` as `f` sees them. -/
def bytesBy (f : Nat → Byte) (a n : Nat) : List Byte := (List.range n).map fun j => f (a + j)

/-- A u32 of the CPU's own view. -/
def State.cpuWord (s : State) (a : Nat) : Word := beWord (bytesBy s.cpuByte a 4)

/-! ### What a write does to memory and to the views -/

/-- Address `a` lies in a queued transfer. -/
def State.inFlight (s : State) (a : Nat) : Bool :=
  s.ai.fifo.any fun x => decide (x.addr.toNat ≤ a ∧ a < x.addr.toNat + x.len.toNat)

/-- The dirty bytes of [a, a+n) that a queued transfer covers: the device may have read them so (R80, R83 (b)). -/
def State.racedDirty (s : State) (a n : Nat) : List Host.Cell :=
  s.cache.dirty.filter fun c => decide (a ≤ c.1 ∧ c.1 < a + n) && s.inFlight c.1

/-- The bytes of [a, a+n) that a queued transfer covers, as they are now: what the device may still read there after a
write (R83 (b)). -/
def State.raced (s : State) (a n : Nat) : List Host.Cell :=
  match s.ai.fifo with
  | [] => []
  | _ => ((((List.range n).map (a + ·)).filter s.inFlight).map fun x => (x, s.mem.read x)) ++ s.racedDirty a n

/-- The dirty bytes outside [a, a+n). -/
def dirtyOutside (d : List Host.Cell) (a n : Nat) : List Host.Cell :=
  d.filter fun c => decide (c.1 < a ∨ a + n ≤ c.1)

/-- The part of the ranges outside [lo, hi). -/
def rangesOutside (rs : List (Nat × Nat)) (lo hi : Nat) : List (Nat × Nat) :=
  (rs.flatMap fun r => [(r.1, min r.2 lo), (max r.1 hi, r.2)]).filter fun r => decide (r.1 < r.2)

/-- The cells of bytes at `a, a+1, …`, zeros among them. -/
def cellsOf (a : Nat) : List Byte → List Host.Cell
  | [] => []
  | b :: bs => (a, b) :: cellsOf (a + 1) bs

/-- An uncached CPU write (R72). -/
def State.cpuPut (s : State) (a : Nat) (bs : List Byte) : State :=
  { s with
    mem := Memory.put s.mem a bs
    cache := { s.cache with dirty := dirtyOutside s.cache.dirty a bs.length }
    race := s.race ++ s.raced a bs.length }

/-- An uncached CPU write of `n` zero bytes. -/
def State.cpuClear (s : State) (a n : Nat) : State :=
  { s with
    mem := Memory.clear s.mem a n
    cache := { s.cache with dirty := dirtyOutside s.cache.dirty a n }
    race := s.race ++ s.raced a n }

/-- A CPU write through the cached view: memory itself is not written (R79). -/
def State.cachedPut (s : State) (a : Nat) (bs : List Byte) : State :=
  { s with
    cache := { s.cache with
      dirty := Memory.below s.cache.dirty a ++ cellsOf a bs ++ Memory.above s.cache.dirty (a + bs.length)
      newer := rangesOutside s.cache.newer a (a + bs.length) }
    race := s.race ++ s.racedDirty a bs.length }

/-- `Writeback(addr, n)`: the dirty bytes of the range reach memory (R79). -/
def State.writeback (s : State) (a n : Nat) : State :=
  (s.cache.dirty.filter fun c => decide (a ≤ c.1 ∧ c.1 < a + n)).foldl (fun t c => t.cpuPut c.1 [c.2]) s

/-- `Invalidate(addr, n)`: the cached view of the range is dropped, dirty data with it (R79, R81).  It acts on the bytes of the range and on
no byte beside it, and so does `Writeback`: the model's choice (notes/assumptions/15.md). -/
def State.invalidate (s : State) (a n : Nat) : State :=
  { s with
    cache := {
      dirty := dirtyOutside s.cache.dirty a n
      stale := rangesOutside s.cache.stale a (a + n)
      newer := rangesOutside s.cache.newer a (a + n) }
    race := s.race ++ s.racedDirty a n }

/-- A coprocessor write: it goes to memory, and the CPU's cached view of it is stale (R80).  DESIGN CHOICE (notes/assumptions/40.md): the spec
does not say what becomes of dirty data that the CPU holds of such a byte; the model keeps it, so that hardware may still read it, and a
later `Writeback` stores it over the coprocessor's byte. -/
def State.hwPut (s : State) (a : Nat) (bs : List Byte) : State :=
  { s with
    mem := Memory.put s.mem a bs
    cache := { s.cache with
      stale := rangesOutside s.cache.stale a (a + bs.length) ++ [(a, a + bs.length)]
      newer := rangesOutside s.cache.newer a (a + bs.length) ++ [(a, a + bs.length)] }
    race := s.race ++ s.raced a bs.length }

/-! ### Accesses of host code (R77) -/

/-- The number of bytes an access touches. -/
def accessBytes : Width → Nat
  | .byte => 1
  | .half => 2
  | .word => 4

/-- The bytes that an access of this width stores: the low ones of the value, most significant first (R70). -/
def storedBytes (w : Width) (v : Word) : List Byte := (be32 v).drop (4 - accessBytes w)

end Sys2Proof.Machine
end

