-- ==== Sys2Proof/Machine/Ops.lean ====
section
/-!
DEFINITION. The named operations every meaning is made of: raising Fatal, the block's one exception (spec/60_exceptions.md
R331); the critical section and the interrupt's entry and return (R340, R344); a command's start and end; the environment's
draws; the block's accesses to memory; the allocator; and the synchronous call of a host callback (R360, R361).
-/

namespace Sys2Proof.Machine

/-- Why a computation ends before its last statement. -/
inductive Stop where
  /-- `raise Fatal`: the state it ends in is FAULTED. -/
  | fatal
  /-- A callback does not return: the block is stuck there (R360, U10). -/
  | stuck
  /-- The machine stops with this fault. -/
  | fault (f : Fault)
  deriving DecidableEq, Repr

/-- A computation of the block: it goes on with a value and a state, or it stops in a state. -/
abbrev Act := EStateM Stop State

/-- What a command's pseudocode ends with: its response words, or a spin-wait that goes on (R380). -/
inductive Reply where
  | done (res : List Word)
  | wait (p : Pending)
  deriving DecidableEq, Repr

/-! ### Taking the exception (R330, R331) -/

/-- The numeric fault codes of R330. -/
def FaultCode.number : FaultCode → Byte
  | .badArg => 0x01
  | .bufferTooSmall => 0x02
  | .dualLoop => 0x03
  | .badState => 0x04
  | .eventFull => 0x05
  | .eventNotFound => 0x06
  | .ownerConflict => 0x07
  | .posOverflow => 0x08
  | .limitExceeded => 0x09
  | .illegalCommand => 0x0A
  | .nullPtrAlias => 0x0B
  | .irqUnbalanced => 0x0C
  | .reentrantPoll => 0x0D
  | .badAddr => 0x0E
  | .hwFifoOverrun => 0x0F
  | .noMemory => 0x10

/-- The FAULTED state: `FAULT` is written with the executing command's `OP` and `CH`, the command is abandoned and returns
no response; every other effect made so far stays in place (R331). -/
def State.enterFaulted (s : State) (code : FaultCode) (info : Word) : State :=
  { s with fault := some ⟨code, s.cmd.op, s.cmd.ch, info⟩, res := [], pending := none }

/-- `raise Fatal(code, info)`. -/
def raise {α : Type} (code : FaultCode) (info : Word) : Act α := fun s =>
  .error .fatal (s.enterFaulted code info)

/-- `if not p: raise Fatal(code, info)`. -/
def ensure (p : Prop) [Decidable p] (code : FaultCode) (info : Word) : Act Unit :=
  if p then pure () else raise code info

/-- `raise Fatal(BAD_STATE, OP)`. -/
def raiseBadState {α : Type} : Act α := fun s => raise .badState (s.cmd.op.setWidth 32) s

/-- `if not p: raise Fatal(BAD_STATE, OP)`. -/
def ensureState (p : Prop) [Decidable p] : Act Unit := if p then pure () else raiseBadState

/-- The computation goes no further, and the block is stuck in the command that runs it (R360, R389). -/
def stick {α : Type} : Act α := fun s => .error .stuck s

/-- The machine stops with a fault of the model. -/
def halt {α : Type} (f : Fault) : Act α := fun s => .error (.fault f) s

/-! ### Commands -/

/-- The start of a command: its `OP` and `CH` are the executing ones. -/
def State.begin (s : State) (i : Instr) : State :=
  { s with cmd := ⟨i.opcode, i.chField⟩, res := [], pending := none }

/-- The end of a command: its response words stand, and no command executes. -/
def State.finish (s : State) (res : List Word) : State :=
  { s with cmd := ⟨0, 0⟩, res := res, pending := none }

/-- A command that waits keeps its `OP` and `CH` (R380). -/
def State.waiting (s : State) (p : Pending) : State := { s with pending := some p }

/-- The outcome of a step that ran a computation.  Raising Fatal is a next state: the FAULTED one; and so is getting stuck, in the state the
callback that does not return has reached (R380). -/
def settle : EStateM.Result Stop State Reply → Host.Outcome State Fault Refusal
  | .ok (.done res) s => .next (s.finish res)
  | .ok (.wait p) s => .next (s.waiting p)
  | .error .fatal s => .next s
  | .error .stuck s => .next (s.waiting .callback)
  | .error (.fault f) _ => .fault f

/-- Runs a command.  A FAULTED block runs none (R331). -/
def command (i : Instr) (body : Act Reply) (s : State) : Host.Outcome State Fault Refusal :=
  if s.fault.isSome then .fault .halted else settle (body (s.begin i))

/-- A command that never waits. -/
def reply (body : Act (List Word)) : Act Reply := do
  let res ← body
  pure (.done res)

/-- A command with no response word. -/
def replyNone (body : Act Unit) : Act Reply := do
  body
  pure (.done [])

/-! ### Critical sections and the interrupt's entry and return (R340, R344) -/

/-- `IrqDisable()`. -/
def disableIrq : Act Unit := do
  let s ← get
  ensure (s.irqDepth ≠ 0xFFFFFFFF) .irqUnbalanced 0
  modify fun s => { s with irqDepth := s.irqDepth + 1 }

/-- `IrqEnable()`. -/
def enableIrq : Act Unit := do
  let s ← get
  ensure (s.irqDepth ≠ 0) .irqUnbalanced 0
  modify fun s => { s with irqDepth := s.irqDepth - 1 }

/-- `critical { body }`. -/
def critical (body : Act Unit) : Act Unit := do
  disableIrq
  body
  enableIrq

/-- Entry of the interrupt: one level deeper, in context IRQ, with no command executing (R148, R276, R330, R344). -/
def State.irqEntry (s : State) : State :=
  { s with irqDepth := s.irqDepth + 1, ctx := .irq, cmd := ⟨0, 0⟩ }

/-- Return from the interrupt: the preempted context resumes (R344). -/
def State.irqReturn (s : State) (ctx : Ctx) (cmd : CmdId) : State :=
  { s with irqDepth := s.irqDepth - 1, ctx := ctx, cmd := cmd }

/-- Runs a handler as the interrupt. -/
def interrupt (handler : Act Unit) : Act Unit := do
  let s ← get
  set s.irqEntry
  handler
  modify fun t => t.irqReturn s.ctx s.cmd

/-! ### The environment's draws -/

/-- One free value has been drawn. -/
def State.bump (s : State) : State := { s with oracle := { s.oracle with draws := s.oracle.draws + 1 } }

/-- The moves the other agents make at the next boundary inside a command; `idle` are those of an environment that does nothing of its
own. -/
def drawMovesOr (idle : List Agent) : Act (List Agent) := fun s =>
  match s.oracle.moves with
  | m :: rest => .ok m { s with oracle := { s.oracle with moves := rest } }
  | [] => if s.oracle.free then .ok (Config.freeMoves s.oracle.draws) s.bump else .ok idle s

/-- The moves at a boundary at which nothing has to happen. -/
def drawMoves : Act (List Agent) := drawMovesOr []

/-- What the next callback does. -/
def drawRun : Act CbRun := fun s =>
  match s.oracle.runs with
  | r :: rest => .ok r { s with oracle := { s.oracle with runs := rest } }
  | [] => if s.oracle.free then .ok (Config.freeRun s.oracle.draws) s.bump else .ok ⟨[], some 0⟩ s

/-- What the allocator proposes. -/
def drawAlloc : Act (Option Word) := fun s =>
  match s.oracle.allocs with
  | a :: rest => .ok a { s with oracle := { s.oracle with allocs := rest } }
  | [] => if s.oracle.free then .ok (Config.freeAlloc s.oracle.draws) s.bump else .ok none s

/-- Which of several equals is taken. -/
def drawTie : Act Nat := fun s =>
  match s.oracle.ties with
  | t :: rest => .ok t { s with oracle := { s.oracle with ties := rest } }
  | [] => if s.oracle.free then .ok (Config.freeTie s.oracle.draws) s.bump else .ok 0 s

/-- A result stored into a u32 result word: a value that does not fit is one the spec does not state. -/
def resultWord (v : Nat) : Act Word := fun s =>
  if v < 2 ^ 32 then .ok (w32 v) s else .ok (Config.freeWord s.oracle.draws) s.bump

/-- A tick `n` later (D56: u64, no wrap): a sum that does not fit is one the spec does not state. -/
def laterTick (t : Dword) (n : Nat) : Act Dword := fun s =>
  if t.toNat + n < 2 ^ 64 then .ok (BitVec.ofNat 64 (t.toNat + n)) s
  else .ok (Config.freeTick s.oracle.draws) s.bump

/-! ### Loops -/

/-- How many passes of a long loop one step runs; where a step ends is not observable (R380). -/
def stepPasses : Nat := 256

/-- `for i in start .. start+n-1: f i`, in ascending order. -/
def forRange (start : Nat) (f : Nat → Act Unit) : Nat → Act Unit
  | 0 => pure ()
  | n + 1 => do
    f start
    forRange (start + 1) f n

/-- `for x in xs: f x`, in order. -/
def forList {α : Type} (f : α → Act Unit) : List α → Act Unit
  | [] => pure ()
  | x :: xs => do
    f x
    forList f xs

/-! ### The block's accesses to system memory (R15, R71, R72) -/

/-- The information word of `BAD_ADDR`.  An address past the 2^32 of R71 does not fit it, and no rule states what stands there: it is free
(R16; DESIGN CHOICE, notes/assumptions/28.md). -/
def State.addrInfo (s : State) (a : Nat) : Word := if a < 2 ^ 32 then w32 a else Config.freeWord s.oracle.draws

/-- `MemWrite` of consecutive bytes through the uncached view.  The first byte outside memory faults (R71), after the bytes
before it have been written (R331). -/
def blockWrite (a : Nat) (bs : List Byte) : Act Unit := fun s =>
  if a + bs.length ≤ s.memBytes then .ok () (s.cpuPut a bs)
  else raise .badAddr (s.addrInfo (max a s.memBytes)) (s.cpuPut a (bs.take (s.memBytes - a)))

/-- `MemWrite` of `n` consecutive zero bytes. -/
def blockZero (a n : Nat) : Act Unit := fun s =>
  if a + n ≤ s.memBytes then .ok () (s.cpuClear a n)
  else raise .badAddr (s.addrInfo (max a s.memBytes)) (s.cpuClear a (s.memBytes - a))

/-- `MemWrite(dst, 1, MemRead(src, 1))`, through the CPU's uncached view (R72, R78, R153). -/
def copyByte (src dst : Nat) : Act Unit := do
  let s ← get
  ensure (src < s.memBytes) .badAddr (s.addrInfo src)
  blockWrite dst [s.cpuByte src]

/-! ### The allocator (R89) -/

/-- What R89 requires of an allocated region. -/
abbrev State.mayAlloc (s : State) (a : Word) (n : Nat) : Prop :=
  a ≠ 0 ∧ a.toNat % 8 = 0 ∧ a.toNat + n ≤ s.memBytes ∧
    ∀ r ∈ s.allocs, a.toNat + n ≤ r.1 ∨ r.1 + r.2 ≤ a.toNat

/-- `ALLOC(n)`; `none` is FAIL.  The environment proposes an address, and a proposal that R89 does not allow counts as FAIL,
so that every allowed answer and no other can be given. -/
def alloc (n : Nat) : Act (Option Word) := do
  let proposal ← drawAlloc
  match proposal with
  | none => pure none
  | some a => fun s =>
    if s.mayAlloc a n then .ok (some a) { s with allocs := (a.toNat, n) :: s.allocs } else .ok none s

/-- The region at `a` returns to the allocator (R89). -/
def freeRegion (a : Word) : Act Unit :=
  modify fun s => { s with allocs := s.allocs.eraseP fun r => r.1 == a.toNat }

/-- Memory the block owns: allocated regions and the memory of live sample buffers (R87). -/
def State.blockOwns (s : State) (a : Nat) : Bool :=
  (s.allocs.any fun r => decide (r.1 ≤ a ∧ a < r.1 + r.2)) ||
    s.sbs.toList.any fun b => b.on && decide (b.base.toNat ≤ a ∧ a < b.base.toNat + b.bytes.toNat)

/-! ### Tables -/

/-- Entry `k`; the default outside the table. -/
def Table.at {α : Type} [Inhabited α] (t : Table α) (k : Nat) : α := if h : k < tableSize then t[k] else default

/-- Entry `k` replaced. -/
def Table.put {α : Type} (t : Table α) (k : Nat) (x : α) : Table α := t.setIfInBounds k x

/-- `for k in 0 .. n-1: t[k] <- f(k, t[k])`. -/
def Table.mapBelow {α : Type} (t : Table α) (n : Nat) (f : Nat → α → α) : Table α :=
  Vector.ofFn fun k => if k.val < n then f k.val t[k] else t[k]

/-- Sample-buffer instance `i`. -/
def State.sb (s : State) (i : Nat) : SampleBuf := Table.at s.sbs i

/-- Updates sample-buffer instance `i`. -/
def State.modSb (s : State) (i : Nat) (f : SampleBuf → SampleBuf) : State :=
  { s with sbs := Table.put s.sbs i (f (s.sb i)) }

/-- Mixer channel `c`. -/
def State.chan (s : State) (c : Nat) : Channel := Table.at s.chans c

/-- Updates mixer channel `c`. -/
def State.modChan (s : State) (c : Nat) (f : Channel → Channel) : State :=
  { s with chans := Table.put s.chans c (f (s.chan c)) }

/-- Updates the descriptor of channel `c`. -/
def State.modDesc (s : State) (c : Nat) (f : Desc → Desc) : State :=
  s.modChan c fun ch => { ch with desc := f ch.desc }

/-- `DESC[c]`. -/
def State.desc (s : State) (c : Nat) : Desc := (s.chan c).desc

/-! ### Host code -/

/-- One memory action of host code, single-copy atomic whatever its width (R77, R79, R80).  An access outside memory stops the machine: the
spec gives it no effect. -/
def hostAccess : HostAct → Act Unit
  | .issue _ => pure ()
  | .write cached w a v => fun s =>
    if a.toNat + accessBytes w ≤ s.memBytes then
      .ok () (if cached then s.cachedPut a.toNat (storedBytes w v) else s.cpuPut a.toNat (storedBytes w v))
    else halt .hostAccessOutsideMemory s
  | .read cached w a => fun s =>
    if a.toNat + accessBytes w ≤ s.memBytes then
      .ok () ({ s with lastRead := beWord (bytesBy (if cached then s.cachedByte else s.cpuByte) a.toNat (accessBytes w)) }).bump
    else halt .hostAccessOutsideMemory s
  | .writeback a n => modify fun s => s.writeback a.toNat n.toNat
  | .invalidate a n => modify fun s => s.invalidate a.toNat n.toNat

/-- The actions of one callback: its packets go to `issue`, and the other agents may move after each action. -/
def runActs (issue : Packet → Act Unit) (boundary : Act Unit) : List HostAct → Act Unit
  | [] => pure ()
  | a :: acts => do
    match a with
    | .issue p => issue p
    | _ => hostAccess a
    boundary
    runActs issue boundary acts

/-- `saved <- CTX; CTX <- ctx; call fn(args) -> r; CTX <- saved` (R146, R200, R231, R293), with the balance check of R361.
A callback that does not return leaves all it has done so far, and its context, in place (R360, R389, U10). -/
def callHost (issue : Packet → Act Unit) (boundary : Act Unit) (ctx : Ctx) (fn : Word) (args : List Nat) : Act Word := do
  let s ← get
  set { s with ctx := ctx, calls := s.calls ++ [Call.mk fn args] }
  let run ← drawRun
  runActs issue boundary run.acts
  match run.ret with
  | none => stick
  | some r => do
    let t ← get
    ensure (t.irqDepth = s.irqDepth) .irqUnbalanced t.irqDepth
    modify fun t => { t with ctx := s.ctx }
    pure r

/-- A command that a callback issues: it executes under its own `OP` and `CH`, and its response goes to the callback. -/
def subCommand (i : Instr) (body : Act (List Word)) : Act Unit := do
  let s ← get
  set { s with cmd := ⟨i.opcode, i.chField⟩ }
  let r ← body
  modify fun t => { t with cmd := s.cmd, res := r }

end Sys2Proof.Machine
end

