-- ==== Sys2Proof/Machine/Operands.lean ====
section
/-!
DEFINITION. Operand forms and the arithmetic of the rules on unbounded naturals (spec/00_scope.md R13, R14, R16): roundings, volume
fractions (R112), the device's rate and divisor (R141), the quantum and ring size (R12), steps and strategies (R252, R280),
positions inside a loop (R224, R225), and VideoSync's frame counts (R312).
-/

namespace Sys2Proof.Machine

/-! ### Roundings (R13) -/

/-- `roundUp8(x) = ((x + 7) >> 3) << 3`. -/
def roundUp8 (x : Nat) : Nat := (x + 7) / 8 * 8

/-- `roundDown8(x) = (x >> 3) << 3`. -/
def roundDown8 (x : Nat) : Nat := x / 8 * 8

/-- `roundUpEven(x) = x + (x mod 2)`. -/
def roundUpEven (x : Int) : Int := x + x % 2

/-! ### Reserved handles (R106) -/

/-- `SILENCE_CB`. -/
def silenceCb : Word := 0xFFFFFFFF

/-- `WRAP_CB`. -/
def wrapCb : Word := 0xFFFFFFFE

/-- One of the two handles that host code may not register. -/
abbrev reservedHandle (h : Word) : Prop := h = silenceCb ∨ h = wrapCb

/-! ### Volume fractions (R110, R112) -/

/-- 1.0 as a q16. -/
def q16One : Word := 0x00010000

/-- `VolQ15` of a fraction that is at most 1.0. -/
def q15Of (f : Word) : Half := BitVec.ofNat 16 (f.toNat * 0x7FFF / 65536)

/-- `VolQ15(f)`. -/
def volQ15 (f : Word) : Act Half := do
  ensure (f ≤ q16One) .badArg f
  pure (q15Of f)

/-! ### The device's rate (R141) -/

/-- `ActualRate(f)` at a video clock of `clk` Hz. -/
def actualRate (clk f : Nat) : Nat := 2 * clk / (2 * clk / f + 1)

/-- `DacrateReg(f)`. -/
def dacrateReg (clk f : Nat) : Nat := (2 * clk / f + 1) / 2 - 1

/-- `RateValid(f)`. -/
abbrev rateValid (clk f : Nat) : Prop := 0 < f ∧ f ≤ 2 * clk ∧ dacrateReg clk f ≤ 0x3FFF

/-- `AI_QUANTUM(rate)` (R143). -/
def aiQuantum (rate : Nat) : Nat := roundDown8 (rate / 25)

/-- `RING_FRAMES(rate)` (R12, R210). -/
def ringFrames (rate : Nat) : Nat := roundDown8 (rate / 6)

/-- The region count for a request (R142). -/
def regionCount (numBuffers : Nat) : Nat := if numBuffers ≤ 1 then 4 else min numBuffers 32

/-! ### Sample buffers and channels -/

/-- `LOOP_OVERREAD` (R12). -/
def loopOverread : Nat := 64

/-- `UNKNOWN_LEN`: the length of a waveform whose end is not known (R12).  No rule asks for it by name; it is a length like any other, longer
than a descriptor can hold (R220, R279). -/
def unknownLen : Word := 0x7FFFFFFF

/-- `DESC_LEN_MAX` (R12, R122). -/
def descLenMax : Word := 0xFFFFFFFF

/-- `SB[i].size = SB[i].bytes >> SB[i].bps` (R29). -/
def SampleBuf.size (b : SampleBuf) : Nat := b.bytes.toNat / 2 ^ b.bps.toNat

/-- `IdxPtr(i, j) = SB[i].base + (j << SB[i].bps)` (R186). -/
def SampleBuf.idxPtr (b : SampleBuf) (j : Nat) : Nat := b.base.toNat + j * 2 ^ b.bps.toNat

/-- `bps_c = DESC[c].flags[1:0]` (R215). -/
def Desc.bps (d : Desc) : Nat := d.flags.toNat % 4

/-- `S = 12 + bps` as the factor 2^S (R121). -/
def Desc.scale (d : Desc) : Nat := 2 ^ (12 + d.bps)

/-- The bit-width shift of a bit depth. -/
def bpsOf (bits : Nat) : Nat := if bits = 16 then 1 else 0

/-- The descriptor flags of a bit-width shift: bits [1:0] = bps, bit 2 = 16-bit (R120). -/
def flagsOf (b : Nat) : Word := w32 (b + 4 * b)

/-- `LS = L - LL`, the loop start (R37). -/
def Wave.loopStart (w : Wave) : Nat := w.len.toNat - w.loop.toNat

/-- `Step(f, b)` (R252).  A rate of 0 makes the rule divide by 0, and its value is then free. -/
def stepOf (f rate : Word) (b : Nat) : Word :=
  if rate = 0 then Config.freeStep f b else w32 (f.toNat / (16 * rate.toNat) * 2 ^ b)

/-- The loop strategies, in the order of their numbers (R280). -/
inductive Strategy where
  | noLoop
  | resident
  | unrolled
  deriving DecidableEq, Repr

/-- `Strategy(c)` from the loop length and the buffer's size. -/
def strategyOf (loopLen size : Nat) : Strategy :=
  if loopLen = 0 then .noLoop else if loopLen + loopOverread + 16 ≤ size then .resident else .unrolled

/-- `Strategy(c)` (R280). -/
def State.strategy (s : State) (c : Nat) : Strategy := strategyOf (s.chan c).wave.loop.toNat (s.sb c).size

/-- A Q20.12 position at or past the end of a bound looping waveform, reduced into the loop (R224, R225). -/
def intoLoop (w : Wave) (p : Nat) : Nat :=
  if w.id ≠ 0 ∧ w.loop ≠ 0 ∧ w.len.toNat ≤ p / 4096 then
    w.loopStart * 4096 + (p - w.loopStart * 4096) % (w.loop.toNat * 4096)
  else p

/-- `PAN_LAW(vol, pan)` (R227): linear, or the open law. -/
def panLaw (law : PanLaw) (vol pan : Word) : Word × Word :=
  match law with
  | .linear => (w32 (vol.toNat * (0x10000 - pan.toNat) / 65536), w32 (vol.toNat * pan.toNat / 65536))
  | .other => let r := Config.panLaw vol pan; (w32 r.1.val, w32 r.2.val)

/-- `min(x, 0x10000)` (R228). -/
def clampOne (x : Word) : Word := if x ≤ q16One then x else q16One

/-- `AUTO_BUF_BYTES(lim, rate)` (R217): the spec's default, or the open function; a multiple of 8 in both.  At a rate of 0 the
default divides by 0 and is the open function too. -/
def autoBufBytes (kind : AutoBuf) (lim : Limits) (rate ringNf : Word) : Nat :=
  match kind with
  | .default =>
    if rate = 0 then roundUp8 (Config.autoBufBytes lim.maxBits lim.maxFreq rate)
    else
      let d := rate.toNat * 65536
      let samples := (lim.maxFreq.toNat * ringNf.toNat + d - 1) / d
      roundUp8 ((samples + loopOverread + 16) * 2 ^ bpsOf lim.maxBits.toNat)
  | .other => roundUp8 (Config.autoBufBytes lim.maxBits lim.maxFreq rate)

/-! ### VideoSync (R312) -/

/-- `roundUpEven(ceil(q))`. -/
def evenFrames (q : Rat) : Int := roundUpEven ⌈q⌉

end Sys2Proof.Machine
end

