-- ==== Sys2Proof/Machine/Flags.lean ====
section
/-!
DEFINITION. The block has no condition flags (spec/10_state.md R20).  What stands in their place are views of its state: the AI
status bits and the hardware count (R25, R26, R352), whether interrupts are enabled and whether the AI interrupt may be taken (R23,
R343), Playing and Idle (R38), the packed buffer register (R30), and the hit test of a window (R185).
-/

namespace Sys2Proof.Machine

/-- `AI_STATUS.FULL` (R25). -/
def AiDevice.full (d : AiDevice) : Bool := d.fifo.length == 2

/-- `AI_STATUS.BUSY` (R25). -/
def AiDevice.busy (d : AiDevice) : Bool := decide (1 ≤ d.fifo.length)

/-- `HWCOUNT` (R26). -/
def AiDevice.hwCount (d : AiDevice) : Nat := if d.full then 2 else if d.busy then 1 else 0

/-- What a read of `AI_STATUS` returns (R352). -/
def AiDevice.status (d : AiDevice) : Word :=
  (if d.full then 0x80000000 else 0) ||| (if d.busy then 0x40000000 else 0)

/-- The conditions under which the IRQ agent may take the AI interrupt (R343). -/
abbrev State.irqEligible (s : State) : Prop :=
  s.ai.irq = true ∧ s.irqDepth = 0 ∧ s.owner ≠ .none ∧ s.fault = none

/-- The engine's own job is started and has not ended (R264, R265). -/
def Coproc.engineJob (c : Coproc) : Bool := c.jobBusy && !c.client

/-- The engine waits to acquire the coprocessor (R263). -/
def State.awaitsCoproc (s : State) : Bool :=
  match s.pending with
  | some (.pollAcquire _ _ _ _) => true
  | some (.execAcquire _ _) => true
  | _ => false

/-- Channel `c` is Playing (R38). -/
abbrev State.playing (s : State) (c : Nat) : Prop := (s.desc c).ptr ≠ 0

/-- `SB[i].PTRF`: bits [31:3] = base[31:3], bit 2 = 0, bits [1:0] = bps (R30). -/
def SampleBuf.ptrf (b : SampleBuf) : Word := (b.base &&& 0xFFFFFFF8) ||| b.bps.setWidth 32

/-- `Hit(i, p)` (R185). -/
abbrev SampleBuf.hit (b : SampleBuf) (p : Nat) : Prop :=
  0 < b.widx.toNat ∧ b.wpos.toNat ≤ p ∧ p ≤ b.wpos.toNat + b.widx.toNat

/-- Instance `i` is engine-bound: `MX_ON = 1` and `i < MX_NCH` (R105, R180). -/
abbrev State.engineBound (s : State) (i : Nat) : Prop := s.mx.on = true ∧ i < s.mx.nch.toNat

/-- The opcodes an event callback may issue (R105, R296): the sample rate, the master volume, every `CH_*` command except
`CH_SET_LIMITS`, the event and VideoSync commands and the critical section. -/
def eventMayIssue (op : Byte) : Bool :=
  op == 0x22 || op == 0x23 || (decide (0x28 ≤ op.toNat) && decide (op.toNat ≤ 0x30)) || op == 0x40 || op == 0x41 ||
    (decide (0x50 ≤ op.toNat) && decide (op.toNat ≤ 0x53)) || op == 0x60 || op == 0x61

/-- Whether the context may issue opcode `op` with this `CH` (R105); `MX_EXEC` is illegal before this is asked (R104). -/
def State.issuerAllows (s : State) (op ch : Byte) : Bool :=
  match s.ctx with
  | .host => !(decide (0x10 ≤ op.toNat) && decide (op.toNat ≤ 0x16) && decide (s.engineBound ch.toNat))
  | .decoder i => op == 0x14 && ch.toNat == i
  | .event => eventMayIssue op
  | .fill => false
  | .irq => false

/-- The issuer check: `Fatal(BAD_STATE, OP)` (R105). -/
def checkIssuer : Act Unit := fun s => ensureState (s.issuerAllows s.cmd.op s.cmd.ch = true) s

end Sys2Proof.Machine
end

