-- ==== Sys2Proof/Machine/MixBackend.lean ====
section
/-!
DEFINITION. The coprocessor's mix job: the job block the engine uploads (spec/30_encoding.md R120, R124; spec/44_mixer_exec.md R261,
R263), the positions every backend computes (R262 (c)), the reference backend's output (R268), and the job step (R265).
-/

namespace Sys2Proof.Machine

/-! ### The upload (R124, R261, R263) -/

/-- The 24 bytes of a descriptor (R120). -/
def Desc.bytes (d : Desc) : List Byte :=
  be32 d.pos ++ be32 d.step ++ be32 d.len ++ be32 d.loopLen ++ be32 d.ptr ++ be32 d.flags

/-- The four bytes of a volume pair. -/
def Volume.bytes (v : Volume) : List Byte := be16 v.l ++ be16 v.r

/-- The uploaded volume: zero for an inactive channel (R261). -/
def State.uploadedVolume (s : State) (c : Nat) : Volume :=
  if c < s.mx.nch.toNat ∧ s.playing c then (s.chan c).vol else ⟨0, 0⟩

/-- The uploaded descriptor: zero above the engine's channels (R263). -/
def State.uploadedDesc (s : State) (c : Nat) : Desc :=
  if c < s.mx.nch.toNat then s.desc c else ⟨0, 0, 0, 0, 0, 0⟩

/-- The 0x390 bytes of `JOBBLK` for `n` frames at `out`. -/
def State.jobBlock (s : State) (out n : Nat) : List Byte :=
  be32 (w32 n) ++ be32 (w32 out) ++ be16 s.mx.master ++ be16 0 ++ be32 (s.mx.nch.setWidth 32) ++
    ((List.range tableSize).flatMap fun c => (s.uploadedVolume c).bytes) ++
    (List.range tableSize).flatMap fun c => (s.uploadedDesc c).bytes

/-- The upload of `JOBBLK` (R263).  R124 gives offsets inside the block alone; that it starts at address 0 of coprocessor memory is the model's
choice (DESIGN CHOICE, notes/assumptions/43.md). -/
def State.upload (s : State) (out n : Nat) : State :=
  { s with coproc := { s.coproc with mem := Memory.put s.coproc.mem 0 (s.jobBlock out n) } }

/-! ### The job block as the coprocessor reads it -/

/-- A u32 of coprocessor memory. -/
def jobWord (m : Memory) (a : Nat) : Word := beWord (m.bytes a 4)

/-- A u16 of coprocessor memory. -/
def jobHalf (m : Memory) (a : Nat) : Half := BitVec.ofNat 16 (beNat (m.bytes a 2))

/-- `JOBBLK.nsamples`. -/
def jobFrames (m : Memory) : Nat := (jobWord m 0).toNat

/-- `JOBBLK.out`. -/
def jobOut (m : Memory) : Nat := (jobWord m 4).toNat

/-- `JOBBLK.master`. -/
def jobMaster (m : Memory) : Half := jobHalf m 8

/-- `JOBBLK.nch`. -/
def jobChannels (m : Memory) : Nat := (jobWord m 12).toNat

/-- `JOBBLK.vol[c]`. -/
def jobVolume (m : Memory) (c : Nat) : Volume := ⟨jobHalf m (0x10 + 4 * c), jobHalf m (0x12 + 4 * c)⟩

/-- Where `JOBBLK.desc[c]` lies: its offset in the block, which starts at address 0 (notes/assumptions/43.md). -/
def jobDescAt (c : Nat) : Nat := 0x90 + 24 * c

/-- `JOBBLK.desc[c]`. -/
def jobDesc (m : Memory) (c : Nat) : Desc :=
  let a := jobDescAt c
  ⟨jobWord m a, jobWord m (a + 4), jobWord m (a + 8), jobWord m (a + 12), jobWord m (a + 16), jobWord m (a + 20)⟩

/-! ### Positions, for every backend (R262 (a), (c)) -/

/-- `W(p)`: `p`, or `p` with `loop_len` subtracted while it is at or past `len`. -/
def Desc.wrap (d : Desc) (p : Nat) : Nat :=
  if d.loopLen = 0 ∨ p < d.len.toNat then p
  else p - d.loopLen.toNat * ((p - d.len.toNat) / d.loopLen.toNat + 1)

/-- `p_k`. -/
def Desc.posAt (d : Desc) : Nat → Nat
  | 0 => d.pos.toNat
  | k + 1 => d.wrap (d.posAt k) + d.step.toNat

/-- The position written back after `n` frames. -/
def Desc.finalPos (d : Desc) (n : Nat) : Word := w32 (d.posAt n)

/-- Frame `k` reads silence. -/
def Desc.silentAt (d : Desc) (k : Nat) : Bool := d.loopLen == 0 && decide (d.len.toNat ≤ d.wrap (d.posAt k))

/-- The byte address of the sample that lies `t` samples after frame `k`'s (R121, R260). -/
def Desc.sampleAddr (d : Desc) (k t : Nat) : Nat :=
  (d.ptr.toNat + (d.wrap (d.posAt k) / d.scale + t) * 2 ^ d.bps) % 2 ^ 32

/-! ### The reference backend (R268) -/

/-- `sat16(x)`. -/
def sat16 (x : Int) : Int := max (-32768) (min 32767 x)

/-- The sample frame `k` reads. -/
def State.sampleAt (s : State) (d : Desc) (k : Nat) : Int :=
  if d.ptr = 0 then 0
  else if d.silentAt k then 0
  else
    let a := d.sampleAddr k 0
    let low := if d.bps = 1 then s.coprocByte ((a + 1) % 2 ^ 32) else 0
    (s.coprocByte a ++ low : Half).toInt

/-- One side of a frame: the accumulator scaled by the master volume. -/
def mixSide (acc : Int) (master : Half) : Half :=
  BitVec.ofInt 16 (sat16 (acc / 32768 * (master.toNat : Int) / 32768))

/-- Frame `k` of the reference backend. -/
def State.mixFrame (s : State) (m : Memory) (k : Nat) : Frame :=
  let term (side : Volume → Half) (c : Nat) : Int := s.sampleAt (jobDesc m c) k * ((side (jobVolume m c)).toNat : Int)
  let acc (side : Volume → Half) : Int := ((List.range (jobChannels m)).map (term side)).sum
  ⟨mixSide (acc Volume.l) (jobMaster m), mixSide (acc Volume.r) (jobMaster m)⟩

/-- The four bytes of a frame (R125). -/
def frameBytes (f : Frame) : List Byte := be16 f.l ++ be16 f.r

/-! ### The open backend (R262 (d), (e)) -/

/-- The sample bytes the job may read. -/
def State.jobSamples (s : State) (m : Memory) : List (Nat × Byte) :=
  (List.range (jobChannels m)).flatMap fun c =>
    let d := jobDesc m c
    if d.ptr = 0 then []
    else (List.range (jobFrames m)).flatMap fun k =>
      if d.silentAt k then []
      else (List.range (loopOverread + 1)).flatMap fun t =>
        (List.range (2 ^ d.bps)).map fun j =>
          let a := (d.sampleAddr k t + j) % 2 ^ 32
          (a, s.coprocByte a)

/-- `JOBBLK` as an open backend may use it: a descriptor whose pointer is 0 contributes nothing, so what its other fields hold is not passed
on, from channel `c` on (R123, R262 (a)). -/
def withoutIdle (c : Nat) : Nat → Memory → Memory
  | 0, m => m
  | k + 1, m => withoutIdle (c + 1) k (if (jobDesc m c).ptr = 0 then Memory.clear m (jobDescAt c) 24 else m)

/-- What an open backend's output may depend on. -/
def State.mixJob (s : State) : MixJob :=
  ⟨Memory.bytes (withoutIdle 0 tableSize s.coproc.mem) 0 0x390, s.jobSamples s.coproc.mem, s.coproc.hidden⟩

/-! ### The job step (R265) -/

/-- The `4 * nsamples` output bytes. -/
def State.mixOutput (s : State) : List Byte :=
  match s.params.backend with
  | .reference => (List.range (jobFrames s.coproc.mem)).flatMap fun k => frameBytes (s.mixFrame s.coproc.mem k)
  | .other => (List.range (4 * jobFrames s.coproc.mem)).map (Config.mixByte s.mixJob)

/-- `COPROC_HIDDEN` after the job. -/
def State.mixHidden (s : State) : List Byte :=
  match s.params.backend with
  | .reference => []
  | .other => Config.mixHidden s.mixJob

/-- Every active descriptor's final position, written into `JOBBLK` from channel `c` on. -/
def writePositions (n c : Nat) : Nat → Memory → Memory
  | 0, m => m
  | k + 1, m =>
    let d := jobDesc m c
    writePositions n (c + 1) k (if d.ptr = 0 then m else Memory.put m (jobDescAt c) (be32 (d.finalPos n)))

/-- The engine's job as one atomic step of COPROC, from its start to `JOB_BUSY <- 0`. -/
def State.runJob (s : State) : State :=
  let m := s.coproc.mem
  let t := s.hwPut (jobOut m) (s.mixOutput.take (s.memBytes - jobOut m))
  ({ t with
    coproc := ⟨false, false, writePositions (jobFrames m) 0 (jobChannels m) m, s.mixHidden⟩ }).bump

/-- A move of the COPROC agent: the engine's job, if one is started (R264, R265). -/
def coprocMove (s : State) : State := if s.coproc.engineJob then s.runJob else s

end Sys2Proof.Machine
end

