-- ==== Sys2Proof/Machine/Device.lean ====
section
/-!
DEFINITION. The AI DMA device (spec/60_exceptions.md R350 to R356): its registers in the I/O space, the drain step and the
underrun; the other clients of the coprocessor (R357); a move of any hardware agent, COPROC's job among them; and the boundary
inside a critical section, at which those agents may move and no interrupt is taken (R343, R354).
-/

namespace Sys2Proof.Machine

/-! ### Registers (R350) -/

/-- The device's registers. -/
inductive AiReg where
  | dramAddr
  | len
  | control
  | status
  | dacrate
  | bitrate
  deriving DecidableEq, Repr

/-- The physical address of a register. -/
def AiReg.address : AiReg → Word
  | .dramAddr => 0x04500000
  | .len => 0x04500004
  | .control => 0x04500008
  | .status => 0x0450000C
  | .dacrate => 0x04500010
  | .bitrate => 0x04500014

/-- Updates the device. -/
def State.modAi (s : State) (f : AiDevice → AiDevice) : State := { s with ai := f s.ai }

/-- A write of `v` to a register (R350 to R355). -/
def aiWrite (r : AiReg) (v : Word) : Act Unit :=
  match r with
  | .dramAddr => modify fun s => s.modAi fun d => { d with addr := v &&& 0xFFFFFFF8 }
  | .len => do
    let s ← get
    ensure (s.ai.fifo.length < 2) .hwFifoOverrun v
    modify fun s => s.modAi fun d => { d with fifo := d.fifo ++ [⟨d.addr, v &&& 0x3FFF8⟩] }
  | .control => modify fun s => s.modAi fun d => { d with dmaEn := v.getLsbD 0 }
  | .status => modify fun s => s.modAi fun d => { d with irq := false }
  | .dacrate => modify fun s => s.modAi fun d => { d with dacrate := v.extractLsb' 0 14 }
  | .bitrate => modify fun s => s.modAi fun d => { d with bitrate := v.extractLsb' 0 4 }

/-- A read of a register: `AI_STATUS` has a value, any other returns an unspecified one (R350, R352, U14). -/
def aiRead (r : AiReg) : Act Word := fun s =>
  match r with
  | .status => .ok s.ai.status s
  | _ => .ok (Config.freeIoRead s.oracle.draws) s.bump

/-- Queues a transfer: the address write takes effect before the length write (R84, R147, R275). -/
def enqueue (addr len : Word) : Act Unit := do
  aiWrite .dramAddr addr
  aiWrite .len len

/-- The init commands' device writes: divisor, 16-bit samples, DMA on (R140, R210). -/
def startDevice (dacrate : Nat) : Act Unit := do
  aiWrite .dacrate (w32 dacrate)
  aiWrite .bitrate 15
  aiWrite .control 1

/-! ### The device's own steps -/

/-- Four bytes to a frame: left, then right, big-endian (R125). -/
def framesOf : List Byte → List Frame
  | a :: b :: c :: d :: rest => ⟨a ++ b, c ++ d⟩ :: framesOf rest
  | _ => []

/-- `AiDrainStep()` (R354): the head transfer's frames are played, it leaves the queue, and the interrupt is pending. -/
def drainHead (s : State) (x : Xfer) (rest : List Xfer) : State :=
  let bytes := bytesBy s.dmaByte x.addr.toNat x.len.toNat
  let t := { s with
    output := s.output ++ (framesOf bytes).map OutItem.frame
    ai := { s.ai with fifo := rest, irq := true } }
  ({ t with race := t.race.filter fun c => t.inFlight c.1 }).bump

/-- The device plays frames that no transfer supplied (R356). -/
def underrun (s : State) : State :=
  let frames := if s.oracle.free then Config.freeFrames s.oracle.draws else []
  ({ s with output := s.output ++ OutItem.underrun :: frames.map OutItem.frame }).bump

/-- A move of the AIDMA agent: nothing while `DMA_EN = 0` (R353). -/
def aiDmaMove (s : State) : State :=
  if s.ai.dmaEn then
    match s.ai.fifo with
    | [] => underrun s
    | x :: rest => drainHead s x rest
  else s

/-! ### Other clients of the coprocessor (R265, R357) -/

/-- The coprocessor is another client's. -/
def State.clientHolds (s : State) : State := { s with coproc := { s.coproc with jobBusy := true, client := true } }

/-- Another client acquires the coprocessor while it is free (R357); ahead of an engine that waits for it only a finite number of times,
since the wait of R263 ends (R391; notes/assumptions/34.md). -/
def clientStart (s : State) : State :=
  if s.coproc.jobBusy then s
  else if s.awaitsCoproc then
    match s.oracle.patience.client with
    | 0 => s
    | k + 1 => { s.clientHolds with oracle := { s.oracle with patience := { s.oracle.patience with client := k } } }
  else s.clientHolds

/-- One byte a client's job writes: memory the block owns is not the client's (R265). -/
def clientWrite (s : State) (c : Nat × Byte) : State :=
  if c.1 < s.memBytes ∧ s.blockOwns c.1 = false then s.hwPut c.1 [c.2] else s

/-- The other client's job ends. -/
def clientDone (s : State) (ws : List (Nat × Byte)) : State :=
  if s.coproc.client then
    let t := ws.foldl clientWrite s
    { t with coproc := { t.coproc with jobBusy := false, client := false } }
  else s

/-! ### Boundaries -/

/-- A move of a concurrent hardware agent. -/
def deviceMove (a : Agent) (s : State) : State :=
  match a with
  | .aiDma => aiDmaMove s
  | .coproc => coprocMove s
  | .clientStart => clientStart s
  | .clientDone ws => clientDone s ws
  | .host => s
  | .irq => s

/-- The boundary inside a critical section: the device keeps draining (R145), no interrupt is taken (R343). -/
def deviceBoundary : Act Unit := do
  let moves ← drawMoves
  forList (fun a => modify (deviceMove a)) moves

end Sys2Proof.Machine
end

