-- ==== Sys2Proof/Machine/Dispatchers.lean ====
section
/-!
DEFINITION. The dispatch procedures of the two owners of the AI DMA device and their interrupt handlers: the driver's
(spec/41_ai_driver.md R144 to R148) and the engine's (spec/44_mixer_exec.md R275, R276); taking the AI interrupt
(spec/60_exceptions.md R343 to R347), the boundary at which every other agent may move, and the byte loops that have one after each byte.
-/

namespace Sys2Proof.Machine

/-! ### Commands a context may not issue -/

/-- Refuses a packet from a context that may issue no command: the decode fault, the nested poll, and otherwise the issuer
check, in the order of R334. -/
def refusePacket (p : Packet) : Act Unit := do
  let s ← get
  set { s with cmd := ⟨opOf p.word0, chOf p.word0⟩ }
  match decode p.words with
  | .instr (.mxPoll _) _ =>
    if s.mx.inPoll then raise .reentrantPoll (Config.ctxCode s.ctx) else raiseBadState
  | .instr (.mxExec _ _) _ => raise .illegalCommand p.word0
  | .instr _ _ => raiseBadState
  | .illegal w _ => raise .illegalCommand w
  | .short => raise .illegalCommand p.word0

/-! ### The driver (R144 to R148) -/

/-- `DRV_STATE[k]`. -/
def Driver.state (d : Driver) (k : Nat) : RegionState := Table.at d.st k

/-- `DRV_REGION[k]`. -/
def Driver.addr (d : Driver) (k : Nat) : Word := Table.at d.region k

/-- `DRV_STATE[k] <- x`. -/
def Driver.setState (d : Driver) (k : Nat) (x : RegionState) : Driver := { d with st := Table.put d.st k x }

/-- `(i + 1) % DRV_N`. -/
def Driver.next (d : Driver) (i : Nat) : Word := w32 ((i + 1) % d.n.toNat)

/-- Updates the driver. -/
def State.modDrv (s : State) (f : Driver → Driver) : State := { s with drv := f s.drv }

/-- The oldest region in flight is freed. -/
def Driver.retireHead (d : Driver) : Driver :=
  match d.inflight with
  | [] => d
  | k :: rest => { d.setState k .free with inflight := rest }

/-- `DrvRetire()` (R145); the bound is the number of regions in flight. -/
def drvRetireLoop : Nat → Act Unit
  | 0 => pure ()
  | fuel + 1 => do
    deviceBoundary
    let s ← get
    if s.ai.hwCount < s.drv.inflight.length then
      modify fun s => s.modDrv Driver.retireHead
      drvRetireLoop fuel
    else pure ()

/-- `DrvRetire()` (R145). -/
def drvRetire : Act Unit := do
  let s ← get
  drvRetireLoop (s.drv.inflight.length + 1)

/-- Region `k` becomes `FULL`, and the writer moves on to the one after it (R146, R152, R153, R154). -/
def Driver.fillDone (d : Driver) (k : Nat) : Driver := { d.setState k .full with wr := d.next k }

/-- Fills region `DRV_WR` by the registered callback: zeros for `SILENCE_CB` (R156), otherwise a call in context FILL. -/
def fillRegion : Act Unit := do
  let s ← get
  let addr := s.drv.addr s.drv.wr.toNat
  if s.drv.fillCb = silenceCb then blockZero addr.toNat (4 * s.drv.q.toNat)
  else do
    let _ ← callHost refusePacket deviceBoundary .fill s.drv.fillCb [addr.toNat, s.drv.q.toNat]
    pure ()

/-- `DrvRefill()` (R146).  Each pass leaves one region fewer free, so the number of regions bounds the passes. -/
def drvRefillLoop : Nat → Act Unit
  | 0 => pure ()
  | fuel + 1 => do
    let s ← get
    if s.drv.fillCb ≠ 0 ∧ s.drv.state s.drv.wr.toNat = .free ∧ s.drv.begun = false ∧ s.drv.pushOff = 0 then do
      fillRegion
      modify fun s => s.modDrv fun d => d.fillDone d.wr.toNat
      drvRefillLoop fuel
    else pure ()

/-- `DrvRefill()` (R146). -/
def drvRefill : Act Unit := drvRefillLoop (tableSize + 1)

/-- The region at `DRV_RD` is in flight, and the dispatcher moves on (R147). -/
def Driver.commitHead (d : Driver) : Driver :=
  { d.setState d.rd.toNat .queued with inflight := d.inflight ++ [d.rd.toNat], rd := d.next d.rd.toNat }

/-- `DrvCommit()` may queue the region at `DRV_RD` (R147): the device has a free slot, the region is full, fewer than two regions are in flight
(R27, R28; notes/assumptions/20.md), and no `AI_CLOSE` is under way (R158). -/
abbrev State.mayCommit (s : State) : Prop :=
  s.ai.full = false ∧ s.drv.state s.drv.rd.toNat = .full ∧ s.drv.inflight.length < 2 ∧ s.drv.closing = false

/-- `DrvCommit()` (R147).  Each pass leaves one region fewer full, so the number of regions bounds the passes. -/
def drvCommitLoop : Nat → Act Unit
  | 0 => pure ()
  | fuel + 1 => do
    deviceBoundary
    let s ← get
    if s.mayCommit then do
      enqueue (s.drv.addr s.drv.rd.toNat) (w32 (4 * s.drv.q.toNat) &&& 0xFFFFFFF8)
      modify fun s => s.modDrv Driver.commitHead
      drvCommitLoop fuel
    else pure ()

/-- `DrvCommit()` (R147). -/
def drvCommit : Act Unit := drvCommitLoop (tableSize + 1)

/-- `DrvDispatch()` (R144). -/
def drvDispatch : Act Unit := critical do
  drvRetire
  drvRefill
  drvCommit

/-- `DrvIrq()` between its context switch and its return (R148). -/
def drvIrq : Act Unit := do
  aiWrite .status 0
  let s ← get
  if s.drv.on then drvDispatch else pure ()

/-! ### The engine (R275, R276) -/

/-- Updates the ring. -/
def State.modRing (s : State) (f : Ring → Ring) : State := { s with ring := f s.ring }

/-- The retire loop of `MxDispatch()`; the bound is the number of blocks in flight. -/
def mxRetireLoop : Nat → Act Unit
  | 0 => pure ()
  | fuel + 1 => do
    deviceBoundary
    let s ← get
    if s.ai.hwCount < s.ring.inflight.length then
      modify fun s => s.modRing fun r => { r with inflight := r.inflight.tail }
      mxRetireLoop fuel
    else pure ()

/-- The pending block is queued when the device has a free slot (R275) and fewer than two blocks are in flight (R33; notes/assumptions/20.md). -/
def mxCommitPending : Act Unit := do
  deviceBoundary
  let s ← get
  match s.ring.pending with
  | none => pure ()
  | some x =>
    if s.ai.full = true ∨ 2 ≤ s.ring.inflight.length then pure ()
    else do
      enqueue x.addr x.len
      modify fun s => s.modRing fun r => { r with inflight := r.inflight ++ [x], pending := none }

/-- `MxDispatch()` (R275). -/
def mxDispatch : Act Unit := critical do
  let s ← get
  mxRetireLoop (s.ring.inflight.length + 1)
  mxCommitPending

/-- `MxIrq()` between its context switch and its return (R276). -/
def mxIrq : Act Unit := do
  aiWrite .status 0
  let s ← get
  if s.mx.on then mxDispatch else pure ()

/-! ### Taking the interrupt (R343 to R345) -/

/-- `TakeAiIrq()` where R343 allows it; the handler is the owner's. -/
def takeAiIrq : Act Unit := do
  let s ← get
  if s.irqEligible then
    interrupt (if s.owner = .driver then drvIrq else mxIrq)
  else pure ()

/-- One move of an agent other than HOST. -/
def agentMove (a : Agent) : Act Unit :=
  match a with
  | .irq => takeAiIrq
  | .host => pure ()
  | .aiDma => modify (deviceMove a)
  | .coproc => modify (deviceMove a)
  | .clientStart => modify (deviceMove a)
  | .clientDone _ => modify (deviceMove a)

/-- A step boundary inside a command (R343): the other agents make some moves. -/
def boundary : Act Unit := do
  let moves ← drawMoves
  forList agentMove moves

/-- The boundary at which the engine waits for its own job: an environment that does nothing of its own lets the job end (R264, R391 (b)). -/
def jobBoundary : Act Unit := do
  let moves ← drawMovesOr [.coproc]
  forList agentMove moves

/-! ### The block's byte loops, with a boundary after each byte (R343) -/

/-- `for j in 0 .. n-1: MemWrite(dst + j, 1, 0)` (R153, R154). -/
def zeroBytes (dst : Nat) : Nat → Act Unit
  | 0 => pure ()
  | n + 1 => do
    blockZero dst 1
    boundary
    zeroBytes (dst + 1) n

/-- `for j in 0 .. n-1: MemWrite(dst + j, 1, MemRead(src + j, 1))`, which is `MemCopy(dst, src, n)` (R78, R153). -/
def copyBytes (src dst : Nat) : Nat → Act Unit
  | 0 => pure ()
  | n + 1 => do
    copyByte src dst
    boundary
    copyBytes (src + 1) (dst + 1) n

end Sys2Proof.Machine
end

