-- ==== Sys2Proof/Machine/AiDriver.lean ====
section
/-!
DEFINITION. The commands of the AI output driver (spec/41_ai_driver.md R140 to R159).  Every command makes the issuer check of
spec/30_encoding.md R105 first.
-/

namespace Sys2Proof.Machine

/-- `if DRV_ON = 0: raise Fatal(BAD_STATE, OP)`, after the issuer check. -/
def drvOn : Act Unit := do
  checkIssuer
  let s ← get
  ensureState (s.drv.on = true)

/-! ### `AI_INIT` (R140 to R143) -/

/-- Allocates and zeroes region `k`. -/
def initRegion (k : Nat) : Act Unit := do
  let s ← get
  let a ← alloc (4 * s.drv.q.toNat)
  match a with
  | none => raise .noMemory (w32 k)
  | some a => do
    modify fun s => s.modDrv fun d => { d with region := Table.put d.region k a }
    blockZero a.toNat (4 * s.drv.q.toNat)
    modify fun s => s.modDrv fun d => d.setState k .free

/-- The driver's rate, region count and quantum. -/
def Driver.sized (d : Driver) (clk freq numBuffers : Nat) : Driver :=
  { d with
    freq := w32 (actualRate clk freq)
    n := w32 (regionCount numBuffers)
    q := w32 (aiQuantum (actualRate clk freq)) }

/-- The driver's indices, callbacks and flags at init. -/
def Driver.cleared (d : Driver) : Driver :=
  { d with
    wr := 0, rd := 0, inflight := [], fillCb := 0, savedCb := 0, paused := false, begun := false, pushOff := 0,
    closing := false }

/-- `AI_INIT num_buffers, freq` (R140). -/
def aiInit (numBuffers : Half) (freq : Word) : Act Unit := do
  checkIssuer
  let s ← get
  ensure (s.owner = .none) .ownerConflict (Config.ownerCode s.owner)
  ensure (rateValid s.params.videoClockHz freq.toNat) .badArg freq
  modify fun s => s.modDrv fun d => d.sized s.params.videoClockHz freq.toNat numBuffers.toNat
  forRange 0 initRegion (regionCount numBuffers.toNat)
  modify fun s => s.modDrv Driver.cleared
  startDevice (dacrateReg s.params.videoClockHz freq.toNat)
  modify fun s => { s.modDrv (fun d => { d with on := true }) with owner := .driver }

/-- Meaning of `AI_INIT`. -/
def execAiInit (numBuffers : Half) (freq : Word) (s : State) : Host.Outcome State Fault Refusal :=
  command (.aiInit numBuffers freq) (replyNone (aiInit numBuffers freq)) s

/-! ### `AI_CLOSE` (R158) -/

/-- The end of `AI_CLOSE`, once the device has drained; until then the wait goes on.  Nothing is committed meanwhile (`State.mayCommit`), so the
queue is empty when the owner leaves, as R140 says it is. -/
def aiCloseWait : Act Reply := do
  let s ← get
  if s.ai.hwCount = 0 then do
    aiWrite .control 0
    forRange 0 (fun k => do let s ← get; freeRegion (s.drv.addr k)) s.drv.n.toNat
    modify fun s => { s.modDrv (fun d => { d with on := false, closing := false }) with owner := .none }
    pure (.done [])
  else pure (.wait .aiClose)

/-- `AI_CLOSE`: the callbacks are dropped, and the full regions that are not queued yet never will be. -/
def aiClose : Act Reply := do
  drvOn
  critical (modify fun s => s.modDrv fun d => { d with fillCb := 0, savedCb := 0, closing := true })
  boundary
  aiCloseWait

/-- Meaning of `AI_CLOSE`. -/
def execAiClose (s : State) : Host.Outcome State Fault Refusal := command .aiClose aiClose s

/-! ### `AI_SET_FILL_CALLBACK` (R149) -/

/-- `AI_SET_FILL_CALLBACK cb`. -/
def aiSetFillCallback (cb : Word) : Act Unit := do
  drvOn
  ensure (¬ reservedHandle cb) .badArg cb
  critical (modify fun s => s.modDrv fun d => if d.paused then { d with savedCb := cb } else { d with fillCb := cb })
  boundary
  drvDispatch

/-- Meaning of `AI_SET_FILL_CALLBACK`. -/
def execAiSetFillCallback (cb : Word) (s : State) : Host.Outcome State Fault Refusal :=
  command (.aiSetFillCallback cb) (replyNone (aiSetFillCallback cb)) s

/-! ### `AI_WRITE_BEGIN` and `AI_WRITE_END` (R151, R152) -/

/-- The region at `DRV_WR` is handed to the writer. -/
def Driver.handedOut (d : Driver) : Driver := { d with begun := true }

/-- The region at `DRV_WR` is `FREE`. -/
abbrev Driver.writable (d : Driver) : Prop := d.state d.wr.toNat = .free

/-- The end of `AI_WRITE_BEGIN`, whose spin has just found the region free.  An interrupt may come here too (R343); if its refill takes the
region the spin goes on, because the driver never hands out a region that is full or queued (R150; notes/assumptions/38.md). -/
def handOut : Act Reply := do
  boundary
  let s ← get
  if s.drv.writable then do
    modify fun s => s.modDrv Driver.handedOut
    pure (.done [s.drv.addr s.drv.wr.toNat])
  else pure (.wait .writeBegin)

/-- One pass of the spin: the region if it is free, or one dispatch and another look (R151, R380). -/
def aiWriteBeginSpin : Act Reply := do
  let s ← get
  if s.drv.writable then handOut
  else do
    drvDispatch
    boundary
    let s ← get
    if s.drv.writable then handOut else pure (.wait .writeBegin)

/-- `AI_WRITE_BEGIN`. -/
def aiWriteBegin : Act Reply := do
  checkIssuer
  let s ← get
  ensureState (s.drv.on = true ∧ s.drv.begun = false ∧ s.drv.pushOff = 0)
  aiWriteBeginSpin

/-- Meaning of `AI_WRITE_BEGIN`. -/
def execAiWriteBegin (s : State) : Host.Outcome State Fault Refusal := command .aiWriteBegin aiWriteBegin s

/-- `AI_WRITE_END`. -/
def aiWriteEnd : Act Unit := do
  checkIssuer
  let s ← get
  ensureState (s.drv.on = true ∧ s.drv.begun = true)
  critical (modify fun s => s.modDrv fun d => { d.fillDone d.wr.toNat with begun := false })
  boundary
  drvDispatch

/-- Meaning of `AI_WRITE_END`. -/
def execAiWriteEnd (s : State) : Host.Outcome State Fault Refusal := command .aiWriteEnd (replyNone aiWriteEnd) s

/-! ### `AI_PUSH` (R153, R154) -/

/-- Region `k` is complete: `FULL`, the writer moves on, no leftover; then a dispatch. -/
def pushCommit (k : Nat) : Act Unit := do
  critical (modify fun s => s.modDrv fun d => { d.fillDone k with pushOff := 0 })
  boundary
  drvDispatch

/-- `DrvFlush()` (R154). -/
def drvFlush : Act Unit := do
  let s ← get
  if s.drv.pushOff = 0 then pure ()
  else do
    boundary
    let off := 4 * s.drv.pushOff.toNat
    zeroBytes ((s.drv.addr s.drv.wr.toNat).toNat + off) (4 * s.drv.q.toNat - off)
    pushCommit s.drv.wr.toNat

/-- The frames one pass of the loop accepts: `min(n - acc, DRV_Q - DRV_PUSH_OFF)`. -/
def Driver.pushRoom (d : Driver) (left : Nat) : Nat := min left (d.q.toNat - d.pushOff.toNat)

/-- The test that lets a pass write, for region `k`: it is at the writer's index, and it holds a leftover of the push or is free (R153). -/
abbrev Driver.pushable (d : Driver) (k : Nat) : Prop := d.wr.toNat = k ∧ (d.pushOff ≠ 0 ∨ d.writable)

/-- Byte `j` of a pass: silence, or the source's byte from frame `acc` on. -/
def pushByte (src acc dst j : Nat) : Act Unit :=
  if src = 0 then blockZero (dst + j) 1 else copyByte (src + 4 * acc + j) (dst + j)

/-- The bytes `j, j+1, …` of a pass into region `k`, with a boundary before each and after the last; `false` as soon as an interrupt's refill
has taken the region, since `AI_PUSH` writes a free region alone (R83 (b), R150, R343; notes/assumptions/38.md). -/
def pushBytes (k src acc dst j : Nat) : Nat → Act Bool
  | 0 => do
    boundary
    let s ← get
    pure (decide (s.drv.pushable k))
  | n + 1 => do
    boundary
    let s ← get
    if s.drv.pushable k then do
      pushByte src acc dst j
      pushBytes k src acc dst (j + 1) n
    else pure false

/-- The accepting part of one pass, with `left` frames to go; the number it accepts, which is 0 where a refill took the region: no frame of
the pass is accepted then, and the loop tests the next region (R153, R386). -/
def pushFrames (src acc left : Nat) : Act Nat := do
  let s ← get
  let k := s.drv.wr.toNat
  let m := s.drv.pushRoom left
  let held ← pushBytes k src acc ((s.drv.addr k).toNat + 4 * s.drv.pushOff.toNat) 0 (4 * m)
  if held then do
    modify fun s => s.modDrv fun d => { d with pushOff := w32 (d.pushOff.toNat + m) }
    boundary
    let t ← get
    if t.drv.pushOff = t.drv.q then pushCommit k else pure ()
    pure m
  else pure 0

/-- The loop of `AI_PUSH`, at most `fuel` passes in one step; then it goes on in a later step, as it does after one pass of
the blocking spin (R380). -/
def pushLoop (blocking : Bool) (src n : Nat) : Nat → Nat → Act Reply
  | 0, acc => pure (.wait (.push blocking src n acc))
  | fuel + 1, acc =>
    if n ≤ acc then pure (.done [w32 acc])
    else do
      boundary
      let s ← get
      if s.drv.pushOff = 0 ∧ ¬ s.drv.writable then do
        drvDispatch
        boundary
        let s ← get
        if s.drv.writable then do
          let m ← pushFrames src acc (n - acc)
          pushLoop blocking src n fuel (acc + m)
        else if blocking then pure (.wait (.push blocking src n acc))
        else pure (.done [w32 acc])
      else do
        let m ← pushFrames src acc (n - acc)
        pushLoop blocking src n fuel (acc + m)

/-- `AI_PUSH blocking, src, n`. -/
def aiPush (blocking : Bool) (src n : Word) : Act Reply := do
  checkIssuer
  let s ← get
  ensureState (s.drv.on = true ∧ s.drv.begun = false)
  if src = 0 ∧ n = 0 then do
    drvFlush
    pure (.done [0])
  else pushLoop blocking src.toNat n.toNat stepPasses 0

/-- Meaning of `AI_PUSH`. -/
def execAiPush (blocking : Bool) (src n : Word) (s : State) : Host.Outcome State Fault Refusal :=
  command (.aiPush blocking src n) (aiPush blocking src n) s

/-! ### `AI_PAUSE` and `AI_GET_FREQUENCY` (R155, R157) -/

/-- The swap of the fill callback. -/
def Driver.pauseSwap (d : Driver) (pause : Bool) : Driver :=
  if pause = true ∧ d.paused = false then { d with savedCb := d.fillCb, fillCb := silenceCb, paused := true }
  else if pause = false ∧ d.paused = true then { d with fillCb := d.savedCb, savedCb := 0, paused := false }
  else d

/-- `AI_PAUSE pause`. -/
def aiPause (pause : Bool) : Act Unit := do
  drvOn
  critical (modify fun s => s.modDrv fun d => d.pauseSwap pause)

/-- Meaning of `AI_PAUSE`. -/
def execAiPause (pause : Bool) (s : State) : Host.Outcome State Fault Refusal :=
  command (.aiPause pause) (replyNone (aiPause pause)) s

/-- `AI_GET_FREQUENCY`. -/
def aiGetFrequency : Act (List Word) := do
  drvOn
  let s ← get
  pure [s.drv.freq]

/-- Meaning of `AI_GET_FREQUENCY`. -/
def execAiGetFrequency (s : State) : Host.Outcome State Fault Refusal :=
  command .aiGetFrequency (reply aiGetFrequency) s

end Sys2Proof.Machine
end

