-- ==== Sys2Proof/Machine/SampleBuffer.lean ====
section
/-!
DEFINITION. The sample-buffer cache (spec/42_sample_buffer.md R180 to R201): the internal procedures the mixer engine calls on its
own instances, and the `SB_*` commands but `SB_GET`, whose decoder call is in Decoder.lean.
-/

namespace Sys2Proof.Machine

/-! ### Internal procedures -/

/-- The empty state at position `p` (R184, R188, R193). -/
def SampleBuf.emptyAt (b : SampleBuf) (p : Nat) : SampleBuf := { b with wpos := w32 p, widx := 0, ridx := 0 }

/-- An instance bound to a region: 16-bit, empty, no decoder (R181). -/
def SampleBuf.bound (base bytes : Word) : SampleBuf := ⟨true, base, bytes, 1, 0, 0, 0, 0, 0⟩

/-- `SbInit(i, base, bytes)` (R181); the region is invalidated before any state is written (R81). -/
def sbInitProc (i : Nat) (base bytes : Word) : Act Unit :=
  modify fun s => (s.invalidate base.toNat bytes.toNat).modSb i fun _ => SampleBuf.bound base bytes

/-- `SbFlush(i)` (R184). -/
def sbFlushProc (i : Nat) : Act Unit := modify fun s => s.modSb i fun b => b.emptyAt 0

/-- The window after its first `k` samples are gone, `k < widx` (R193). -/
def SampleBuf.dropped (b : SampleBuf) (p k : Nat) : SampleBuf :=
  { b with wpos := w32 p, widx := w32 (b.widx.toNat - k), ridx := w32 (b.ridx.toNat - k) }

/-- `SbDiscard(i, p)` (R193, R194). -/
def sbDiscardProc (i p : Nat) : Act Unit := do
  let s ← get
  let b := s.sb i
  let k := p - b.wpos.toNat
  if p ≤ b.wpos.toNat then pure ()
  else if b.widx.toNat ≤ k then modify fun s => s.modSb i fun b => b.emptyAt p
  else do
    copyBytes (b.idxPtr k) b.base.toNat ((b.widx.toNat - k) * 2 ^ b.bps.toNat)
    modify fun s => s.modSb i fun b => b.dropped p k

/-- The window grown by `n` samples (R191). -/
def SampleBuf.grown (b : SampleBuf) (n : Nat) : SampleBuf := { b with widx := w32 (b.widx.toNat + n) }

/-- What an append that does not fit does first: it evicts up to the read cursor, rounded down to 8 samples, and it is a
fault if that is not enough (R191, R192). -/
def sbMakeRoom (i n : Nat) : Act Unit := do
  let s ← get
  if (s.sb i).widx.toNat + n ≤ (s.sb i).size then pure ()
  else do
    sbDiscardProc i ((s.sb i).wpos.toNat + roundDown8 (s.sb i).ridx.toNat)
    let s ← get
    ensure ((s.sb i).widx.toNat + n ≤ (s.sb i).size) .bufferTooSmall (w32 n)

/-- `SbAppend(i, n)` (R191). -/
def sbAppendProc (i n : Nat) : Act Word := do
  sbMakeRoom i n
  let s ← get
  let p := (s.sb i).idxPtr (s.sb i).widx.toNat
  modify fun s => s.modSb i fun b => b.grown n
  resultWord p

/-! ### The common checks (R180) -/

/-- Checks (1) and (2). -/
def sbIndex (ch : Byte) : Act Unit := do
  checkIssuer
  ensure (ch.toNat < tableSize) .badArg (ch.setWidth 32)

/-- Checks (1), (2) and (3). -/
def sbOn (ch : Byte) : Act Unit := do
  sbIndex ch
  let s ← get
  ensureState ((s.sb ch.toNat).on = true)

/-! ### Commands -/

/-- `SB_INIT ch, base, bytes` (R181). -/
def sbInit (ch : Byte) (base bytes : Word) : Act Unit := do
  sbIndex ch
  let s ← get
  ensure (base.toNat % 8 = 0 ∧ bytes ≠ 0) .badArg base
  ensure (base.toNat + bytes.toNat ≤ s.memBytes) .badAddr base
  sbInitProc ch.toNat base bytes

/-- Meaning of `SB_INIT`. -/
def execSbInit (ch : Byte) (base bytes : Word) (s : State) : Host.Outcome State Fault Refusal :=
  command (.sbInit ch base bytes) (replyNone (sbInit ch base bytes)) s

/-- `SB_SET_BIT_WIDTH ch, bits` (R182). -/
def sbSetBitWidth (ch : Byte) (bits : Half) : Act Unit := do
  sbOn ch
  let s ← get
  ensure (bits = 8 ∨ bits = 16) .badArg (bits.setWidth 32)
  ensureState ((s.sb ch.toNat).widx = 0)
  modify fun s => s.modSb ch.toNat fun b => { b with bps := BitVec.ofNat 2 (bpsOf bits.toNat) }

/-- Meaning of `SB_SET_BIT_WIDTH`. -/
def execSbSetBitWidth (ch : Byte) (bits : Half) (s : State) : Host.Outcome State Fault Refusal :=
  command (.sbSetBitWidth ch bits) (replyNone (sbSetBitWidth ch bits)) s

/-- `SB_SET_DECODER ch, fn, ctx` (R183). -/
def sbSetDecoder (ch : Byte) (fn ctx : Word) : Act Unit := do
  sbOn ch
  ensure (¬ reservedHandle fn) .badArg fn
  modify fun s => s.modSb ch.toNat fun b => { b with decFn := fn, decCtx := ctx }

/-- Meaning of `SB_SET_DECODER`. -/
def execSbSetDecoder (ch : Byte) (fn ctx : Word) (s : State) : Host.Outcome State Fault Refusal :=
  command (.sbSetDecoder ch fn ctx) (replyNone (sbSetDecoder ch fn ctx)) s

/-- `SB_APPEND ch, wlen` (R191). -/
def sbAppend (ch : Byte) (wlen : Word) : Act (List Word) := do
  sbOn ch
  let p ← sbAppendProc ch.toNat wlen.toNat
  pure [p]

/-- Meaning of `SB_APPEND`. -/
def execSbAppend (ch : Byte) (wlen : Word) (s : State) : Host.Outcome State Fault Refusal :=
  command (.sbAppend ch wlen) (reply (sbAppend ch wlen)) s

/-- `SB_DISCARD ch, wpos` (R193). -/
def sbDiscard (ch : Byte) (wpos : Word) : Act Unit := do
  sbOn ch
  sbDiscardProc ch.toNat wpos.toNat

/-- Meaning of `SB_DISCARD`. -/
def execSbDiscard (ch : Byte) (wpos : Word) (s : State) : Host.Outcome State Fault Refusal :=
  command (.sbDiscard ch wpos) (replyNone (sbDiscard ch wpos)) s

/-- `SB_FLUSH ch` (R184). -/
def sbFlush (ch : Byte) : Act Unit := do
  sbOn ch
  sbFlushProc ch.toNat

/-- Meaning of `SB_FLUSH`. -/
def execSbFlush (ch : Byte) (s : State) : Host.Outcome State Fault Refusal :=
  command (.sbFlush ch) (replyNone (sbFlush ch)) s

end Sys2Proof.Machine
end

