-- ==== Sys2Proof/Machine/Channel.lean ====
section
/-!
DEFINITION. The channel commands and the engine's two one-line settings (spec/43_mixer_channel.md R213 to R229), with the lazy buffer
allocation (R217), the descriptor lengths (R220) and the source pointer (R260) that the mixer's exec shares.
-/

namespace Sys2Proof.Machine

/-! ### Common checks (R215) -/

/-- `if MX_ON = 0: raise Fatal(BAD_STATE, OP)`, after the issuer check. -/
def mxOn : Act Unit := do
  checkIssuer
  let s ← get
  ensureState (s.mx.on = true)

/-- Checks (1), (2) and (3). -/
def chanChecks (ch : Byte) : Act Unit := do
  mxOn
  let s ← get
  ensure (ch.toNat < s.mx.nch.toNat) .badArg (ch.setWidth 32)

/-! ### `MX_SAMPLE_RATE` and `MX_SET_MASTER_VOLUME` (R213, R214) -/

/-- Updates the engine. -/
def State.modMx (s : State) (f : Mixer → Mixer) : State := { s with mx := f s.mx }

/-- `MX_SAMPLE_RATE`. -/
def mxSampleRate : Act (List Word) := do
  mxOn
  let s ← get
  pure [s.mx.rate]

/-- Meaning of `MX_SAMPLE_RATE`. -/
def execMxSampleRate (s : State) : Host.Outcome State Fault Refusal := command .mxSampleRate (reply mxSampleRate) s

/-- `MX_SET_MASTER_VOLUME vol`. -/
def mxSetMasterVolume (vol : Word) : Act Unit := do
  mxOn
  let v ← volQ15 vol
  modify fun s => s.modMx fun m => { m with master := v }

/-- Meaning of `MX_SET_MASTER_VOLUME`. -/
def execMxSetMasterVolume (vol : Word) (s : State) : Host.Outcome State Fault Refusal :=
  command (.mxSetMasterVolume vol) (replyNone (mxSetMasterVolume vol)) s

/-! ### Lazy buffer allocation (R217) -/

/-- `B[c]`. -/
def State.bufBytes (s : State) (c : Nat) : Nat :=
  let lim := (s.chan c).limits
  if lim.maxBuf ≠ 0 then lim.maxBuf.toNat else autoBufBytes s.params.autoBuf lim s.mx.rate s.ring.nf

/-- The sum of `B[0 .. MX_NCH-1]`. -/
def State.bufTotal (s : State) : Nat := ((List.range s.mx.nch.toNat).map s.bufBytes).sum

/-- The bit-width shift of a channel's limits. -/
def Limits.bps (l : Limits) : Nat := bpsOf l.maxBits.toNat

/-- Binds `n` instances from `c` on to consecutive pieces of memory from `a` on. -/
def bindBuffers (c a : Nat) : Nat → Act Unit
  | 0 => pure ()
  | n + 1 => do
    let s ← get
    sbInitProc c (w32 a) (w32 (s.bufBytes c))
    modify fun s => s.modSb c fun b => { b with bps := BitVec.ofNat 2 (s.chan c).limits.bps }
    bindBuffers (c + 1) (a + s.bufBytes c) n

/-- `EnsureBuffers()`. -/
def ensureBuffers : Act Unit := do
  let s ← get
  if s.mx.bufMem ≠ 0 then pure ()
  else do
    let a ← alloc s.bufTotal
    match a with
    | none => do
      let info ← resultWord s.bufTotal
      raise .noMemory info
    | some a => do
      modify fun s => s.modMx fun m => { m with bufMem := a }
      bindBuffers 0 a.toNat s.mx.nch.toNat

/-! ### Descriptor fields (R220, R260) -/

/-- `DescLengths(c)` (R220). -/
def descLengths (c : Nat) : Act Unit := do
  let s ← get
  let w := (s.chan c).wave
  let k := (s.desc c).scale
  match s.strategy c with
  | .noLoop =>
    modify fun s => s.modDesc c fun d => { d with len := w32 (min (w.len.toNat * k) descLenMax.toNat), loopLen := 0 }
  | .resident => do
    ensure (w.len.toNat * k ≤ descLenMax.toNat) .posOverflow (w32 c)
    modify fun s => s.modDesc c fun d => { d with len := w32 (w.len.toNat * k), loopLen := w32 (w.loop.toNat * k) }
  | .unrolled => modify fun s => s.modDesc c fun d => { d with len := descLenMax, loopLen := 0 }

/-- `(SB[c].base - (SB[c].wpos << b)) mod 2^32`. -/
def SampleBuf.preAdjusted (sb : SampleBuf) (b : Nat) : Word := sb.base - w32 (sb.wpos.toNat * 2 ^ b)

/-- `SetPtr(c)` (R260). -/
def setPtr (c : Nat) : Act Unit := do
  let s ← get
  let p := (s.sb c).preAdjusted (s.desc c).bps
  ensure (p ≠ 0) .nullPtrAlias (w32 c)
  modify fun s => s.modDesc c fun d => { d with ptr := p }

/-! ### `CH_PLAY` (R218, R219) -/

/-- The waveform record at an address, through the CPU's uncached view, which needs no maintenance (R72, R80, R114, R381). -/
def State.waveAt (s : State) (a : Word) : Wave :=
  let field (k : Nat) : Word := s.cpuWord (a.toNat + k)
  ⟨a, (field 0x04).setWidth 8, field 0x08, field 0x0C, field 0x10, field 0x14, field 0x18⟩

/-- The waveform record is one a channel can play: its bit depth is the whole word 8 or 16, and so on (R218). -/
abbrev State.waveLegal (s : State) (a : Word) : Prop :=
  let w := s.waveAt a
  let bits := s.cpuWord (a.toNat + 0x04)
  (bits = 8 ∨ bits = 16) ∧ w.freq ≠ 0 ∧ w.loop ≤ w.len ∧ w.read ≠ 0 ∧ ¬ reservedHandle w.read

/-- The waveform is within the channel's limits (R218). -/
abbrev Limits.admits (l : Limits) (w : Wave) : Prop := w.bits ≤ l.maxBits ∧ w.freq ≤ l.maxFreq

/-- A play of a waveform that is not the bound one (R219): flush, bit width, decoder, binding. -/
def rebind (c b : Nat) (wave : Word) : Act Unit := do
  sbFlushProc c
  modify fun s => s.modSb c fun x => { x with bps := BitVec.ofNat 2 b, decFn := wrapCb, decCtx := w32 c }
  modify fun s => s.modChan c fun x => { x with wave := { x.wave with id := wave } }

/-- The descriptor of a channel that starts to play, but for its lengths and pointer. -/
def Desc.started (d : Desc) (step : Word) (b : Nat) : Desc := { d with flags := flagsOf b, pos := 0, step := step }

/-- `CH_PLAY ch, wave`. -/
def chPlay (ch : Byte) (wave : Word) : Act Unit := do
  chanChecks ch
  let c := ch.toNat
  ensure (wave ≠ 0) .badArg wave
  let s ← get
  ensure (wave.toNat + 0x1C ≤ s.memBytes) .badAddr wave
  let w := s.waveAt wave
  ensure (s.waveLegal wave) .badArg wave
  ensure ((s.chan c).limits.admits w) .limitExceeded (w32 c)
  ensureBuffers
  let b := bpsOf w.bits.toNat
  let old := (s.chan c).wave.id
  modify fun s => s.modChan c fun x => { x with wave := { w with id := old } }
  if old = wave then pure () else rebind c b wave
  modify fun s => s.modDesc c fun d => d.started (stepOf w.freq s.mx.rate b) b
  descLengths c
  setPtr c

/-- Meaning of `CH_PLAY`. -/
def execChPlay (ch : Byte) (wave : Word) (s : State) : Host.Outcome State Fault Refusal :=
  command (.chPlay ch wave) (replyNone (chPlay ch wave)) s

/-! ### `CH_STOP` and `CH_PLAYING` (R221, R222) -/

/-- A channel that `CH_STOP` made Idle. -/
def Channel.stopped (x : Channel) : Channel := { x with desc := { x.desc with ptr := 0 }, wave := { x.wave with id := 0 } }

/-- `CH_STOP ch`. -/
def chStop (ch : Byte) : Act Unit := do
  chanChecks ch
  modify fun s => (s.modChan ch.toNat Channel.stopped).modSb ch.toNat fun b => { b with decFn := 0, decCtx := 0 }

/-- Meaning of `CH_STOP`. -/
def execChStop (ch : Byte) (s : State) : Host.Outcome State Fault Refusal :=
  command (.chStop ch) (replyNone (chStop ch)) s

/-- A `bool` result (R106). -/
def boolWord (b : Bool) : Word := if b then 1 else 0

/-- `CH_PLAYING ch`. -/
def chPlaying (ch : Byte) : Act (List Word) := do
  chanChecks ch
  let s ← get
  pure [boolWord (decide (s.playing ch.toNat))]

/-- Meaning of `CH_PLAYING`. -/
def execChPlaying (ch : Byte) (s : State) : Host.Outcome State Fault Refusal :=
  command (.chPlaying ch) (reply (chPlaying ch)) s

/-! ### Frequency and position (R223 to R225) -/

/-- `CH_SET_FREQUENCY ch, freq`. -/
def chSetFrequency (ch : Byte) (freq : Word) : Act Unit := do
  chanChecks ch
  let s ← get
  ensure (freq ≤ (s.chan ch.toNat).limits.maxFreq) .limitExceeded (ch.setWidth 32)
  modify fun s => s.modDesc ch.toNat fun d => { d with step := stepOf freq s.mx.rate d.bps }

/-- Meaning of `CH_SET_FREQUENCY`. -/
def execChSetFrequency (ch : Byte) (freq : Word) (s : State) : Host.Outcome State Fault Refusal :=
  command (.chSetFrequency ch freq) (replyNone (chSetFrequency ch freq)) s

/-- The descriptor position that `CH_SET_POSITION` computes, before its range check. -/
def State.positionField (s : State) (c : Nat) (pos : Word) : Nat :=
  intoLoop (s.chan c).wave pos.toNat * 2 ^ (s.desc c).bps

/-- `CH_SET_POSITION ch, pos`. -/
def chSetPosition (ch : Byte) (pos : Word) : Act Unit := do
  chanChecks ch
  let s ← get
  let v := s.positionField ch.toNat pos
  ensure (v ≤ 0xFFFFFFFF) .posOverflow (ch.setWidth 32)
  modify fun s => s.modDesc ch.toNat fun d => { d with pos := w32 v }

/-- Meaning of `CH_SET_POSITION`. -/
def execChSetPosition (ch : Byte) (pos : Word) (s : State) : Host.Outcome State Fault Refusal :=
  command (.chSetPosition ch pos) (replyNone (chSetPosition ch pos)) s

/-- The position that `CH_GET_POSITION` reports. -/
def State.reportedPosition (s : State) (c : Nat) : Word :=
  w32 (intoLoop (s.chan c).wave ((s.desc c).pos.toNat / 2 ^ (s.desc c).bps))

/-- `CH_GET_POSITION ch`. -/
def chGetPosition (ch : Byte) : Act (List Word) := do
  chanChecks ch
  let s ← get
  pure [s.reportedPosition ch.toNat]

/-- Meaning of `CH_GET_POSITION`. -/
def execChGetPosition (ch : Byte) (s : State) : Host.Outcome State Fault Refusal :=
  command (.chGetPosition ch) (reply (chGetPosition ch)) s

/-! ### Volume (R226 to R228) -/

/-- `VOL[c] <- {VolQ15(l), VolQ15(r)}`. -/
def setVolume (c : Nat) (l r : Word) : Act Unit := do
  let vl ← volQ15 l
  let vr ← volQ15 r
  modify fun s => s.modChan c fun x => { x with vol := ⟨vl, vr⟩ }

/-- `CH_SET_VOLUME ch, l, r`. -/
def chSetVolume (ch : Byte) (l r : Word) : Act Unit := do
  chanChecks ch
  setVolume ch.toNat l r

/-- Meaning of `CH_SET_VOLUME`. -/
def execChSetVolume (ch : Byte) (l r : Word) (s : State) : Host.Outcome State Fault Refusal :=
  command (.chSetVolume ch l r) (replyNone (chSetVolume ch l r)) s

/-- A q16 operand of at most 1.0. -/
def fraction (x : Word) : Act Unit := ensure (x ≤ q16One) .badArg x

/-- `CH_SET_PAN ch, vol, pan`. -/
def chSetPan (ch : Byte) (vol pan : Word) : Act Unit := do
  chanChecks ch
  fraction vol
  fraction pan
  let s ← get
  let p := panLaw s.params.panLaw vol pan
  setVolume ch.toNat p.1 p.2

/-- Meaning of `CH_SET_PAN`. -/
def execChSetPan (ch : Byte) (vol pan : Word) (s : State) : Host.Outcome State Fault Refusal :=
  command (.chSetPan ch vol pan) (replyNone (chSetPan ch vol pan)) s

/-- `CH_SET_DOLBY ch, fl, fr, c, sl, sr`. -/
def chSetDolby (ch : Byte) (fl fr c sl sr : Word) : Act Unit := do
  chanChecks ch
  forList fraction [fl, fr, c, sl, sr]
  let p := Config.dolbyMatrix fl fr c sl sr
  setVolume ch.toNat (clampOne p.1) (clampOne p.2)

/-- Meaning of `CH_SET_DOLBY`. -/
def execChSetDolby (ch : Byte) (fl fr c sl sr : Word) (s : State) : Host.Outcome State Fault Refusal :=
  command (.chSetDolby ch fl fr c sl sr) (replyNone (chSetDolby ch fl fr c sl sr)) s

/-! ### `CH_SET_LIMITS` (R216) -/

/-- Some channel of the engine is Playing. -/
abbrev State.anyPlaying (s : State) : Prop := ∃ c ∈ List.range s.mx.nch.toNat, s.playing c

/-- `if MX_BUFMEM ≠ 0: free MX_BUFMEM`. -/
def freeBufMem : Act Unit := do
  let s ← get
  if s.mx.bufMem = 0 then pure () else freeRegion s.mx.bufMem

/-- Every engine-bound instance off and every channel unbound. -/
def State.unbindAll (s : State) : State :=
  { s with
    sbs := Table.mapBelow s.sbs s.mx.nch.toNat fun _ b => { b with on := false }
    chans := Table.mapBelow s.chans s.mx.nch.toNat fun _ x => { x with wave := { x.wave with id := 0 } } }

/-- `CH_SET_LIMITS ch, max_bits, max_freq, max_buf`. -/
def chSetLimits (ch : Byte) (maxBits maxFreq maxBuf : Word) : Act Unit := do
  chanChecks ch
  ensure (maxBits = 8 ∨ maxBits = 16) .badArg maxBits
  ensure (maxFreq ≠ 0) .badArg maxFreq
  ensure (maxBuf.toNat % 8 = 0) .badArg maxBuf
  let s ← get
  ensureState (¬ s.anyPlaying)
  modify fun s => s.modChan ch.toNat fun x => { x with limits := ⟨maxBits.setWidth 8, maxFreq, maxBuf⟩ }
  freeBufMem
  modify fun s => (s.modMx fun m => { m with bufMem := 0 }).unbindAll

/-- Meaning of `CH_SET_LIMITS`. -/
def execChSetLimits (ch : Byte) (maxBits maxFreq maxBuf : Word) (s : State) : Host.Outcome State Fault Refusal :=
  command (.chSetLimits ch maxBits maxFreq maxBuf) (replyNone (chSetLimits ch maxBits maxFreq maxBuf)) s

end Sys2Proof.Machine
end

