-- ==== Sys2Proof/Machine/Events.lean ====
section
/-!
DEFINITION. The event scheduler's commands and list (spec/45_event_scheduler.md R290 to R295); firing an event, which calls host
code, is in Mixer.lean.
-/

namespace Sys2Proof.Machine

/-- `MAX_EVENTS` (R12). -/
def maxEvents : Nat := 32

/-! ### `EV_ADD` and `EV_REMOVE` (R290, R291) -/

/-- The list with one more record; its identity is one no record has had (R295). -/
def State.addEvent (s : State) (tick : Dword) (cb ctx : Word) : State :=
  { s with events := s.events ++ [⟨s.nextEvent, tick, cb, ctx⟩], nextEvent := s.nextEvent + 1 }

/-- `EV_ADD delay, cb, ctx`. -/
def evAdd (delay cb ctx : Word) : Act Unit := do
  mxOn
  ensure (cb ≠ 0 ∧ ¬ reservedHandle cb) .badArg cb
  let s ← get
  ensure (s.events.length ≠ maxEvents) .eventFull cb
  let tick ← laterTick s.mx.ticks delay.toNat
  modify fun s => s.addEvent tick cb ctx

/-- Meaning of `EV_ADD`. -/
def execEvAdd (delay cb ctx : Word) (s : State) : Host.Outcome State Fault Refusal :=
  command (.evAdd delay cb ctx) (replyNone (evAdd delay cb ctx)) s

/-- The list without its first record of a callback. -/
def withoutFirst (events : List Event) (cb : Word) : List Event := events.eraseP fun e => e.cb == cb

/-- `EV_REMOVE cb`. -/
def evRemove (cb : Word) : Act Unit := do
  mxOn
  let s ← get
  ensure (∃ e ∈ s.events, e.cb = cb) .eventNotFound cb
  modify fun s => { s with events := withoutFirst s.events cb }

/-- Meaning of `EV_REMOVE`. -/
def execEvRemove (cb : Word) (s : State) : Host.Outcome State Fault Refusal :=
  command (.evRemove cb) (replyNone (evRemove cb)) s

/-! ### The list inside a poll (R292 to R295) -/

/-- `NextTick()`: the least tick; `none` is ∞ (R292). -/
def nextTick (events : List Event) : Option Nat := (events.map fun e => e.tick.toNat).min?

/-- The due records (R293). -/
def State.dueEvents (s : State) : List Event := s.events.filter fun e => decide (e.tick ≤ s.mx.ticks)

/-- The due records with the least tick, among which the choice is free (R294). -/
def State.firstDue (s : State) : List Event :=
  s.dueEvents.filter fun e => some e.tick.toNat == nextTick s.dueEvents

/-- One of several events; `none` only where there is none. -/
def pickEvent (es : List Event) (choice : Nat) : Option Event := es[choice % es.length]?

/-- `ReturnHandling(e, r)` (R295). -/
def returnHandling (id : Nat) (r : Word) : Act Unit := do
  let s ← get
  if s.events.any (fun e => e.id == id) then
    if r = 0 then modify fun s => { s with events := s.events.eraseP fun e => e.id == id }
    else do
      let tick ← laterTick s.mx.ticks r.toNat
      modify fun s => { s with events := s.events.map fun e => if e.id = id then { e with tick := tick } else e }
  else pure ()

end Sys2Proof.Machine
end

