-- ==== Sys2Proof/Machine/Decoder.lean ====
section
/-!
DEFINITION. Windowed reads and the decoder calls they make: `CallDecoder` (spec/42_sample_buffer.md R200), the loop-aware read
wrapper (spec/43_mixer_channel.md R230 to R234), `SbGet` (R188) and the command `SB_GET` (R187).
-/

namespace Sys2Proof.Machine

/-- A packet from a decoder: `SB_APPEND` is the one command it may issue (R105, R199), on its own instance alone. -/
def decoderIssue (p : Packet) : Act Unit :=
  match decode p.words with
  | .instr (.sbAppend ch wlen) _ => subCommand (.sbAppend ch wlen) (sbAppend ch wlen)
  | _ => refusePacket p

/-- A `bool` argument of a callback. -/
def boolArg (b : Bool) : Nat := if b then 1 else 0

/-- One decoder call, `read(ctx, i, wpos, wlen, seeking)`, in context DECODER(i) (R199, R200, R231). -/
def rawRead (i : Nat) (fn ctx : Word) (p n : Nat) (seeking : Bool) : Act Unit := do
  let _ ← callHost decoderIssue boundary (.decoder i) fn [ctx.toNat, i, p, n, boolArg seeking]
  pure ()

/-- The loop-body segments of a request (R231); each one is at least one sample long, which bounds their number. -/
def loopSegments (c : Nat) (w : Wave) : Nat → Nat → Act Unit
  | 0, _ => pure ()
  | fuel + 1, rem =>
    if rem = 0 then pure ()
    else do
      rawRead c w.read w.ctx w.loopStart (min w.loop.toNat rem) true
      loopSegments c w fuel (rem - min w.loop.toNat rem)

/-- The waveform position of an unrolled cache position (R232). -/
def Wave.rolled (w : Wave) (p : Nat) : Nat :=
  if w.len.toNat ≤ p then w.loopStart + (p - w.loopStart) % w.loop.toNat else p

/-- The largest remainder behind the pre-loop segment that is no double traversal (R233). -/
def Wave.maxRemainder (w : Wave) : Nat := max w.loop.toNat loopOverread + 7

/-- `ReadWrapper(c, p, n, seeking)` (R231). -/
def readWrapper (c p n : Nat) (seeking : Bool) : Act Unit := do
  let s ← get
  let w := (s.chan c).wave
  if w.loop = 0 then
    if w.len.toNat ≤ p then pure () else rawRead c w.read w.ctx p (min n (w.len.toNat - p)) seeking
  else do
    let q := w.rolled p
    let m := min n (w.len.toNat - q)
    rawRead c w.read w.ctx q m (seeking || decide (w.len.toNat ≤ p))
    if n - m ≤ w.maxRemainder then loopSegments c w (n - m) (n - m)
    else do
      let info ← resultWord (n - m)
      raise .dualLoop info

/-- `CallDecoder(i, p, n, seeking)` (R200). -/
def callDecoder (i p n : Nat) (seeking : Bool) : Act Unit := do
  let s ← get
  let b := s.sb i
  if n = 0 ∨ b.decFn = 0 then pure ()
  else if b.decFn = wrapCb then readWrapper i p n seeking
  else rawRead i b.decFn b.decCtx p n seeking

/-- A miss: the instance is flushed, positioned at `p`, and refilled (R188, R189). -/
def sbMiss (i p n : Nat) : Act Unit := do
  sbFlushProc i
  modify fun s => s.modSb i fun b => { b with wpos := w32 p }
  callDecoder i p (roundUp8 n) true

/-- A hit: the read cursor moves, and a missing tail is topped up (R188, R189, R201). -/
def sbHit (i p n : Nat) : Act Unit := do
  let s ← get
  let b := s.sb i
  let e := p - b.wpos.toNat + n
  modify fun s => s.modSb i fun b => { b with ridx := w32 (p - b.wpos.toNat) }
  if b.widx.toNat < e then callDecoder i (b.wpos.toNat + b.widx.toNat) (roundUp8 e - b.widx.toNat) false
  else pure ()

/-- `SbGet(i, p, n)` (R188): the index pointer and the count. -/
def sbGetProc (i p n : Nat) : Act (Nat × Nat) := do
  let s ← get
  if (s.sb i).hit p then sbHit i p n else sbMiss i p n
  let t ← get
  let b := t.sb i
  let j := p - b.wpos.toNat
  modify fun s => s.modSb i fun b => { b with ridx := w32 j }
  pure (b.idxPtr j, min n (b.widx.toNat - j))

/-- `SB_GET ch, wpos, wlen` (R187). -/
def sbGet (ch : Byte) (wpos wlen : Word) : Act (List Word) := do
  sbOn ch
  ensure (wpos.toNat + wlen.toNat ≤ 0xFFFFFFFF) .badArg wpos
  let r ← sbGetProc ch.toNat wpos.toNat wlen.toNat
  let p ← resultWord r.1
  pure [p, w32 r.2]

/-- Meaning of `SB_GET`. -/
def execSbGet (ch : Byte) (wpos wlen : Word) (s : State) : Host.Outcome State Fault Refusal :=
  command (.sbGet ch wpos wlen) (reply (sbGet ch wpos wlen)) s

end Sys2Proof.Machine
end

