-- ==== Sys2Proof/Machine/Exec.lean ====
section
/-!
DEFINITION. The engine's internal operation `MX_EXEC` (spec/44_mixer_exec.md R250 to R267, R277, R279): the channels' windows, the
synchronous hand-off to the coprocessor, the read-back and the post-check.
-/

namespace Sys2Proof.Machine

/-! ### One channel (R251 to R260) -/

/-- Both positions of a strategy-3 channel move back by one loop (R257). -/
def State.rewrapped (s : State) (c : Nat) : State :=
  let w := (s.chan c).wave
  (s.modDesc c fun d => { d with pos := d.pos - w32 (w.loop.toNat * d.scale) }).modSb c fun b =>
    { b with wpos := b.wpos - w.loop }

/-- `Rewrap(c)` (R257). -/
def rewrap (c : Nat) : Act Unit := do
  let s ← get
  let l := (s.chan c).wave.len.toNat
  if l ≤ (s.desc c).pos.toNat / (s.desc c).scale ∧ l ≤ (s.sb c).wpos.toNat then modify fun s => s.rewrapped c
  else pure ()

/-- `ZeroFill(c, j0, j1)` (R259). -/
def zeroFill (c j0 j1 : Nat) : Act Unit := do
  let s ← get
  blockZero ((s.sb c).idxPtr j0) ((j1 - j0) * 2 ^ (s.sb c).bps.toNat)

/-- `GetWindow(c, start, wlen)` (R258, R259). -/
def getWindow (c start wlen : Nat) : Act Unit := do
  let r ← sbGetProc c start wlen
  let s ← get
  let j := start - (s.sb c).wpos.toNat
  ensure (j + wlen ≤ (s.sb c).size) .bufferTooSmall (w32 c)
  if r.2 < wlen then zeroFill c (j + r.2) (j + wlen) else pure ()

/-- The last three steps of `ExecChannel` for the window [start, last] (R251). -/
def fetchWindow (c start last : Nat) : Act Unit := do
  descLengths c
  getWindow c start (last - start + 1)
  setPtr c

/-- Playing to Idle, the binding kept (R253, R267). -/
def Desc.deactivated (d : Desc) : Desc := { d with ptr := 0 }

/-- Strategy 1 (R253). -/
def windowNoLoop (c wpos wlast len : Nat) : Act Unit :=
  if len ≤ wpos then modify fun s => s.modDesc c Desc.deactivated
  else fetchWindow c wpos (min wlast (len - 1))

/-- The discard before a loop becomes resident (R254, R255). -/
def dropBeforeLoop (c loopStart : Nat) : Act Unit := do
  let s ← get
  let w := (s.sb c).wpos.toNat
  if w < loopStart then sbDiscardProc c (w + roundDown8 (loopStart - w)) else pure ()

/-- Strategy 2 (R254). -/
def windowResident (c wpos wlast : Nat) (w : Wave) : Act Unit :=
  if w.loopStart ≤ wpos then do
    dropBeforeLoop c w.loopStart
    fetchWindow c w.loopStart (w.len.toNat - 1 + loopOverread)
  else fetchWindow c wpos (min wlast (w.len.toNat - 1) + loopOverread)

/-- The first and the last sample the `n` frames need (R251). -/
def Desc.window (d : Desc) (n : Nat) : Nat × Nat :=
  (d.pos.toNat / d.scale, (d.pos.toNat + d.step.toNat * (n - 1)) / d.scale)

/-- `ExecChannel(c, n)` (R251). -/
def execChannel (c n : Nat) : Act Unit := do
  let s ← get
  let st := s.strategy c
  if st = .unrolled then rewrap c else pure ()
  let t ← get
  let d := t.desc c
  ensure (st = .resident ∨ d.pos.toNat + d.step.toNat * n ≤ 0xFFFFFFFF) .posOverflow (w32 c)
  let w := (t.chan c).wave
  match st with
  | .noLoop => windowNoLoop c (d.window n).1 (d.window n).2 w.len.toNat
  | .resident => windowResident c (d.window n).1 (d.window n).2 w
  | .unrolled => fetchWindow c (d.window n).1 (d.window n).2

/-- `if DESC[c].ptr ≠ 0: ExecChannel(c, n)` (R250). -/
def execActive (n c : Nat) : Act Unit := do
  let s ← get
  if s.playing c then execChannel c n else pure ()

/-! ### Read-back and post-check (R266, R267) -/

/-- `ReadBack()`. -/
def State.readBack (s : State) : State :=
  { s with
    chans := Table.mapBelow s.chans s.mx.nch.toNat fun c x =>
      if x.desc.ptr = 0 then x else { x with desc := { x.desc with pos := (jobDesc s.coproc.mem c).pos } } }

/-- A channel whose position has passed the end of a waveform without a loop. -/
abbrev Channel.ended (x : Channel) : Prop :=
  x.desc.ptr ≠ 0 ∧ x.wave.loop = 0 ∧ x.wave.len.toNat ≤ x.desc.pos.toNat / x.desc.scale

/-- `PostCheck()`. -/
def State.postCheck (s : State) : State :=
  { s with
    chans := Table.mapBelow s.chans s.mx.nch.toNat fun _ x =>
      if x.ended then { x with desc := x.desc.deactivated } else x }

/-! ### The hand-off (R263, R264) -/

/-- The coprocessor acquired: `JOB_BUSY <- 1`, by the engine. -/
def State.acquired (s : State) : State := { s with coproc := { s.coproc with jobBusy := true, client := false } }

/-- The upload, the job, the read-back and the post-check, once the coprocessor is acquired: the hand-off whose job ends at once. -/
def State.mixed (s : State) (out n : Nat) : State := ((s.acquired.upload out n).runJob).readBack.postCheck

/-- How far a hand-off has come: it is over, it waits to acquire the coprocessor, or it waits for its job to end. -/
inductive Handoff where
  | over
  | acquiring
  | running
  deriving DecidableEq, Repr

/-- One look at the engine's job: once it is complete, the read-back and the post-check; `false` until then (R264, R266, R267).  It is the
engine's own job that the wait of R380 is for: a client that takes the coprocessor right after it does not prolong it. -/
def awaitJob : Act Bool := do
  jobBoundary
  let s ← get
  if s.coproc.engineJob then pure false
  else do
    set s.readBack.postCheck
    pure true

/-- One try to acquire the coprocessor, the upload and the trigger, and the first look at the job (R263, R264). -/
def tryHandoff (out n : Nat) : Act Handoff := do
  boundary
  let s ← get
  if s.coproc.jobBusy then pure .acquiring
  else do
    set (s.acquired.upload out n)
    let ended ← awaitJob
    pure (if ended then .over else .running)

/-! ### `MX_EXEC` (R250) -/

/-- What an invoked `MX_EXEC` ends its step with. -/
def Handoff.execReply (out n : Nat) : Handoff → Reply
  | .over => .done []
  | .acquiring => .wait (.execAcquire out n)
  | .running => .wait .execJob

/-- `MX_EXEC` as the sub-run loop invokes it, as far as its hand-off comes. -/
def mxExecRun (out n : Nat) : Act Handoff := do
  let s ← get
  forRange 0 (execActive n) s.mx.nch.toNat
  tryHandoff out n

/-- `MX_EXEC out, n`: illegal at the port, from any context (R104); the sub-run loop of `MX_POLL` alone may run it (R273). -/
def mxExec (out n : Word) : Act Reply := do
  let s ← get
  if s.mx.subRun = true then do
    let h ← mxExecRun out.toNat n.toNat
    pure (h.execReply out.toNat n.toNat)
  else raise .illegalCommand (Instr.mxExec out n).word0

/-- Meaning of `MX_EXEC`. -/
def execMxExec (out n : Word) (s : State) : Host.Outcome State Fault Refusal :=
  command (.mxExec out n) (mxExec out n) s

end Sys2Proof.Machine
end

