-- ==== Sys2Proof/Machine/Irq.lean ====
section
/-!
DEFINITION. The critical-section commands (spec/60_exceptions.md R341, R342).
-/

namespace Sys2Proof.Machine

/-- `IRQ_DISABLE`. -/
def irqDisable : Act Unit := do
  checkIssuer
  disableIrq

/-- Meaning of `IRQ_DISABLE`. -/
def execIrqDisable (s : State) : Host.Outcome State Fault Refusal := command .irqDisable (replyNone irqDisable) s

/-- `IRQ_ENABLE`. -/
def irqEnable : Act Unit := do
  checkIssuer
  enableIrq

/-- Meaning of `IRQ_ENABLE`. -/
def execIrqEnable (s : State) : Host.Outcome State Fault Refusal := command .irqEnable (replyNone irqEnable) s

end Sys2Proof.Machine
end

