-- ==== Sys2Proof/Machine/VideoSync.lean ====
section
/-!
DEFINITION. VideoSync (spec/46_videosync.md R310 to R316).
-/

namespace Sys2Proof.Machine

/-- `if VS_ON = 0: raise Fatal(BAD_STATE, OP)`, after the issuer check. -/
def vsOn : Act Unit := do
  checkIssuer
  let s ← get
  ensureState (s.vs.on = true)

/-- `VS_SPF` of a rate and a frame rate, exact (R311). -/
def samplesPerFrame (rate fps : Word) : Rat := (rate.toNat * 65536 : Nat) / (fps.toNat : Rat)

/-- `VS_INIT fps, rate` (R310). -/
def vsInit (fps rate : Word) : Act Unit := do
  checkIssuer
  ensure (fps ≠ 0) .badArg fps
  let s ← get
  ensureState (rate ≠ 0 ∨ s.mx.on = true)
  let r := if rate = 0 then s.mx.rate else rate
  ensure (2 ≤ samplesPerFrame r fps) .badArg fps
  modify fun s => { s with vs := ⟨true, fps, r, samplesPerFrame r fps, samplesPerFrame r fps⟩ }

/-- Meaning of `VS_INIT`. -/
def execVsInit (fps rate : Word) (s : State) : Host.Outcome State Fault Refusal :=
  command (.vsInit fps rate) (replyNone (vsInit fps rate)) s

/-- A frame count as its u32 result.  R312 does not state a count that does not fit; it stands as a free value that is even, at least 2, and
the same whenever the count is asked for (notes/assumptions/42.md). -/
def countWord (n : Nat) : Word :=
  if n < 2 ^ 32 then w32 n else w32 (2 * (Config.freeCount n % (2 ^ 31 - 1) + 1))

/-- A suggested size as its u32 result: it bounds the counts of every frame, which are `n` and `n - 2` (R314, R315). -/
def sizeWord (n : Nat) : Word := if countWord (n - 2) ≤ countWord n then countWord n else countWord (n - 2)

/-- `VS_SUGGESTED_BUFFER_SIZE` (R314). -/
def vsSuggestedBufferSize : Act (List Word) := do
  vsOn
  let s ← get
  pure [sizeWord (evenFrames s.vs.spf).toNat]

/-- Meaning of `VS_SUGGESTED_BUFFER_SIZE`. -/
def execVsSuggestedBufferSize (s : State) : Host.Outcome State Fault Refusal :=
  command .vsSuggestedBufferSize (reply vsSuggestedBufferSize) s

/-- `VS_CURRENT_FRAME_SAMPLES` (R312). -/
def vsCurrentFrameSamples : Act (List Word) := do
  vsOn
  let s ← get
  pure [countWord (evenFrames s.vs.counter).toNat]

/-- Meaning of `VS_CURRENT_FRAME_SAMPLES`. -/
def execVsCurrentFrameSamples (s : State) : Host.Outcome State Fault Refusal :=
  command .vsCurrentFrameSamples (reply vsCurrentFrameSamples) s

/-- The frame advanced (R313). -/
def VideoSync.advanced (v : VideoSync) : VideoSync :=
  { v with counter := v.counter - evenFrames v.counter + v.spf }

/-- `VS_NEXT_FRAME` (R313). -/
def vsNextFrame : Act Unit := do
  vsOn
  modify fun s => { s with vs := s.vs.advanced }

/-- Meaning of `VS_NEXT_FRAME`. -/
def execVsNextFrame (s : State) : Host.Outcome State Fault Refusal := command .vsNextFrame (replyNone vsNextFrame) s

end Sys2Proof.Machine
end

