-- ==== Sys2Proof/Machine/Mixer.lean ====
section
/-!
DEFINITION. The mixer engine's init, close and poll (spec/43_mixer_channel.md R210 to R212; spec/44_mixer_exec.md R269 to R274), with the
firing of events inside a poll (spec/45_event_scheduler.md R293, R296).
-/

namespace Sys2Proof.Machine

/-! ### `MX_INIT` (R210, R211) -/

/-- A channel at init: full volume, default limits, Idle, unbound. -/
def Channel.fresh (rate : Word) (x : Channel) : Channel :=
  { desc := ⟨0, 0, 0, 0, 0, 0⟩
    vol := ⟨0x7FFF, 0x7FFF⟩
    limits := ⟨16, w32 (rate.toNat * 65536), 0⟩
    wave := { x.wave with id := 0 } }

/-- The state `MX_INIT` sets up behind its ring. -/
def State.engineFresh (s : State) (channels : Half) (rate ring : Word) : State :=
  { s with
    ring := { s.ring with base := ring, w := 0, pending := none, inflight := [] }
    mx := { s.mx with
      nch := channels.setWidth 8, master := 0x7FFF, ticks := 0, bufMem := 0, inPoll := false, subRun := false }
    chans := s.chans.map (Channel.fresh rate)
    sbs := Table.mapBelow s.sbs channels.toNat fun _ b => { b with on := false }
    events := [] }

/-- `MX_INIT channels, rate`. -/
def mxInit (channels : Half) (rate : Word) : Act Unit := do
  checkIssuer
  let s ← get
  ensure (s.owner = .none) .ownerConflict (Config.ownerCode s.owner)
  ensure (channels ≠ 0 ∧ channels.toNat ≤ tableSize) .badArg (channels.setWidth 32)
  ensure (rateValid s.params.videoClockHz rate.toNat ∧ rate.toNat < 65536) .badArg rate
  let actual := actualRate s.params.videoClockHz rate.toNat
  modify fun s =>
    { s with mx := { s.mx with rate := w32 actual }, ring := { s.ring with nf := w32 (ringFrames actual) } }
  let a ← alloc (4 * ringFrames actual)
  match a with
  | none => raise .noMemory 0
  | some a => do
    blockZero a.toNat (4 * ringFrames actual)
    modify fun s => s.engineFresh channels rate a
    startDevice (dacrateReg s.params.videoClockHz rate.toNat)
    modify fun s => { s.modMx (fun m => { m with on := true }) with owner := .engine }

/-- Meaning of `MX_INIT`. -/
def execMxInit (channels : Half) (rate : Word) (s : State) : Host.Outcome State Fault Refusal :=
  command (.mxInit channels rate) (replyNone (mxInit channels rate)) s

/-! ### `MX_CLOSE` (R212) -/

/-- The engine shut down, its memory apart. -/
def State.engineOff (s : State) : State :=
  { s with
    sbs := Table.mapBelow s.sbs s.mx.nch.toNat fun _ b => { b with on := false }
    events := []
    mx := { s.mx with on := false }
    owner := .none }

/-- The end of `MX_CLOSE`, once the device has drained; until then the wait goes on. -/
def mxCloseWait : Act Reply := do
  let s ← get
  if s.ai.hwCount = 0 then do
    aiWrite .control 0
    freeRegion s.ring.base
    freeBufMem
    modify State.engineOff
    pure (.done [])
  else pure (.wait .mxClose)

/-- `MX_CLOSE`. -/
def mxClose : Act Reply := do
  mxOn
  critical (modify fun s => s.modRing fun r => { r with pending := none })
  boundary
  mxCloseWait

/-- Meaning of `MX_CLOSE`. -/
def execMxClose (s : State) : Host.Outcome State Fault Refusal := command .mxClose mxClose s

/-! ### Commands from event callbacks (R105, R296) -/

/-- The commands an event callback may issue, by name. -/
def eventBody (i : Instr) : Option (Act (List Word)) :=
  let quiet (body : Act Unit) : Act (List Word) := do
    body
    pure []
  match i with
  | .mxSampleRate => some mxSampleRate
  | .mxSetMasterVolume vol => some (quiet (mxSetMasterVolume vol))
  | .chPlay ch wave => some (quiet (chPlay ch wave))
  | .chStop ch => some (quiet (chStop ch))
  | .chPlaying ch => some (chPlaying ch)
  | .chSetFrequency ch freq => some (quiet (chSetFrequency ch freq))
  | .chSetPosition ch pos => some (quiet (chSetPosition ch pos))
  | .chGetPosition ch => some (chGetPosition ch)
  | .chSetVolume ch l r => some (quiet (chSetVolume ch l r))
  | .chSetPan ch vol pan => some (quiet (chSetPan ch vol pan))
  | .chSetDolby ch fl fr c sl sr => some (quiet (chSetDolby ch fl fr c sl sr))
  | .evAdd delay cb ctx => some (quiet (evAdd delay cb ctx))
  | .evRemove cb => some (quiet (evRemove cb))
  | .vsInit fps rate => some (quiet (vsInit fps rate))
  | .vsSuggestedBufferSize => some vsSuggestedBufferSize
  | .vsCurrentFrameSamples => some vsCurrentFrameSamples
  | .vsNextFrame => some (quiet vsNextFrame)
  | .irqDisable => some (quiet irqDisable)
  | .irqEnable => some (quiet irqEnable)
  | .aiInit .. | .aiClose | .aiSetFillCallback .. | .aiWriteBegin | .aiWriteEnd | .aiPush .. | .aiPause ..
  | .aiGetFrequency | .sbInit .. | .sbSetBitWidth .. | .sbSetDecoder .. | .sbGet .. | .sbAppend .. | .sbDiscard ..
  | .sbFlush .. | .mxInit .. | .mxClose | .mxPoll .. | .mxExec .. | .chSetLimits .. => none

/-- A packet from an event callback. -/
def eventIssue (p : Packet) : Act Unit :=
  match decode p.words with
  | .instr i _ =>
    match eventBody i with
    | some body => subCommand i body
    | none => refusePacket p
  | .illegal _ _ => refusePacket p
  | .short => refusePacket p

/-! ### Firing events (R293 to R295) -/

/-- `FireOne(e)` for one of the due records with the least tick. -/
def fireOne : Act Unit := do
  let choice ← drawTie
  let s ← get
  match pickEvent s.firstDue choice with
  | none => pure ()
  | some e => do
    let r ← callHost eventIssue boundary .event e.cb [e.ctx.toNat]
    returnHandling e.id r

/-! ### The output ring (R271, R272, R274) -/

/-- Where a block of `n` frames starts: never split across the ring's end. -/
def Ring.offset (r : Ring) (n : Nat) : Nat := if 4 * r.nf.toNat < r.w.toNat + 4 * n then 0 else r.w.toNat

/-- [a, a+n) is disjoint from a transfer. -/
abbrev Xfer.disjoint (x : Xfer) (a n : Nat) : Prop := a + n ≤ x.addr.toNat ∨ x.addr.toNat + x.len.toNat ≤ a

/-- The block of `n` frames at offset `off` may be written. -/
abbrev Ring.ready (r : Ring) (off n : Nat) : Prop :=
  r.pending = none ∧ ∀ x ∈ r.inflight, x.disjoint (r.base.toNat + off) (4 * n)

/-- The block of `n` frames at offset `off` is committed. -/
def Ring.committed (r : Ring) (off n : Nat) : Ring :=
  { r with pending := some ⟨w32 (r.base.toNat + off), w32 (4 * n)⟩, w := w32 (off + 4 * n) }

/-- `Commit(off, n)`, and the end of the poll (R269, R274). -/
def pollCommit (off n : Nat) : Act Reply := do
  critical (modify fun s => s.modRing fun r => r.committed off n)
  boundary
  mxDispatch
  modify fun s => s.modMx fun m => { m with inPoll := false }
  pure (.done [])

/-! ### The sub-run loop (R273) -/

/-- The frames of the next sub-run when `left` remain: up to the next event. -/
def State.subRunLength (s : State) (left : Nat) : Nat :=
  match nextTick s.events with
  | none => left
  | some t => min left (t - s.mx.ticks.toNat)

/-- Opens a sub-run: the internal `MX_EXEC` is invoked. -/
def Mixer.opened (m : Mixer) : Mixer := { m with subRun := true }

/-- `TICKS <- TICKS + m` at the end of a sub-run. -/
def closeSubRun (m : Nat) : Act Unit := do
  let s ← get
  let t ← laterTick s.mx.ticks m
  modify fun s => s.modMx fun x => { x with ticks := t, subRun := false }

/-- `SubRuns(RING_BASE + off, n)` with `done` frames mixed, then `Commit`; at most `fuel` passes in one step.  A pass fires one due
event, or mixes one sub-run when none is due. -/
def pollLoop (off n : Nat) : Nat → Nat → Act Reply
  | 0, done => pure (.wait (.pollRun off n done))
  | fuel + 1, done =>
    if n ≤ done then pollCommit off n
    else do
      boundary
      let s ← get
      if s.dueEvents ≠ [] then do
        fireOne
        pollLoop off n fuel done
      else do
        modify fun s => s.modMx Mixer.opened
        let m := s.subRunLength (n - done)
        let h ← mxExecRun (s.ring.base.toNat + off + 4 * done) m
        match h with
        | .over => do
          closeSubRun m
          pollLoop off n fuel (done + m)
        | .acquiring => pure (.wait (.pollAcquire off n done m))
        | .running => pure (.wait (.pollJob off n done m))

/-- A sub-run of `m` frames is over, and the poll goes on. -/
def pollAfter (off n done m : Nat) : Act Reply := do
  closeSubRun m
  pollLoop off n stepPasses (done + m)

/-- A sub-run of `m` frames that waited for the coprocessor goes on (R263, R380). -/
def pollAcquireSpin (off n done m : Nat) : Act Reply := do
  let s ← get
  let h ← tryHandoff (s.ring.base.toNat + off + 4 * done) m
  match h with
  | .over => pollAfter off n done m
  | .acquiring => pure (.wait (.pollAcquire off n done m))
  | .running => pure (.wait (.pollJob off n done m))

/-- A sub-run of `m` frames that waited for its job goes on (R264, R380). -/
def pollJobSpin (off n done m : Nat) : Act Reply := do
  let ended ← awaitJob
  if ended then pollAfter off n done m else pure (.wait (.pollJob off n done m))

/-! ### `MX_POLL` (R269 to R271) -/

/-- One pass of `Place`: the range if it may be written, or one dispatch and another look (R271, R380). -/
def pollPlaceSpin (n : Nat) : Act Reply := do
  let s ← get
  if s.ring.ready (s.ring.offset n) n then pollLoop (s.ring.offset n) n stepPasses 0
  else do
    mxDispatch
    boundary
    let s ← get
    if s.ring.ready (s.ring.offset n) n then pollLoop (s.ring.offset n) n stepPasses 0
    else pure (.wait (.pollPlace n))

/-- `MX_POLL n`. -/
def mxPoll (n : Word) : Act Reply := do
  let s ← get
  ensure (s.mx.inPoll = false) .reentrantPoll (Config.ctxCode s.ctx)
  mxOn
  ensure (n.toNat % 2 = 0 ∧ n.toNat ≤ s.ring.nf.toNat) .badArg n
  if n = 0 then pure (.done [])
  else do
    modify fun s => s.modMx fun m => { m with inPoll := true }
    pollPlaceSpin n.toNat

/-- Meaning of `MX_POLL`. -/
def execMxPoll (n : Word) (s : State) : Host.Outcome State Fault Refusal := command (.mxPoll n) (mxPoll n) s

end Sys2Proof.Machine
end

