-- ==== Sys2Proof/Machine/Port.lean ====
section
/-!
DEFINITION. The agents' turns (spec/00_scope.md R10): what the HOST's foreground does next at the command port, how a command that
waits goes on (spec/70_reset_and_hazards.md R380), one move of any other agent, and whose turn it is (R391).
-/

namespace Sys2Proof.Machine

/-- What a packet does that the callback now running issues (R105). -/
def callbackIssue (ctx : Ctx) : Packet → Act Unit :=
  match ctx with
  | .decoder _ => decoderIssue
  | .event => eventIssue
  | .fill => refusePacket
  | .host => refusePacket
  | .irq => refusePacket

/-- A callback that never returns may go on acting, and the command it was called from stays where it is (R360, R380, U10). -/
def callbackGoesOn : Act Reply := do
  let s ← get
  let run ← drawRun
  runActs (callbackIssue s.ctx) boundary run.acts
  pure (.wait .callback)

/-- A command that waits goes on. -/
def resume (p : Pending) : Act Reply :=
  match p with
  | .writeBegin => aiWriteBeginSpin
  | .push blocking src n acc => pushLoop blocking src n stepPasses acc
  | .aiClose => aiCloseWait
  | .mxClose => mxCloseWait
  | .pollPlace n => pollPlaceSpin n
  | .pollRun off n done => pollLoop off n stepPasses done
  | .pollAcquire off n done m => pollAcquireSpin off n done m
  | .pollJob off n done m => pollJobSpin off n done m
  | .execAcquire out m => do
    let h ← tryHandoff out m
    pure (h.execReply out m)
  | .execJob => do
    let ended ← awaitJob
    pure (if ended then .done [] else .wait .execJob)
  | .callback => callbackGoesOn

/-- The outcome of a computation that ends no command. -/
def settleMove : EStateM.Result Stop State Unit → Host.Outcome State Fault Refusal
  | .ok _ s => .next s
  | .error .fatal s => .next s
  | .error .stuck s => .next (s.waiting .callback)
  | .error (.fault f) _ => .fault f

/-- An illegal packet: `Fatal(ILLEGAL_COMMAND, word 0)`, with the `OP` and `CH` that word 0 holds (R102, R103, R330). -/
def refuseIllegal (w : Word) (s : State) : State :=
  ({ s with cmd := ⟨opOf w, chOf w⟩ }).enterFaulted .illegalCommand w

/-- What the foreground does next. -/
inductive HostWork where
  /-- A packet that decodes to this instruction. -/
  | run (i : Instr)
  /-- A packet that is no command. -/
  | illegal (word0 : Word)
  /-- A memory action. -/
  | access (a : HostAct)
  deriving DecidableEq, Repr

/-- The work in a host action: a packet is decoded here, once. -/
def workOf (a : HostAct) : HostWork :=
  match a with
  | .issue p =>
    match decode p.words with
    | .instr i _ => .run i
    | .illegal w _ => .illegal w
    | .short => .illegal p.word0
  | .write _ _ _ _ => .access a
  | .read _ _ _ => .access a
  | .writeback _ _ => .access a
  | .invalidate _ _ => .access a

/-- The foreground's turn: the command in progress goes on, or the next action is taken up; `run` is the meaning of a command.  With no
action left the foreground does nothing. -/
def hostTurn (run : Instr → State → Host.Outcome State Fault Refusal) (s : State) : Host.Outcome State Fault Refusal :=
  match s.pending with
  | some p => settle (resume p s)
  | none =>
    match s.host with
    | [] => .next s
    | a :: rest =>
      let t := { s with host := rest }
      match workOf a with
      | .run i => run i t
      | .illegal w => .next (refuseIllegal w t)
      | .access a => settleMove (hostAccess a t)

/-- The turn of the agent that moves. -/
def agentTurn (run : Instr → State → Host.Outcome State Fault Refusal) (a : Agent) (s : State) :
    Host.Outcome State Fault Refusal :=
  match a with
  | .host => hostTurn run s
  | .irq => settleMove (agentMove a s)
  | .aiDma => settleMove (agentMove a s)
  | .coproc => settleMove (agentMove a s)
  | .clientStart => settleMove (agentMove a s)
  | .clientDone _ => settleMove (agentMove a s)

/-! ### Whose turn it is (R10, R391) -/

/-- What R391 does not let wait for ever. -/
inductive Duty where
  /-- (a) The device drains. -/
  | drain
  /-- (b) The coprocessor's job ends, the engine's or another client's. -/
  | job
  /-- (c) The interrupt is taken. -/
  | irq
  /-- The foreground goes on with the command in progress, as a spin-wait does (R380). -/
  | host
  deriving DecidableEq, Repr

/-- The duty's agent is able to move. -/
def State.due (s : State) : Duty → Bool
  | .drain => s.ai.dmaEn && s.ai.busy
  | .job => s.coproc.jobBusy
  | .irq => decide s.irqEligible
  | .host => s.pending.isSome

/-- The move that does the duty. -/
def State.dutyMove (s : State) : Duty → Agent
  | .drain => .aiDma
  | .job => if s.coproc.client then .clientDone [] else .coproc
  | .irq => .irq
  | .host => .host

/-- This move of an agent does the duty. -/
def State.serves (s : State) : Agent → Duty → Bool
  | .aiDma, .drain => true
  | .coproc, .job => !s.coproc.client
  | .clientDone _, .job => s.coproc.client
  | .irq, .irq => true
  | .host, .host => true
  | _, _ => false

/-- How many turns may still pass the duty by. -/
def Patience.of (p : Patience) : Duty → Nat
  | .drain => p.drain
  | .job => p.job
  | .irq => p.irq
  | .host => p.host

/-- The duties, in the order in which those that can wait no longer are done. -/
def duties : List Duty := [.drain, .job, .irq, .host]

/-- The first duty that is due and can wait no longer. -/
def State.overdue (s : State) : Option Duty := duties.find? fun d => s.due d && s.oracle.patience.of d == 0

/-- The agent the environment chooses. -/
def State.chosen (s : State) : Agent × State :=
  match s.oracle.sched with
  | a :: rest => (a, { s with oracle := { s.oracle with sched := rest } })
  | [] => if s.oracle.free then (Config.freeAgent s.oracle.draws, s.bump) else (.host, s)

/-- How long a duty that has just been done may wait next time. -/
def State.drawWait (s : State) : Nat × State :=
  match s.oracle.waits with
  | w :: rest => (w, { s with oracle := { s.oracle with waits := rest } })
  | [] => (Config.freeWait s.oracle.draws, s.bump)

/-- What a turn of agent `a` leaves of a duty's patience: a new wait where it does the duty, longer than all duties need that may wait no
longer; one turn less where it passes the duty by. -/
def State.patienceLeft (s : State) (a : Agent) (wait : Nat) (d : Duty) : Nat :=
  if s.due d then if s.serves a d then wait + duties.length else s.oracle.patience.of d - 1 else s.oracle.patience.of d

/-- The patience of all duties after a turn of agent `a`. -/
def State.passDuties (s : State) (a : Agent) : State :=
  let p := if duties.any (fun d => s.due d && s.serves a d) then s.drawWait else (0, s)
  let left := s.patienceLeft a p.1
  { p.2 with
    oracle := { p.2.oracle with
      patience := ⟨left .drain, left .job, left .irq, left .host, p.2.oracle.patience.client⟩ } }

/-- Once no client may come ahead of the engine any more, and the engine does not wait, a new number of times is drawn. -/
def State.passClients (s : State) : State :=
  match s.oracle.patience.client with
  | 0 =>
    if s.awaitsCoproc then s
    else
      let p := s.drawWait
      { p.2 with oracle := { p.2.oracle with patience := { p.2.oracle.patience with client := p.1 } } }
  | _ + 1 => s

/-- What a turn of agent `a` leaves of every patience. -/
def State.passTurn (s : State) (a : Agent) : State := (s.passDuties a).passClients

/-- Which agent moves next: the one whose duty can wait no longer, and otherwise the one the environment chooses.  Since every wait is finite, no
agent of R391 starves and every spin-wait but the starvation of R386 ends; and since it is free, every fair order of moves is there
(notes/assumptions/34.md). -/
def State.nextAgent (s : State) : Agent × State :=
  let p := match s.overdue with
    | some d => (s.dutyMove d, s)
    | none => s.chosen
  (p.1, p.2.passTurn p.1)

/-- Every duty can wait for one turn more, and one client more may come ahead of the engine. -/
def Patience.longer (p : Patience) : Patience := ⟨p.drain + 1, p.job + 1, p.irq + 1, p.host + 1, p.client + 1⟩

/-- The state in which the packet of these bits is the foreground's next action, the foreground moves next, and no command waits. -/
def State.offer (s : State) (nbits w : Nat) : State :=
  { s with
    host := .issue (packetOfBits nbits w) :: s.host
    oracle := { s.oracle with sched := .host :: s.oracle.sched, patience := s.oracle.patience.longer }
    pending := none }

end Sys2Proof.Machine
end

