-- ==== Sys2Proof/Machine/Dispatch.lean ====
section
/-!
DEFINITION. One meaning for every instruction.
-/

namespace Sys2Proof.Machine

/-- The meaning of an instruction (spec/30_encoding.md R127). -/
def exec (i : Instr) (s : State) : Host.Outcome State Fault Refusal :=
  match i with
  | .aiInit numBuffers freq => Sys2Proof.Machine.execAiInit numBuffers freq s
  | .aiClose => Sys2Proof.Machine.execAiClose s
  | .aiSetFillCallback cb => Sys2Proof.Machine.execAiSetFillCallback cb s
  | .aiWriteBegin => Sys2Proof.Machine.execAiWriteBegin s
  | .aiWriteEnd => Sys2Proof.Machine.execAiWriteEnd s
  | .aiPush blocking src n => Sys2Proof.Machine.execAiPush blocking src n s
  | .aiPause pause => Sys2Proof.Machine.execAiPause pause s
  | .aiGetFrequency => Sys2Proof.Machine.execAiGetFrequency s
  | .sbInit ch base bytes => Sys2Proof.Machine.execSbInit ch base bytes s
  | .sbSetBitWidth ch bits => Sys2Proof.Machine.execSbSetBitWidth ch bits s
  | .sbSetDecoder ch fn ctx => Sys2Proof.Machine.execSbSetDecoder ch fn ctx s
  | .sbGet ch wpos wlen => Sys2Proof.Machine.execSbGet ch wpos wlen s
  | .sbAppend ch wlen => Sys2Proof.Machine.execSbAppend ch wlen s
  | .sbDiscard ch wpos => Sys2Proof.Machine.execSbDiscard ch wpos s
  | .sbFlush ch => Sys2Proof.Machine.execSbFlush ch s
  | .mxInit channels rate => Sys2Proof.Machine.execMxInit channels rate s
  | .mxClose => Sys2Proof.Machine.execMxClose s
  | .mxSampleRate => Sys2Proof.Machine.execMxSampleRate s
  | .mxSetMasterVolume vol => Sys2Proof.Machine.execMxSetMasterVolume vol s
  | .mxPoll n => Sys2Proof.Machine.execMxPoll n s
  | .mxExec out n => Sys2Proof.Machine.execMxExec out n s
  | .chPlay ch wave => Sys2Proof.Machine.execChPlay ch wave s
  | .chStop ch => Sys2Proof.Machine.execChStop ch s
  | .chPlaying ch => Sys2Proof.Machine.execChPlaying ch s
  | .chSetFrequency ch freq => Sys2Proof.Machine.execChSetFrequency ch freq s
  | .chSetPosition ch pos => Sys2Proof.Machine.execChSetPosition ch pos s
  | .chGetPosition ch => Sys2Proof.Machine.execChGetPosition ch s
  | .chSetVolume ch l r => Sys2Proof.Machine.execChSetVolume ch l r s
  | .chSetPan ch vol pan => Sys2Proof.Machine.execChSetPan ch vol pan s
  | .chSetDolby ch fl fr c sl sr => Sys2Proof.Machine.execChSetDolby ch fl fr c sl sr s
  | .chSetLimits ch maxBits maxFreq maxBuf => Sys2Proof.Machine.execChSetLimits ch maxBits maxFreq maxBuf s
  | .evAdd delay cb ctx => Sys2Proof.Machine.execEvAdd delay cb ctx s
  | .evRemove cb => Sys2Proof.Machine.execEvRemove cb s
  | .vsInit fps rate => Sys2Proof.Machine.execVsInit fps rate s
  | .vsSuggestedBufferSize => Sys2Proof.Machine.execVsSuggestedBufferSize s
  | .vsCurrentFrameSamples => Sys2Proof.Machine.execVsCurrentFrameSamples s
  | .vsNextFrame => Sys2Proof.Machine.execVsNextFrame s
  | .irqDisable => Sys2Proof.Machine.execIrqDisable s
  | .irqEnable => Sys2Proof.Machine.execIrqEnable s

end Sys2Proof.Machine
end

