-- ==== Sys2Proof/Machine/Step.lean ====
section
/-!
DEFINITION. One step of the machine: one move of one agent (spec/00_scope.md R10), none of a FAULTED block (spec/60_exceptions.md R331).
-/

namespace Sys2Proof.Machine

/-- One step. -/
def step (s : State) : Host.Outcome State Fault Refusal :=
  if s.fault.isSome then .fault .halted else agentTurn exec s.nextAgent.1 s.nextAgent.2

/-- The packet of these bits where `step` takes its next command. -/
def State.withFetchWord (s : State) (nbits w : Nat) : State := s.offer nbits w

end Sys2Proof.Machine
end

