-- ==== Sys2Proof/Laws/State.lean ====
section
/-!
SUPPORT. What each named update of the state does to each field: one lemma per field per update.
-/

namespace Sys2Proof.Machine

/-! ### `State.begin` -/

@[simp] theorem State.begin_owner (s : State) (i : Instr) : (s.begin i).owner = s.owner := rfl
@[simp] theorem State.begin_fault (s : State) (i : Instr) : (s.begin i).fault = s.fault := rfl
@[simp] theorem State.begin_irqDepth (s : State) (i : Instr) : (s.begin i).irqDepth = s.irqDepth := rfl
@[simp] theorem State.begin_ctx (s : State) (i : Instr) : (s.begin i).ctx = s.ctx := rfl
@[simp] theorem State.begin_ai (s : State) (i : Instr) : (s.begin i).ai = s.ai := rfl
@[simp] theorem State.begin_drv (s : State) (i : Instr) : (s.begin i).drv = s.drv := rfl
@[simp] theorem State.begin_sbs (s : State) (i : Instr) : (s.begin i).sbs = s.sbs := rfl
@[simp] theorem State.begin_mx (s : State) (i : Instr) : (s.begin i).mx = s.mx := rfl
@[simp] theorem State.begin_ring (s : State) (i : Instr) : (s.begin i).ring = s.ring := rfl
@[simp] theorem State.begin_chans (s : State) (i : Instr) : (s.begin i).chans = s.chans := rfl
@[simp] theorem State.begin_coproc (s : State) (i : Instr) : (s.begin i).coproc = s.coproc := rfl
@[simp] theorem State.begin_events (s : State) (i : Instr) : (s.begin i).events = s.events := rfl
@[simp] theorem State.begin_nextEvent (s : State) (i : Instr) : (s.begin i).nextEvent = s.nextEvent := rfl
@[simp] theorem State.begin_vs (s : State) (i : Instr) : (s.begin i).vs = s.vs := rfl
@[simp] theorem State.begin_mem (s : State) (i : Instr) : (s.begin i).mem = s.mem := rfl
@[simp] theorem State.begin_cache (s : State) (i : Instr) : (s.begin i).cache = s.cache := rfl
@[simp] theorem State.begin_race (s : State) (i : Instr) : (s.begin i).race = s.race := rfl
@[simp] theorem State.begin_allocs (s : State) (i : Instr) : (s.begin i).allocs = s.allocs := rfl
@[simp] theorem State.begin_output (s : State) (i : Instr) : (s.begin i).output = s.output := rfl
@[simp] theorem State.begin_calls (s : State) (i : Instr) : (s.begin i).calls = s.calls := rfl
@[simp] theorem State.begin_cmd (s : State) (i : Instr) : (s.begin i).cmd = ⟨i.opcode, i.chField⟩ := rfl
@[simp] theorem State.begin_res (s : State) (i : Instr) : (s.begin i).res = [] := rfl
@[simp] theorem State.begin_pending (s : State) (i : Instr) : (s.begin i).pending = none := rfl
@[simp] theorem State.begin_host (s : State) (i : Instr) : (s.begin i).host = s.host := rfl
@[simp] theorem State.begin_lastRead (s : State) (i : Instr) : (s.begin i).lastRead = s.lastRead := rfl
@[simp] theorem State.begin_oracle (s : State) (i : Instr) : (s.begin i).oracle = s.oracle := rfl
@[simp] theorem State.begin_params (s : State) (i : Instr) : (s.begin i).params = s.params := rfl

/-! ### `State.finish` -/

@[simp] theorem State.finish_owner (s : State) (r : List Word) : (s.finish r).owner = s.owner := rfl
@[simp] theorem State.finish_fault (s : State) (r : List Word) : (s.finish r).fault = s.fault := rfl
@[simp] theorem State.finish_irqDepth (s : State) (r : List Word) : (s.finish r).irqDepth = s.irqDepth := rfl
@[simp] theorem State.finish_ctx (s : State) (r : List Word) : (s.finish r).ctx = s.ctx := rfl
@[simp] theorem State.finish_ai (s : State) (r : List Word) : (s.finish r).ai = s.ai := rfl
@[simp] theorem State.finish_drv (s : State) (r : List Word) : (s.finish r).drv = s.drv := rfl
@[simp] theorem State.finish_sbs (s : State) (r : List Word) : (s.finish r).sbs = s.sbs := rfl
@[simp] theorem State.finish_mx (s : State) (r : List Word) : (s.finish r).mx = s.mx := rfl
@[simp] theorem State.finish_ring (s : State) (r : List Word) : (s.finish r).ring = s.ring := rfl
@[simp] theorem State.finish_chans (s : State) (r : List Word) : (s.finish r).chans = s.chans := rfl
@[simp] theorem State.finish_coproc (s : State) (r : List Word) : (s.finish r).coproc = s.coproc := rfl
@[simp] theorem State.finish_events (s : State) (r : List Word) : (s.finish r).events = s.events := rfl
@[simp] theorem State.finish_nextEvent (s : State) (r : List Word) : (s.finish r).nextEvent = s.nextEvent := rfl
@[simp] theorem State.finish_vs (s : State) (r : List Word) : (s.finish r).vs = s.vs := rfl
@[simp] theorem State.finish_mem (s : State) (r : List Word) : (s.finish r).mem = s.mem := rfl
@[simp] theorem State.finish_cache (s : State) (r : List Word) : (s.finish r).cache = s.cache := rfl
@[simp] theorem State.finish_race (s : State) (r : List Word) : (s.finish r).race = s.race := rfl
@[simp] theorem State.finish_allocs (s : State) (r : List Word) : (s.finish r).allocs = s.allocs := rfl
@[simp] theorem State.finish_output (s : State) (r : List Word) : (s.finish r).output = s.output := rfl
@[simp] theorem State.finish_calls (s : State) (r : List Word) : (s.finish r).calls = s.calls := rfl
@[simp] theorem State.finish_cmd (s : State) (r : List Word) : (s.finish r).cmd = ⟨0, 0⟩ := rfl
@[simp] theorem State.finish_res (s : State) (r : List Word) : (s.finish r).res = r := rfl
@[simp] theorem State.finish_pending (s : State) (r : List Word) : (s.finish r).pending = none := rfl
@[simp] theorem State.finish_host (s : State) (r : List Word) : (s.finish r).host = s.host := rfl
@[simp] theorem State.finish_lastRead (s : State) (r : List Word) : (s.finish r).lastRead = s.lastRead := rfl
@[simp] theorem State.finish_oracle (s : State) (r : List Word) : (s.finish r).oracle = s.oracle := rfl
@[simp] theorem State.finish_params (s : State) (r : List Word) : (s.finish r).params = s.params := rfl

/-! ### `State.waiting` -/

@[simp] theorem State.waiting_owner (s : State) (p : Pending) : (s.waiting p).owner = s.owner := rfl
@[simp] theorem State.waiting_fault (s : State) (p : Pending) : (s.waiting p).fault = s.fault := rfl
@[simp] theorem State.waiting_irqDepth (s : State) (p : Pending) : (s.waiting p).irqDepth = s.irqDepth := rfl
@[simp] theorem State.waiting_ctx (s : State) (p : Pending) : (s.waiting p).ctx = s.ctx := rfl
@[simp] theorem State.waiting_ai (s : State) (p : Pending) : (s.waiting p).ai = s.ai := rfl
@[simp] theorem State.waiting_drv (s : State) (p : Pending) : (s.waiting p).drv = s.drv := rfl
@[simp] theorem State.waiting_sbs (s : State) (p : Pending) : (s.waiting p).sbs = s.sbs := rfl
@[simp] theorem State.waiting_mx (s : State) (p : Pending) : (s.waiting p).mx = s.mx := rfl
@[simp] theorem State.waiting_ring (s : State) (p : Pending) : (s.waiting p).ring = s.ring := rfl
@[simp] theorem State.waiting_chans (s : State) (p : Pending) : (s.waiting p).chans = s.chans := rfl
@[simp] theorem State.waiting_coproc (s : State) (p : Pending) : (s.waiting p).coproc = s.coproc := rfl
@[simp] theorem State.waiting_events (s : State) (p : Pending) : (s.waiting p).events = s.events := rfl
@[simp] theorem State.waiting_nextEvent (s : State) (p : Pending) : (s.waiting p).nextEvent = s.nextEvent := rfl
@[simp] theorem State.waiting_vs (s : State) (p : Pending) : (s.waiting p).vs = s.vs := rfl
@[simp] theorem State.waiting_mem (s : State) (p : Pending) : (s.waiting p).mem = s.mem := rfl
@[simp] theorem State.waiting_cache (s : State) (p : Pending) : (s.waiting p).cache = s.cache := rfl
@[simp] theorem State.waiting_race (s : State) (p : Pending) : (s.waiting p).race = s.race := rfl
@[simp] theorem State.waiting_allocs (s : State) (p : Pending) : (s.waiting p).allocs = s.allocs := rfl
@[simp] theorem State.waiting_output (s : State) (p : Pending) : (s.waiting p).output = s.output := rfl
@[simp] theorem State.waiting_calls (s : State) (p : Pending) : (s.waiting p).calls = s.calls := rfl
@[simp] theorem State.waiting_cmd (s : State) (p : Pending) : (s.waiting p).cmd = s.cmd := rfl
@[simp] theorem State.waiting_res (s : State) (p : Pending) : (s.waiting p).res = s.res := rfl
@[simp] theorem State.waiting_pending (s : State) (p : Pending) : (s.waiting p).pending = some p := rfl
@[simp] theorem State.waiting_host (s : State) (p : Pending) : (s.waiting p).host = s.host := rfl
@[simp] theorem State.waiting_lastRead (s : State) (p : Pending) : (s.waiting p).lastRead = s.lastRead := rfl
@[simp] theorem State.waiting_oracle (s : State) (p : Pending) : (s.waiting p).oracle = s.oracle := rfl
@[simp] theorem State.waiting_params (s : State) (p : Pending) : (s.waiting p).params = s.params := rfl

/-! ### `State.enterFaulted` -/

@[simp] theorem State.enterFaulted_owner (s : State) (c : FaultCode) (v : Word) : (s.enterFaulted c v).owner = s.owner := rfl
@[simp] theorem State.enterFaulted_fault (s : State) (c : FaultCode) (v : Word) : (s.enterFaulted c v).fault = some ⟨c, s.cmd.op, s.cmd.ch, v⟩ := rfl
@[simp] theorem State.enterFaulted_irqDepth (s : State) (c : FaultCode) (v : Word) : (s.enterFaulted c v).irqDepth = s.irqDepth := rfl
@[simp] theorem State.enterFaulted_ctx (s : State) (c : FaultCode) (v : Word) : (s.enterFaulted c v).ctx = s.ctx := rfl
@[simp] theorem State.enterFaulted_ai (s : State) (c : FaultCode) (v : Word) : (s.enterFaulted c v).ai = s.ai := rfl
@[simp] theorem State.enterFaulted_drv (s : State) (c : FaultCode) (v : Word) : (s.enterFaulted c v).drv = s.drv := rfl
@[simp] theorem State.enterFaulted_sbs (s : State) (c : FaultCode) (v : Word) : (s.enterFaulted c v).sbs = s.sbs := rfl
@[simp] theorem State.enterFaulted_mx (s : State) (c : FaultCode) (v : Word) : (s.enterFaulted c v).mx = s.mx := rfl
@[simp] theorem State.enterFaulted_ring (s : State) (c : FaultCode) (v : Word) : (s.enterFaulted c v).ring = s.ring := rfl
@[simp] theorem State.enterFaulted_chans (s : State) (c : FaultCode) (v : Word) : (s.enterFaulted c v).chans = s.chans := rfl
@[simp] theorem State.enterFaulted_coproc (s : State) (c : FaultCode) (v : Word) : (s.enterFaulted c v).coproc = s.coproc := rfl
@[simp] theorem State.enterFaulted_events (s : State) (c : FaultCode) (v : Word) : (s.enterFaulted c v).events = s.events := rfl
@[simp] theorem State.enterFaulted_nextEvent (s : State) (c : FaultCode) (v : Word) : (s.enterFaulted c v).nextEvent = s.nextEvent := rfl
@[simp] theorem State.enterFaulted_vs (s : State) (c : FaultCode) (v : Word) : (s.enterFaulted c v).vs = s.vs := rfl
@[simp] theorem State.enterFaulted_mem (s : State) (c : FaultCode) (v : Word) : (s.enterFaulted c v).mem = s.mem := rfl
@[simp] theorem State.enterFaulted_cache (s : State) (c : FaultCode) (v : Word) : (s.enterFaulted c v).cache = s.cache := rfl
@[simp] theorem State.enterFaulted_race (s : State) (c : FaultCode) (v : Word) : (s.enterFaulted c v).race = s.race := rfl
@[simp] theorem State.enterFaulted_allocs (s : State) (c : FaultCode) (v : Word) : (s.enterFaulted c v).allocs = s.allocs := rfl
@[simp] theorem State.enterFaulted_output (s : State) (c : FaultCode) (v : Word) : (s.enterFaulted c v).output = s.output := rfl
@[simp] theorem State.enterFaulted_calls (s : State) (c : FaultCode) (v : Word) : (s.enterFaulted c v).calls = s.calls := rfl
@[simp] theorem State.enterFaulted_cmd (s : State) (c : FaultCode) (v : Word) : (s.enterFaulted c v).cmd = s.cmd := rfl
@[simp] theorem State.enterFaulted_res (s : State) (c : FaultCode) (v : Word) : (s.enterFaulted c v).res = [] := rfl
@[simp] theorem State.enterFaulted_pending (s : State) (c : FaultCode) (v : Word) : (s.enterFaulted c v).pending = none := rfl
@[simp] theorem State.enterFaulted_host (s : State) (c : FaultCode) (v : Word) : (s.enterFaulted c v).host = s.host := rfl
@[simp] theorem State.enterFaulted_lastRead (s : State) (c : FaultCode) (v : Word) : (s.enterFaulted c v).lastRead = s.lastRead := rfl
@[simp] theorem State.enterFaulted_oracle (s : State) (c : FaultCode) (v : Word) : (s.enterFaulted c v).oracle = s.oracle := rfl
@[simp] theorem State.enterFaulted_params (s : State) (c : FaultCode) (v : Word) : (s.enterFaulted c v).params = s.params := rfl

/-! ### `State.irqEntry` -/

@[simp] theorem State.irqEntry_owner (s : State) : s.irqEntry.owner = s.owner := rfl
@[simp] theorem State.irqEntry_fault (s : State) : s.irqEntry.fault = s.fault := rfl
@[simp] theorem State.irqEntry_irqDepth (s : State) : s.irqEntry.irqDepth = s.irqDepth + 1 := rfl
@[simp] theorem State.irqEntry_ctx (s : State) : s.irqEntry.ctx = .irq := rfl
@[simp] theorem State.irqEntry_ai (s : State) : s.irqEntry.ai = s.ai := rfl
@[simp] theorem State.irqEntry_drv (s : State) : s.irqEntry.drv = s.drv := rfl
@[simp] theorem State.irqEntry_sbs (s : State) : s.irqEntry.sbs = s.sbs := rfl
@[simp] theorem State.irqEntry_mx (s : State) : s.irqEntry.mx = s.mx := rfl
@[simp] theorem State.irqEntry_ring (s : State) : s.irqEntry.ring = s.ring := rfl
@[simp] theorem State.irqEntry_chans (s : State) : s.irqEntry.chans = s.chans := rfl
@[simp] theorem State.irqEntry_coproc (s : State) : s.irqEntry.coproc = s.coproc := rfl
@[simp] theorem State.irqEntry_events (s : State) : s.irqEntry.events = s.events := rfl
@[simp] theorem State.irqEntry_nextEvent (s : State) : s.irqEntry.nextEvent = s.nextEvent := rfl
@[simp] theorem State.irqEntry_vs (s : State) : s.irqEntry.vs = s.vs := rfl
@[simp] theorem State.irqEntry_mem (s : State) : s.irqEntry.mem = s.mem := rfl
@[simp] theorem State.irqEntry_cache (s : State) : s.irqEntry.cache = s.cache := rfl
@[simp] theorem State.irqEntry_race (s : State) : s.irqEntry.race = s.race := rfl
@[simp] theorem State.irqEntry_allocs (s : State) : s.irqEntry.allocs = s.allocs := rfl
@[simp] theorem State.irqEntry_output (s : State) : s.irqEntry.output = s.output := rfl
@[simp] theorem State.irqEntry_calls (s : State) : s.irqEntry.calls = s.calls := rfl
@[simp] theorem State.irqEntry_cmd (s : State) : s.irqEntry.cmd = ⟨0, 0⟩ := rfl
@[simp] theorem State.irqEntry_res (s : State) : s.irqEntry.res = s.res := rfl
@[simp] theorem State.irqEntry_pending (s : State) : s.irqEntry.pending = s.pending := rfl
@[simp] theorem State.irqEntry_host (s : State) : s.irqEntry.host = s.host := rfl
@[simp] theorem State.irqEntry_lastRead (s : State) : s.irqEntry.lastRead = s.lastRead := rfl
@[simp] theorem State.irqEntry_oracle (s : State) : s.irqEntry.oracle = s.oracle := rfl
@[simp] theorem State.irqEntry_params (s : State) : s.irqEntry.params = s.params := rfl

/-! ### `State.irqReturn` -/

@[simp] theorem State.irqReturn_owner (s : State) (x : Ctx) (c : CmdId) : (s.irqReturn x c).owner = s.owner := rfl
@[simp] theorem State.irqReturn_fault (s : State) (x : Ctx) (c : CmdId) : (s.irqReturn x c).fault = s.fault := rfl
@[simp] theorem State.irqReturn_irqDepth (s : State) (x : Ctx) (c : CmdId) : (s.irqReturn x c).irqDepth = s.irqDepth - 1 := rfl
@[simp] theorem State.irqReturn_ctx (s : State) (x : Ctx) (c : CmdId) : (s.irqReturn x c).ctx = x := rfl
@[simp] theorem State.irqReturn_ai (s : State) (x : Ctx) (c : CmdId) : (s.irqReturn x c).ai = s.ai := rfl
@[simp] theorem State.irqReturn_drv (s : State) (x : Ctx) (c : CmdId) : (s.irqReturn x c).drv = s.drv := rfl
@[simp] theorem State.irqReturn_sbs (s : State) (x : Ctx) (c : CmdId) : (s.irqReturn x c).sbs = s.sbs := rfl
@[simp] theorem State.irqReturn_mx (s : State) (x : Ctx) (c : CmdId) : (s.irqReturn x c).mx = s.mx := rfl
@[simp] theorem State.irqReturn_ring (s : State) (x : Ctx) (c : CmdId) : (s.irqReturn x c).ring = s.ring := rfl
@[simp] theorem State.irqReturn_chans (s : State) (x : Ctx) (c : CmdId) : (s.irqReturn x c).chans = s.chans := rfl
@[simp] theorem State.irqReturn_coproc (s : State) (x : Ctx) (c : CmdId) : (s.irqReturn x c).coproc = s.coproc := rfl
@[simp] theorem State.irqReturn_events (s : State) (x : Ctx) (c : CmdId) : (s.irqReturn x c).events = s.events := rfl
@[simp] theorem State.irqReturn_nextEvent (s : State) (x : Ctx) (c : CmdId) : (s.irqReturn x c).nextEvent = s.nextEvent := rfl
@[simp] theorem State.irqReturn_vs (s : State) (x : Ctx) (c : CmdId) : (s.irqReturn x c).vs = s.vs := rfl
@[simp] theorem State.irqReturn_mem (s : State) (x : Ctx) (c : CmdId) : (s.irqReturn x c).mem = s.mem := rfl
@[simp] theorem State.irqReturn_cache (s : State) (x : Ctx) (c : CmdId) : (s.irqReturn x c).cache = s.cache := rfl
@[simp] theorem State.irqReturn_race (s : State) (x : Ctx) (c : CmdId) : (s.irqReturn x c).race = s.race := rfl
@[simp] theorem State.irqReturn_allocs (s : State) (x : Ctx) (c : CmdId) : (s.irqReturn x c).allocs = s.allocs := rfl
@[simp] theorem State.irqReturn_output (s : State) (x : Ctx) (c : CmdId) : (s.irqReturn x c).output = s.output := rfl
@[simp] theorem State.irqReturn_calls (s : State) (x : Ctx) (c : CmdId) : (s.irqReturn x c).calls = s.calls := rfl
@[simp] theorem State.irqReturn_cmd (s : State) (x : Ctx) (c : CmdId) : (s.irqReturn x c).cmd = c := rfl
@[simp] theorem State.irqReturn_res (s : State) (x : Ctx) (c : CmdId) : (s.irqReturn x c).res = s.res := rfl
@[simp] theorem State.irqReturn_pending (s : State) (x : Ctx) (c : CmdId) : (s.irqReturn x c).pending = s.pending := rfl
@[simp] theorem State.irqReturn_host (s : State) (x : Ctx) (c : CmdId) : (s.irqReturn x c).host = s.host := rfl
@[simp] theorem State.irqReturn_lastRead (s : State) (x : Ctx) (c : CmdId) : (s.irqReturn x c).lastRead = s.lastRead := rfl
@[simp] theorem State.irqReturn_oracle (s : State) (x : Ctx) (c : CmdId) : (s.irqReturn x c).oracle = s.oracle := rfl
@[simp] theorem State.irqReturn_params (s : State) (x : Ctx) (c : CmdId) : (s.irqReturn x c).params = s.params := rfl

/-! ### `State.bump` -/

@[simp] theorem State.bump_owner (s : State) : s.bump.owner = s.owner := rfl
@[simp] theorem State.bump_fault (s : State) : s.bump.fault = s.fault := rfl
@[simp] theorem State.bump_irqDepth (s : State) : s.bump.irqDepth = s.irqDepth := rfl
@[simp] theorem State.bump_ctx (s : State) : s.bump.ctx = s.ctx := rfl
@[simp] theorem State.bump_ai (s : State) : s.bump.ai = s.ai := rfl
@[simp] theorem State.bump_drv (s : State) : s.bump.drv = s.drv := rfl
@[simp] theorem State.bump_sbs (s : State) : s.bump.sbs = s.sbs := rfl
@[simp] theorem State.bump_mx (s : State) : s.bump.mx = s.mx := rfl
@[simp] theorem State.bump_ring (s : State) : s.bump.ring = s.ring := rfl
@[simp] theorem State.bump_chans (s : State) : s.bump.chans = s.chans := rfl
@[simp] theorem State.bump_coproc (s : State) : s.bump.coproc = s.coproc := rfl
@[simp] theorem State.bump_events (s : State) : s.bump.events = s.events := rfl
@[simp] theorem State.bump_nextEvent (s : State) : s.bump.nextEvent = s.nextEvent := rfl
@[simp] theorem State.bump_vs (s : State) : s.bump.vs = s.vs := rfl
@[simp] theorem State.bump_mem (s : State) : s.bump.mem = s.mem := rfl
@[simp] theorem State.bump_cache (s : State) : s.bump.cache = s.cache := rfl
@[simp] theorem State.bump_race (s : State) : s.bump.race = s.race := rfl
@[simp] theorem State.bump_allocs (s : State) : s.bump.allocs = s.allocs := rfl
@[simp] theorem State.bump_output (s : State) : s.bump.output = s.output := rfl
@[simp] theorem State.bump_calls (s : State) : s.bump.calls = s.calls := rfl
@[simp] theorem State.bump_cmd (s : State) : s.bump.cmd = s.cmd := rfl
@[simp] theorem State.bump_res (s : State) : s.bump.res = s.res := rfl
@[simp] theorem State.bump_pending (s : State) : s.bump.pending = s.pending := rfl
@[simp] theorem State.bump_host (s : State) : s.bump.host = s.host := rfl
@[simp] theorem State.bump_lastRead (s : State) : s.bump.lastRead = s.lastRead := rfl
@[simp] theorem State.bump_oracle (s : State) : s.bump.oracle = { s.oracle with draws := s.oracle.draws + 1 } := rfl
@[simp] theorem State.bump_params (s : State) : s.bump.params = s.params := rfl

/-! ### `State.modAi` -/

@[simp] theorem State.modAi_owner (s : State) (f : AiDevice → AiDevice) : (s.modAi f).owner = s.owner := rfl
@[simp] theorem State.modAi_fault (s : State) (f : AiDevice → AiDevice) : (s.modAi f).fault = s.fault := rfl
@[simp] theorem State.modAi_irqDepth (s : State) (f : AiDevice → AiDevice) : (s.modAi f).irqDepth = s.irqDepth := rfl
@[simp] theorem State.modAi_ctx (s : State) (f : AiDevice → AiDevice) : (s.modAi f).ctx = s.ctx := rfl
@[simp] theorem State.modAi_ai (s : State) (f : AiDevice → AiDevice) : (s.modAi f).ai = f s.ai := rfl
@[simp] theorem State.modAi_drv (s : State) (f : AiDevice → AiDevice) : (s.modAi f).drv = s.drv := rfl
@[simp] theorem State.modAi_sbs (s : State) (f : AiDevice → AiDevice) : (s.modAi f).sbs = s.sbs := rfl
@[simp] theorem State.modAi_mx (s : State) (f : AiDevice → AiDevice) : (s.modAi f).mx = s.mx := rfl
@[simp] theorem State.modAi_ring (s : State) (f : AiDevice → AiDevice) : (s.modAi f).ring = s.ring := rfl
@[simp] theorem State.modAi_chans (s : State) (f : AiDevice → AiDevice) : (s.modAi f).chans = s.chans := rfl
@[simp] theorem State.modAi_coproc (s : State) (f : AiDevice → AiDevice) : (s.modAi f).coproc = s.coproc := rfl
@[simp] theorem State.modAi_events (s : State) (f : AiDevice → AiDevice) : (s.modAi f).events = s.events := rfl
@[simp] theorem State.modAi_nextEvent (s : State) (f : AiDevice → AiDevice) : (s.modAi f).nextEvent = s.nextEvent := rfl
@[simp] theorem State.modAi_vs (s : State) (f : AiDevice → AiDevice) : (s.modAi f).vs = s.vs := rfl
@[simp] theorem State.modAi_mem (s : State) (f : AiDevice → AiDevice) : (s.modAi f).mem = s.mem := rfl
@[simp] theorem State.modAi_cache (s : State) (f : AiDevice → AiDevice) : (s.modAi f).cache = s.cache := rfl
@[simp] theorem State.modAi_race (s : State) (f : AiDevice → AiDevice) : (s.modAi f).race = s.race := rfl
@[simp] theorem State.modAi_allocs (s : State) (f : AiDevice → AiDevice) : (s.modAi f).allocs = s.allocs := rfl
@[simp] theorem State.modAi_output (s : State) (f : AiDevice → AiDevice) : (s.modAi f).output = s.output := rfl
@[simp] theorem State.modAi_calls (s : State) (f : AiDevice → AiDevice) : (s.modAi f).calls = s.calls := rfl
@[simp] theorem State.modAi_cmd (s : State) (f : AiDevice → AiDevice) : (s.modAi f).cmd = s.cmd := rfl
@[simp] theorem State.modAi_res (s : State) (f : AiDevice → AiDevice) : (s.modAi f).res = s.res := rfl
@[simp] theorem State.modAi_pending (s : State) (f : AiDevice → AiDevice) : (s.modAi f).pending = s.pending := rfl
@[simp] theorem State.modAi_host (s : State) (f : AiDevice → AiDevice) : (s.modAi f).host = s.host := rfl
@[simp] theorem State.modAi_lastRead (s : State) (f : AiDevice → AiDevice) : (s.modAi f).lastRead = s.lastRead := rfl
@[simp] theorem State.modAi_oracle (s : State) (f : AiDevice → AiDevice) : (s.modAi f).oracle = s.oracle := rfl
@[simp] theorem State.modAi_params (s : State) (f : AiDevice → AiDevice) : (s.modAi f).params = s.params := rfl

/-! ### `State.modDrv` -/

@[simp] theorem State.modDrv_owner (s : State) (f : Driver → Driver) : (s.modDrv f).owner = s.owner := rfl
@[simp] theorem State.modDrv_fault (s : State) (f : Driver → Driver) : (s.modDrv f).fault = s.fault := rfl
@[simp] theorem State.modDrv_irqDepth (s : State) (f : Driver → Driver) : (s.modDrv f).irqDepth = s.irqDepth := rfl
@[simp] theorem State.modDrv_ctx (s : State) (f : Driver → Driver) : (s.modDrv f).ctx = s.ctx := rfl
@[simp] theorem State.modDrv_ai (s : State) (f : Driver → Driver) : (s.modDrv f).ai = s.ai := rfl
@[simp] theorem State.modDrv_drv (s : State) (f : Driver → Driver) : (s.modDrv f).drv = f s.drv := rfl
@[simp] theorem State.modDrv_sbs (s : State) (f : Driver → Driver) : (s.modDrv f).sbs = s.sbs := rfl
@[simp] theorem State.modDrv_mx (s : State) (f : Driver → Driver) : (s.modDrv f).mx = s.mx := rfl
@[simp] theorem State.modDrv_ring (s : State) (f : Driver → Driver) : (s.modDrv f).ring = s.ring := rfl
@[simp] theorem State.modDrv_chans (s : State) (f : Driver → Driver) : (s.modDrv f).chans = s.chans := rfl
@[simp] theorem State.modDrv_coproc (s : State) (f : Driver → Driver) : (s.modDrv f).coproc = s.coproc := rfl
@[simp] theorem State.modDrv_events (s : State) (f : Driver → Driver) : (s.modDrv f).events = s.events := rfl
@[simp] theorem State.modDrv_nextEvent (s : State) (f : Driver → Driver) : (s.modDrv f).nextEvent = s.nextEvent := rfl
@[simp] theorem State.modDrv_vs (s : State) (f : Driver → Driver) : (s.modDrv f).vs = s.vs := rfl
@[simp] theorem State.modDrv_mem (s : State) (f : Driver → Driver) : (s.modDrv f).mem = s.mem := rfl
@[simp] theorem State.modDrv_cache (s : State) (f : Driver → Driver) : (s.modDrv f).cache = s.cache := rfl
@[simp] theorem State.modDrv_race (s : State) (f : Driver → Driver) : (s.modDrv f).race = s.race := rfl
@[simp] theorem State.modDrv_allocs (s : State) (f : Driver → Driver) : (s.modDrv f).allocs = s.allocs := rfl
@[simp] theorem State.modDrv_output (s : State) (f : Driver → Driver) : (s.modDrv f).output = s.output := rfl
@[simp] theorem State.modDrv_calls (s : State) (f : Driver → Driver) : (s.modDrv f).calls = s.calls := rfl
@[simp] theorem State.modDrv_cmd (s : State) (f : Driver → Driver) : (s.modDrv f).cmd = s.cmd := rfl
@[simp] theorem State.modDrv_res (s : State) (f : Driver → Driver) : (s.modDrv f).res = s.res := rfl
@[simp] theorem State.modDrv_pending (s : State) (f : Driver → Driver) : (s.modDrv f).pending = s.pending := rfl
@[simp] theorem State.modDrv_host (s : State) (f : Driver → Driver) : (s.modDrv f).host = s.host := rfl
@[simp] theorem State.modDrv_lastRead (s : State) (f : Driver → Driver) : (s.modDrv f).lastRead = s.lastRead := rfl
@[simp] theorem State.modDrv_oracle (s : State) (f : Driver → Driver) : (s.modDrv f).oracle = s.oracle := rfl
@[simp] theorem State.modDrv_params (s : State) (f : Driver → Driver) : (s.modDrv f).params = s.params := rfl

/-! ### `State.modRing` -/

@[simp] theorem State.modRing_owner (s : State) (f : Ring → Ring) : (s.modRing f).owner = s.owner := rfl
@[simp] theorem State.modRing_fault (s : State) (f : Ring → Ring) : (s.modRing f).fault = s.fault := rfl
@[simp] theorem State.modRing_irqDepth (s : State) (f : Ring → Ring) : (s.modRing f).irqDepth = s.irqDepth := rfl
@[simp] theorem State.modRing_ctx (s : State) (f : Ring → Ring) : (s.modRing f).ctx = s.ctx := rfl
@[simp] theorem State.modRing_ai (s : State) (f : Ring → Ring) : (s.modRing f).ai = s.ai := rfl
@[simp] theorem State.modRing_drv (s : State) (f : Ring → Ring) : (s.modRing f).drv = s.drv := rfl
@[simp] theorem State.modRing_sbs (s : State) (f : Ring → Ring) : (s.modRing f).sbs = s.sbs := rfl
@[simp] theorem State.modRing_mx (s : State) (f : Ring → Ring) : (s.modRing f).mx = s.mx := rfl
@[simp] theorem State.modRing_ring (s : State) (f : Ring → Ring) : (s.modRing f).ring = f s.ring := rfl
@[simp] theorem State.modRing_chans (s : State) (f : Ring → Ring) : (s.modRing f).chans = s.chans := rfl
@[simp] theorem State.modRing_coproc (s : State) (f : Ring → Ring) : (s.modRing f).coproc = s.coproc := rfl
@[simp] theorem State.modRing_events (s : State) (f : Ring → Ring) : (s.modRing f).events = s.events := rfl
@[simp] theorem State.modRing_nextEvent (s : State) (f : Ring → Ring) : (s.modRing f).nextEvent = s.nextEvent := rfl
@[simp] theorem State.modRing_vs (s : State) (f : Ring → Ring) : (s.modRing f).vs = s.vs := rfl
@[simp] theorem State.modRing_mem (s : State) (f : Ring → Ring) : (s.modRing f).mem = s.mem := rfl
@[simp] theorem State.modRing_cache (s : State) (f : Ring → Ring) : (s.modRing f).cache = s.cache := rfl
@[simp] theorem State.modRing_race (s : State) (f : Ring → Ring) : (s.modRing f).race = s.race := rfl
@[simp] theorem State.modRing_allocs (s : State) (f : Ring → Ring) : (s.modRing f).allocs = s.allocs := rfl
@[simp] theorem State.modRing_output (s : State) (f : Ring → Ring) : (s.modRing f).output = s.output := rfl
@[simp] theorem State.modRing_calls (s : State) (f : Ring → Ring) : (s.modRing f).calls = s.calls := rfl
@[simp] theorem State.modRing_cmd (s : State) (f : Ring → Ring) : (s.modRing f).cmd = s.cmd := rfl
@[simp] theorem State.modRing_res (s : State) (f : Ring → Ring) : (s.modRing f).res = s.res := rfl
@[simp] theorem State.modRing_pending (s : State) (f : Ring → Ring) : (s.modRing f).pending = s.pending := rfl
@[simp] theorem State.modRing_host (s : State) (f : Ring → Ring) : (s.modRing f).host = s.host := rfl
@[simp] theorem State.modRing_lastRead (s : State) (f : Ring → Ring) : (s.modRing f).lastRead = s.lastRead := rfl
@[simp] theorem State.modRing_oracle (s : State) (f : Ring → Ring) : (s.modRing f).oracle = s.oracle := rfl
@[simp] theorem State.modRing_params (s : State) (f : Ring → Ring) : (s.modRing f).params = s.params := rfl

/-! ### `State.modMx` -/

@[simp] theorem State.modMx_owner (s : State) (f : Mixer → Mixer) : (s.modMx f).owner = s.owner := rfl
@[simp] theorem State.modMx_fault (s : State) (f : Mixer → Mixer) : (s.modMx f).fault = s.fault := rfl
@[simp] theorem State.modMx_irqDepth (s : State) (f : Mixer → Mixer) : (s.modMx f).irqDepth = s.irqDepth := rfl
@[simp] theorem State.modMx_ctx (s : State) (f : Mixer → Mixer) : (s.modMx f).ctx = s.ctx := rfl
@[simp] theorem State.modMx_ai (s : State) (f : Mixer → Mixer) : (s.modMx f).ai = s.ai := rfl
@[simp] theorem State.modMx_drv (s : State) (f : Mixer → Mixer) : (s.modMx f).drv = s.drv := rfl
@[simp] theorem State.modMx_sbs (s : State) (f : Mixer → Mixer) : (s.modMx f).sbs = s.sbs := rfl
@[simp] theorem State.modMx_mx (s : State) (f : Mixer → Mixer) : (s.modMx f).mx = f s.mx := rfl
@[simp] theorem State.modMx_ring (s : State) (f : Mixer → Mixer) : (s.modMx f).ring = s.ring := rfl
@[simp] theorem State.modMx_chans (s : State) (f : Mixer → Mixer) : (s.modMx f).chans = s.chans := rfl
@[simp] theorem State.modMx_coproc (s : State) (f : Mixer → Mixer) : (s.modMx f).coproc = s.coproc := rfl
@[simp] theorem State.modMx_events (s : State) (f : Mixer → Mixer) : (s.modMx f).events = s.events := rfl
@[simp] theorem State.modMx_nextEvent (s : State) (f : Mixer → Mixer) : (s.modMx f).nextEvent = s.nextEvent := rfl
@[simp] theorem State.modMx_vs (s : State) (f : Mixer → Mixer) : (s.modMx f).vs = s.vs := rfl
@[simp] theorem State.modMx_mem (s : State) (f : Mixer → Mixer) : (s.modMx f).mem = s.mem := rfl
@[simp] theorem State.modMx_cache (s : State) (f : Mixer → Mixer) : (s.modMx f).cache = s.cache := rfl
@[simp] theorem State.modMx_race (s : State) (f : Mixer → Mixer) : (s.modMx f).race = s.race := rfl
@[simp] theorem State.modMx_allocs (s : State) (f : Mixer → Mixer) : (s.modMx f).allocs = s.allocs := rfl
@[simp] theorem State.modMx_output (s : State) (f : Mixer → Mixer) : (s.modMx f).output = s.output := rfl
@[simp] theorem State.modMx_calls (s : State) (f : Mixer → Mixer) : (s.modMx f).calls = s.calls := rfl
@[simp] theorem State.modMx_cmd (s : State) (f : Mixer → Mixer) : (s.modMx f).cmd = s.cmd := rfl
@[simp] theorem State.modMx_res (s : State) (f : Mixer → Mixer) : (s.modMx f).res = s.res := rfl
@[simp] theorem State.modMx_pending (s : State) (f : Mixer → Mixer) : (s.modMx f).pending = s.pending := rfl
@[simp] theorem State.modMx_host (s : State) (f : Mixer → Mixer) : (s.modMx f).host = s.host := rfl
@[simp] theorem State.modMx_lastRead (s : State) (f : Mixer → Mixer) : (s.modMx f).lastRead = s.lastRead := rfl
@[simp] theorem State.modMx_oracle (s : State) (f : Mixer → Mixer) : (s.modMx f).oracle = s.oracle := rfl
@[simp] theorem State.modMx_params (s : State) (f : Mixer → Mixer) : (s.modMx f).params = s.params := rfl

/-! ### `State.modSb` -/

@[simp] theorem State.modSb_owner (s : State) (i : Nat) (f : SampleBuf → SampleBuf) : (s.modSb i f).owner = s.owner := rfl
@[simp] theorem State.modSb_fault (s : State) (i : Nat) (f : SampleBuf → SampleBuf) : (s.modSb i f).fault = s.fault := rfl
@[simp] theorem State.modSb_irqDepth (s : State) (i : Nat) (f : SampleBuf → SampleBuf) : (s.modSb i f).irqDepth = s.irqDepth := rfl
@[simp] theorem State.modSb_ctx (s : State) (i : Nat) (f : SampleBuf → SampleBuf) : (s.modSb i f).ctx = s.ctx := rfl
@[simp] theorem State.modSb_ai (s : State) (i : Nat) (f : SampleBuf → SampleBuf) : (s.modSb i f).ai = s.ai := rfl
@[simp] theorem State.modSb_drv (s : State) (i : Nat) (f : SampleBuf → SampleBuf) : (s.modSb i f).drv = s.drv := rfl
@[simp] theorem State.modSb_sbs (s : State) (i : Nat) (f : SampleBuf → SampleBuf) : (s.modSb i f).sbs = Table.put s.sbs i (f (s.sb i)) := rfl
@[simp] theorem State.modSb_mx (s : State) (i : Nat) (f : SampleBuf → SampleBuf) : (s.modSb i f).mx = s.mx := rfl
@[simp] theorem State.modSb_ring (s : State) (i : Nat) (f : SampleBuf → SampleBuf) : (s.modSb i f).ring = s.ring := rfl
@[simp] theorem State.modSb_chans (s : State) (i : Nat) (f : SampleBuf → SampleBuf) : (s.modSb i f).chans = s.chans := rfl
@[simp] theorem State.modSb_coproc (s : State) (i : Nat) (f : SampleBuf → SampleBuf) : (s.modSb i f).coproc = s.coproc := rfl
@[simp] theorem State.modSb_events (s : State) (i : Nat) (f : SampleBuf → SampleBuf) : (s.modSb i f).events = s.events := rfl
@[simp] theorem State.modSb_nextEvent (s : State) (i : Nat) (f : SampleBuf → SampleBuf) : (s.modSb i f).nextEvent = s.nextEvent := rfl
@[simp] theorem State.modSb_vs (s : State) (i : Nat) (f : SampleBuf → SampleBuf) : (s.modSb i f).vs = s.vs := rfl
@[simp] theorem State.modSb_mem (s : State) (i : Nat) (f : SampleBuf → SampleBuf) : (s.modSb i f).mem = s.mem := rfl
@[simp] theorem State.modSb_cache (s : State) (i : Nat) (f : SampleBuf → SampleBuf) : (s.modSb i f).cache = s.cache := rfl
@[simp] theorem State.modSb_race (s : State) (i : Nat) (f : SampleBuf → SampleBuf) : (s.modSb i f).race = s.race := rfl
@[simp] theorem State.modSb_allocs (s : State) (i : Nat) (f : SampleBuf → SampleBuf) : (s.modSb i f).allocs = s.allocs := rfl
@[simp] theorem State.modSb_output (s : State) (i : Nat) (f : SampleBuf → SampleBuf) : (s.modSb i f).output = s.output := rfl
@[simp] theorem State.modSb_calls (s : State) (i : Nat) (f : SampleBuf → SampleBuf) : (s.modSb i f).calls = s.calls := rfl
@[simp] theorem State.modSb_cmd (s : State) (i : Nat) (f : SampleBuf → SampleBuf) : (s.modSb i f).cmd = s.cmd := rfl
@[simp] theorem State.modSb_res (s : State) (i : Nat) (f : SampleBuf → SampleBuf) : (s.modSb i f).res = s.res := rfl
@[simp] theorem State.modSb_pending (s : State) (i : Nat) (f : SampleBuf → SampleBuf) : (s.modSb i f).pending = s.pending := rfl
@[simp] theorem State.modSb_host (s : State) (i : Nat) (f : SampleBuf → SampleBuf) : (s.modSb i f).host = s.host := rfl
@[simp] theorem State.modSb_lastRead (s : State) (i : Nat) (f : SampleBuf → SampleBuf) : (s.modSb i f).lastRead = s.lastRead := rfl
@[simp] theorem State.modSb_oracle (s : State) (i : Nat) (f : SampleBuf → SampleBuf) : (s.modSb i f).oracle = s.oracle := rfl
@[simp] theorem State.modSb_params (s : State) (i : Nat) (f : SampleBuf → SampleBuf) : (s.modSb i f).params = s.params := rfl

/-! ### `State.modChan` -/

@[simp] theorem State.modChan_owner (s : State) (c : Nat) (f : Channel → Channel) : (s.modChan c f).owner = s.owner := rfl
@[simp] theorem State.modChan_fault (s : State) (c : Nat) (f : Channel → Channel) : (s.modChan c f).fault = s.fault := rfl
@[simp] theorem State.modChan_irqDepth (s : State) (c : Nat) (f : Channel → Channel) : (s.modChan c f).irqDepth = s.irqDepth := rfl
@[simp] theorem State.modChan_ctx (s : State) (c : Nat) (f : Channel → Channel) : (s.modChan c f).ctx = s.ctx := rfl
@[simp] theorem State.modChan_ai (s : State) (c : Nat) (f : Channel → Channel) : (s.modChan c f).ai = s.ai := rfl
@[simp] theorem State.modChan_drv (s : State) (c : Nat) (f : Channel → Channel) : (s.modChan c f).drv = s.drv := rfl
@[simp] theorem State.modChan_sbs (s : State) (c : Nat) (f : Channel → Channel) : (s.modChan c f).sbs = s.sbs := rfl
@[simp] theorem State.modChan_mx (s : State) (c : Nat) (f : Channel → Channel) : (s.modChan c f).mx = s.mx := rfl
@[simp] theorem State.modChan_ring (s : State) (c : Nat) (f : Channel → Channel) : (s.modChan c f).ring = s.ring := rfl
@[simp] theorem State.modChan_chans (s : State) (c : Nat) (f : Channel → Channel) : (s.modChan c f).chans = Table.put s.chans c (f (s.chan c)) := rfl
@[simp] theorem State.modChan_coproc (s : State) (c : Nat) (f : Channel → Channel) : (s.modChan c f).coproc = s.coproc := rfl
@[simp] theorem State.modChan_events (s : State) (c : Nat) (f : Channel → Channel) : (s.modChan c f).events = s.events := rfl
@[simp] theorem State.modChan_nextEvent (s : State) (c : Nat) (f : Channel → Channel) : (s.modChan c f).nextEvent = s.nextEvent := rfl
@[simp] theorem State.modChan_vs (s : State) (c : Nat) (f : Channel → Channel) : (s.modChan c f).vs = s.vs := rfl
@[simp] theorem State.modChan_mem (s : State) (c : Nat) (f : Channel → Channel) : (s.modChan c f).mem = s.mem := rfl
@[simp] theorem State.modChan_cache (s : State) (c : Nat) (f : Channel → Channel) : (s.modChan c f).cache = s.cache := rfl
@[simp] theorem State.modChan_race (s : State) (c : Nat) (f : Channel → Channel) : (s.modChan c f).race = s.race := rfl
@[simp] theorem State.modChan_allocs (s : State) (c : Nat) (f : Channel → Channel) : (s.modChan c f).allocs = s.allocs := rfl
@[simp] theorem State.modChan_output (s : State) (c : Nat) (f : Channel → Channel) : (s.modChan c f).output = s.output := rfl
@[simp] theorem State.modChan_calls (s : State) (c : Nat) (f : Channel → Channel) : (s.modChan c f).calls = s.calls := rfl
@[simp] theorem State.modChan_cmd (s : State) (c : Nat) (f : Channel → Channel) : (s.modChan c f).cmd = s.cmd := rfl
@[simp] theorem State.modChan_res (s : State) (c : Nat) (f : Channel → Channel) : (s.modChan c f).res = s.res := rfl
@[simp] theorem State.modChan_pending (s : State) (c : Nat) (f : Channel → Channel) : (s.modChan c f).pending = s.pending := rfl
@[simp] theorem State.modChan_host (s : State) (c : Nat) (f : Channel → Channel) : (s.modChan c f).host = s.host := rfl
@[simp] theorem State.modChan_lastRead (s : State) (c : Nat) (f : Channel → Channel) : (s.modChan c f).lastRead = s.lastRead := rfl
@[simp] theorem State.modChan_oracle (s : State) (c : Nat) (f : Channel → Channel) : (s.modChan c f).oracle = s.oracle := rfl
@[simp] theorem State.modChan_params (s : State) (c : Nat) (f : Channel → Channel) : (s.modChan c f).params = s.params := rfl

/-! ### `State.modDesc` -/

@[simp] theorem State.modDesc_owner (s : State) (c : Nat) (f : Desc → Desc) : (s.modDesc c f).owner = s.owner := rfl
@[simp] theorem State.modDesc_fault (s : State) (c : Nat) (f : Desc → Desc) : (s.modDesc c f).fault = s.fault := rfl
@[simp] theorem State.modDesc_irqDepth (s : State) (c : Nat) (f : Desc → Desc) : (s.modDesc c f).irqDepth = s.irqDepth := rfl
@[simp] theorem State.modDesc_ctx (s : State) (c : Nat) (f : Desc → Desc) : (s.modDesc c f).ctx = s.ctx := rfl
@[simp] theorem State.modDesc_ai (s : State) (c : Nat) (f : Desc → Desc) : (s.modDesc c f).ai = s.ai := rfl
@[simp] theorem State.modDesc_drv (s : State) (c : Nat) (f : Desc → Desc) : (s.modDesc c f).drv = s.drv := rfl
@[simp] theorem State.modDesc_sbs (s : State) (c : Nat) (f : Desc → Desc) : (s.modDesc c f).sbs = s.sbs := rfl
@[simp] theorem State.modDesc_mx (s : State) (c : Nat) (f : Desc → Desc) : (s.modDesc c f).mx = s.mx := rfl
@[simp] theorem State.modDesc_ring (s : State) (c : Nat) (f : Desc → Desc) : (s.modDesc c f).ring = s.ring := rfl
@[simp] theorem State.modDesc_chans (s : State) (c : Nat) (f : Desc → Desc) : (s.modDesc c f).chans = Table.put s.chans c { s.chan c with desc := f (s.chan c).desc } := rfl
@[simp] theorem State.modDesc_coproc (s : State) (c : Nat) (f : Desc → Desc) : (s.modDesc c f).coproc = s.coproc := rfl
@[simp] theorem State.modDesc_events (s : State) (c : Nat) (f : Desc → Desc) : (s.modDesc c f).events = s.events := rfl
@[simp] theorem State.modDesc_nextEvent (s : State) (c : Nat) (f : Desc → Desc) : (s.modDesc c f).nextEvent = s.nextEvent := rfl
@[simp] theorem State.modDesc_vs (s : State) (c : Nat) (f : Desc → Desc) : (s.modDesc c f).vs = s.vs := rfl
@[simp] theorem State.modDesc_mem (s : State) (c : Nat) (f : Desc → Desc) : (s.modDesc c f).mem = s.mem := rfl
@[simp] theorem State.modDesc_cache (s : State) (c : Nat) (f : Desc → Desc) : (s.modDesc c f).cache = s.cache := rfl
@[simp] theorem State.modDesc_race (s : State) (c : Nat) (f : Desc → Desc) : (s.modDesc c f).race = s.race := rfl
@[simp] theorem State.modDesc_allocs (s : State) (c : Nat) (f : Desc → Desc) : (s.modDesc c f).allocs = s.allocs := rfl
@[simp] theorem State.modDesc_output (s : State) (c : Nat) (f : Desc → Desc) : (s.modDesc c f).output = s.output := rfl
@[simp] theorem State.modDesc_calls (s : State) (c : Nat) (f : Desc → Desc) : (s.modDesc c f).calls = s.calls := rfl
@[simp] theorem State.modDesc_cmd (s : State) (c : Nat) (f : Desc → Desc) : (s.modDesc c f).cmd = s.cmd := rfl
@[simp] theorem State.modDesc_res (s : State) (c : Nat) (f : Desc → Desc) : (s.modDesc c f).res = s.res := rfl
@[simp] theorem State.modDesc_pending (s : State) (c : Nat) (f : Desc → Desc) : (s.modDesc c f).pending = s.pending := rfl
@[simp] theorem State.modDesc_host (s : State) (c : Nat) (f : Desc → Desc) : (s.modDesc c f).host = s.host := rfl
@[simp] theorem State.modDesc_lastRead (s : State) (c : Nat) (f : Desc → Desc) : (s.modDesc c f).lastRead = s.lastRead := rfl
@[simp] theorem State.modDesc_oracle (s : State) (c : Nat) (f : Desc → Desc) : (s.modDesc c f).oracle = s.oracle := rfl
@[simp] theorem State.modDesc_params (s : State) (c : Nat) (f : Desc → Desc) : (s.modDesc c f).params = s.params := rfl

/-! ### `State.cpuPut` -/

@[simp] theorem State.cpuPut_owner (s : State) (a : Nat) (bs : List Byte) : (s.cpuPut a bs).owner = s.owner := rfl
@[simp] theorem State.cpuPut_fault (s : State) (a : Nat) (bs : List Byte) : (s.cpuPut a bs).fault = s.fault := rfl
@[simp] theorem State.cpuPut_irqDepth (s : State) (a : Nat) (bs : List Byte) : (s.cpuPut a bs).irqDepth = s.irqDepth := rfl
@[simp] theorem State.cpuPut_ctx (s : State) (a : Nat) (bs : List Byte) : (s.cpuPut a bs).ctx = s.ctx := rfl
@[simp] theorem State.cpuPut_ai (s : State) (a : Nat) (bs : List Byte) : (s.cpuPut a bs).ai = s.ai := rfl
@[simp] theorem State.cpuPut_drv (s : State) (a : Nat) (bs : List Byte) : (s.cpuPut a bs).drv = s.drv := rfl
@[simp] theorem State.cpuPut_sbs (s : State) (a : Nat) (bs : List Byte) : (s.cpuPut a bs).sbs = s.sbs := rfl
@[simp] theorem State.cpuPut_mx (s : State) (a : Nat) (bs : List Byte) : (s.cpuPut a bs).mx = s.mx := rfl
@[simp] theorem State.cpuPut_ring (s : State) (a : Nat) (bs : List Byte) : (s.cpuPut a bs).ring = s.ring := rfl
@[simp] theorem State.cpuPut_chans (s : State) (a : Nat) (bs : List Byte) : (s.cpuPut a bs).chans = s.chans := rfl
@[simp] theorem State.cpuPut_coproc (s : State) (a : Nat) (bs : List Byte) : (s.cpuPut a bs).coproc = s.coproc := rfl
@[simp] theorem State.cpuPut_events (s : State) (a : Nat) (bs : List Byte) : (s.cpuPut a bs).events = s.events := rfl
@[simp] theorem State.cpuPut_nextEvent (s : State) (a : Nat) (bs : List Byte) : (s.cpuPut a bs).nextEvent = s.nextEvent := rfl
@[simp] theorem State.cpuPut_vs (s : State) (a : Nat) (bs : List Byte) : (s.cpuPut a bs).vs = s.vs := rfl
@[simp] theorem State.cpuPut_mem (s : State) (a : Nat) (bs : List Byte) : (s.cpuPut a bs).mem = Memory.put s.mem a bs := rfl
@[simp] theorem State.cpuPut_cache (s : State) (a : Nat) (bs : List Byte) : (s.cpuPut a bs).cache = { s.cache with dirty := dirtyOutside s.cache.dirty a bs.length } := rfl
@[simp] theorem State.cpuPut_race (s : State) (a : Nat) (bs : List Byte) : (s.cpuPut a bs).race = s.race ++ s.raced a bs.length := rfl
@[simp] theorem State.cpuPut_allocs (s : State) (a : Nat) (bs : List Byte) : (s.cpuPut a bs).allocs = s.allocs := rfl
@[simp] theorem State.cpuPut_output (s : State) (a : Nat) (bs : List Byte) : (s.cpuPut a bs).output = s.output := rfl
@[simp] theorem State.cpuPut_calls (s : State) (a : Nat) (bs : List Byte) : (s.cpuPut a bs).calls = s.calls := rfl
@[simp] theorem State.cpuPut_cmd (s : State) (a : Nat) (bs : List Byte) : (s.cpuPut a bs).cmd = s.cmd := rfl
@[simp] theorem State.cpuPut_res (s : State) (a : Nat) (bs : List Byte) : (s.cpuPut a bs).res = s.res := rfl
@[simp] theorem State.cpuPut_pending (s : State) (a : Nat) (bs : List Byte) : (s.cpuPut a bs).pending = s.pending := rfl
@[simp] theorem State.cpuPut_host (s : State) (a : Nat) (bs : List Byte) : (s.cpuPut a bs).host = s.host := rfl
@[simp] theorem State.cpuPut_lastRead (s : State) (a : Nat) (bs : List Byte) : (s.cpuPut a bs).lastRead = s.lastRead := rfl
@[simp] theorem State.cpuPut_oracle (s : State) (a : Nat) (bs : List Byte) : (s.cpuPut a bs).oracle = s.oracle := rfl
@[simp] theorem State.cpuPut_params (s : State) (a : Nat) (bs : List Byte) : (s.cpuPut a bs).params = s.params := rfl

/-! ### `State.cpuClear` -/

@[simp] theorem State.cpuClear_owner (s : State) (a n : Nat) : (s.cpuClear a n).owner = s.owner := rfl
@[simp] theorem State.cpuClear_fault (s : State) (a n : Nat) : (s.cpuClear a n).fault = s.fault := rfl
@[simp] theorem State.cpuClear_irqDepth (s : State) (a n : Nat) : (s.cpuClear a n).irqDepth = s.irqDepth := rfl
@[simp] theorem State.cpuClear_ctx (s : State) (a n : Nat) : (s.cpuClear a n).ctx = s.ctx := rfl
@[simp] theorem State.cpuClear_ai (s : State) (a n : Nat) : (s.cpuClear a n).ai = s.ai := rfl
@[simp] theorem State.cpuClear_drv (s : State) (a n : Nat) : (s.cpuClear a n).drv = s.drv := rfl
@[simp] theorem State.cpuClear_sbs (s : State) (a n : Nat) : (s.cpuClear a n).sbs = s.sbs := rfl
@[simp] theorem State.cpuClear_mx (s : State) (a n : Nat) : (s.cpuClear a n).mx = s.mx := rfl
@[simp] theorem State.cpuClear_ring (s : State) (a n : Nat) : (s.cpuClear a n).ring = s.ring := rfl
@[simp] theorem State.cpuClear_chans (s : State) (a n : Nat) : (s.cpuClear a n).chans = s.chans := rfl
@[simp] theorem State.cpuClear_coproc (s : State) (a n : Nat) : (s.cpuClear a n).coproc = s.coproc := rfl
@[simp] theorem State.cpuClear_events (s : State) (a n : Nat) : (s.cpuClear a n).events = s.events := rfl
@[simp] theorem State.cpuClear_nextEvent (s : State) (a n : Nat) : (s.cpuClear a n).nextEvent = s.nextEvent := rfl
@[simp] theorem State.cpuClear_vs (s : State) (a n : Nat) : (s.cpuClear a n).vs = s.vs := rfl
@[simp] theorem State.cpuClear_mem (s : State) (a n : Nat) : (s.cpuClear a n).mem = Memory.clear s.mem a n := rfl
@[simp] theorem State.cpuClear_cache (s : State) (a n : Nat) : (s.cpuClear a n).cache = { s.cache with dirty := dirtyOutside s.cache.dirty a n } := rfl
@[simp] theorem State.cpuClear_race (s : State) (a n : Nat) : (s.cpuClear a n).race = s.race ++ s.raced a n := rfl
@[simp] theorem State.cpuClear_allocs (s : State) (a n : Nat) : (s.cpuClear a n).allocs = s.allocs := rfl
@[simp] theorem State.cpuClear_output (s : State) (a n : Nat) : (s.cpuClear a n).output = s.output := rfl
@[simp] theorem State.cpuClear_calls (s : State) (a n : Nat) : (s.cpuClear a n).calls = s.calls := rfl
@[simp] theorem State.cpuClear_cmd (s : State) (a n : Nat) : (s.cpuClear a n).cmd = s.cmd := rfl
@[simp] theorem State.cpuClear_res (s : State) (a n : Nat) : (s.cpuClear a n).res = s.res := rfl
@[simp] theorem State.cpuClear_pending (s : State) (a n : Nat) : (s.cpuClear a n).pending = s.pending := rfl
@[simp] theorem State.cpuClear_host (s : State) (a n : Nat) : (s.cpuClear a n).host = s.host := rfl
@[simp] theorem State.cpuClear_lastRead (s : State) (a n : Nat) : (s.cpuClear a n).lastRead = s.lastRead := rfl
@[simp] theorem State.cpuClear_oracle (s : State) (a n : Nat) : (s.cpuClear a n).oracle = s.oracle := rfl
@[simp] theorem State.cpuClear_params (s : State) (a n : Nat) : (s.cpuClear a n).params = s.params := rfl

/-! ### `State.cachedPut` -/

@[simp] theorem State.cachedPut_owner (s : State) (a : Nat) (bs : List Byte) : (s.cachedPut a bs).owner = s.owner := rfl
@[simp] theorem State.cachedPut_fault (s : State) (a : Nat) (bs : List Byte) : (s.cachedPut a bs).fault = s.fault := rfl
@[simp] theorem State.cachedPut_irqDepth (s : State) (a : Nat) (bs : List Byte) : (s.cachedPut a bs).irqDepth = s.irqDepth := rfl
@[simp] theorem State.cachedPut_ctx (s : State) (a : Nat) (bs : List Byte) : (s.cachedPut a bs).ctx = s.ctx := rfl
@[simp] theorem State.cachedPut_ai (s : State) (a : Nat) (bs : List Byte) : (s.cachedPut a bs).ai = s.ai := rfl
@[simp] theorem State.cachedPut_drv (s : State) (a : Nat) (bs : List Byte) : (s.cachedPut a bs).drv = s.drv := rfl
@[simp] theorem State.cachedPut_sbs (s : State) (a : Nat) (bs : List Byte) : (s.cachedPut a bs).sbs = s.sbs := rfl
@[simp] theorem State.cachedPut_mx (s : State) (a : Nat) (bs : List Byte) : (s.cachedPut a bs).mx = s.mx := rfl
@[simp] theorem State.cachedPut_ring (s : State) (a : Nat) (bs : List Byte) : (s.cachedPut a bs).ring = s.ring := rfl
@[simp] theorem State.cachedPut_chans (s : State) (a : Nat) (bs : List Byte) : (s.cachedPut a bs).chans = s.chans := rfl
@[simp] theorem State.cachedPut_coproc (s : State) (a : Nat) (bs : List Byte) : (s.cachedPut a bs).coproc = s.coproc := rfl
@[simp] theorem State.cachedPut_events (s : State) (a : Nat) (bs : List Byte) : (s.cachedPut a bs).events = s.events := rfl
@[simp] theorem State.cachedPut_nextEvent (s : State) (a : Nat) (bs : List Byte) : (s.cachedPut a bs).nextEvent = s.nextEvent := rfl
@[simp] theorem State.cachedPut_vs (s : State) (a : Nat) (bs : List Byte) : (s.cachedPut a bs).vs = s.vs := rfl
@[simp] theorem State.cachedPut_mem (s : State) (a : Nat) (bs : List Byte) : (s.cachedPut a bs).mem = s.mem := rfl
@[simp] theorem State.cachedPut_cache (s : State) (a : Nat) (bs : List Byte) : (s.cachedPut a bs).cache = { s.cache with dirty := Memory.below s.cache.dirty a ++ cellsOf a bs ++ Memory.above s.cache.dirty (a + bs.length), newer := rangesOutside s.cache.newer a (a + bs.length) } := rfl
@[simp] theorem State.cachedPut_race (s : State) (a : Nat) (bs : List Byte) : (s.cachedPut a bs).race = s.race ++ s.racedDirty a bs.length := rfl
@[simp] theorem State.cachedPut_allocs (s : State) (a : Nat) (bs : List Byte) : (s.cachedPut a bs).allocs = s.allocs := rfl
@[simp] theorem State.cachedPut_output (s : State) (a : Nat) (bs : List Byte) : (s.cachedPut a bs).output = s.output := rfl
@[simp] theorem State.cachedPut_calls (s : State) (a : Nat) (bs : List Byte) : (s.cachedPut a bs).calls = s.calls := rfl
@[simp] theorem State.cachedPut_cmd (s : State) (a : Nat) (bs : List Byte) : (s.cachedPut a bs).cmd = s.cmd := rfl
@[simp] theorem State.cachedPut_res (s : State) (a : Nat) (bs : List Byte) : (s.cachedPut a bs).res = s.res := rfl
@[simp] theorem State.cachedPut_pending (s : State) (a : Nat) (bs : List Byte) : (s.cachedPut a bs).pending = s.pending := rfl
@[simp] theorem State.cachedPut_host (s : State) (a : Nat) (bs : List Byte) : (s.cachedPut a bs).host = s.host := rfl
@[simp] theorem State.cachedPut_lastRead (s : State) (a : Nat) (bs : List Byte) : (s.cachedPut a bs).lastRead = s.lastRead := rfl
@[simp] theorem State.cachedPut_oracle (s : State) (a : Nat) (bs : List Byte) : (s.cachedPut a bs).oracle = s.oracle := rfl
@[simp] theorem State.cachedPut_params (s : State) (a : Nat) (bs : List Byte) : (s.cachedPut a bs).params = s.params := rfl

/-! ### `State.invalidate` -/

@[simp] theorem State.invalidate_owner (s : State) (a n : Nat) : (s.invalidate a n).owner = s.owner := rfl
@[simp] theorem State.invalidate_fault (s : State) (a n : Nat) : (s.invalidate a n).fault = s.fault := rfl
@[simp] theorem State.invalidate_irqDepth (s : State) (a n : Nat) : (s.invalidate a n).irqDepth = s.irqDepth := rfl
@[simp] theorem State.invalidate_ctx (s : State) (a n : Nat) : (s.invalidate a n).ctx = s.ctx := rfl
@[simp] theorem State.invalidate_ai (s : State) (a n : Nat) : (s.invalidate a n).ai = s.ai := rfl
@[simp] theorem State.invalidate_drv (s : State) (a n : Nat) : (s.invalidate a n).drv = s.drv := rfl
@[simp] theorem State.invalidate_sbs (s : State) (a n : Nat) : (s.invalidate a n).sbs = s.sbs := rfl
@[simp] theorem State.invalidate_mx (s : State) (a n : Nat) : (s.invalidate a n).mx = s.mx := rfl
@[simp] theorem State.invalidate_ring (s : State) (a n : Nat) : (s.invalidate a n).ring = s.ring := rfl
@[simp] theorem State.invalidate_chans (s : State) (a n : Nat) : (s.invalidate a n).chans = s.chans := rfl
@[simp] theorem State.invalidate_coproc (s : State) (a n : Nat) : (s.invalidate a n).coproc = s.coproc := rfl
@[simp] theorem State.invalidate_events (s : State) (a n : Nat) : (s.invalidate a n).events = s.events := rfl
@[simp] theorem State.invalidate_nextEvent (s : State) (a n : Nat) : (s.invalidate a n).nextEvent = s.nextEvent := rfl
@[simp] theorem State.invalidate_vs (s : State) (a n : Nat) : (s.invalidate a n).vs = s.vs := rfl
@[simp] theorem State.invalidate_mem (s : State) (a n : Nat) : (s.invalidate a n).mem = s.mem := rfl
@[simp] theorem State.invalidate_cache (s : State) (a n : Nat) : (s.invalidate a n).cache = ⟨dirtyOutside s.cache.dirty a n, rangesOutside s.cache.stale a (a + n), rangesOutside s.cache.newer a (a + n)⟩ := rfl
@[simp] theorem State.invalidate_race (s : State) (a n : Nat) : (s.invalidate a n).race = s.race ++ s.racedDirty a n := rfl
@[simp] theorem State.invalidate_allocs (s : State) (a n : Nat) : (s.invalidate a n).allocs = s.allocs := rfl
@[simp] theorem State.invalidate_output (s : State) (a n : Nat) : (s.invalidate a n).output = s.output := rfl
@[simp] theorem State.invalidate_calls (s : State) (a n : Nat) : (s.invalidate a n).calls = s.calls := rfl
@[simp] theorem State.invalidate_cmd (s : State) (a n : Nat) : (s.invalidate a n).cmd = s.cmd := rfl
@[simp] theorem State.invalidate_res (s : State) (a n : Nat) : (s.invalidate a n).res = s.res := rfl
@[simp] theorem State.invalidate_pending (s : State) (a n : Nat) : (s.invalidate a n).pending = s.pending := rfl
@[simp] theorem State.invalidate_host (s : State) (a n : Nat) : (s.invalidate a n).host = s.host := rfl
@[simp] theorem State.invalidate_lastRead (s : State) (a n : Nat) : (s.invalidate a n).lastRead = s.lastRead := rfl
@[simp] theorem State.invalidate_oracle (s : State) (a n : Nat) : (s.invalidate a n).oracle = s.oracle := rfl
@[simp] theorem State.invalidate_params (s : State) (a n : Nat) : (s.invalidate a n).params = s.params := rfl

/-! ### `State.hwPut` -/

@[simp] theorem State.hwPut_owner (s : State) (a : Nat) (bs : List Byte) : (s.hwPut a bs).owner = s.owner := rfl
@[simp] theorem State.hwPut_fault (s : State) (a : Nat) (bs : List Byte) : (s.hwPut a bs).fault = s.fault := rfl
@[simp] theorem State.hwPut_irqDepth (s : State) (a : Nat) (bs : List Byte) : (s.hwPut a bs).irqDepth = s.irqDepth := rfl
@[simp] theorem State.hwPut_ctx (s : State) (a : Nat) (bs : List Byte) : (s.hwPut a bs).ctx = s.ctx := rfl
@[simp] theorem State.hwPut_ai (s : State) (a : Nat) (bs : List Byte) : (s.hwPut a bs).ai = s.ai := rfl
@[simp] theorem State.hwPut_drv (s : State) (a : Nat) (bs : List Byte) : (s.hwPut a bs).drv = s.drv := rfl
@[simp] theorem State.hwPut_sbs (s : State) (a : Nat) (bs : List Byte) : (s.hwPut a bs).sbs = s.sbs := rfl
@[simp] theorem State.hwPut_mx (s : State) (a : Nat) (bs : List Byte) : (s.hwPut a bs).mx = s.mx := rfl
@[simp] theorem State.hwPut_ring (s : State) (a : Nat) (bs : List Byte) : (s.hwPut a bs).ring = s.ring := rfl
@[simp] theorem State.hwPut_chans (s : State) (a : Nat) (bs : List Byte) : (s.hwPut a bs).chans = s.chans := rfl
@[simp] theorem State.hwPut_coproc (s : State) (a : Nat) (bs : List Byte) : (s.hwPut a bs).coproc = s.coproc := rfl
@[simp] theorem State.hwPut_events (s : State) (a : Nat) (bs : List Byte) : (s.hwPut a bs).events = s.events := rfl
@[simp] theorem State.hwPut_nextEvent (s : State) (a : Nat) (bs : List Byte) : (s.hwPut a bs).nextEvent = s.nextEvent := rfl
@[simp] theorem State.hwPut_vs (s : State) (a : Nat) (bs : List Byte) : (s.hwPut a bs).vs = s.vs := rfl
@[simp] theorem State.hwPut_mem (s : State) (a : Nat) (bs : List Byte) : (s.hwPut a bs).mem = Memory.put s.mem a bs := rfl
@[simp] theorem State.hwPut_cache (s : State) (a : Nat) (bs : List Byte) : (s.hwPut a bs).cache = { s.cache with stale := rangesOutside s.cache.stale a (a + bs.length) ++ [(a, a + bs.length)], newer := rangesOutside s.cache.newer a (a + bs.length) ++ [(a, a + bs.length)] } := rfl
@[simp] theorem State.hwPut_race (s : State) (a : Nat) (bs : List Byte) : (s.hwPut a bs).race = s.race ++ s.raced a bs.length := rfl
@[simp] theorem State.hwPut_allocs (s : State) (a : Nat) (bs : List Byte) : (s.hwPut a bs).allocs = s.allocs := rfl
@[simp] theorem State.hwPut_output (s : State) (a : Nat) (bs : List Byte) : (s.hwPut a bs).output = s.output := rfl
@[simp] theorem State.hwPut_calls (s : State) (a : Nat) (bs : List Byte) : (s.hwPut a bs).calls = s.calls := rfl
@[simp] theorem State.hwPut_cmd (s : State) (a : Nat) (bs : List Byte) : (s.hwPut a bs).cmd = s.cmd := rfl
@[simp] theorem State.hwPut_res (s : State) (a : Nat) (bs : List Byte) : (s.hwPut a bs).res = s.res := rfl
@[simp] theorem State.hwPut_pending (s : State) (a : Nat) (bs : List Byte) : (s.hwPut a bs).pending = s.pending := rfl
@[simp] theorem State.hwPut_host (s : State) (a : Nat) (bs : List Byte) : (s.hwPut a bs).host = s.host := rfl
@[simp] theorem State.hwPut_lastRead (s : State) (a : Nat) (bs : List Byte) : (s.hwPut a bs).lastRead = s.lastRead := rfl
@[simp] theorem State.hwPut_oracle (s : State) (a : Nat) (bs : List Byte) : (s.hwPut a bs).oracle = s.oracle := rfl
@[simp] theorem State.hwPut_params (s : State) (a : Nat) (bs : List Byte) : (s.hwPut a bs).params = s.params := rfl

/-! ### `State.addEvent` -/

@[simp] theorem State.addEvent_owner (s : State) (t : Dword) (cb x : Word) : (s.addEvent t cb x).owner = s.owner := rfl
@[simp] theorem State.addEvent_fault (s : State) (t : Dword) (cb x : Word) : (s.addEvent t cb x).fault = s.fault := rfl
@[simp] theorem State.addEvent_irqDepth (s : State) (t : Dword) (cb x : Word) : (s.addEvent t cb x).irqDepth = s.irqDepth := rfl
@[simp] theorem State.addEvent_ctx (s : State) (t : Dword) (cb x : Word) : (s.addEvent t cb x).ctx = s.ctx := rfl
@[simp] theorem State.addEvent_ai (s : State) (t : Dword) (cb x : Word) : (s.addEvent t cb x).ai = s.ai := rfl
@[simp] theorem State.addEvent_drv (s : State) (t : Dword) (cb x : Word) : (s.addEvent t cb x).drv = s.drv := rfl
@[simp] theorem State.addEvent_sbs (s : State) (t : Dword) (cb x : Word) : (s.addEvent t cb x).sbs = s.sbs := rfl
@[simp] theorem State.addEvent_mx (s : State) (t : Dword) (cb x : Word) : (s.addEvent t cb x).mx = s.mx := rfl
@[simp] theorem State.addEvent_ring (s : State) (t : Dword) (cb x : Word) : (s.addEvent t cb x).ring = s.ring := rfl
@[simp] theorem State.addEvent_chans (s : State) (t : Dword) (cb x : Word) : (s.addEvent t cb x).chans = s.chans := rfl
@[simp] theorem State.addEvent_coproc (s : State) (t : Dword) (cb x : Word) : (s.addEvent t cb x).coproc = s.coproc := rfl
@[simp] theorem State.addEvent_events (s : State) (t : Dword) (cb x : Word) : (s.addEvent t cb x).events = s.events ++ [⟨s.nextEvent, t, cb, x⟩] := rfl
@[simp] theorem State.addEvent_nextEvent (s : State) (t : Dword) (cb x : Word) : (s.addEvent t cb x).nextEvent = s.nextEvent + 1 := rfl
@[simp] theorem State.addEvent_vs (s : State) (t : Dword) (cb x : Word) : (s.addEvent t cb x).vs = s.vs := rfl
@[simp] theorem State.addEvent_mem (s : State) (t : Dword) (cb x : Word) : (s.addEvent t cb x).mem = s.mem := rfl
@[simp] theorem State.addEvent_cache (s : State) (t : Dword) (cb x : Word) : (s.addEvent t cb x).cache = s.cache := rfl
@[simp] theorem State.addEvent_race (s : State) (t : Dword) (cb x : Word) : (s.addEvent t cb x).race = s.race := rfl
@[simp] theorem State.addEvent_allocs (s : State) (t : Dword) (cb x : Word) : (s.addEvent t cb x).allocs = s.allocs := rfl
@[simp] theorem State.addEvent_output (s : State) (t : Dword) (cb x : Word) : (s.addEvent t cb x).output = s.output := rfl
@[simp] theorem State.addEvent_calls (s : State) (t : Dword) (cb x : Word) : (s.addEvent t cb x).calls = s.calls := rfl
@[simp] theorem State.addEvent_cmd (s : State) (t : Dword) (cb x : Word) : (s.addEvent t cb x).cmd = s.cmd := rfl
@[simp] theorem State.addEvent_res (s : State) (t : Dword) (cb x : Word) : (s.addEvent t cb x).res = s.res := rfl
@[simp] theorem State.addEvent_pending (s : State) (t : Dword) (cb x : Word) : (s.addEvent t cb x).pending = s.pending := rfl
@[simp] theorem State.addEvent_host (s : State) (t : Dword) (cb x : Word) : (s.addEvent t cb x).host = s.host := rfl
@[simp] theorem State.addEvent_lastRead (s : State) (t : Dword) (cb x : Word) : (s.addEvent t cb x).lastRead = s.lastRead := rfl
@[simp] theorem State.addEvent_oracle (s : State) (t : Dword) (cb x : Word) : (s.addEvent t cb x).oracle = s.oracle := rfl
@[simp] theorem State.addEvent_params (s : State) (t : Dword) (cb x : Word) : (s.addEvent t cb x).params = s.params := rfl

/-! ### `State.clientHolds` -/

@[simp] theorem State.clientHolds_owner (s : State) : s.clientHolds.owner = s.owner := rfl
@[simp] theorem State.clientHolds_fault (s : State) : s.clientHolds.fault = s.fault := rfl
@[simp] theorem State.clientHolds_irqDepth (s : State) : s.clientHolds.irqDepth = s.irqDepth := rfl
@[simp] theorem State.clientHolds_ctx (s : State) : s.clientHolds.ctx = s.ctx := rfl
@[simp] theorem State.clientHolds_ai (s : State) : s.clientHolds.ai = s.ai := rfl
@[simp] theorem State.clientHolds_drv (s : State) : s.clientHolds.drv = s.drv := rfl
@[simp] theorem State.clientHolds_sbs (s : State) : s.clientHolds.sbs = s.sbs := rfl
@[simp] theorem State.clientHolds_mx (s : State) : s.clientHolds.mx = s.mx := rfl
@[simp] theorem State.clientHolds_ring (s : State) : s.clientHolds.ring = s.ring := rfl
@[simp] theorem State.clientHolds_chans (s : State) : s.clientHolds.chans = s.chans := rfl
@[simp] theorem State.clientHolds_coproc (s : State) : s.clientHolds.coproc = { s.coproc with jobBusy := true, client := true } := rfl
@[simp] theorem State.clientHolds_events (s : State) : s.clientHolds.events = s.events := rfl
@[simp] theorem State.clientHolds_nextEvent (s : State) : s.clientHolds.nextEvent = s.nextEvent := rfl
@[simp] theorem State.clientHolds_vs (s : State) : s.clientHolds.vs = s.vs := rfl
@[simp] theorem State.clientHolds_mem (s : State) : s.clientHolds.mem = s.mem := rfl
@[simp] theorem State.clientHolds_cache (s : State) : s.clientHolds.cache = s.cache := rfl
@[simp] theorem State.clientHolds_race (s : State) : s.clientHolds.race = s.race := rfl
@[simp] theorem State.clientHolds_allocs (s : State) : s.clientHolds.allocs = s.allocs := rfl
@[simp] theorem State.clientHolds_output (s : State) : s.clientHolds.output = s.output := rfl
@[simp] theorem State.clientHolds_calls (s : State) : s.clientHolds.calls = s.calls := rfl
@[simp] theorem State.clientHolds_cmd (s : State) : s.clientHolds.cmd = s.cmd := rfl
@[simp] theorem State.clientHolds_res (s : State) : s.clientHolds.res = s.res := rfl
@[simp] theorem State.clientHolds_pending (s : State) : s.clientHolds.pending = s.pending := rfl
@[simp] theorem State.clientHolds_host (s : State) : s.clientHolds.host = s.host := rfl
@[simp] theorem State.clientHolds_lastRead (s : State) : s.clientHolds.lastRead = s.lastRead := rfl
@[simp] theorem State.clientHolds_oracle (s : State) : s.clientHolds.oracle = s.oracle := rfl
@[simp] theorem State.clientHolds_params (s : State) : s.clientHolds.params = s.params := rfl

/-! ### `State.acquired` -/

@[simp] theorem State.acquired_owner (s : State) : s.acquired.owner = s.owner := rfl
@[simp] theorem State.acquired_fault (s : State) : s.acquired.fault = s.fault := rfl
@[simp] theorem State.acquired_irqDepth (s : State) : s.acquired.irqDepth = s.irqDepth := rfl
@[simp] theorem State.acquired_ctx (s : State) : s.acquired.ctx = s.ctx := rfl
@[simp] theorem State.acquired_ai (s : State) : s.acquired.ai = s.ai := rfl
@[simp] theorem State.acquired_drv (s : State) : s.acquired.drv = s.drv := rfl
@[simp] theorem State.acquired_sbs (s : State) : s.acquired.sbs = s.sbs := rfl
@[simp] theorem State.acquired_mx (s : State) : s.acquired.mx = s.mx := rfl
@[simp] theorem State.acquired_ring (s : State) : s.acquired.ring = s.ring := rfl
@[simp] theorem State.acquired_chans (s : State) : s.acquired.chans = s.chans := rfl
@[simp] theorem State.acquired_coproc (s : State) : s.acquired.coproc = { s.coproc with jobBusy := true, client := false } := rfl
@[simp] theorem State.acquired_events (s : State) : s.acquired.events = s.events := rfl
@[simp] theorem State.acquired_nextEvent (s : State) : s.acquired.nextEvent = s.nextEvent := rfl
@[simp] theorem State.acquired_vs (s : State) : s.acquired.vs = s.vs := rfl
@[simp] theorem State.acquired_mem (s : State) : s.acquired.mem = s.mem := rfl
@[simp] theorem State.acquired_cache (s : State) : s.acquired.cache = s.cache := rfl
@[simp] theorem State.acquired_race (s : State) : s.acquired.race = s.race := rfl
@[simp] theorem State.acquired_allocs (s : State) : s.acquired.allocs = s.allocs := rfl
@[simp] theorem State.acquired_output (s : State) : s.acquired.output = s.output := rfl
@[simp] theorem State.acquired_calls (s : State) : s.acquired.calls = s.calls := rfl
@[simp] theorem State.acquired_cmd (s : State) : s.acquired.cmd = s.cmd := rfl
@[simp] theorem State.acquired_res (s : State) : s.acquired.res = s.res := rfl
@[simp] theorem State.acquired_pending (s : State) : s.acquired.pending = s.pending := rfl
@[simp] theorem State.acquired_host (s : State) : s.acquired.host = s.host := rfl
@[simp] theorem State.acquired_lastRead (s : State) : s.acquired.lastRead = s.lastRead := rfl
@[simp] theorem State.acquired_oracle (s : State) : s.acquired.oracle = s.oracle := rfl
@[simp] theorem State.acquired_params (s : State) : s.acquired.params = s.params := rfl

/-! ### `State.upload` -/

@[simp] theorem State.upload_owner (s : State) (out n : Nat) : (s.upload out n).owner = s.owner := rfl
@[simp] theorem State.upload_fault (s : State) (out n : Nat) : (s.upload out n).fault = s.fault := rfl
@[simp] theorem State.upload_irqDepth (s : State) (out n : Nat) : (s.upload out n).irqDepth = s.irqDepth := rfl
@[simp] theorem State.upload_ctx (s : State) (out n : Nat) : (s.upload out n).ctx = s.ctx := rfl
@[simp] theorem State.upload_ai (s : State) (out n : Nat) : (s.upload out n).ai = s.ai := rfl
@[simp] theorem State.upload_drv (s : State) (out n : Nat) : (s.upload out n).drv = s.drv := rfl
@[simp] theorem State.upload_sbs (s : State) (out n : Nat) : (s.upload out n).sbs = s.sbs := rfl
@[simp] theorem State.upload_mx (s : State) (out n : Nat) : (s.upload out n).mx = s.mx := rfl
@[simp] theorem State.upload_ring (s : State) (out n : Nat) : (s.upload out n).ring = s.ring := rfl
@[simp] theorem State.upload_chans (s : State) (out n : Nat) : (s.upload out n).chans = s.chans := rfl
@[simp] theorem State.upload_coproc (s : State) (out n : Nat) : (s.upload out n).coproc = { s.coproc with mem := Memory.put s.coproc.mem 0 (s.jobBlock out n) } := rfl
@[simp] theorem State.upload_events (s : State) (out n : Nat) : (s.upload out n).events = s.events := rfl
@[simp] theorem State.upload_nextEvent (s : State) (out n : Nat) : (s.upload out n).nextEvent = s.nextEvent := rfl
@[simp] theorem State.upload_vs (s : State) (out n : Nat) : (s.upload out n).vs = s.vs := rfl
@[simp] theorem State.upload_mem (s : State) (out n : Nat) : (s.upload out n).mem = s.mem := rfl
@[simp] theorem State.upload_cache (s : State) (out n : Nat) : (s.upload out n).cache = s.cache := rfl
@[simp] theorem State.upload_race (s : State) (out n : Nat) : (s.upload out n).race = s.race := rfl
@[simp] theorem State.upload_allocs (s : State) (out n : Nat) : (s.upload out n).allocs = s.allocs := rfl
@[simp] theorem State.upload_output (s : State) (out n : Nat) : (s.upload out n).output = s.output := rfl
@[simp] theorem State.upload_calls (s : State) (out n : Nat) : (s.upload out n).calls = s.calls := rfl
@[simp] theorem State.upload_cmd (s : State) (out n : Nat) : (s.upload out n).cmd = s.cmd := rfl
@[simp] theorem State.upload_res (s : State) (out n : Nat) : (s.upload out n).res = s.res := rfl
@[simp] theorem State.upload_pending (s : State) (out n : Nat) : (s.upload out n).pending = s.pending := rfl
@[simp] theorem State.upload_host (s : State) (out n : Nat) : (s.upload out n).host = s.host := rfl
@[simp] theorem State.upload_lastRead (s : State) (out n : Nat) : (s.upload out n).lastRead = s.lastRead := rfl
@[simp] theorem State.upload_oracle (s : State) (out n : Nat) : (s.upload out n).oracle = s.oracle := rfl
@[simp] theorem State.upload_params (s : State) (out n : Nat) : (s.upload out n).params = s.params := rfl

/-! ### `State.readBack` -/

@[simp] theorem State.readBack_owner (s : State) : s.readBack.owner = s.owner := by simp only [State.readBack]
@[simp] theorem State.readBack_fault (s : State) : s.readBack.fault = s.fault := by simp only [State.readBack]
@[simp] theorem State.readBack_irqDepth (s : State) : s.readBack.irqDepth = s.irqDepth := by simp only [State.readBack]
@[simp] theorem State.readBack_ctx (s : State) : s.readBack.ctx = s.ctx := by simp only [State.readBack]
@[simp] theorem State.readBack_ai (s : State) : s.readBack.ai = s.ai := by simp only [State.readBack]
@[simp] theorem State.readBack_drv (s : State) : s.readBack.drv = s.drv := by simp only [State.readBack]
@[simp] theorem State.readBack_sbs (s : State) : s.readBack.sbs = s.sbs := by simp only [State.readBack]
@[simp] theorem State.readBack_mx (s : State) : s.readBack.mx = s.mx := by simp only [State.readBack]
@[simp] theorem State.readBack_ring (s : State) : s.readBack.ring = s.ring := by simp only [State.readBack]
@[simp] theorem State.readBack_coproc (s : State) : s.readBack.coproc = s.coproc := by simp only [State.readBack]
@[simp] theorem State.readBack_events (s : State) : s.readBack.events = s.events := by simp only [State.readBack]
@[simp] theorem State.readBack_nextEvent (s : State) : s.readBack.nextEvent = s.nextEvent := by simp only [State.readBack]
@[simp] theorem State.readBack_vs (s : State) : s.readBack.vs = s.vs := by simp only [State.readBack]
@[simp] theorem State.readBack_mem (s : State) : s.readBack.mem = s.mem := by simp only [State.readBack]
@[simp] theorem State.readBack_cache (s : State) : s.readBack.cache = s.cache := by simp only [State.readBack]
@[simp] theorem State.readBack_race (s : State) : s.readBack.race = s.race := by simp only [State.readBack]
@[simp] theorem State.readBack_allocs (s : State) : s.readBack.allocs = s.allocs := by simp only [State.readBack]
@[simp] theorem State.readBack_output (s : State) : s.readBack.output = s.output := by simp only [State.readBack]
@[simp] theorem State.readBack_calls (s : State) : s.readBack.calls = s.calls := by simp only [State.readBack]
@[simp] theorem State.readBack_cmd (s : State) : s.readBack.cmd = s.cmd := by simp only [State.readBack]
@[simp] theorem State.readBack_res (s : State) : s.readBack.res = s.res := by simp only [State.readBack]
@[simp] theorem State.readBack_pending (s : State) : s.readBack.pending = s.pending := by simp only [State.readBack]
@[simp] theorem State.readBack_host (s : State) : s.readBack.host = s.host := by simp only [State.readBack]
@[simp] theorem State.readBack_lastRead (s : State) : s.readBack.lastRead = s.lastRead := by simp only [State.readBack]
@[simp] theorem State.readBack_oracle (s : State) : s.readBack.oracle = s.oracle := by simp only [State.readBack]
@[simp] theorem State.readBack_params (s : State) : s.readBack.params = s.params := by simp only [State.readBack]

/-! ### `State.postCheck` -/

@[simp] theorem State.postCheck_owner (s : State) : s.postCheck.owner = s.owner := by simp only [State.postCheck]
@[simp] theorem State.postCheck_fault (s : State) : s.postCheck.fault = s.fault := by simp only [State.postCheck]
@[simp] theorem State.postCheck_irqDepth (s : State) : s.postCheck.irqDepth = s.irqDepth := by simp only [State.postCheck]
@[simp] theorem State.postCheck_ctx (s : State) : s.postCheck.ctx = s.ctx := by simp only [State.postCheck]
@[simp] theorem State.postCheck_ai (s : State) : s.postCheck.ai = s.ai := by simp only [State.postCheck]
@[simp] theorem State.postCheck_drv (s : State) : s.postCheck.drv = s.drv := by simp only [State.postCheck]
@[simp] theorem State.postCheck_sbs (s : State) : s.postCheck.sbs = s.sbs := by simp only [State.postCheck]
@[simp] theorem State.postCheck_mx (s : State) : s.postCheck.mx = s.mx := by simp only [State.postCheck]
@[simp] theorem State.postCheck_ring (s : State) : s.postCheck.ring = s.ring := by simp only [State.postCheck]
@[simp] theorem State.postCheck_coproc (s : State) : s.postCheck.coproc = s.coproc := by simp only [State.postCheck]
@[simp] theorem State.postCheck_events (s : State) : s.postCheck.events = s.events := by simp only [State.postCheck]
@[simp] theorem State.postCheck_nextEvent (s : State) : s.postCheck.nextEvent = s.nextEvent := by simp only [State.postCheck]
@[simp] theorem State.postCheck_vs (s : State) : s.postCheck.vs = s.vs := by simp only [State.postCheck]
@[simp] theorem State.postCheck_mem (s : State) : s.postCheck.mem = s.mem := by simp only [State.postCheck]
@[simp] theorem State.postCheck_cache (s : State) : s.postCheck.cache = s.cache := by simp only [State.postCheck]
@[simp] theorem State.postCheck_race (s : State) : s.postCheck.race = s.race := by simp only [State.postCheck]
@[simp] theorem State.postCheck_allocs (s : State) : s.postCheck.allocs = s.allocs := by simp only [State.postCheck]
@[simp] theorem State.postCheck_output (s : State) : s.postCheck.output = s.output := by simp only [State.postCheck]
@[simp] theorem State.postCheck_calls (s : State) : s.postCheck.calls = s.calls := by simp only [State.postCheck]
@[simp] theorem State.postCheck_cmd (s : State) : s.postCheck.cmd = s.cmd := by simp only [State.postCheck]
@[simp] theorem State.postCheck_res (s : State) : s.postCheck.res = s.res := by simp only [State.postCheck]
@[simp] theorem State.postCheck_pending (s : State) : s.postCheck.pending = s.pending := by simp only [State.postCheck]
@[simp] theorem State.postCheck_host (s : State) : s.postCheck.host = s.host := by simp only [State.postCheck]
@[simp] theorem State.postCheck_lastRead (s : State) : s.postCheck.lastRead = s.lastRead := by simp only [State.postCheck]
@[simp] theorem State.postCheck_oracle (s : State) : s.postCheck.oracle = s.oracle := by simp only [State.postCheck]
@[simp] theorem State.postCheck_params (s : State) : s.postCheck.params = s.params := by simp only [State.postCheck]

/-! ### `State.rewrapped` -/

@[simp] theorem State.rewrapped_owner (s : State) (c : Nat) : (s.rewrapped c).owner = s.owner := rfl
@[simp] theorem State.rewrapped_fault (s : State) (c : Nat) : (s.rewrapped c).fault = s.fault := rfl
@[simp] theorem State.rewrapped_irqDepth (s : State) (c : Nat) : (s.rewrapped c).irqDepth = s.irqDepth := rfl
@[simp] theorem State.rewrapped_ctx (s : State) (c : Nat) : (s.rewrapped c).ctx = s.ctx := rfl
@[simp] theorem State.rewrapped_ai (s : State) (c : Nat) : (s.rewrapped c).ai = s.ai := rfl
@[simp] theorem State.rewrapped_drv (s : State) (c : Nat) : (s.rewrapped c).drv = s.drv := rfl
@[simp] theorem State.rewrapped_mx (s : State) (c : Nat) : (s.rewrapped c).mx = s.mx := rfl
@[simp] theorem State.rewrapped_ring (s : State) (c : Nat) : (s.rewrapped c).ring = s.ring := rfl
@[simp] theorem State.rewrapped_coproc (s : State) (c : Nat) : (s.rewrapped c).coproc = s.coproc := rfl
@[simp] theorem State.rewrapped_events (s : State) (c : Nat) : (s.rewrapped c).events = s.events := rfl
@[simp] theorem State.rewrapped_nextEvent (s : State) (c : Nat) : (s.rewrapped c).nextEvent = s.nextEvent := rfl
@[simp] theorem State.rewrapped_vs (s : State) (c : Nat) : (s.rewrapped c).vs = s.vs := rfl
@[simp] theorem State.rewrapped_mem (s : State) (c : Nat) : (s.rewrapped c).mem = s.mem := rfl
@[simp] theorem State.rewrapped_cache (s : State) (c : Nat) : (s.rewrapped c).cache = s.cache := rfl
@[simp] theorem State.rewrapped_race (s : State) (c : Nat) : (s.rewrapped c).race = s.race := rfl
@[simp] theorem State.rewrapped_allocs (s : State) (c : Nat) : (s.rewrapped c).allocs = s.allocs := rfl
@[simp] theorem State.rewrapped_output (s : State) (c : Nat) : (s.rewrapped c).output = s.output := rfl
@[simp] theorem State.rewrapped_calls (s : State) (c : Nat) : (s.rewrapped c).calls = s.calls := rfl
@[simp] theorem State.rewrapped_cmd (s : State) (c : Nat) : (s.rewrapped c).cmd = s.cmd := rfl
@[simp] theorem State.rewrapped_res (s : State) (c : Nat) : (s.rewrapped c).res = s.res := rfl
@[simp] theorem State.rewrapped_pending (s : State) (c : Nat) : (s.rewrapped c).pending = s.pending := rfl
@[simp] theorem State.rewrapped_host (s : State) (c : Nat) : (s.rewrapped c).host = s.host := rfl
@[simp] theorem State.rewrapped_lastRead (s : State) (c : Nat) : (s.rewrapped c).lastRead = s.lastRead := rfl
@[simp] theorem State.rewrapped_oracle (s : State) (c : Nat) : (s.rewrapped c).oracle = s.oracle := rfl
@[simp] theorem State.rewrapped_params (s : State) (c : Nat) : (s.rewrapped c).params = s.params := rfl

/-! ### `State.unbindAll` -/

@[simp] theorem State.unbindAll_owner (s : State) : s.unbindAll.owner = s.owner := by simp only [State.unbindAll]
@[simp] theorem State.unbindAll_fault (s : State) : s.unbindAll.fault = s.fault := by simp only [State.unbindAll]
@[simp] theorem State.unbindAll_irqDepth (s : State) : s.unbindAll.irqDepth = s.irqDepth := by simp only [State.unbindAll]
@[simp] theorem State.unbindAll_ctx (s : State) : s.unbindAll.ctx = s.ctx := by simp only [State.unbindAll]
@[simp] theorem State.unbindAll_ai (s : State) : s.unbindAll.ai = s.ai := by simp only [State.unbindAll]
@[simp] theorem State.unbindAll_drv (s : State) : s.unbindAll.drv = s.drv := by simp only [State.unbindAll]
@[simp] theorem State.unbindAll_mx (s : State) : s.unbindAll.mx = s.mx := by simp only [State.unbindAll]
@[simp] theorem State.unbindAll_ring (s : State) : s.unbindAll.ring = s.ring := by simp only [State.unbindAll]
@[simp] theorem State.unbindAll_coproc (s : State) : s.unbindAll.coproc = s.coproc := by simp only [State.unbindAll]
@[simp] theorem State.unbindAll_events (s : State) : s.unbindAll.events = s.events := by simp only [State.unbindAll]
@[simp] theorem State.unbindAll_nextEvent (s : State) : s.unbindAll.nextEvent = s.nextEvent := by simp only [State.unbindAll]
@[simp] theorem State.unbindAll_vs (s : State) : s.unbindAll.vs = s.vs := by simp only [State.unbindAll]
@[simp] theorem State.unbindAll_mem (s : State) : s.unbindAll.mem = s.mem := by simp only [State.unbindAll]
@[simp] theorem State.unbindAll_cache (s : State) : s.unbindAll.cache = s.cache := by simp only [State.unbindAll]
@[simp] theorem State.unbindAll_race (s : State) : s.unbindAll.race = s.race := by simp only [State.unbindAll]
@[simp] theorem State.unbindAll_allocs (s : State) : s.unbindAll.allocs = s.allocs := by simp only [State.unbindAll]
@[simp] theorem State.unbindAll_output (s : State) : s.unbindAll.output = s.output := by simp only [State.unbindAll]
@[simp] theorem State.unbindAll_calls (s : State) : s.unbindAll.calls = s.calls := by simp only [State.unbindAll]
@[simp] theorem State.unbindAll_cmd (s : State) : s.unbindAll.cmd = s.cmd := by simp only [State.unbindAll]
@[simp] theorem State.unbindAll_res (s : State) : s.unbindAll.res = s.res := by simp only [State.unbindAll]
@[simp] theorem State.unbindAll_pending (s : State) : s.unbindAll.pending = s.pending := by simp only [State.unbindAll]
@[simp] theorem State.unbindAll_host (s : State) : s.unbindAll.host = s.host := by simp only [State.unbindAll]
@[simp] theorem State.unbindAll_lastRead (s : State) : s.unbindAll.lastRead = s.lastRead := by simp only [State.unbindAll]
@[simp] theorem State.unbindAll_oracle (s : State) : s.unbindAll.oracle = s.oracle := by simp only [State.unbindAll]
@[simp] theorem State.unbindAll_params (s : State) : s.unbindAll.params = s.params := by simp only [State.unbindAll]

/-! ### `State.engineFresh` -/

@[simp] theorem State.engineFresh_owner (s : State) (n : Half) (r a : Word) : (s.engineFresh n r a).owner = s.owner := by simp only [State.engineFresh]
@[simp] theorem State.engineFresh_fault (s : State) (n : Half) (r a : Word) : (s.engineFresh n r a).fault = s.fault := by simp only [State.engineFresh]
@[simp] theorem State.engineFresh_irqDepth (s : State) (n : Half) (r a : Word) : (s.engineFresh n r a).irqDepth = s.irqDepth := by simp only [State.engineFresh]
@[simp] theorem State.engineFresh_ctx (s : State) (n : Half) (r a : Word) : (s.engineFresh n r a).ctx = s.ctx := by simp only [State.engineFresh]
@[simp] theorem State.engineFresh_ai (s : State) (n : Half) (r a : Word) : (s.engineFresh n r a).ai = s.ai := by simp only [State.engineFresh]
@[simp] theorem State.engineFresh_drv (s : State) (n : Half) (r a : Word) : (s.engineFresh n r a).drv = s.drv := by simp only [State.engineFresh]
@[simp] theorem State.engineFresh_coproc (s : State) (n : Half) (r a : Word) : (s.engineFresh n r a).coproc = s.coproc := by simp only [State.engineFresh]
@[simp] theorem State.engineFresh_events (s : State) (n : Half) (r a : Word) : (s.engineFresh n r a).events = [] := by simp only [State.engineFresh]
@[simp] theorem State.engineFresh_nextEvent (s : State) (n : Half) (r a : Word) : (s.engineFresh n r a).nextEvent = s.nextEvent := by simp only [State.engineFresh]
@[simp] theorem State.engineFresh_vs (s : State) (n : Half) (r a : Word) : (s.engineFresh n r a).vs = s.vs := by simp only [State.engineFresh]
@[simp] theorem State.engineFresh_mem (s : State) (n : Half) (r a : Word) : (s.engineFresh n r a).mem = s.mem := by simp only [State.engineFresh]
@[simp] theorem State.engineFresh_cache (s : State) (n : Half) (r a : Word) : (s.engineFresh n r a).cache = s.cache := by simp only [State.engineFresh]
@[simp] theorem State.engineFresh_race (s : State) (n : Half) (r a : Word) : (s.engineFresh n r a).race = s.race := by simp only [State.engineFresh]
@[simp] theorem State.engineFresh_allocs (s : State) (n : Half) (r a : Word) : (s.engineFresh n r a).allocs = s.allocs := by simp only [State.engineFresh]
@[simp] theorem State.engineFresh_output (s : State) (n : Half) (r a : Word) : (s.engineFresh n r a).output = s.output := by simp only [State.engineFresh]
@[simp] theorem State.engineFresh_calls (s : State) (n : Half) (r a : Word) : (s.engineFresh n r a).calls = s.calls := by simp only [State.engineFresh]
@[simp] theorem State.engineFresh_cmd (s : State) (n : Half) (r a : Word) : (s.engineFresh n r a).cmd = s.cmd := by simp only [State.engineFresh]
@[simp] theorem State.engineFresh_res (s : State) (n : Half) (r a : Word) : (s.engineFresh n r a).res = s.res := by simp only [State.engineFresh]
@[simp] theorem State.engineFresh_pending (s : State) (n : Half) (r a : Word) : (s.engineFresh n r a).pending = s.pending := by simp only [State.engineFresh]
@[simp] theorem State.engineFresh_host (s : State) (n : Half) (r a : Word) : (s.engineFresh n r a).host = s.host := by simp only [State.engineFresh]
@[simp] theorem State.engineFresh_lastRead (s : State) (n : Half) (r a : Word) : (s.engineFresh n r a).lastRead = s.lastRead := by simp only [State.engineFresh]
@[simp] theorem State.engineFresh_oracle (s : State) (n : Half) (r a : Word) : (s.engineFresh n r a).oracle = s.oracle := by simp only [State.engineFresh]
@[simp] theorem State.engineFresh_params (s : State) (n : Half) (r a : Word) : (s.engineFresh n r a).params = s.params := by simp only [State.engineFresh]

/-! ### `State.engineOff` -/

@[simp] theorem State.engineOff_owner (s : State) : s.engineOff.owner = .none := by simp only [State.engineOff]
@[simp] theorem State.engineOff_fault (s : State) : s.engineOff.fault = s.fault := by simp only [State.engineOff]
@[simp] theorem State.engineOff_irqDepth (s : State) : s.engineOff.irqDepth = s.irqDepth := by simp only [State.engineOff]
@[simp] theorem State.engineOff_ctx (s : State) : s.engineOff.ctx = s.ctx := by simp only [State.engineOff]
@[simp] theorem State.engineOff_ai (s : State) : s.engineOff.ai = s.ai := by simp only [State.engineOff]
@[simp] theorem State.engineOff_drv (s : State) : s.engineOff.drv = s.drv := by simp only [State.engineOff]
@[simp] theorem State.engineOff_mx (s : State) : s.engineOff.mx = { s.mx with on := false } := by simp only [State.engineOff]
@[simp] theorem State.engineOff_ring (s : State) : s.engineOff.ring = s.ring := by simp only [State.engineOff]
@[simp] theorem State.engineOff_chans (s : State) : s.engineOff.chans = s.chans := by simp only [State.engineOff]
@[simp] theorem State.engineOff_coproc (s : State) : s.engineOff.coproc = s.coproc := by simp only [State.engineOff]
@[simp] theorem State.engineOff_events (s : State) : s.engineOff.events = [] := by simp only [State.engineOff]
@[simp] theorem State.engineOff_nextEvent (s : State) : s.engineOff.nextEvent = s.nextEvent := by simp only [State.engineOff]
@[simp] theorem State.engineOff_vs (s : State) : s.engineOff.vs = s.vs := by simp only [State.engineOff]
@[simp] theorem State.engineOff_mem (s : State) : s.engineOff.mem = s.mem := by simp only [State.engineOff]
@[simp] theorem State.engineOff_cache (s : State) : s.engineOff.cache = s.cache := by simp only [State.engineOff]
@[simp] theorem State.engineOff_race (s : State) : s.engineOff.race = s.race := by simp only [State.engineOff]
@[simp] theorem State.engineOff_allocs (s : State) : s.engineOff.allocs = s.allocs := by simp only [State.engineOff]
@[simp] theorem State.engineOff_output (s : State) : s.engineOff.output = s.output := by simp only [State.engineOff]
@[simp] theorem State.engineOff_calls (s : State) : s.engineOff.calls = s.calls := by simp only [State.engineOff]
@[simp] theorem State.engineOff_cmd (s : State) : s.engineOff.cmd = s.cmd := by simp only [State.engineOff]
@[simp] theorem State.engineOff_res (s : State) : s.engineOff.res = s.res := by simp only [State.engineOff]
@[simp] theorem State.engineOff_pending (s : State) : s.engineOff.pending = s.pending := by simp only [State.engineOff]
@[simp] theorem State.engineOff_host (s : State) : s.engineOff.host = s.host := by simp only [State.engineOff]
@[simp] theorem State.engineOff_lastRead (s : State) : s.engineOff.lastRead = s.lastRead := by simp only [State.engineOff]
@[simp] theorem State.engineOff_oracle (s : State) : s.engineOff.oracle = s.oracle := by simp only [State.engineOff]
@[simp] theorem State.engineOff_params (s : State) : s.engineOff.params = s.params := by simp only [State.engineOff]

end Sys2Proof.Machine
end

