-- ==== Sys2Proof/Safety.lean ====
section
/-!
DEFINITION. What counts as a safe run, in the terms statements use: the block is not FAULTED (spec/60_exceptions.md R331) and
the machine has not stopped; and the environment that lets a command run undisturbed.
-/

namespace Sys2Proof.Machine

/-- The block is not FAULTED. -/
abbrev State.running (s : State) : Prop := s.fault = none

/-- The environment does nothing of its own inside a command: no other agent moves at a boundary, but that the job the engine waits for ends,
and a callback returns 0 at once. -/
abbrev State.quiet (s : State) : Prop := s.oracle.free = false ∧ s.oracle.moves = [] ∧ s.oracle.runs = []

/-- The command may run: the block is not FAULTED, and the context may issue the command (R105, R331). -/
abbrev State.mayRun (s : State) (i : Instr) : Prop := s.fault = none ∧ s.issuerAllows i.opcode i.chField = true

/-- The region indices of the driver are in range (spec/10_state.md R27). -/
abbrev Driver.inRange (d : Driver) : Prop := 0 < d.n.toNat ∧ d.n.toNat ≤ tableSize ∧ d.wr.toNat < d.n.toNat ∧ d.rd.toNat < d.n.toNat

/-- The driver's regions lie in memory. -/
abbrev State.regionsBacked (s : State) : Prop :=
  ∀ k ∈ List.range s.drv.n.toNat, (s.drv.addr k).toNat + 4 * s.drv.q.toNat ≤ s.memBytes

/-- The device holds no more transfers than it can (R25), and one more critical section may be entered (R340). -/
abbrev State.dispatchable (s : State) : Prop := s.ai.fifo.length ≤ 2 ∧ s.irqDepth ≠ 0xFFFFFFFF

/-- The block is stuck in a callback (R360). -/
abbrev State.stuck (s : State) : Prop := s.pending = some .callback

/-- Every callback returns along the run from a state, which is what host code owes the block (R389, R391 (d)); what else R391 asks of a run,
`State.nextAgent` sees to. -/
def CallbacksReturn (s : State) : Prop := ∀ (k : Nat) (t : State), Sys2Proof.core.run k s = .next t → ¬ t.stuck

/-- The outcome is a next state of a block that is not FAULTED. -/
def Safe (o : Host.Outcome State Fault Refusal) : Prop := ∃ s, o = .next s ∧ s.running

/-- `k` steps from a state, each of them safe. -/
def SafeRun (k : Nat) (s : State) : Prop := ∀ j ≤ k, Safe (Sys2Proof.core.run j s)

end Sys2Proof.Machine
end

