-- ==== Sys2Proof/Laws/Act.lean ====
section
/-!
SUPPORT. How computations run: one lemma per combinator, and what each shared operation does on the paths it has.
-/

namespace Sys2Proof.Machine

/-! ### Combinators -/

@[simp] theorem act_pure {α : Type} (a : α) (s : State) : (pure a : Act α) s = .ok a s := rfl

theorem act_bind {α β : Type} (x : Act α) (f : α → Act β) (s : State) :
    (x >>= f) s = match x s with
      | .ok a t => f a t
      | .error e t => .error e t := by
  show EStateM.bind x f s = _
  unfold EStateM.bind
  cases x s <;> rfl

theorem act_bind_ok {α β : Type} {x : Act α} {f : α → Act β} {s t : State} {a : α} (h : x s = .ok a t) :
    (x >>= f) s = f a t := by rw [act_bind, h]

theorem act_bind_error {α β : Type} {x : Act α} {f : α → Act β} {s t : State} {e : Stop} (h : x s = .error e t) :
    (x >>= f) s = .error e t := by rw [act_bind, h]

@[simp] theorem act_get_bind {β : Type} (f : State → Act β) (s : State) : ((get : Act State) >>= f) s = f s s := rfl

@[simp] theorem act_set_bind {β : Type} (u : State) (f : PUnit → Act β) (s : State) :
    ((set u : Act PUnit) >>= f) s = f ⟨⟩ u := rfl

@[simp] theorem act_modify_bind {β : Type} (g : State → State) (f : PUnit → Act β) (s : State) :
    ((modify g : Act PUnit) >>= f) s = f ⟨⟩ (g s) := rfl

@[simp] theorem act_pure_bind {α β : Type} (a : α) (f : α → Act β) (s : State) : ((pure a : Act α) >>= f) s = f a s := rfl

@[simp] theorem act_get (s : State) : (get : Act State) s = .ok s s := rfl

@[simp] theorem act_set (u s : State) : (set u : Act PUnit) s = .ok ⟨⟩ u := rfl

@[simp] theorem act_modify (g : State → State) (s : State) : (modify g : Act PUnit) s = .ok ⟨⟩ (g s) := rfl

@[simp] theorem act_ite {α : Type} (p : Prop) [Decidable p] (x y : Act α) (s : State) :
    (if p then x else y) s = if p then x s else y s := by split <;> rfl

/-- What a computation that answered did: its parts answered in turn. -/
theorem act_bind_ok_iff {α β : Type} {x : Act α} {f : α → Act β} {s u : State} {b : β} :
    (x >>= f) s = .ok b u ↔ ∃ a t, x s = .ok a t ∧ f a t = .ok b u := by
  rw [act_bind]
  cases x s <;> simp

/-! ### Raising and checking -/

theorem raise_apply {α : Type} (c : FaultCode) (v : Word) (s : State) :
    (raise c v : Act α) s = .error .fatal (s.enterFaulted c v) := rfl

theorem ensure_pos {p : Prop} [Decidable p] (h : p) (c : FaultCode) (v : Word) (s : State) :
    ensure p c v s = .ok () s := by simp [ensure, h]

theorem ensure_neg {p : Prop} [Decidable p] (h : ¬ p) (c : FaultCode) (v : Word) (s : State) :
    ensure p c v s = .error .fatal (s.enterFaulted c v) := by simp [ensure, h, raise]

/-- All a check can do: go on with the same state where the condition holds, raise where it does not. -/
theorem ensure_apply (p : Prop) [Decidable p] (c : FaultCode) (v : Word) (s : State) :
    ensure p c v s = if p then .ok () s else .error .fatal (s.enterFaulted c v) := by
  by_cases h : p <;> simp [ensure, h, raise]

theorem ensure_bind {β : Type} (p : Prop) [Decidable p] (c : FaultCode) (v : Word) (f : Unit → Act β) (s : State) :
    (ensure p c v >>= f) s = if p then f () s else .error .fatal (s.enterFaulted c v) := by
  by_cases h : p
  · rw [if_pos h, act_bind_ok (ensure_pos h c v s)]
  · rw [if_neg h, act_bind_error (ensure_neg h c v s)]

theorem ensureState_apply (p : Prop) [Decidable p] (s : State) :
    ensureState p s = if p then .ok () s else .error .fatal (s.enterFaulted .badState (s.cmd.op.setWidth 32)) := by
  by_cases h : p <;> simp [ensureState, h, raiseBadState, raise]

theorem ensureState_bind {β : Type} (p : Prop) [Decidable p] (f : Unit → Act β) (s : State) :
    (ensureState p >>= f) s = if p then f () s else .error .fatal (s.enterFaulted .badState (s.cmd.op.setWidth 32)) := by
  by_cases h : p
  · rw [if_pos h, act_bind_ok (by rw [ensureState_apply, if_pos h])]
  · rw [if_neg h, act_bind_error (by rw [ensureState_apply, if_neg h])]

theorem checkIssuer_apply (s : State) :
    checkIssuer s = if s.issuerAllows s.cmd.op s.cmd.ch = true then .ok () s
      else .error .fatal (s.enterFaulted .badState (s.cmd.op.setWidth 32)) := by
  rw [checkIssuer, ensureState_apply]

theorem checkIssuer_bind {β : Type} (f : Unit → Act β) (s : State) :
    (checkIssuer >>= f) s = if s.issuerAllows s.cmd.op s.cmd.ch = true then f () s
      else .error .fatal (s.enterFaulted .badState (s.cmd.op.setWidth 32)) := by
  by_cases h : s.issuerAllows s.cmd.op s.cmd.ch = true
  · rw [if_pos h, act_bind_ok (by rw [checkIssuer_apply, if_pos h])]
  · rw [if_neg h, act_bind_error (by rw [checkIssuer_apply, if_neg h])]

/-- The foreground may issue every command outside the sample-buffer family. -/
theorem issuerAllows_host {s : State} (h : s.ctx = .host) {op ch : Byte} (hop : op.toNat < 0x10 ∨ 0x16 < op.toNat) :
    s.issuerAllows op ch = true := by
  have : ¬ (0x10 ≤ op.toNat ∧ op.toNat ≤ 0x16) := by omega
  simp only [State.issuerAllows, h]
  simp only [Bool.not_eq_true', Bool.and_eq_false_iff, decide_eq_false_iff_not]
  omega

/-- The foreground may issue a sample-buffer command on an instance that is not engine-bound. -/
theorem issuerAllows_host_sb {s : State} (h : s.ctx = .host) {op ch : Byte} (hb : ¬ s.engineBound ch.toNat) :
    s.issuerAllows op ch = true := by
  simp only [State.issuerAllows, h]
  simp [hb]

/-! ### Commands -/

theorem command_running {i : Instr} {body : Act Reply} {s : State} (h : s.fault = none) :
    command i body s = settle (body (s.begin i)) := by simp [command, h]

theorem command_halted {i : Instr} {body : Act Reply} {s : State} (h : s.fault.isSome = true) :
    command i body s = .fault .halted := by simp [command, h]

@[simp] theorem settle_done (r : List Word) (s : State) : settle (.ok (.done r) s) = .next (s.finish r) := rfl

@[simp] theorem settle_wait (p : Pending) (s : State) : settle (.ok (.wait p) s) = .next (s.waiting p) := rfl

@[simp] theorem settle_fatal (s : State) : settle (.error .fatal s) = .next s := rfl

@[simp] theorem settle_stuck (s : State) : settle (.error .stuck s) = .next (s.waiting .callback) := rfl

@[simp] theorem settle_fault (f : Fault) (s : State) : settle (.error (.fault f) s) = .fault f := rfl

theorem replyNone_ok {body : Act Unit} {s t : State} (h : body s = .ok () t) : replyNone body s = .ok (.done []) t := by
  simp [replyNone, act_bind, h]

theorem replyNone_error {body : Act Unit} {s t : State} {e : Stop} (h : body s = .error e t) :
    replyNone body s = .error e t := by simp [replyNone, act_bind, h]

theorem reply_ok {body : Act (List Word)} {s t : State} {r : List Word} (h : body s = .ok r t) :
    reply body s = .ok (.done r) t := by simp [reply, act_bind, h]

theorem reply_error {body : Act (List Word)} {s t : State} {e : Stop} (h : body s = .error e t) :
    reply body s = .error e t := by simp [reply, act_bind, h]

/-- A command without a response completes when its body does. -/
theorem command_replyNone {i : Instr} {body : Act Unit} {s t : State} (hf : s.fault = none)
    (h : body (s.begin i) = .ok () t) : command i (replyNone body) s = .next (t.finish []) := by
  rw [command_running hf, replyNone_ok h, settle_done]

/-- A command with a response completes when its body does. -/
theorem command_reply {i : Instr} {body : Act (List Word)} {s t : State} {r : List Word} (hf : s.fault = none)
    (h : body (s.begin i) = .ok r t) : command i (reply body) s = .next (t.finish r) := by
  rw [command_running hf, reply_ok h, settle_done]

/-- A command without a response faults when its body does. -/
theorem command_replyNone_fatal {i : Instr} {body : Act Unit} {s t : State} (hf : s.fault = none)
    (h : body (s.begin i) = .error .fatal t) : command i (replyNone body) s = .next t := by
  rw [command_running hf, replyNone_error h, settle_fatal]

/-- A command with a response faults when its body does. -/
theorem command_reply_fatal {i : Instr} {body : Act (List Word)} {s t : State} (hf : s.fault = none)
    (h : body (s.begin i) = .error .fatal t) : command i (reply body) s = .next t := by
  rw [command_running hf, reply_error h, settle_fatal]

/-! ### Critical sections -/

theorem disableIrq_apply (s : State) :
    disableIrq s = if s.irqDepth ≠ 0xFFFFFFFF then .ok () { s with irqDepth := s.irqDepth + 1 }
      else .error .fatal (s.enterFaulted .irqUnbalanced 0) := by
  rw [disableIrq, act_get_bind, ensure_bind]
  rfl

theorem enableIrq_apply (s : State) :
    enableIrq s = if s.irqDepth ≠ 0 then .ok () { s with irqDepth := s.irqDepth - 1 }
      else .error .fatal (s.enterFaulted .irqUnbalanced 0) := by
  rw [enableIrq, act_get_bind, ensure_bind]
  rfl

/-- A critical section whose body keeps the depth answers what its body answers, at the depth it began with. -/
theorem critical_ok {body : Act Unit} {s t : State} (hd : s.irqDepth ≠ 0xFFFFFFFF)
    (hb : body { s with irqDepth := s.irqDepth + 1 } = .ok () t) (ht : t.irqDepth = s.irqDepth + 1) :
    critical body s = .ok () { t with irqDepth := s.irqDepth } := by
  have h0 : t.irqDepth ≠ 0 := by
    rw [ht]
    intro h
    apply hd
    bv_omega
  rw [critical, act_bind_ok (by rw [disableIrq_apply, if_pos hd]), act_bind_ok hb, enableIrq_apply, if_pos h0, ht]
  simp

/-! ### Boundaries in a quiet environment -/

theorem drawMovesOr_quiet {s : State} (h : s.quiet) (idle : List Agent) : drawMovesOr idle s = .ok idle s := by
  simp [drawMovesOr, h.1, h.2.1]

theorem drawMoves_quiet {s : State} (h : s.quiet) : drawMoves s = .ok [] s := drawMovesOr_quiet h []

theorem drawRun_quiet {s : State} (h : s.quiet) : drawRun s = .ok ⟨[], some 0⟩ s := by
  simp [drawRun, h.1, h.2.2]

@[simp] theorem boundary_quiet {s : State} (h : s.quiet) : boundary s = .ok () s := by
  rw [boundary, act_bind_ok (drawMoves_quiet h)]
  rfl

@[simp] theorem deviceBoundary_quiet {s : State} (h : s.quiet) : deviceBoundary s = .ok () s := by
  rw [deviceBoundary, act_bind_ok (drawMoves_quiet h)]
  rfl

/-- The engine's own job ends at the boundary at which it is awaited. -/
theorem jobBoundary_quiet {s : State} (h : s.quiet) : jobBoundary s = .ok () (coprocMove s) := by
  rw [jobBoundary, act_bind_ok (drawMovesOr_quiet h [.coproc])]
  rfl

/-- A callback in a quiet environment is one more entry in the trace of calls. -/
theorem callHost_quiet {s : State} (h : s.quiet) (issue : Packet → Act Unit) (b : Act Unit) (ctx : Ctx) (fn : Word)
    (args : List Nat) :
    callHost issue b ctx fn args s = .ok 0 { s with calls := s.calls ++ [Call.mk fn args] } := by
  have hq : ({ s with ctx := ctx, calls := s.calls ++ [Call.mk fn args] } : State).quiet := h
  rw [callHost, act_get_bind, act_set_bind, act_bind_ok (drawRun_quiet hq)]
  simp only [runActs, act_pure_bind, act_get_bind, ensure_bind, if_true, act_modify_bind, act_pure]

end Sys2Proof.Machine
end

