-- ==== Sys2Proof/Laws/Memory.lean ====
section
/-!
SUPPORT. What a byte of memory reads as after each memory operation, and that every memory operation keeps the canonical form.
-/

namespace Sys2Proof.Machine

/-! ### Reading -/

@[simp] theorem Memory.read_nil (x : Nat) : Memory.read [] x = Memory.unlisted := rfl

theorem Memory.read_cons (b : Nat) (v : Byte) (m : Memory) (x : Nat) :
    Memory.read ((b, v) :: m) x = if b = x then v else Memory.read m x := rfl

/-- An address that no cell lists reads as unlisted. -/
theorem Memory.read_of_no_key {m : Memory} {x : Nat} (h : ∀ c ∈ m, c.1 ≠ x) : Memory.read m x = Memory.unlisted := by
  induction m with
  | nil => rfl
  | cons c m ih =>
    obtain ⟨b, v⟩ := c
    rw [Memory.read_cons, if_neg (h (b, v) (List.mem_cons_self ..))]
    exact ih fun c hc => h c (List.mem_cons_of_mem _ hc)

/-- The second part answers for an address that the first part does not list. -/
theorem Memory.read_append_right {m n : Memory} {x : Nat} (h : ∀ c ∈ m, c.1 ≠ x) :
    Memory.read (m ++ n) x = Memory.read n x := by
  induction m with
  | nil => rfl
  | cons c m ih =>
    obtain ⟨b, v⟩ := c
    rw [List.cons_append, Memory.read_cons, if_neg (h (b, v) (List.mem_cons_self ..))]
    exact ih fun c hc => h c (List.mem_cons_of_mem _ hc)

/-- The first part answers for an address that the second part does not list. -/
theorem Memory.read_append_left {m n : Memory} {x : Nat} (h : ∀ c ∈ n, c.1 ≠ x) :
    Memory.read (m ++ n) x = Memory.read m x := by
  induction m with
  | nil => exact Memory.read_of_no_key h
  | cons c m ih =>
    obtain ⟨b, v⟩ := c
    rw [List.cons_append, Memory.read_cons, Memory.read_cons, ih]

/-- Cells whose address passes a test read as before where the test holds. -/
theorem Memory.read_filter {m : Memory} {p : Host.Cell → Bool} {x : Nat} (h : ∀ v, p (x, v) = true) :
    Memory.read (m.filter p) x = Memory.read m x := by
  induction m with
  | nil => rfl
  | cons c m ih =>
    obtain ⟨b, v⟩ := c
    by_cases hx : b = x
    · subst hx
      rw [List.filter_cons_of_pos (h v), Memory.read_cons, Memory.read_cons, if_pos rfl, if_pos rfl]
    · rw [Memory.read_cons, if_neg hx, ← ih]
      by_cases hp : p (b, v) = true
      · rw [List.filter_cons_of_pos hp, Memory.read_cons, if_neg hx]
      · rw [List.filter_cons_of_neg hp]

theorem Memory.below_key {m : Memory} {a : Nat} {c : Host.Cell} (h : c ∈ m.below a) : c.1 < a := by
  simpa using (List.mem_filter.mp h).2

theorem Memory.above_key {m : Memory} {a : Nat} {c : Host.Cell} (h : c ∈ m.above a) : a ≤ c.1 := by
  simpa using (List.mem_filter.mp h).2

theorem Memory.cells_key {a : Nat} {bs : List Byte} {c : Host.Cell} (h : c ∈ Memory.cells a bs) :
    a ≤ c.1 ∧ c.1 < a + bs.length := by
  induction bs generalizing a with
  | nil => simp [Memory.cells] at h
  | cons b bs ih =>
    rw [Memory.cells] at h
    split at h
    · have := ih h
      simp only [List.length_cons]
      omega
    · rcases List.mem_cons.mp h with rfl | h
      · simp
      · have := ih h
        simp only [List.length_cons]
        omega

/-- The cells of bytes read as the bytes. -/
theorem Memory.read_cells (a : Nat) (bs : List Byte) (x : Nat) (h1 : a ≤ x) (h2 : x < a + bs.length) :
    Memory.read (Memory.cells a bs) x = bs.getD (x - a) Memory.unlisted := by
  induction bs generalizing a with
  | nil => simp at h2; omega
  | cons b bs ih =>
    rw [Memory.cells]
    by_cases hx : x = a
    · subst hx
      rw [Nat.sub_self, List.getD_cons_zero]
      split
      · rename_i hb
        rw [hb]
        exact Memory.read_of_no_key fun c hc => by have := (Memory.cells_key hc).1; omega
      · rw [Memory.read_cons, if_pos rfl]
    · obtain ⟨k, hk⟩ : ∃ k, x - a = k + 1 := ⟨x - a - 1, by omega⟩
      have hk' : x - (a + 1) = k := by omega
      rw [hk, List.getD_cons_succ, ← hk']
      have := ih (a + 1) (by omega) (by simp only [List.length_cons] at h2; omega)
      split
      · exact this
      · rw [Memory.read_cons, if_neg (by omega)]
        exact this

/-- All a write does: the bytes stand where they were written, and every other address reads as before. -/
theorem Memory.read_put (m : Memory) (a : Nat) (bs : List Byte) (x : Nat) :
    Memory.read (m.put a bs) x =
      if a ≤ x ∧ x < a + bs.length then bs.getD (x - a) Memory.unlisted else Memory.read m x := by
  rw [Memory.put]
  split
  · rename_i h
    rw [Memory.read_append_left fun c hc => by have := Memory.above_key hc; omega,
      Memory.read_append_right fun c hc => by have := Memory.below_key hc; omega]
    exact Memory.read_cells a bs x h.1 h.2
  · rename_i h
    by_cases hx : x < a
    · rw [List.append_assoc, Memory.read_append_left fun c hc => by
        rcases List.mem_append.mp hc with hc | hc
        · have := (Memory.cells_key hc).1; omega
        · have := Memory.above_key hc; omega]
      exact Memory.read_filter fun v => by simpa using hx
    · rw [Memory.read_append_right fun c hc => by
        rcases List.mem_append.mp hc with hc | hc
        · have := Memory.below_key hc; omega
        · have := (Memory.cells_key hc).2; omega]
      exact Memory.read_filter fun v => by simp; omega

/-- All a clear does: the range reads as zero, and every other address as before. -/
theorem Memory.read_clear (m : Memory) (a n x : Nat) :
    Memory.read (m.clear a n) x = if a ≤ x ∧ x < a + n then 0 else Memory.read m x := by
  rw [Memory.clear]
  split
  · rename_i h
    exact Memory.read_of_no_key fun c hc => by
      rcases List.mem_append.mp hc with hc | hc
      · have := Memory.below_key hc; omega
      · have := Memory.above_key hc; omega
  · rename_i h
    by_cases hx : x < a
    · rw [Memory.read_append_left fun c hc => by have := Memory.above_key hc; omega]
      exact Memory.read_filter fun v => by simpa using hx
    · rw [Memory.read_append_right fun c hc => by have := Memory.below_key hc; omega]
      exact Memory.read_filter fun v => by simp; omega

theorem Memory.bytes_length (m : Memory) (a n : Nat) : (m.bytes a n).length = n := by
  induction n generalizing a with
  | zero => rfl
  | succ n ih => simp [Memory.bytes, ih]

/-! ### The canonical form -/

theorem Memory.wf_nil : Memory.wf [] := ⟨List.Pairwise.nil, by simp⟩

theorem Memory.wf_filter {m : Memory} (h : m.wf) (p : Host.Cell → Bool) : Memory.wf (m.filter p) :=
  ⟨h.1.filter p, fun c hc => h.2 c (List.mem_filter.mp hc).1⟩

theorem Memory.wf_append {m n : Memory} (hm : m.wf) (hn : n.wf) (h : ∀ c ∈ m, ∀ d ∈ n, c.1 < d.1) :
    Memory.wf (m ++ n) :=
  ⟨List.pairwise_append.mpr ⟨hm.1, hn.1, h⟩, fun c hc => (List.mem_append.mp hc).elim (hm.2 c) (hn.2 c)⟩

theorem Memory.wf_cells (a : Nat) (bs : List Byte) : Memory.wf (Memory.cells a bs) := by
  induction bs generalizing a with
  | nil => exact Memory.wf_nil
  | cons b bs ih =>
    rw [Memory.cells]
    split
    · exact ih (a + 1)
    · rename_i hb
      refine ⟨List.pairwise_cons.mpr ⟨fun c hc => ?_, (ih (a + 1)).1⟩, fun c hc => ?_⟩
      · have := (Memory.cells_key hc).1
        show a < c.1
        omega
      · rcases List.mem_cons.mp hc with rfl | hc
        · exact hb
        · exact (ih (a + 1)).2 c hc

theorem Memory.wf_put {m : Memory} (h : m.wf) (a : Nat) (bs : List Byte) : Memory.wf (m.put a bs) := by
  refine Memory.wf_append (Memory.wf_append (Memory.wf_filter h _) (Memory.wf_cells a bs) ?_) (Memory.wf_filter h _) ?_
  · intro c hc d hd
    have h1 := Memory.below_key hc
    have h2 := (Memory.cells_key hd).1
    omega
  · intro c hc d hd
    have h2 := Memory.above_key hd
    rcases List.mem_append.mp hc with hc | hc
    · have := Memory.below_key hc; omega
    · have := (Memory.cells_key hc).2; omega

theorem Memory.wf_clear {m : Memory} (h : m.wf) (a n : Nat) : Memory.wf (m.clear a n) := by
  refine Memory.wf_append (Memory.wf_filter h _) (Memory.wf_filter h _) ?_
  intro c hc d hd
  have h1 := Memory.below_key hc
  have h2 := Memory.above_key hd
  omega

/-! ### The operations of the agents -/

theorem cpuPut_wf {s : State} (h : s.mem.wf) (a : Nat) (bs : List Byte) : (s.cpuPut a bs).mem.wf := Memory.wf_put h a bs

theorem cpuClear_wf {s : State} (h : s.mem.wf) (a n : Nat) : (s.cpuClear a n).mem.wf := Memory.wf_clear h a n

theorem hwPut_wf {s : State} (h : s.mem.wf) (a : Nat) (bs : List Byte) : (s.hwPut a bs).mem.wf := Memory.wf_put h a bs

theorem cachedPut_wf {s : State} (h : s.mem.wf) (a : Nat) (bs : List Byte) : (s.cachedPut a bs).mem.wf := h

theorem invalidate_wf {s : State} (h : s.mem.wf) (a n : Nat) : (s.invalidate a n).mem.wf := h

theorem writeback_wf {s : State} (h : s.mem.wf) (a n : Nat) : (s.writeback a n).mem.wf := by
  rw [State.writeback]
  generalize s.cache.dirty.filter _ = l
  induction l generalizing s with
  | nil => exact h
  | cons c l ih => exact ih (cpuPut_wf h c.1 [c.2])

theorem upload_wf {s : State} (h : s.coproc.mem.wf) (out n : Nat) : (s.upload out n).coproc.mem.wf := Memory.wf_put h _ _

theorem writePositions_wf (n c k : Nat) {m : Memory} (h : m.wf) : Memory.wf (writePositions n c k m) := by
  induction k generalizing c m with
  | zero => exact h
  | succ k ih =>
    rw [writePositions]
    apply ih
    split
    · exact h
    · exact Memory.wf_put h _ _

/-- Right after reset, system memory and coprocessor memory have the canonical form. -/
theorem reset_memories_wf : State.reset.mem.wf ∧ State.reset.coproc.mem.wf := ⟨Memory.wf_nil, Memory.wf_nil⟩

/-- All an uncached CPU write does to memory. -/
theorem cpuPut_read (s : State) (a : Nat) (bs : List Byte) (x : Nat) :
    (s.cpuPut a bs).mem.read x =
      if a ≤ x ∧ x < a + bs.length then bs.getD (x - a) Memory.unlisted else s.mem.read x := Memory.read_put ..

/-- All an uncached zero fill does to memory. -/
theorem cpuClear_read (s : State) (a n x : Nat) :
    (s.cpuClear a n).mem.read x = if a ≤ x ∧ x < a + n then 0 else s.mem.read x := Memory.read_clear ..

/-! ### The CPU's view (R80, R83 (a)) -/

theorem cellsOf_key {a : Nat} {bs : List Byte} {c : Host.Cell} (h : c ∈ cellsOf a bs) : a ≤ c.1 ∧ c.1 < a + bs.length := by
  induction bs generalizing a with
  | nil => simp [cellsOf] at h
  | cons b bs ih =>
    rw [cellsOf] at h
    rcases List.mem_cons.mp h with rfl | h
    · simp
    · have := ih h
      simp only [List.length_cons]
      omega

theorem cellsOf_sorted (a : Nat) (bs : List Byte) : (cellsOf a bs).Pairwise fun x y => x.1 < y.1 := by
  induction bs generalizing a with
  | nil => exact List.Pairwise.nil
  | cons b bs ih => exact List.pairwise_cons.mpr ⟨fun c hc => by have := (cellsOf_key hc).1; show a < c.1; omega, ih (a + 1)⟩

/-- Where the CPU holds no dirty byte it reads memory. -/
theorem cpuByte_of_clean {s : State} {a : Nat} (h : s.dirtyByte a = none) : s.cpuByte a = s.mem.read a := by
  simp [State.cpuByte, h]

theorem dirtyOutside_find {d : List Host.Cell} {a n x : Nat} :
    (dirtyOutside d a n).find? (fun c => c.1 == x) = if x < a ∨ a + n ≤ x then d.find? (fun c => c.1 == x) else none := by
  rw [dirtyOutside, List.find?_filter]
  split
  · rename_i h
    congr 1
    funext c
    by_cases hc : c.1 = x
    · simp [hc, h]
    · simp [hc]
  · rename_i h
    rw [List.find?_eq_none]
    intro c _
    simp only [decide_eq_true_eq, beq_iff_eq, not_and]
    rintro h1 rfl
    exact h h1

/-- The CPU sees its own uncached write at once, and every other byte as before: its accesses are sequentially consistent. -/
theorem cpuPut_cpuByte (s : State) (a : Nat) (bs : List Byte) (x : Nat) :
    (s.cpuPut a bs).cpuByte x = if a ≤ x ∧ x < a + bs.length then bs.getD (x - a) Memory.unlisted else s.cpuByte x := by
  have hd : (s.cpuPut a bs).dirtyByte x = if x < a ∨ a + bs.length ≤ x then s.dirtyByte x else none := by
    show ((dirtyOutside s.cache.dirty a bs.length).find? _).map _ = _
    rw [dirtyOutside_find]
    split <;> rfl
  have hn : (s.cpuPut a bs).cache.newer = s.cache.newer := rfl
  rw [State.cpuByte, State.cpuByte, hn, hd, cpuPut_read]
  by_cases h : a ≤ x ∧ x < a + bs.length
  · have h' : ¬ (x < a ∨ a + bs.length ≤ x) := by omega
    simp only [if_pos h, if_neg h', Option.getD_none, ite_self]
  · have h' : x < a ∨ a + bs.length ≤ x := by omega
    simp only [if_neg h, if_pos h']

end Sys2Proof.Machine
end

