-- ==== Sys2Proof/Certificates/Slice0/Obligations.lean ====
section
/-!
DEFINITION. The statements for the provers.  Each formalises rules of spec/; what each name says is in its docstring, with the rules.
The hypothesis `quiet` says that the environment does nothing of its own inside a command (notes/assumptions/5.md).
`({ s with … }).finish res` is the state after a command with response words `res` that changed the named fields and no other.
-/

open Sys2Proof Sys2Proof.Machine

/-! ### Encoding (spec/30_encoding.md) -/

/-- The decoder reads back every instruction the encoder writes, and leaves the words behind its packet (R100, R101, R127). -/
def Obligations.DecodeOfEncode : Prop :=
  ∀ (i : Instr) (rest : List Word), decode (encode i ++ rest) = .instr i rest

/-- Whatever the decoder reads as an instruction is that instruction's own encoding: no bit of a packet is ignored (R100 to R102). -/
def Obligations.DecodeReadsEncodings : Prop :=
  ∀ (ws rest : List Word) (i : Instr), decode ws = .instr i rest → ws = encode i ++ rest

/-- A list of words is a well-formed packet of spec/opcode_table.json exactly when the decoder, which is written from R127, reads it as one
instruction (R101, R102, R127). -/
def Obligations.DecodeFollowsOpcodeTable : Prop :=
  ∀ (w : Word) (args : List Word), packetWellFormed (w :: args) = true ↔ ∃ i, decode (w :: args) = .instr i []

/-- Words written out from the encodings of R127 and R129 decode to the instructions they stand for. -/
def Obligations.WrittenWordsDecode : Prop :=
  decode [0x01000004, 0x0000AC44] = .instr (.aiInit 4 44100) [] ∧
  decode [0x11030010] = .instr (.sbSetBitWidth 3 16) [] ∧
  decode [0x24000000, 0x000003E8] = .instr (.mxPoll 1000) [] ∧
  decode [0x30000000, 1, 2, 3, 4, 5] = .instr (.chSetDolby 0 1 2 3 4 5) [] ∧
  decode [0x40000000, 0x000001F4, 0x00007000, 0x00000001] = .instr (.evAdd 500 0x7000 1) [] ∧
  decode [0x50000000, 0x003C0000, 0x0000BB80] = .instr (.vsInit 0x003C0000 48000) [] ∧
  decode [0x61000000] = .instr .irqEnable []

/-- A packet with a reserved opcode or a nonzero reserved field: the step raises ILLEGAL_COMMAND with word 0 as its information, and changes
nothing but the fault record and the host's progress (R102, R103, R330, R331).
The list of the foreground's actions is the model's (notes/assumptions/4.md). -/
def Obligations.IllegalPacketFaults : Prop :=
  ∀ (s : State) (p : Packet) (rest : List HostAct) (w : Word) (why : Illegal),
    s.fault = none → s.pending = none → s.nextAgent.1 = .host → s.host = .issue p :: rest → decode p.words = .illegal w why →
    w = p.word0 ∧
    step s = .next { s.nextAgent.2 with
      host := rest, cmd := ⟨opOf w, chOf w⟩, fault := some ⟨.illegalCommand, opOf w, chOf w, w⟩, res := [], pending := none }

/-! ### The step (spec/00_scope.md R10, spec/10_state.md R20) -/

/-- A step in which the foreground moves and its next action is a packet runs the instruction the packet decodes to (R10, R20).
The list of the foreground's actions is the model's (notes/assumptions/4.md). -/
def Obligations.StepRunsDecodedInstruction : Prop :=
  ∀ (s : State) (p : Packet) (rest : List HostAct) (i : Instr) (ws : List Word),
    s.fault = none → s.pending = none → s.nextAgent.1 = .host → s.host = .issue p :: rest → decode p.words = .instr i ws →
    step s = exec i { s.nextAgent.2 with host := rest }

/-- A FAULTED block takes no step and runs no command (R331).
That the model stops with a fault of its own there is its choice (notes/assumptions/6.md). -/
def Obligations.FaultedIsTerminal : Prop :=
  ∀ s : State, s.fault ≠ none → step s = .fault .halted ∧ ∀ i : Instr, exec i s = .fault .halted

/-! ### Reset and faults (spec/10_state.md R43, spec/60_exceptions.md R330, R331) -/

/-- The state after power-on reset, in every element R43 lists. -/
def Obligations.ResetState : Prop :=
  State.reset.owner = .none ∧ State.reset.fault = none ∧ State.reset.irqDepth = 0 ∧ State.reset.ctx = .host ∧
  State.reset.ai.fifo = [] ∧ State.reset.ai.dmaEn = false ∧ State.reset.ai.irq = false ∧
  State.reset.drv.on = false ∧ State.reset.mx.on = false ∧ State.reset.mx.inPoll = false ∧ State.reset.vs.on = false ∧
  State.reset.coproc.jobBusy = false ∧ (∀ i < 32, (State.reset.sb i).on = false) ∧ State.reset.events = []

/-- `raise Fatal(code, info)` inside a command writes the record with the executing command's `OP` and `CH`, returns no response, abandons
the command and keeps every other effect made before it (R330, R331).
That this is a next state is the model's choice (notes/assumptions/6.md). -/
def Obligations.FaultEntry : Prop :=
  ∀ (s : State) (code : FaultCode) (info : Word),
    settle (raise code info s) = .next { s with
      fault := some ⟨code, s.cmd.op, s.cmd.ch, info⟩, res := [], pending := none }

/-- A context that may not issue a command gets BAD_STATE with the opcode, before anything else is looked at; the two commands with a check
of their own ahead of it aside (R105, R334).
That it is looked at first in every command is read from R334 (notes/assumptions/12.md). -/
def Obligations.IssuerViolationFaults : Prop :=
  ∀ (i : Instr) (s : State), s.fault = none → s.issuerAllows i.opcode i.chField = false →
    (∀ out n, i ≠ .mxExec out n) → (∀ n, i = .mxPoll n → s.mx.inPoll = false) →
    exec i s = .next ((s.begin i).enterFaulted .badState (i.opcode.setWidth 32))

/-! ### Critical sections and interrupts (spec/60_exceptions.md) -/

/-- `IRQ_DISABLE` nests one level deeper and faults only at the deepest level; `IRQ_ENABLE` comes one level back and faults at depth 0; and
from a context that may not issue it, either is BAD_STATE (R340, R341, R342). -/
def Obligations.IrqCommandsEffect : Prop :=
  ∀ s : State,
    (∀ i, i = .irqDisable ∨ i = .irqEnable → s.fault = none → s.issuerAllows i.opcode i.chField = false →
      exec i s = .next ((s.begin i).enterFaulted .badState (i.opcode.setWidth 32))) ∧
    (s.mayRun .irqDisable → exec .irqDisable s =
      if s.irqDepth = 0xFFFFFFFF then .next ((s.begin .irqDisable).enterFaulted .irqUnbalanced 0)
      else .next (({ s with irqDepth := s.irqDepth + 1 }).finish [])) ∧
    (s.mayRun .irqEnable → exec .irqEnable s =
      if s.irqDepth = 0 then .next ((s.begin .irqEnable).enterFaulted .irqUnbalanced 0)
      else .next (({ s with irqDepth := s.irqDepth - 1 }).finish []))

/-- No command but `IRQ_DISABLE` and `IRQ_ENABLE` leaves the depth changed, whatever interrupts, callbacks and devices did inside it, unless the
block is stuck there in a callback that does not return (R23, R340, R344, R360, R361). -/
def Obligations.OnlyIrqCommandsChangeDepth : Prop :=
  ∀ (i : Instr) (s t : State), i ≠ .irqDisable → i ≠ .irqEnable → s.fault = none → exec i s = .next t → t.fault = none →
    ¬ t.stuck → t.irqDepth = s.irqDepth

/-- The AI interrupt is not taken unless it is pending, enabled and owned and the block is not FAULTED; and preemption is precise: it leaves
the preempted command's context, identity, response and wait as they were, and every state but the device's, the driver's, the ring's,
memory's and the environment's (R343, R344). -/
def Obligations.InterruptIsPrecise : Prop :=
  ∀ s t : State,
    (s.ai.irq = false ∨ s.irqDepth ≠ 0 ∨ s.owner = .none ∨ s.fault ≠ none → takeAiIrq s = .ok () s) ∧
    (takeAiIrq s = .ok () t →
      t.ctx = s.ctx ∧ t.cmd = s.cmd ∧ t.irqDepth = s.irqDepth ∧ t.res = s.res ∧ t.pending = s.pending ∧ t.host = s.host ∧
      t.owner = s.owner ∧ t.fault = s.fault ∧ t.mx = s.mx ∧ t.sbs = s.sbs ∧ t.chans = s.chans ∧ t.events = s.events ∧ t.vs = s.vs ∧
      t.allocs = s.allocs ∧ t.params = s.params)

/-- The engine's handler in an environment that does nothing meanwhile: it acknowledges, retires the blocks the device no longer holds,
and queues the pending block if the device has room; several completions are retired in one run (R275, R276, R344, R347). -/
def Obligations.EngineInterrupt : Prop :=
  ∀ s : State, s.irqEligible → s.owner = .engine → s.mx.on = true → s.quiet → s.ai.fifo.length ≤ 2 →
    let kept := s.ring.inflight.drop (s.ring.inflight.length - s.ai.fifo.length)
    takeAiIrq s = .ok () (
      match s.ring.pending with
      | none => { s with ai := { s.ai with irq := false }, ring := { s.ring with inflight := kept } }
      | some x =>
        if s.ai.fifo.length = 2 then { s with ai := { s.ai with irq := false }, ring := { s.ring with inflight := kept } }
        else { s with
          ai := { s.ai with
            irq := false, addr := x.addr &&& 0xFFFFFFF8
            fifo := s.ai.fifo ++ [⟨x.addr &&& 0xFFFFFFF8, x.len &&& 0x3FFF8⟩] }
          ring := { s.ring with inflight := kept ++ [x], pending := none } })

/-! ### The AI DMA device (spec/60_exceptions.md R350 to R356) -/

/-- The device's registers: a read of `AI_STATUS` shows FULL in bit 31 and BUSY in bit 30, and the hardware count is the number of queued
transfers; a write of it clears the pending interrupt; a write of `AI_DRAM_ADDR` latches the address without its low three bits; and a write of
`AI_LEN` queues a transfer of the masked length at the latched address, or is HW_FIFO_OVERRUN when two are queued (R26, R350, R351, R352). -/
def Obligations.AiDeviceRegisters : Prop :=
  ∀ (s : State) (v : Word), s.ai.fifo.length ≤ 2 →
    s.ai.hwCount = s.ai.fifo.length ∧
    aiRead .status s = .ok (if s.ai.fifo.length = 2 then 0xC0000000 else if s.ai.fifo.length = 1 then 0x40000000 else 0) s ∧
    aiWrite .status v s = .ok () { s with ai := { s.ai with irq := false } } ∧
    aiWrite .dramAddr v s = .ok () { s with ai := { s.ai with addr := w32 (v.toNat / 8 * 8) } } ∧
    aiWrite .len v s =
      if s.ai.fifo.length = 2 then .error .fatal (s.enterFaulted .hwFifoOverrun v)
      else .ok () { s with ai := { s.ai with fifo := s.ai.fifo ++ [⟨s.ai.addr, w32 (v.toNat % 2 ^ 18 / 8 * 8)⟩] } }

/-- A drain step plays one frame for every four bytes of the head transfer, dequeues it and makes the interrupt pending; memory and every
other state but the environment's stay (R353, R354). And what R391 does not let wait for ever, the device with a transfer among it, is not
passed by for ever: it moves, or one more turn of its wait is over, or another such move that can wait no longer comes first and may then
be overdue again only after as many turns as there are such moves (R391 (a) to (c)). Nor does another client keep the coprocessor from a waiting
engine for ever: each time it comes ahead a count falls, and until the engine has it nothing raises the count (R263, R391).
The counters of draws, of turns and of clients are the model's (notes/assumptions/5.md, 34.md). -/
def Obligations.DrainStep : Prop :=
  (∀ (s : State) (x : Xfer) (rest : List Xfer), s.ai.dmaEn = true → s.ai.fifo = x :: rest →
    s.due .drain = true ∧
    ∃ frames : List Frame, frames.length = x.len.toNat / 4 ∧
      (∀ k < x.len.toNat / 4, ∀ f, frames[k]? = some f →
        frameBytes f = (List.range 4).map fun j => s.dmaByte (x.addr.toNat + 4 * k + j)) ∧
      agentMove .aiDma s = .ok () { s with
        output := s.output ++ frames.map OutItem.frame
        ai := { s.ai with fifo := rest, irq := true }
        race := (aiDmaMove s).race, oracle := { s.oracle with draws := s.oracle.draws + 1 } }) ∧
  (∀ (s : State) (d : Duty), s.due d = true →
    let a := s.nextAgent.1
    let left := fun d' => s.nextAgent.2.oracle.patience.of d'
    s.serves a d = true ∨ (0 < s.oracle.patience.of d ∧ left d = s.oracle.patience.of d - 1) ∨
      ∃ d', d' ≠ d ∧ s.due d' = true ∧ s.oracle.patience.of d' = 0 ∧ s.serves a d' = true ∧ 4 ≤ left d') ∧
  ∀ s : State, s.awaitsCoproc = true →
    ((clientStart s).coproc = s.coproc ∨ (clientStart s).oracle.patience.client < s.oracle.patience.client) ∧
      s.nextAgent.2.oracle.patience.client = s.oracle.patience.client

/-! ### The driver's dispatch (spec/41_ai_driver.md R144 to R147) -/

/-- What the driver's dispatch does to state `s` in an environment that does nothing meanwhile (R144 to R147, R156). The regions in flight that
the device no longer holds are freed, oldest first. With a callback, and no region half written, the free regions from the writer's index on
are filled in ring order, each by a call with its address and length or by the silence callback's zeros, and are full. Then full regions are
queued in ring order, each at its address with the region's length, until the device holds two or the region at the dispatcher's index is not
full; nothing is queued while `AI_CLOSE` is under way (R158; the field `closing` is the model's, notes/assumptions/19.md). -/
abbrev Sys2Proof.Machine.State.dispatchesTo (s t : State) : Prop :=
  let gone := s.drv.inflight.take (s.drv.inflight.length - s.ai.fifo.length)
  let idle := fun k => k ∈ gone ∨ s.drv.state k = .free
  let wr_ := fun j => (s.drv.wr.toNat + j) % s.drv.n.toNat
  let rd_ := fun j => (s.drv.rd.toNat + j) % s.drv.n.toNat
  ∃ r m, r ≤ s.drv.n.toNat ∧ m ≤ 2 ∧
    t = { s with
      drv := { s.drv with st := t.drv.st, inflight := t.drv.inflight, wr := t.drv.wr, rd := t.drv.rd }
      ai := { s.ai with addr := t.ai.addr, fifo := t.ai.fifo }
      mem := t.mem, cache := t.cache, race := t.race, calls := t.calls } ∧
    (∀ j < r, idle (wr_ j)) ∧
    (if s.drv.fillCb = 0 ∨ s.drv.begun = true ∨ s.drv.pushOff ≠ 0 then r = 0 else r = s.drv.n.toNat ∨ ¬ idle (wr_ r)) ∧
    t.drv.wr.toNat = wr_ r ∧
    t.calls = s.calls ++
      (if s.drv.fillCb = silenceCb then []
        else (List.range r).map fun j => Call.mk s.drv.fillCb [(s.drv.addr (wr_ j)).toNat, s.drv.q.toNat]) ∧
    (s.drv.fillCb ≠ silenceCb → t.mem = s.mem ∧ t.cache = s.cache ∧ t.race = s.race) ∧
    (∀ x, t.mem.read x =
      if s.drv.fillCb = silenceCb ∧ ∃ j < r, (s.drv.addr (wr_ j)).toNat ≤ x ∧ x < (s.drv.addr (wr_ j)).toNat + 4 * s.drv.q.toNat then 0
      else s.mem.read x) ∧
    t.drv.rd.toNat = rd_ m ∧
    t.drv.inflight = s.drv.inflight.drop gone.length ++ (List.range m).map rd_ ∧
    t.ai.fifo = s.ai.fifo ++ (List.range m).map (fun j =>
      Xfer.mk (s.drv.addr (rd_ j) &&& 0xFFFFFFF8) (w32 (4 * s.drv.q.toNat) &&& 0x3FFF8)) ∧
    t.ai.addr = (if m = 0 then s.ai.addr else s.drv.addr (rd_ (m - 1)) &&& 0xFFFFFFF8) ∧
    (∀ k < 32, t.drv.state k =
      if ∃ j < m, k = rd_ j then .queued else if ∃ j < r, k = wr_ j then .full else if k ∈ gone then .free else s.drv.state k) ∧
    (∀ j < m, (∃ i < r, rd_ j = wr_ i) ∨ (s.drv.state (rd_ j) = .full ∧ rd_ j ∉ gone)) ∧
    t.ai.fifo.length ≤ 2 ∧
    if s.drv.closing = true then m = 0 else t.ai.fifo.length = 2 ∨ t.drv.state t.drv.rd.toNat ≠ .full

/-- The driver's dispatch, with and without a fill callback; and the driver's interrupt handler, which acknowledges the device first and then
dispatches (R144 to R148, R156, R343, R344). -/
def Obligations.DriverDispatch : Prop :=
  ∀ s : State, s.quiet → s.drv.inRange → s.dispatchable → (s.drv.fillCb = silenceCb → s.regionsBacked) →
    (∃ t, drvDispatch s = .ok () t ∧ s.dispatchesTo t) ∧
    (s.irqEligible → s.owner = .driver → s.drv.on = true →
      ∃ t, takeAiIrq s = .ok () t ∧ ({ s with ai := { s.ai with irq := false } }).dispatchesTo t)

/-! ### The driver's commands (R140 to R158) -/

/-- `AI_INIT` with an allocator that answers pairwise disjoint regions R89 allows: the driver owns the device at the actual rate, every region is
allocated, zeroed and free, and the device is programmed; no other byte of memory changes (R140 to R143).
The proposals are the model's form of `ALLOC` (notes/assumptions/14.md). -/
def Obligations.AiInitEffect : Prop :=
  ∀ (s : State) (nb : Half) (freq : Word) (as : List Word) (more : List (Option Word)),
    let clk := s.params.videoClockHz
    let q := aiQuantum (actualRate clk freq.toNat)
    s.mayRun (.aiInit nb freq) → s.owner = .none → rateValid clk freq.toNat →
    as.length = regionCount nb.toNat → s.oracle.allocs = as.map some ++ more →
    (∀ a ∈ as, s.mayAlloc a (4 * q)) →
    as.Pairwise (fun a b => a.toNat + 4 * q ≤ b.toNat ∨ b.toNat + 4 * q ≤ a.toNat) →
    ∃ t, exec (.aiInit nb freq) s = .next t ∧
      t = ({ s with
        owner := .driver, drv := t.drv, mem := t.mem, cache := t.cache, race := t.race, allocs := t.allocs
        ai := { s.ai with dacrate := BitVec.ofNat 14 (dacrateReg clk freq.toNat), bitrate := 15, dmaEn := true }
        oracle := { s.oracle with allocs := more } }).finish [] ∧
      t.drv = { s.drv with
        on := true, freq := w32 (actualRate clk freq.toNat), n := w32 (regionCount nb.toNat), q := w32 q
        region := t.drv.region, st := t.drv.st, wr := 0, rd := 0, inflight := [], fillCb := 0, savedCb := 0, paused := false
        begun := false, pushOff := 0, closing := false } ∧
      (∀ k, ∀ a, as[k]? = some a → t.drv.addr k = a ∧ t.drv.state k = .free) ∧
      t.allocs = as.reverse.map (fun a => (a.toNat, 4 * q)) ++ s.allocs ∧
      ∀ x, t.mem.read x = if ∃ a ∈ as, a.toNat ≤ x ∧ x < a.toNat + 4 * q then 0 else s.mem.read x

/-- `AI_CLOSE` drops the callbacks, and from then on no dispatch queues a region. With nothing queued the device stops, the regions return to the
allocator and the device has no owner; with a transfer queued it waits, and it ends as soon as the device has drained. Memory is not
written (R158, R380).
That a wait is a pending record, that no agent moves after the last look at the device, and the field that says that `AI_CLOSE` is under way
are the model's choices (notes/assumptions/9.md, 19.md). -/
def Obligations.AiCloseEffect : Prop :=
  ∀ s : State, s.mayRun .aiClose → s.drv.on = true → s.quiet → s.irqDepth ≠ 0xFFFFFFFF →
    let closed := fun u : State => ({ u with
      owner := .none, drv := { u.drv with on := false, closing := false }, ai := { u.ai with dmaEn := false }
      allocs := (List.range u.drv.n.toNat).foldl (fun r k => r.eraseP fun c => c.1 == (u.drv.addr k).toNat) u.allocs })
    let dropped := { s with drv := { s.drv with fillCb := 0, savedCb := 0, closing := true } }
    (s.ai.fifo = [] → exec .aiClose s = .next ((closed dropped).finish [])) ∧
    (s.ai.fifo ≠ [] → exec .aiClose s = .next ((dropped.begin .aiClose).waiting .aiClose)) ∧
    (∀ u : State, (u.ai.fifo = [] → resume .aiClose u = .ok (.done []) (closed u)) ∧
      (u.ai.fifo ≠ [] → resume .aiClose u = .ok (.wait .aiClose) u)) ∧
    ∀ u t : State, u.drv.closing = true → drvDispatch u = .ok () t → ∃ k, t.ai.fifo = u.ai.fifo.drop k

/-- `AI_SET_FILL_CALLBACK` registers the callback, or saves it while paused, and dispatches at once: the dispatch of `DriverDispatch`, from the
state with the callback registered, is all it does besides; so an unpaused driver with a callback and no region half written has no free
region at the writer's index after it (R144 to R149). -/
def Obligations.AiSetFillCallbackEffect : Prop :=
  ∀ (s : State) (cb : Word),
    let set_ := { s with drv := { s.drv with
      fillCb := if s.drv.paused = true then s.drv.fillCb else cb, savedCb := if s.drv.paused = true then cb else s.drv.savedCb } }
    s.mayRun (.aiSetFillCallback cb) → s.drv.on = true → ¬ reservedHandle cb → s.quiet → s.dispatchable → s.drv.inRange →
    (set_.drv.fillCb = silenceCb → s.regionsBacked) →
    ∃ u, exec (.aiSetFillCallback cb) s = .next (u.finish []) ∧ set_.dispatchesTo u ∧
      (cb ≠ 0 → s.drv.paused = false → s.drv.begun = false → s.drv.pushOff = 0 → u.drv.state u.drv.wr.toNat ≠ .free)

/-- `AI_WRITE_BEGIN` on a free region marks it handed out and returns its address; nothing else changes (R151). -/
def Obligations.AiWriteBeginEffect : Prop :=
  ∀ s : State, s.mayRun .aiWriteBegin → s.drv.on = true → s.drv.begun = false → s.drv.pushOff = 0 → s.quiet →
    s.drv.state s.drv.wr.toNat = .free →
    exec .aiWriteBegin s = .next (({ s with drv := { s.drv with begun := true } }).finish [s.drv.addr s.drv.wr.toNat])

/-- The driver with the region at the writer's index complete: it is full, and the writer is at the next region (R152, R153, R154). -/
abbrev Sys2Proof.Machine.Driver.regionDone (d : Driver) : Driver :=
  { d with st := Table.put d.st d.wr.toNat .full, wr := w32 ((d.wr.toNat + 1) % d.n.toNat), begun := false, pushOff := 0 }

/-- `AI_WRITE_END` gives the region to the dispatcher and dispatches at once: the dispatch of `DriverDispatch`, from the state with the region
complete, is all it does besides. A region that is not in flight is full or already queued after it; without a fill callback the writer is at
the next region; and the first region ever completed is queued at once, unless the driver is being closed (R144 to R147, R152). -/
def Obligations.AiWriteEndEffect : Prop :=
  ∀ s : State, s.mayRun .aiWriteEnd → s.drv.on = true → s.drv.begun = true → s.quiet → s.dispatchable →
    s.drv.inRange → (s.drv.fillCb = silenceCb → s.regionsBacked) →
    ∃ u, exec .aiWriteEnd s = .next (u.finish []) ∧
      ({ s with drv := { s.drv.regionDone with pushOff := s.drv.pushOff } }).dispatchesTo u ∧
      (s.drv.wr.toNat ∉ s.drv.inflight → u.drv.state s.drv.wr.toNat = .full ∨ u.drv.state s.drv.wr.toNat = .queued) ∧
      (s.drv.fillCb = 0 → u.drv.wr.toNat = (s.drv.wr.toNat + 1) % s.drv.n.toNat) ∧
      (s.ai.fifo = [] → s.drv.inflight = [] → s.drv.rd = s.drv.wr → s.drv.closing = false →
        u.drv.state s.drv.wr.toNat = .queued ∧
        u.ai.fifo.head? = some ⟨s.drv.addr s.drv.wr.toNat &&& 0xFFFFFFF8, w32 (4 * s.drv.q.toNat) &&& 0x3FFF8⟩)

/-- State `w` is `s` after its bytes [dst, dst+n) were written with `f`, and no other byte. -/
abbrev Sys2Proof.Machine.State.storedAs (s w : State) (dst n : Nat) (f : Nat → Byte) : Prop :=
  w = { s with mem := w.mem, cache := w.cache, race := w.race } ∧
    ∀ x, w.mem.read x = if dst ≤ x ∧ x < dst + n then f x else s.mem.read x

/-- Where the next frame of a push goes. -/
abbrev Sys2Proof.Machine.Driver.pushTarget (d : Driver) : Nat := (d.addr d.wr.toNat).toNat + 4 * d.pushOff.toNat

/-- A push may start: the driver is on, no region is handed out, the region at the writer's index is the push's or free and has room. -/
abbrev Sys2Proof.Machine.State.pushReady (s : State) : Prop :=
  s.drv.on = true ∧ s.drv.begun = false ∧ (s.drv.pushOff = 0 → s.drv.state s.drv.wr.toNat = .free) ∧ s.quiet ∧
    s.drv.pushOff.toNat < s.drv.q.toNat

/-- What a push of `n` frames from `src` does when its first frames fill bytes of the region with `f` (R153). Where it ends inside the region
the leftover count grows. Where it reaches the end, the region is complete and the driver dispatches. Where more frames are left it goes on
from there, at most one region further here: as a push of the rest if the next region is free, and otherwise the non-blocking push returns
what it has accepted and the blocking one waits.
That a wait is a pending record is the model's choice (notes/assumptions/9.md). -/
abbrev Sys2Proof.Machine.State.pushesTo (s : State) (blocking : Bool) (src n : Word) (f : Nat → Byte) : Prop :=
  let room := s.drv.q.toNat - s.drv.pushOff.toNat
  let i := Instr.aiPush blocking src n
  (0 < n.toNat → n.toNat < room →
    ∃ w, s.storedAs w s.drv.pushTarget (4 * n.toNat) f ∧
      exec i s = .next (({ w with drv := { s.drv with pushOff := s.drv.pushOff + n } }).finish [n])) ∧
  (room ≤ n.toNat → n.toNat ≤ room + s.drv.q.toNat → s.dispatchable → s.drv.inRange → s.regionsBacked →
    ∃ w u, s.storedAs w s.drv.pushTarget (4 * room) f ∧ ({ w with drv := s.drv.regionDone }).dispatchesTo u ∧
      (n.toNat = room → exec i s = .next (u.finish [n])) ∧
      (room < n.toNat → u.drv.state u.drv.wr.toNat = .free →
        ∃ t, exec (.aiPush blocking (if src = 0 then 0 else src + w32 (4 * room)) (n - w32 room)) u = .next t ∧
          exec i s = .next (t.finish [n])) ∧
      (room < n.toNat → u.drv.state u.drv.wr.toNat ≠ .free →
        exec i s = .next (if blocking = true then (u.begin i).waiting (.push true src.toNat n.toNat room) else u.finish [w32 room])))

/-- `AI_PUSH` of `n` frames of silence: inside the region at the writer's index, to its end, and across it; the bytes are zero (R153). And the
flush `AI_PUSH 0, 0, 0`: with no leftover it does nothing; with one it zeroes the rest of the region, which is then complete, and dispatches
(R154). The form of a wait is the model's choice (notes/assumptions/9.md). -/
def Obligations.AiPushSilence : Prop :=
  ∀ (s : State) (blocking : Bool) (n : Word), s.mayRun (.aiPush blocking 0 n) →
    (s.pushReady → n ≠ 0 → s.drv.pushTarget + 4 * min n.toNat (s.drv.q.toNat - s.drv.pushOff.toNat) ≤ s.memBytes →
      s.pushesTo blocking 0 n fun _ => 0) ∧
    (n = 0 → s.drv.on = true → s.drv.begun = false → s.drv.pushOff = 0 → exec (.aiPush blocking 0 n) s = .next (s.finish [0])) ∧
    (n = 0 → s.pushReady → s.drv.pushOff ≠ 0 → s.dispatchable → s.drv.inRange → s.regionsBacked →
      ∃ w u, s.storedAs w s.drv.pushTarget (4 * (s.drv.q.toNat - s.drv.pushOff.toNat)) (fun _ => 0) ∧
        ({ w with drv := s.drv.regionDone }).dispatchesTo u ∧ exec (.aiPush blocking 0 n) s = .next (u.finish [0]))

/-- The same for `n` frames from a source whose bytes the copy does not overwrite before it reads them: the bytes are the source's, as the CPU's
uncached view shows them (R78, R80, R153). The form of a wait is the model's choice (notes/assumptions/9.md). -/
def Obligations.AiPushCopy : Prop :=
  ∀ (s : State) (blocking : Bool) (src n : Word),
    let dst := s.drv.pushTarget
    let m := min n.toNat (s.drv.q.toNat - s.drv.pushOff.toNat)
    s.mayRun (.aiPush blocking src n) → s.pushReady → src ≠ 0 → n ≠ 0 → dst + 4 * m ≤ s.memBytes →
    src.toNat + 4 * n.toNat ≤ s.memBytes → dst ≤ src.toNat ∨ src.toNat + 4 * m ≤ dst →
    s.pushesTo blocking src n fun x => s.cpuByte (src.toNat + (x - dst))

/-- `AI_PUSH` and `AI_WRITE_BEGIN` when the device is full and the region at the writer's index is not free: nothing is accepted; the
non-blocking push returns 0, the others wait (R151, R153, R159, R380).
That a wait is a pending record is the model's choice (notes/assumptions/9.md). -/
def Obligations.BusyRegionBlocksWriter : Prop :=
  ∀ (s : State) (src n : Word), s.fault = none → s.ctx = .host → s.drv.on = true → s.drv.begun = false → s.drv.pushOff = 0 →
    s.quiet → s.irqDepth ≠ 0xFFFFFFFF → s.ai.fifo.length = 2 → s.drv.inflight.length ≤ 2 → n ≠ 0 →
    s.drv.state s.drv.wr.toNat ≠ .free →
    exec (.aiPush false src n) s = .next (s.finish [0]) ∧
    exec (.aiPush true src n) s = .next ((s.begin (.aiPush true src n)).waiting (.push true src.toNat n.toNat 0)) ∧
    exec .aiWriteBegin s = .next ((s.begin .aiWriteBegin).waiting .writeBegin)

/-- `AI_PAUSE` installs the silence callback and saves the registered one, or restores it, and repeating either changes nothing;
`AI_GET_FREQUENCY` returns the actual rate and changes nothing; with the driver off, both are BAD_STATE (R155, R157).
That `AI_PAUSE` at the deepest level is IRQ_UNBALANCED, as entering any critical section there is (R340), is the model's reading: R155 and R159
do not name it (notes/assumptions/18.md). -/
def Obligations.AiPauseAndFrequency : Prop :=
  ∀ s : State,
    (∀ pause : Bool, s.mayRun (.aiPause pause) →
      exec (.aiPause pause) s = .next (
        if s.drv.on = false then (s.begin (.aiPause pause)).enterFaulted .badState 0x07
        else if s.irqDepth = 0xFFFFFFFF then (s.begin (.aiPause pause)).enterFaulted .irqUnbalanced 0
        else if pause = s.drv.paused then s.finish []
        else if pause = true then
          ({ s with drv := { s.drv with savedCb := s.drv.fillCb, fillCb := 0xFFFFFFFF, paused := true } }).finish []
        else ({ s with drv := { s.drv with fillCb := s.drv.savedCb, savedCb := 0, paused := false } }).finish [])) ∧
    (s.mayRun .aiGetFrequency → exec .aiGetFrequency s = .next (
      if s.drv.on = false then (s.begin .aiGetFrequency).enterFaulted .badState 0x08 else s.finish [s.drv.freq]))

/-! ### Sample buffers (spec/42_sample_buffer.md) -/

/-- `SB_INIT` binds the region: 16-bit, empty, no decoder; the CPU's cached view of it is dropped and no byte is written (R81, R181).
That the cached view of every byte beside the region stays is the model's choice: its cache is byte-grained, while R79 lets `Invalidate` act on
the cache lines that cover the region (notes/assumptions/15.md). -/
def Obligations.SbInitEffect : Prop :=
  ∀ (s : State) (ch : Byte) (base bytes : Word), s.mayRun (.sbInit ch base bytes) → ch.toNat < 32 →
    base.toNat % 8 = 0 → bytes ≠ 0 → base.toNat + bytes.toNat ≤ s.memBytes →
    ∃ t, exec (.sbInit ch base bytes) s = .next t ∧
      t = ({ s with sbs := t.sbs, cache := t.cache, race := t.race }).finish [] ∧
      t.sb ch.toNat = ⟨true, base, bytes, 1, 0, 0, 0, 0, 0⟩ ∧ (∀ i, i ≠ ch.toNat → t.sb i = s.sb i) ∧
      (∀ x, base.toNat ≤ x → x < base.toNat + bytes.toNat → t.cachedByte x = s.mem.read x ∧ t.cpuByte x = s.mem.read x) ∧
      ∀ x, x < base.toNat ∨ base.toNat + bytes.toNat ≤ x → t.cachedByte x = s.cachedByte x ∧ t.cpuByte x = s.cpuByte x

/-- `SB_SET_BIT_WIDTH`, `SB_SET_DECODER` and `SB_FLUSH` write the fields their rules name, of the one instance, and nothing else
(R182, R183, R184). -/
def Obligations.SbSettingsEffect : Prop :=
  ∀ (s : State) (ch : Byte), ch.toNat < 32 → (s.sb ch.toNat).on = true →
    (∀ bits : Half, s.mayRun (.sbSetBitWidth ch bits) → bits = 8 ∨ bits = 16 → (s.sb ch.toNat).widx = 0 →
      exec (.sbSetBitWidth ch bits) s =
        .next ((s.modSb ch.toNat fun b => { b with bps := if bits = 16 then 1 else 0 }).finish [])) ∧
    (∀ fn ctx : Word, s.mayRun (.sbSetDecoder ch fn ctx) → ¬ reservedHandle fn →
      exec (.sbSetDecoder ch fn ctx) s =
        .next ((s.modSb ch.toNat fun b => { b with decFn := fn, decCtx := ctx }).finish [])) ∧
    (s.mayRun (.sbFlush ch) →
      exec (.sbFlush ch) s = .next ((s.modSb ch.toNat fun b => { b with wpos := 0, widx := 0, ridx := 0 }).finish []))

/-- The environment does nothing of its own but that the next callback issues the one packet `q`, an `SB_APPEND` of `k` samples to instance
`ch`, and returns. -/
abbrev Sys2Proof.Machine.State.appends (s : State) (ch : Byte) (q : Packet) (rest : List Word) (k r : Word) : Prop :=
  s.oracle.free = false ∧ s.oracle.moves = [] ∧ s.oracle.runs = [⟨[.issue q], some r⟩] ∧
    decode q.words = .instr (.sbAppend ch k) rest

/-- `SB_GET` at a position the window holds, its end included. If all of the request is held: the pointer to its first sample and the whole
length, with no decoder call. If not: the decoder is called once, with `seeking = 0`, for what is missing up to a multiple of 8 samples from
the window's start. If it supplies nothing that is the shortfall, and only the read cursor moves; if it appends `k` samples that fit, the window
grows by them and the result's length with it (R185, R187, R188, R189, R191, R199, R200, R201).
The trace of calls and the script of a callback are the model's (notes/assumptions/31.md, 5.md). -/
def Obligations.SbGetHeldWindow : Prop :=
  ∀ (s : State) (ch : Byte) (p n : Word),
    let b := s.sb ch.toNat
    let j := p.toNat - b.wpos.toNat
    let moved := s.modSb ch.toNat fun b => { b with ridx := p - b.wpos }
    s.mayRun (.sbGet ch p n) → ch.toNat < 32 → b.on = true → p.toNat + n.toNat < 2 ^ 32 → 0 < b.widx.toNat →
    b.wpos.toNat ≤ p.toNat → b.base.toNat + j * 2 ^ b.bps.toNat < 2 ^ 32 →
    (j + n.toNat ≤ b.widx.toNat → exec (.sbGet ch p n) s = .next (moved.finish [w32 (b.base.toNat + j * 2 ^ b.bps.toNat), n])) ∧
    (j ≤ b.widx.toNat → b.widx.toNat < j + n.toNat → s.quiet → b.decFn ≠ wrapCb →
      exec (.sbGet ch p n) s = .next (({ moved with
        calls := s.calls ++
          if b.decFn = 0 then []
          else [Call.mk b.decFn [b.decCtx.toNat, ch.toNat, b.wpos.toNat + b.widx.toNat,
            (j + n.toNat + 7) / 8 * 8 - b.widx.toNat, 0]] }).finish
        [w32 (b.base.toNat + j * 2 ^ b.bps.toNat), w32 (b.widx.toNat - j)])) ∧
    ∀ (q : Packet) (rest : List Word) (k r : Word),
      j ≤ b.widx.toNat → b.widx.toNat < j + n.toNat → s.appends ch q rest k r → b.decFn ≠ 0 → b.decFn ≠ wrapCb →
      b.widx.toNat + k.toNat ≤ b.size → b.base.toNat + b.widx.toNat * 2 ^ b.bps.toNat < 2 ^ 32 →
      exec (.sbGet ch p n) s = .next (({ s with
        sbs := Table.put s.sbs ch.toNat { b with ridx := p - b.wpos, widx := b.widx + k }
        calls := s.calls ++ [Call.mk b.decFn [b.decCtx.toNat, ch.toNat, b.wpos.toNat + b.widx.toNat,
          (j + n.toNat + 7) / 8 * 8 - b.widx.toNat, 0]]
        oracle := { s.oracle with runs := [] } }).finish
        [w32 (b.base.toNat + j * 2 ^ b.bps.toNat), w32 (min n.toNat (b.widx.toNat + k.toNat - j))])

/-- `SB_GET` outside the held window: the buffer is emptied at the position, the decoder is called once for the request rounded up to 8 samples
with `seeking = 1`, and what it did not supply is a shortfall: all of it, or what is left behind the `k` samples that it appends
(R188, R189, R190, R191, R199, R200).
The trace of calls and the script of a callback are the model's (notes/assumptions/31.md, 5.md). -/
def Obligations.SbGetMiss : Prop :=
  ∀ (s : State) (ch : Byte) (p n : Word),
    let b := s.sb ch.toNat
    s.mayRun (.sbGet ch p n) → ch.toNat < 32 → b.on = true → p.toNat + n.toNat < 2 ^ 32 → b.decFn ≠ wrapCb →
    b.widx = 0 ∨ p.toNat < b.wpos.toNat ∨ b.wpos.toNat + b.widx.toNat < p.toNat →
    let call := Call.mk b.decFn [b.decCtx.toNat, ch.toNat, p.toNat, (n.toNat + 7) / 8 * 8, 1]
    (s.quiet → exec (.sbGet ch p n) s = .next (({ s with
      sbs := Table.put s.sbs ch.toNat { b with wpos := p, widx := 0, ridx := 0 }
      calls := s.calls ++ if n = 0 ∨ b.decFn = 0 then [] else [call] }).finish [b.base, 0])) ∧
    ∀ (q : Packet) (rest : List Word) (k r : Word), s.appends ch q rest k r → n ≠ 0 → b.decFn ≠ 0 → k.toNat ≤ b.size →
      exec (.sbGet ch p n) s = .next (({ s with
        sbs := Table.put s.sbs ch.toNat { b with wpos := p, widx := k, ridx := 0 }
        calls := s.calls ++ [call], oracle := { s.oracle with runs := [] } }).finish [b.base, w32 (min n.toNat k.toNat)])

/-- `SB_APPEND`: a count that fits grows the window and returns its old end, and nothing else changes; one that does not fit first drops whole
groups of 8 samples up to the read cursor, moving the bytes of the rest down, and if it fits then it returns the end of the compacted window,
and if not it is BUFFER_TOO_SMALL (R78, R80, R186, R191, R192, R193). -/
def Obligations.SbAppendEffect : Prop :=
  ∀ (s : State) (ch : Byte) (n : Word),
    let b := s.sb ch.toNat
    let k := b.ridx.toNat / 8 * 8
    s.mayRun (.sbAppend ch n) → ch.toNat < 32 → b.on = true → b.ridx.toNat ≤ b.widx.toNat → b.widx.toNat ≤ b.size →
    b.base.toNat + b.bytes.toNat ≤ s.memBytes → b.base.toNat + b.bytes.toNat < 2 ^ 32 →
    if b.widx.toNat + n.toNat ≤ b.size then
      exec (.sbAppend ch n) s = .next ((s.modSb ch.toNat fun b => { b with widx := b.widx + n }).finish
        [w32 (b.base.toNat + b.widx.toNat * 2 ^ b.bps.toNat)])
    else
      s.quiet → ∃ t, exec (.sbAppend ch n) s = .next t ∧
        (∀ x, t.mem.read x =
          if 0 < k ∧ b.base.toNat ≤ x ∧ x < b.base.toNat + (b.widx.toNat - k) * 2 ^ b.bps.toNat then
            s.cpuByte (x + k * 2 ^ b.bps.toNat)
          else s.mem.read x) ∧
        if b.widx.toNat - k + n.toNat ≤ b.size then
          t.res = [w32 (b.base.toNat + (b.widx.toNat - k) * 2 ^ b.bps.toNat)] ∧
          t = ({ s with sbs := t.sbs, mem := t.mem, cache := t.cache, race := t.race }).finish t.res ∧
          (∀ i, i ≠ ch.toNat → t.sb i = s.sb i) ∧
          t.sb ch.toNat = { b with
            wpos := w32 (b.wpos.toNat + k), widx := w32 (b.widx.toNat - k + n.toNat), ridx := w32 (b.ridx.toNat - k) }
        else t.fault = some ⟨.bufferTooSmall, 0x14, ch, n⟩ ∧ t.res = []

/-- `SB_DISCARD`: nothing before the window, everything at or past its end; between, the retained tail moves to index 0 byte for byte, and no
other byte of memory changes (R78, R80, R193, R194). -/
def Obligations.SbDiscardEffect : Prop :=
  ∀ (s : State) (ch : Byte) (p : Word),
    let b := s.sb ch.toNat
    let k := p.toNat - b.wpos.toNat
    let kept := (b.widx.toNat - k) * 2 ^ b.bps.toNat
    s.mayRun (.sbDiscard ch p) → ch.toNat < 32 → b.on = true → b.widx.toNat ≤ b.size → b.base.toNat + b.bytes.toNat ≤ s.memBytes →
    s.quiet →
    ∃ t, exec (.sbDiscard ch p) s = .next t ∧
      t = ({ s with sbs := t.sbs, mem := t.mem, cache := t.cache, race := t.race }).finish [] ∧
      (∀ i, i ≠ ch.toNat → t.sb i = s.sb i) ∧
      t.sb ch.toNat =
        (if k = 0 then b else if b.widx.toNat ≤ k then { b with wpos := p, widx := 0, ridx := 0 }
          else { b with wpos := p, widx := w32 (b.widx.toNat - k), ridx := w32 (b.ridx.toNat - k) }) ∧
      ∀ x, t.mem.read x =
        if 0 < k ∧ k < b.widx.toNat ∧ b.base.toNat ≤ x ∧ x < b.base.toNat + kept then
          s.cpuByte (x + k * 2 ^ b.bps.toNat)
        else s.mem.read x

/-- The index checks: a sample-buffer command on an instance of 32 or more, and a channel command on a channel of `MX_NCH` or more, are
BAD_ARG with the index (R180, R215). -/
def Obligations.IndexOutOfRangeFaults : Prop :=
  ∀ (i : Instr) (s : State), s.mayRun i →
    (0x10 ≤ i.opcode.toNat ∧ i.opcode.toNat ≤ 0x16 ∧ 32 ≤ i.chField.toNat) ∨
    (0x28 ≤ i.opcode.toNat ∧ i.opcode.toNat ≤ 0x31 ∧ s.mx.on = true ∧ s.mx.nch.toNat ≤ i.chField.toNat) →
    exec i s = .next ((s.begin i).enterFaulted .badArg (i.chField.setWidth 32))

/-! ### The engine's configuration (spec/43_mixer_channel.md R210 to R216) -/

/-- `MX_INIT` with an allocator that answers a region R89 allows: the engine owns the device at the actual rate, with a zeroed ring, full volumes,
full-rate limits, no event and every channel Idle and unbound (R210, R211).
The proposal is the model's form of `ALLOC` (notes/assumptions/14.md). -/
def Obligations.MxInitEffect : Prop :=
  ∀ (s : State) (channels : Half) (rate a : Word) (more : List (Option Word)),
    let clk := s.params.videoClockHz
    let nf := ringFrames (actualRate clk rate.toNat)
    s.mayRun (.mxInit channels rate) → s.owner = .none → 1 ≤ channels.toNat → channels.toNat ≤ 32 → rateValid clk rate.toNat →
    rate.toNat < 65536 → s.oracle.allocs = some a :: more → s.mayAlloc a (4 * nf) →
    ∃ t, exec (.mxInit channels rate) s = .next t ∧
      t = ({ s with
        owner := .engine, mx := t.mx, chans := t.chans, sbs := t.sbs, events := [], mem := t.mem, cache := t.cache, race := t.race
        ring := ⟨a, w32 nf, 0, none, []⟩, allocs := (a.toNat, 4 * nf) :: s.allocs
        ai := { s.ai with dacrate := BitVec.ofNat 14 (dacrateReg clk rate.toNat), bitrate := 15, dmaEn := true }
        oracle := { s.oracle with allocs := more } }).finish [] ∧
      t.mx = ⟨true, channels.setWidth 8, w32 (actualRate clk rate.toNat), 0x7FFF, 0, 0, false, false⟩ ∧
      (∀ c < 32, t.desc c = ⟨0, 0, 0, 0, 0, 0⟩ ∧ (t.chan c).vol = ⟨0x7FFF, 0x7FFF⟩ ∧
        (t.chan c).limits = ⟨16, w32 (rate.toNat * 65536), 0⟩ ∧ (t.chan c).wave.id = 0) ∧
      (∀ i < 32, t.sb i = if i < channels.toNat then { s.sb i with on := false } else s.sb i) ∧
      ∀ x, t.mem.read x = if a.toNat ≤ x ∧ x < a.toNat + 4 * nf then 0 else s.mem.read x

/-- State `t` is `u` with the engine closed: the device stops, the engine's memory returns to the allocator, its buffers are off, no event is left
and the device has no owner (R212). -/
abbrev Sys2Proof.Machine.State.engineClosed (u t : State) : Prop :=
  t = { u with
    owner := .none, mx := { u.mx with on := false }, sbs := t.sbs, events := [], ai := { u.ai with dmaEn := false }
    allocs := t.allocs } ∧
  (∀ i < 32, t.sb i = if i < u.mx.nch.toNat then { u.sb i with on := false } else u.sb i) ∧
  t.allocs =
    (let r := u.allocs.eraseP fun c => c.1 == u.ring.base.toNat
      if u.mx.bufMem = 0 then r else r.eraseP fun c => c.1 == u.mx.bufMem.toNat)

/-- `MX_CLOSE` drops the pending block. With nothing queued the engine is closed; with a transfer queued it waits, and it ends as soon as the device
has drained. Memory is not written (R212, R380).
That a wait is a pending record and that no agent moves after the last look at the device are the model's choices (notes/assumptions/9.md,
19.md). -/
def Obligations.MxCloseEffect : Prop :=
  ∀ s : State, s.mayRun .mxClose → s.mx.on = true → s.quiet → s.irqDepth ≠ 0xFFFFFFFF →
    let dropped := { s with ring := { s.ring with pending := none } }
    (s.ai.fifo = [] → ∃ t, dropped.engineClosed t ∧ exec .mxClose s = .next (t.finish [])) ∧
    (s.ai.fifo ≠ [] → exec .mxClose s = .next ((dropped.begin .mxClose).waiting .mxClose)) ∧
    ∀ u : State, (u.ai.fifo = [] → ∃ t, u.engineClosed t ∧ resume .mxClose u = .ok (.done []) t) ∧
      (u.ai.fifo ≠ [] → resume .mxClose u = .ok (.wait .mxClose) u)

/-- `MX_SAMPLE_RATE` returns the actual rate; `MX_SET_MASTER_VOLUME` stores the fraction as Q1.15, and a fraction above 1.0 is BAD_ARG;
with the engine off, both are BAD_STATE (R112, R213, R214). -/
def Obligations.MxRateAndMasterVolume : Prop :=
  ∀ s : State,
    (s.mayRun .mxSampleRate → exec .mxSampleRate s = .next (
      if s.mx.on = false then (s.begin .mxSampleRate).enterFaulted .badState 0x22 else s.finish [s.mx.rate])) ∧
    ∀ vol : Word, s.mayRun (.mxSetMasterVolume vol) →
      exec (.mxSetMasterVolume vol) s = .next (
        if s.mx.on = false then (s.begin (.mxSetMasterVolume vol)).enterFaulted .badState 0x23
        else if vol.toNat ≤ 0x10000 then
          ({ s with mx := { s.mx with master := BitVec.ofNat 16 (vol.toNat * 0x7FFF / 65536) } }).finish []
        else (s.begin (.mxSetMasterVolume vol)).enterFaulted .badArg vol)

/-- A command whose sub-block or instance is off is BAD_STATE: the driver's, the sample buffers' but `SB_INIT`, the engine's, the channels', the
events' and VideoSync's but `VS_INIT`; and an init command while the device has an owner is OWNER_CONFLICT (R21, R140, R149, R151, R152, R153, R155,
R157, R158, R180, R210, R212, R213, R214, R215, R269, R290, R291, R312, R313, R314).
The number that stands for the owner is free (notes/assumptions/11.md). -/
def Obligations.CommandsBeforeInitFault : Prop :=
  ∀ (i : Instr) (s : State), s.mayRun i →
    ((0x02 ≤ i.opcode.toNat ∧ i.opcode.toNat ≤ 0x08 ∧ s.drv.on = false) ∨
      (0x11 ≤ i.opcode.toNat ∧ i.opcode.toNat ≤ 0x16 ∧ i.chField.toNat < 32 ∧ (s.sb i.chField.toNat).on = false) ∨
      (0x21 ≤ i.opcode.toNat ∧ i.opcode.toNat ≤ 0x24 ∧ s.mx.on = false ∧ s.mx.inPoll = false) ∨
      (0x28 ≤ i.opcode.toNat ∧ i.opcode.toNat ≤ 0x41 ∧ s.mx.on = false) ∨
      (0x51 ≤ i.opcode.toNat ∧ i.opcode.toNat ≤ 0x53 ∧ s.vs.on = false) →
      exec i s = .next ((s.begin i).enterFaulted .badState (i.opcode.setWidth 32))) ∧
    (i.opcode = 0x01 ∨ i.opcode = 0x20 → s.owner ≠ .none →
      exec i s = .next ((s.begin i).enterFaulted .ownerConflict (Config.ownerCode s.owner)))

/-! ### Channels (spec/43_mixer_channel.md R216 to R234) -/

/-- The hypotheses of a channel command that runs. -/
abbrev Sys2Proof.Machine.State.channelReady (s : State) (i : Instr) : Prop :=
  s.mayRun i ∧ s.mx.on = true ∧ i.chField.toNat < s.mx.nch.toNat

/-- `CH_SET_LIMITS` with legal limits while no channel plays: the limits are stored, the sample-buffer memory returns to the allocator, and every
channel's buffer is off and its waveform unbound (R216). -/
def Obligations.ChSetLimitsEffect : Prop :=
  ∀ (s : State) (ch : Byte) (maxBits maxFreq maxBuf : Word),
    s.channelReady (.chSetLimits ch maxBits maxFreq maxBuf) → s.mx.nch.toNat ≤ 32 → maxBits = 8 ∨ maxBits = 16 → maxFreq ≠ 0 →
    maxBuf.toNat % 8 = 0 → (∀ c < s.mx.nch.toNat, (s.desc c).ptr = 0) →
    ∃ t, exec (.chSetLimits ch maxBits maxFreq maxBuf) s = .next t ∧
      t = ({ s with
        mx := { s.mx with bufMem := 0 }, sbs := t.sbs, chans := t.chans
        allocs := if s.mx.bufMem = 0 then s.allocs else s.allocs.eraseP fun c => c.1 == s.mx.bufMem.toNat }).finish [] ∧
      (∀ i < 32, t.sb i = if i < s.mx.nch.toNat then { s.sb i with on := false } else s.sb i) ∧
      ∀ c < 32, t.chan c =
        { s.chan c with
          limits := if c = ch.toNat then ⟨maxBits.setWidth 8, maxFreq, maxBuf⟩ else (s.chan c).limits
          wave := if c < s.mx.nch.toNat then { (s.chan c).wave with id := 0 } else (s.chan c).wave }

/-- `EnsureBuffers` when there is no sample-buffer memory: one block of the sum of every channel's size is allocated, and each channel's buffer is
bound, empty and at its width, to its own consecutive piece of it; no byte is written (R217).
The proposal is the model's form of `ALLOC` (notes/assumptions/14.md). -/
def Obligations.EnsureBuffersEffect : Prop :=
  ∀ (s : State) (a : Word) (more : List (Option Word)),
    let start := fun c => a.toNat + ((List.range c).map s.bufBytes).sum
    s.mx.bufMem = 0 → s.mx.nch.toNat ≤ 32 → s.oracle.allocs = some a :: more → s.mayAlloc a s.bufTotal →
    ∃ t, ensureBuffers s = .ok () t ∧
      t = { s with
        mx := { s.mx with bufMem := a }, sbs := t.sbs, cache := t.cache, race := t.race, allocs := (a.toNat, s.bufTotal) :: s.allocs
        oracle := { s.oracle with allocs := more } } ∧
      ∀ c < 32, t.sb c =
        if c < s.mx.nch.toNat then
          ⟨true, w32 (start c), w32 (s.bufBytes c), if (s.chan c).limits.maxBits = 16 then 1 else 0, 0, 0, 0, 0, 0⟩
        else s.sb c

/-- `CH_PLAY` of a legal waveform within the limits, with the sample-buffer memory there: the waveform's fields are latched, the buffer is flushed
and bound to the loop-aware reader unless the same waveform is bound already, and the descriptor starts at position 0 with the waveform's step, its
lengths for the strategy and the pre-adjusted pointer; no other channel, buffer or byte changes. The record is read through the CPU's uncached
view (R72, R80, R218, R219, R220, R252, R260, R280). -/
def Obligations.ChPlayEffect : Prop :=
  ∀ (s : State) (ch : Byte) (wave : Word),
    let c := ch.toNat
    let w := s.waveAt wave
    let b := if w.bits = 16 then 1 else 0
    let sb := if (s.chan c).wave.id = wave then s.sb c
      else { s.sb c with wpos := 0, widx := 0, ridx := 0, bps := BitVec.ofNat 2 b, decFn := 0xFFFFFFFE, decCtx := ch.setWidth 32 }
    let k := 2 ^ (12 + b)
    s.channelReady (.chPlay ch wave) → c < 32 → wave ≠ 0 → wave.toNat + 0x1C ≤ s.memBytes → s.waveLegal wave →
    (s.chan c).limits.admits w → s.mx.bufMem ≠ 0 →
    (w.loop ≠ 0 → w.loop.toNat + 80 ≤ sb.size → w.len.toNat * k < 2 ^ 32) → sb.base - w32 (sb.wpos.toNat * 2 ^ b) ≠ 0 →
    ∃ t, exec (.chPlay ch wave) s = .next t ∧
      t = ({ s with sbs := t.sbs, chans := t.chans }).finish [] ∧
      t.sb c = sb ∧ (∀ i, i ≠ c → t.sb i = s.sb i ∧ t.chan i = s.chan i) ∧
      t.chan c = { s.chan c with
        wave := w
        desc := {
          pos := 0, step := stepOf w.freq s.mx.rate b, flags := if b = 1 then 5 else 0
          ptr := sb.base - w32 (sb.wpos.toNat * 2 ^ b)
          len :=
            if w.loop = 0 then w32 (min (w.len.toNat * k) 0xFFFFFFFF)
            else if w.loop.toNat + 80 ≤ sb.size then w32 (w.len.toNat * k) else 0xFFFFFFFF
          loopLen :=
            if w.loop ≠ 0 ∧ w.loop.toNat + 80 ≤ sb.size then w32 (w.loop.toNat * k) else 0 } }

/-- `CH_STOP` makes the channel Idle and unbinds it and its buffer's decoder, and nothing else changes. The two readers change nothing:
`CH_PLAYING` returns 1 exactly when the pointer is not 0, and `CH_GET_POSITION` the position in samples, reduced into the loop of a bound looping
waveform when it is past the end (R38, R221, R222, R225). -/
def Obligations.ChStopAndReaders : Prop :=
  ∀ (s : State) (ch : Byte),
    let x := s.chan ch.toNat
    let p := x.desc.pos.toNat / 2 ^ (x.desc.flags.toNat % 4)
    let ls := (x.wave.len.toNat - x.wave.loop.toNat) * 4096
    (s.channelReady (.chStop ch) → exec (.chStop ch) s = .next (
      ((s.modChan ch.toNat fun x => { x with desc := { x.desc with ptr := 0 }, wave := { x.wave with id := 0 } }).modSb ch.toNat
        fun b => { b with decFn := 0, decCtx := 0 }).finish [])) ∧
    (s.channelReady (.chPlaying ch) →
      exec (.chPlaying ch) s = .next (s.finish [if x.desc.ptr ≠ 0 then 1 else 0])) ∧
    (s.channelReady (.chGetPosition ch) →
      exec (.chGetPosition ch) s = .next (s.finish
        [if x.wave.id ≠ 0 ∧ x.wave.loop ≠ 0 ∧ x.wave.len.toNat ≤ p / 4096 then w32 (ls + (p - ls) % (x.wave.loop.toNat * 4096))
          else w32 p]))

/-- `CH_SET_FREQUENCY` within the limit sets the step and nothing else, and above it is LIMIT_EXCEEDED; `CH_SET_POSITION` writes the position,
reduced into the loop of a bound looping waveform when it is past the end and scaled by the bit width, and a value that does not fit is
POS_OVERFLOW (R223, R224, R252). -/
def Obligations.ChFrequencyAndPosition : Prop :=
  ∀ (s : State) (ch : Byte),
    let x := s.chan ch.toNat
    let scale := 2 ^ (x.desc.flags.toNat % 4)
    (∀ freq : Word, s.channelReady (.chSetFrequency ch freq) → s.mx.rate ≠ 0 →
      exec (.chSetFrequency ch freq) s = .next (
        if freq.toNat ≤ x.limits.maxFreq.toNat then
          (s.modDesc ch.toNat fun d => { d with step := w32 (freq.toNat / (16 * s.mx.rate.toNat) * scale) }).finish []
        else (s.begin (.chSetFrequency ch freq)).enterFaulted .limitExceeded (ch.setWidth 32))) ∧
    ∀ pos : Word, s.channelReady (.chSetPosition ch pos) →
      let ls := (x.wave.len.toNat - x.wave.loop.toNat) * 4096
      let p := if x.wave.id ≠ 0 ∧ x.wave.loop ≠ 0 ∧ x.wave.len.toNat ≤ pos.toNat / 4096 then
          ls + (pos.toNat - ls) % (x.wave.loop.toNat * 4096)
        else pos.toNat
      exec (.chSetPosition ch pos) s = .next (
        if p * scale < 2 ^ 32 then (s.modDesc ch.toNat fun d => { d with pos := w32 (p * scale) }).finish []
        else (s.begin (.chSetPosition ch pos)).enterFaulted .posOverflow (ch.setWidth 32))

/-- `CH_SET_VOLUME`, `CH_SET_PAN` and `CH_SET_DOLBY` with operands of at most 1.0 write the channel's volume pair and nothing else: of the two
fractions, of the pan law's two sides (the linear one, or the open one), and of the open matrix's two sides clamped to 1.0 (R112, R226, R227, R228). -/
def Obligations.ChVolumeEffect : Prop :=
  ∀ (s : State) (ch : Byte),
    let q15 := fun x : Nat => BitVec.ofNat 16 (x * 0x7FFF / 65536)
    (∀ l r : Word, s.channelReady (.chSetVolume ch l r) → l.toNat ≤ 0x10000 → r.toNat ≤ 0x10000 →
      exec (.chSetVolume ch l r) s =
        .next ((s.modChan ch.toNat fun x => { x with vol := ⟨q15 l.toNat, q15 r.toNat⟩ }).finish [])) ∧
    (∀ vol pan : Word, s.channelReady (.chSetPan ch vol pan) → vol.toNat ≤ 0x10000 → pan.toNat ≤ 0x10000 →
      exec (.chSetPan ch vol pan) s = .next ((s.modChan ch.toNat fun x => { x with
        vol := if s.params.panLaw = .linear then
            ⟨q15 (vol.toNat * (0x10000 - pan.toNat) / 65536), q15 (vol.toNat * pan.toNat / 65536)⟩
          else ⟨q15 (Config.panLaw vol pan).1.val, q15 (Config.panLaw vol pan).2.val⟩ }).finish [])) ∧
    ∀ fl fr c sl sr : Word, s.channelReady (.chSetDolby ch fl fr c sl sr) → (∀ x ∈ [fl, fr, c, sl, sr], x.toNat ≤ 0x10000) →
      exec (.chSetDolby ch fl fr c sl sr) s = .next ((s.modChan ch.toNat fun x => { x with
        vol := ⟨q15 (min (Config.dolbyMatrix fl fr c sl sr).1.toNat 0x10000),
          q15 (min (Config.dolbyMatrix fl fr c sl sr).2.toNat 0x10000)⟩ }).finish [])

/-- The read wrapper asks the raw read for positions inside the waveform only: every call it makes has a position below the length, does not
run past it, and, if the request was not empty, is at least one sample long (R231, R234).
The trace of calls is the model's (notes/assumptions/31.md). -/
def Obligations.RawReadsStayInside : Prop :=
  ∀ (s : State) (c p n : Nat) (seeking : Bool),
    let w := (s.chan c).wave
    s.quiet → 0 < n → w.loop.toNat ≤ w.len.toNat →
    (w.loop ≠ 0 → n - min n (w.len.toNat - w.rolled p) ≤ max w.loop.toNat 64 + 7) →
    ∃ reads : List (Nat × Nat × Nat),
      readWrapper c p n seeking s = .ok () { s with
        calls := s.calls ++ reads.map fun r => Call.mk w.read [w.ctx.toNat, c, r.1, r.2.1, r.2.2] } ∧
      (∀ r ∈ reads, 1 ≤ r.2.1 ∧ r.1 + r.2.1 ≤ w.len.toNat) ∧
      (w.loop ≠ 0 → (reads.map fun r => r.2.1).sum = n)

/-! ### The mix job and the poll (spec/44_mixer_exec.md) -/

/-- The coprocessor reads back what the engine uploaded: the frame count, the output address, the master volume, the channel count, and for each of
the 32 channels its descriptor and its volume, which is zero for an inactive channel (R124, R261, R263). -/
def Obligations.JobBlockReadsBack : Prop :=
  ∀ (s : State) (out n : Nat), out < 2 ^ 32 → n < 2 ^ 32 →
    let m := (s.upload out n).coproc.mem
    jobFrames m = n ∧ jobOut m = out ∧ jobMaster m = s.mx.master ∧ jobChannels m = s.mx.nch.toNat ∧
    ∀ c < 32,
      jobDesc m c = (if c < s.mx.nch.toNat then s.desc c else ⟨0, 0, 0, 0, 0, 0⟩) ∧
      jobVolume m c = (if c < s.mx.nch.toNat ∧ (s.desc c).ptr ≠ 0 then (s.chan c).vol else ⟨0, 0⟩)

/-- After the hand-off every Playing channel is at its final position `p_n` modulo 2^32, and is Idle if it has no loop and has reached its end; the
other descriptor fields, the other channels, and the volumes are as before. The positions are those of R262 (c): `p_0` is the descriptor's,
`p_{k+1}` is `W(p_k)` and the step, and `W` subtracts the loop length while the position is at or past the length (R262 (c), R265 to R267).
That R262 (c) is followed where R268 differs is the model's reading (notes/assumptions/24.md). -/
def Obligations.HandoffAdvancesPositions : Prop :=
  (∀ (s : State) (out n c : Nat), s.mx.nch.toNat ≤ 32 → out < 2 ^ 32 → n < 2 ^ 32 → c < 32 →
    let x := s.chan c
    let p := w32 (x.desc.posAt n)
    (s.mixed out n).chan c =
      if c < s.mx.nch.toNat ∧ x.desc.ptr ≠ 0 then
        { x with desc := { x.desc with
            pos := p, ptr := if x.wave.loop = 0 ∧ x.wave.len.toNat ≤ p.toNat / 2 ^ (12 + x.desc.flags.toNat % 4) then 0 else x.desc.ptr } }
      else x) ∧
  ∀ d : Desc, d.posAt 0 = d.pos.toNat ∧ (∀ k, d.posAt (k + 1) = d.wrap (d.posAt k) + d.step.toNat) ∧
    ∀ p, (d.loopLen = 0 ∨ p < d.len.toNat → d.wrap p = p) ∧
      (d.loopLen ≠ 0 → d.loopLen.toNat ≤ d.len.toNat → d.len.toNat ≤ p → d.wrap p = d.wrap (p - d.loopLen.toNat))

/-- Channel `c` before its window is taken: one that unrolls its loop moves back by one loop when it and its buffer are past the end (R257). -/
abbrev Sys2Proof.Machine.State.rolledBack (s : State) (c : Nat) : Desc × SampleBuf :=
  let w := (s.chan c).wave
  let scale := 2 ^ (12 + (s.desc c).flags.toNat % 4)
  if w.loop ≠ 0 ∧ (s.sb c).size < w.loop.toNat + 80 ∧ w.len.toNat ≤ (s.desc c).pos.toNat / scale ∧ w.len.toNat ≤ (s.sb c).wpos.toNat then
    ({ s.desc c with pos := (s.desc c).pos - w32 (w.loop.toNat * scale) }, { s.sb c with wpos := (s.sb c).wpos - w.loop })
  else (s.desc c, s.sb c)

/-- The first and the last sample of channel `c`'s window for `n` frames: of a waveform without a loop, what the frames need and no more; of a
resident loop, what they need and the over-read, all of the loop once they have reached it; of an unrolled one, what they need
(R251, R253, R254, R256). -/
abbrev Sys2Proof.Machine.State.windowOf (s : State) (c n : Nat) : Nat × Nat :=
  let w := (s.chan c).wave
  let d := (s.rolledBack c).1
  let scale := 2 ^ (12 + d.flags.toNat % 4)
  let p := d.pos.toNat / scale
  let q := (d.pos.toNat + d.step.toNat * (n - 1)) / scale
  if w.loop = 0 then (p, min q (w.len.toNat - 1))
  else if w.loop.toNat + 80 ≤ (s.sb c).size then
    if w.len.toNat - w.loop.toNat ≤ p then (w.len.toNat - w.loop.toNat, w.len.toNat - 1 + 64) else (p, min q (w.len.toNat - 1) + 64)
  else (p, q)

/-- Channel `c` needs no decoder call for `n` frames: its buffer holds the whole window, no fault is due, it is not at the end of a waveform
without a loop, and fewer than the 8 samples that a discard drops at once lie before a resident loop it has reached (R255). -/
abbrev Sys2Proof.Machine.State.windowHeld (s : State) (c n : Nat) : Prop :=
  let w := (s.chan c).wave
  let d := (s.rolledBack c).1
  let b := (s.rolledBack c).2
  let scale := 2 ^ (12 + d.flags.toNat % 4)
  let resident := w.loop ≠ 0 ∧ w.loop.toNat + 80 ≤ (s.sb c).size
  (¬ resident → d.pos.toNat + d.step.toNat * n < 2 ^ 32) ∧ (w.loop = 0 → d.pos.toNat / scale < w.len.toNat) ∧
    (resident → w.len.toNat * scale < 2 ^ 32 ∧
      (w.len.toNat - w.loop.toNat ≤ d.pos.toNat / scale → w.len.toNat - w.loop.toNat < b.wpos.toNat + 8)) ∧
    0 < b.widx.toNat ∧ b.wpos.toNat ≤ (s.windowOf c n).1 ∧ (s.windowOf c n).2 < b.wpos.toNat + b.widx.toNat ∧
    (s.windowOf c n).2 < b.wpos.toNat + b.size ∧ b.base - w32 (b.wpos.toNat * 2 ^ (d.flags.toNat % 4)) ≠ 0

/-- State `u` is `s` with every Playing channel's window of `n` frames taken from what its buffer holds: the lengths for its strategy, the
pre-adjusted pointer, the read cursor at the window's start; and nothing else changed, no decoder call among it (R220, R251, R258, R260). -/
abbrev Sys2Proof.Machine.State.windowsTaken (s u : State) (n : Nat) : Prop :=
  u = { s with sbs := u.sbs, chans := u.chans } ∧
  ∀ c < 32,
    let x := s.chan c
    let d := (s.rolledBack c).1
    let b := (s.rolledBack c).2
    let scale := 2 ^ (12 + d.flags.toNat % 4)
    let resident := x.wave.loop ≠ 0 ∧ x.wave.loop.toNat + 80 ≤ (s.sb c).size
    if c < s.mx.nch.toNat ∧ x.desc.ptr ≠ 0 then
      u.chan c = { x with desc := { d with
        len :=
          if x.wave.loop = 0 then w32 (min (x.wave.len.toNat * scale) 0xFFFFFFFF)
          else if resident then w32 (x.wave.len.toNat * scale) else 0xFFFFFFFF
        loopLen := if resident then w32 (x.wave.loop.toNat * scale) else 0
        ptr := b.base - w32 (b.wpos.toNat * 2 ^ (d.flags.toNat % 4)) } } ∧
      u.sb c = { b with ridx := w32 ((s.windowOf c n).1 - b.wpos.toNat) }
    else u.chan c = x ∧ u.sb c = s.sb c

/-- The internal `MX_EXEC` of a sub-run whose Playing channels' windows are held, or that has none: each of them gets its window, with no decoder
call; then, the coprocessor being free, one job runs and the positions are read back (the hand-off of `HandoffAdvancesPositions`), and while
another client holds the coprocessor it waits. Outside a sub-run, as at the command port, it is ILLEGAL_COMMAND, from any context
(R104, R250, R251, R253 to R258, R260, R263, R264).
The field that says a sub-run is open, and the pending record of the wait, are the model's (notes/assumptions/26.md, 9.md). -/
def Obligations.MxExecEffect : Prop :=
  ∀ (s : State) (out n : Word), s.fault = none →
    (s.mx.subRun = true → s.quiet → (∀ c < s.mx.nch.toNat, (s.desc c).ptr ≠ 0 → s.windowHeld c n.toNat) →
      ∃ u, s.windowsTaken u n.toNat ∧
        exec (.mxExec out n) s = .next (
          if s.coproc.jobBusy = true then (u.begin (.mxExec out n)).waiting (.execAcquire out.toNat n.toNat)
          else ((u.begin (.mxExec out n)).mixed out.toNat n.toNat).finish [])) ∧
    (s.mx.subRun = false →
      exec (.mxExec out n) s = .next { s with
        cmd := ⟨0x25, 0⟩, fault := some ⟨.illegalCommand, 0x25, 0, 0x25000000⟩, res := [], pending := none })

/-- `MX_POLL 0` does nothing at all, and an odd length or one above the ring's is BAD_ARG; inside a poll, from any context and before the issuer
check, it is REENTRANT_POLL with the issuing context (R105, R269, R270, R297).
The number that stands for the context is free (notes/assumptions/11.md). -/
def Obligations.MxPollChecks : Prop :=
  ∀ (s : State) (n : Word),
    (s.mayRun (.mxPoll n) → s.mx.on = true → s.mx.inPoll = false →
      (n = 0 → exec (.mxPoll n) s = .next (s.finish [])) ∧
      (n.toNat % 2 = 1 ∨ s.ring.nf.toNat < n.toNat →
        exec (.mxPoll n) s = .next ((s.begin (.mxPoll n)).enterFaulted .badArg n))) ∧
    (s.fault = none → s.mx.inPoll = true →
      exec (.mxPoll n) s = .next ((s.begin (.mxPoll n)).enterFaulted .reentrantPoll (Config.ctxCode s.ctx)))

/-- The sample that frame `k` reads for descriptor `d`: none where the pointer is 0 or the position is at the end of no loop; otherwise the 16-bit
sample, or the 8-bit one in the high byte, at the position's address (R121, R262 (c), R268). -/
abbrev Sys2Proof.Machine.State.referenceSample (s : State) (d : Desc) (k : Nat) : Int :=
  let b := d.flags.toNat % 4
  let p := d.wrap (d.posAt k)
  let a := fun j => (d.ptr.toNat + p / 2 ^ (12 + b) * 2 ^ b + j) % 2 ^ 32
  if d.ptr = 0 ∨ (d.loopLen = 0 ∧ d.len.toNat ≤ p) then 0
  else (s.coprocByte (a 0) ++ (if b = 1 then s.coprocByte (a 1) else 0) : BitVec 16).toInt

/-- One side of frame `k` of the reference backend: the sum over the engine's channels of sample times volume, over 2^15, times the master volume,
over 2^15, saturated (R268). -/
abbrev Sys2Proof.Machine.State.referenceSide (s : State) (k : Nat) (side : Volume → Half) : Half :=
  let acc := ((List.range s.mx.nch.toNat).map fun c => s.referenceSample (s.desc c) k * ((side (s.chan c).vol).toNat : Int)).sum
  BitVec.ofInt 16 (max (-32768) (min 32767 (acc / 32768 * (s.mx.master.toNat : Int) / 32768)))

/-- `MX_POLL n` with no event, a ring range ready, room in the device, a free coprocessor, and every Playing channel's window held: the windows are
taken as in `MxExecEffect`, one job of `n` frames runs into the ring with the hand-off of `HandoffAdvancesPositions`, `TICKS` advances by `n`,
the block is committed and queued at once, and no byte outside the block changes. The reference backend writes the frames of R268, left side
first, and with no Playing channel silence (R250, R251, R255, R262 (c), R268, R269, R271, R273 to R275).
That the samples lie at the positions of R262 (c) is the model's reading (notes/assumptions/24.md). -/
def Obligations.MxPollEffect : Prop :=
  ∀ (s : State) (n : Word),
    let off := if 4 * s.ring.nf.toNat < s.ring.w.toNat + 4 * n.toNat then 0 else s.ring.w.toNat
    let out := s.ring.base.toNat + off
    let block : Xfer := ⟨w32 out, w32 (4 * n.toNat)⟩
    s.mayRun (.mxPoll n) → s.mx.on = true → s.mx.inPoll = false → s.mx.nch.toNat ≤ 32 → n.toNat % 2 = 0 → 0 < n.toNat →
    n.toNat ≤ s.ring.nf.toNat → s.quiet → s.irqDepth ≠ 0xFFFFFFFF →
    (∀ c < s.mx.nch.toNat, (s.desc c).ptr ≠ 0 → s.windowHeld c n.toNat) → s.events = [] →
    s.coproc.jobBusy = false → s.ai.fifo.length < 2 → s.ring.pending = none → s.ring.inflight.length ≤ s.ai.fifo.length →
    s.ring.ready off n.toNat → s.ring.base.toNat + 4 * s.ring.nf.toNat < 2 ^ 32 → s.mx.ticks.toNat + n.toNat < 2 ^ 64 →
    ∃ u t, s.windowsTaken u n.toNat ∧ exec (.mxPoll n) s = .next t ∧
      t = ({ u.mixed out n.toNat with
        mx := { s.mx with ticks := s.mx.ticks + BitVec.setWidth 64 n, subRun := false }
        ring := { s.ring with w := w32 (off + 4 * n.toNat), inflight := s.ring.inflight ++ [block] }
        ai := { s.ai with
          addr := block.addr &&& 0xFFFFFFF8
          fifo := s.ai.fifo ++ [Xfer.mk (block.addr &&& 0xFFFFFFF8) (block.len &&& 0x3FFF8)] } }).finish [] ∧
      (∀ x, x < out ∨ out + 4 * n.toNat ≤ x → t.mem.read x = s.mem.read x) ∧
      (s.params.backend = .reference → ∀ k < n.toNat, ∀ j < 4, out + 4 * k + j < s.memBytes →
        t.mem.read (out + 4 * k + j) =
          ((u.referenceSide k Volume.l ++ u.referenceSide k Volume.r : BitVec 32) >>> (8 * (3 - j))).setWidth 8) ∧
      (s.params.backend = .reference → (∀ c < s.mx.nch.toNat, (s.desc c).ptr = 0) →
        ∀ x, out ≤ x → x < out + 4 * n.toNat → x < s.memBytes → t.mem.read x = 0)

/-! ### Events (spec/45_event_scheduler.md) -/

/-- `EV_ADD` of a legal callback with room in the list appends one record due `delay` ticks from now, and a full list is EVENT_FULL; `EV_REMOVE` takes
out the first record of the callback and keeps the order of the others, and without such a record it is EVENT_NOT_FOUND. Nothing else changes
(R40, R290, R291).
The identity of a record is the model's (notes/assumptions/30.md). -/
def Obligations.EventListCommands : Prop :=
  ∀ s : State, s.mx.on = true →
    (∀ delay cb ctx : Word, s.mayRun (.evAdd delay cb ctx) → cb ≠ 0 → ¬ reservedHandle cb →
      (s.events.length < 32 → s.mx.ticks.toNat + delay.toNat < 2 ^ 64 →
        exec (.evAdd delay cb ctx) s = .next (({ s with
          events := s.events ++ [Event.mk s.nextEvent (s.mx.ticks + BitVec.setWidth 64 delay) cb ctx]
          nextEvent := s.nextEvent + 1 }).finish [])) ∧
      (s.events.length = 32 →
        exec (.evAdd delay cb ctx) s = .next ((s.begin (.evAdd delay cb ctx)).enterFaulted .eventFull cb))) ∧
    ∀ cb : Word, s.mayRun (.evRemove cb) →
      (∀ before e after, s.events = before ++ e :: after → e.cb = cb → (∀ x ∈ before, x.cb ≠ cb) →
        exec (.evRemove cb) s = .next (({ s with events := before ++ after }).finish [])) ∧
      ((∀ x ∈ s.events, x.cb ≠ cb) →
        exec (.evRemove cb) s = .next ((s.begin (.evRemove cb)).enterFaulted .eventNotFound cb))

/-- Firing: one of the due records with the least tick is called with its context. If the callback returns 0 the record is removed and the others
keep their order; if it returns `r > 0` the record is due again `r` ticks from now, at its place in the list; and if it never returns, the
block is stuck in the call, with all that was done before in place, and it stays there (R293, R294, R295, R360, R380).
The trace of calls is the model's, and that a stuck block has a pending record (notes/assumptions/31.md, 7.md). -/
def Obligations.FireOneEffect : Prop :=
  (∀ (s : State) (ret : Option Word), s.oracle.free = false → s.oracle.moves = [] → s.oracle.ties = [] →
    (s.oracle.runs = [] ∧ ret = some 0 ∨ s.oracle.runs = [⟨[], ret⟩]) → s.dueEvents ≠ [] → (s.events.map Event.id).Nodup →
    (∀ r, ret = some r → s.mx.ticks.toNat + r.toNat < 2 ^ 64) →
    ∃ e before after, s.events = before ++ e :: after ∧ e.tick ≤ s.mx.ticks ∧ (∀ x ∈ s.events, x.tick ≤ s.mx.ticks → e.tick ≤ x.tick) ∧
      let called := { s with calls := s.calls ++ [Call.mk e.cb [e.ctx.toNat]], oracle := { s.oracle with runs := [] } }
      fireOne s =
        match ret with
        | none => .error .stuck { called with ctx := .event }
        | some r => .ok () { called with
            events := before ++ (if r = 0 then [] else [{ e with tick := s.mx.ticks + BitVec.setWidth 64 r }]) ++ after }) ∧
  ∀ s : State, settle (.error .stuck s) = .next (s.waiting .callback) ∧ (s.quiet → resume .callback s = .ok (.wait .callback) s)

/-- A sub-run is at least one frame, at most what is left, and never runs past an event: when nothing is due, no event's tick lies before its
end (R273, R292, R298 (a)). -/
def Obligations.SubRunBounds : Prop :=
  ∀ (s : State) (left : Nat), 0 < left → s.dueEvents = [] →
    1 ≤ s.subRunLength left ∧ s.subRunLength left ≤ left ∧
    (∀ e ∈ s.events, s.mx.ticks.toNat + s.subRunLength left ≤ e.tick.toNat) ∧
    (s.subRunLength left = left ∨ ∃ e ∈ s.events, s.mx.ticks.toNat + s.subRunLength left = e.tick.toNat)

/-- `TICKS` moves in a poll and at the engine's init alone: every other command leaves it as it was (R32, R359). -/
def Obligations.OnlyPollMovesTicks : Prop :=
  ∀ (i : Instr) (s t : State), (∀ n, i ≠ .mxPoll n) → (∀ c r, i ≠ .mxInit c r) → exec i s = .next t → t.mx.ticks = s.mx.ticks

/-! ### VideoSync (spec/46_videosync.md) -/

/-- `VS_INIT` of a frame rate and a rate of at least two samples per frame: the exact quotient, and the counter equal to it; rate 0 is the engine's
actual rate. Nothing else changes (R310, R311). -/
def Obligations.VsInitEffect : Prop :=
  ∀ (s : State) (fps rate : Word),
    let r := if rate = 0 then s.mx.rate else rate
    s.mayRun (.vsInit fps rate) → fps ≠ 0 → (rate = 0 → s.mx.on = true) → 2 * fps.toNat ≤ r.toNat * 65536 →
    ∃ q : ℚ, q * (fps.toNat : ℚ) = (r.toNat : ℚ) * 65536 ∧
      exec (.vsInit fps rate) s = .next (({ s with vs := ⟨true, fps, r, q, q⟩ }).finish [])

/-- The three other VideoSync commands: the count of the frame and the suggested size are read without a change, rounded up to a whole and then to an
even number, and the same whenever they are asked for; the next frame subtracts the count and adds the samples per frame (R312, R313, R314).
What stands for a count that does not fit its result is free but for what the rules say of every count: it is even, at least 2, and within
the suggested size in every frame R315 allows (notes/assumptions/42.md). -/
def Obligations.VsFrameEffect : Prop :=
  ∃ count size : VideoSync → Word,
    (∀ s : State, s.vs.on = true →
      (s.mayRun .vsCurrentFrameSamples → exec .vsCurrentFrameSamples s = .next (s.finish [count s.vs])) ∧
      (s.mayRun .vsSuggestedBufferSize → exec .vsSuggestedBufferSize s = .next (s.finish [size s.vs])) ∧
      (s.mayRun .vsNextFrame →
        exec .vsNextFrame s = .next (({ s with vs := { s.vs with
          counter := s.vs.counter - ((⌈s.vs.counter⌉ + ⌈s.vs.counter⌉ % 2 : ℤ) : ℚ) + s.vs.spf } }).finish []))) ∧
    ∀ v : VideoSync,
      let even_ := fun q : ℚ => (⌈q⌉ + ⌈q⌉ % 2).toNat
      (even_ v.counter < 2 ^ 32 → count v = w32 (even_ v.counter)) ∧ (even_ v.spf < 2 ^ 32 → size v = w32 (even_ v.spf)) ∧
      (count v).toNat % 2 = 0 ∧ (0 < v.counter → 2 ≤ (count v).toNat) ∧ (0 < v.spf → 2 ≤ (size v).toNat) ∧
      (2 ≤ v.spf → v.spf - 2 < v.counter → v.counter ≤ v.spf → (count v).toNat ≤ (size v).toNat)

/-- The bounds of the frame counts: a count is even, at least the counter and less than two above it; the counter stays in
(`VS_SPF` − 2, `VS_SPF`]; N counts from the start add up to N times `VS_SPF` and what the counter lost, which is at least N times `VS_SPF` and
less than 2 more; and N counts from any frame on add up to within 2 of it (R315). -/
def Obligations.FrameCountBounds : Prop :=
  ∀ (v : VideoSync) (frames : Nat), v.counter = v.spf →
    let at_ := fun k => VideoSync.advanced^[k] v
    let total := fun k => ∑ j ∈ Finset.range frames, (evenFrames (at_ (k + j)).counter : ℚ)
    (∀ k, (at_ k).spf = v.spf ∧ (at_ (k + 1)).counter = (at_ k).counter - evenFrames (at_ k).counter + v.spf ∧
      v.spf - 2 < (at_ k).counter ∧ (at_ k).counter ≤ v.spf ∧ evenFrames (at_ k).counter % 2 = 0 ∧
      (at_ k).counter ≤ evenFrames (at_ k).counter ∧ (evenFrames (at_ k).counter : ℚ) < (at_ k).counter + 2) ∧
    total 0 = frames * v.spf + v.spf - (at_ frames).counter ∧ frames * v.spf ≤ total 0 ∧ total 0 < frames * v.spf + 2 ∧
    ∀ k, frames * v.spf - 2 < total k ∧ total k < frames * v.spf + 2

/-! ### Frames and invariants -/

/-- The commands of the channel, event, VideoSync and critical-section families, the engine's rate and master volume, the driver's pause and frequency
and the sample buffers' settings write no byte of memory, queue nothing, and touch neither the driver's regions, the ring nor the output (the
rules of R155, R157, R181 to R184, R213 to R229, R290, R291, R310 to R314, R341, R342).
That this is so in any environment, that is, that no other agent moves inside these commands, is the model's reading: it puts no boundary in
them, where R343 allows the interrupt between any two statements (notes/assumptions/21.md, 3.md). -/
def Obligations.SettingCommandsKeepMemory : Prop :=
  ∀ (i : Instr) (s t : State),
    (i.opcode = 0x07 ∨ i.opcode = 0x08 ∨ i.opcode = 0x10 ∨ i.opcode = 0x11 ∨ i.opcode = 0x12 ∨ i.opcode = 0x16 ∨ i.opcode = 0x22 ∨
      i.opcode = 0x23 ∨ 0x28 ≤ i.opcode.toNat) →
    exec i s = .next t →
    (∀ x, t.mem.read x = s.mem.read x) ∧ t.ai = s.ai ∧ t.drv.region = s.drv.region ∧ t.drv.st = s.drv.st ∧ t.ring = s.ring ∧
    t.output = s.output ∧ t.coproc = s.coproc ∧ t.owner = s.owner ∧ t.ctx = s.ctx

/-- What every step keeps: both memories in canonical form, at most two transfers queued (R25), at most two regions and at most two blocks in flight
(R27, R33), at most 32 events (R40), every volume and the master volume in [0, 0x7FFF] (R32, R35), and the bit-width shift of every sample
buffer 0 or 1 (R29). -/
abbrev Sys2Proof.Machine.State.legal (s : State) : Prop :=
  s.mem.wf ∧ s.coproc.mem.wf ∧ s.cache.dirty.Pairwise (fun x y => x.1 < y.1) ∧ s.ai.fifo.length ≤ 2 ∧
  s.drv.inflight.length ≤ 2 ∧ s.ring.inflight.length ≤ 2 ∧ s.events.length ≤ 32 ∧
  s.mx.master.toNat ≤ 0x7FFF ∧ (∀ c < 32, (s.chan c).vol.l.toNat ≤ 0x7FFF ∧ (s.chan c).vol.r.toNat ≤ 0x7FFF) ∧
  ∀ i < 32, (s.sb i).bps.toNat ≤ 1

/-- Every step keeps the legal form, from any state that has it and in any environment.
The canonical form of memory is the model's (notes/assumptions/2.md). -/
def Obligations.StepKeepsLegal : Prop := ∀ s t : State, s.legal → step s = .next t → t.legal

/-- The sample-buffer invariant of R31: the read cursor is within the window and the window within the buffer. -/
abbrev Sys2Proof.Machine.State.windowsLegal (s : State) : Prop :=
  ∀ i < 32, (s.sb i).ridx.toNat ≤ (s.sb i).widx.toNat ∧ (s.sb i).widx.toNat ≤ (s.sb i).size

/-- Every step keeps the sample-buffer invariant, from any state that has it and in any environment: decoders, event callbacks, interrupts and
devices included (R31). -/
def Obligations.StepKeepsWindows : Prop := ∀ s t : State, s.windowsLegal → step s = .next t → t.windowsLegal

/-- The model's reset state has the legal form and the sample-buffer invariant.
R43 gives the empty transfer queue and the empty event list alone. The regions and blocks in flight, the volumes, the master volume, the bit
widths, the window cursors and the bytes of both memories and the cache are UNSPEC at power-on; that they meet the invariants is the model's
choice of 0 and empty for them (notes/assumptions/1.md, 2.md). -/
def Obligations.ResetMeetsInvariants : Prop := State.reset.legal ∧ State.reset.windowsLegal
end

