-- ==== Sys2Proof/Laws/Checks.lean ====
section
/-!
SUPPORT. The checks commands begin with: what each does to the state a command starts in.
-/

namespace Sys2Proof.Machine

/-! ### The state a command starts in -/

@[simp] theorem begin_finish (s : State) (i : Instr) (r : List Word) : (s.begin i).finish r = s.finish r := rfl

@[simp] theorem begin_memBytes (s : State) (i : Instr) : (s.begin i).memBytes = s.memBytes := rfl

@[simp] theorem begin_sb (s : State) (i : Instr) (k : Nat) : (s.begin i).sb k = s.sb k := rfl

@[simp] theorem begin_chan (s : State) (i : Instr) (k : Nat) : (s.begin i).chan k = s.chan k := rfl

@[simp] theorem begin_desc (s : State) (i : Instr) (k : Nat) : (s.begin i).desc k = s.desc k := rfl

theorem begin_quiet {s : State} (h : s.quiet) (i : Instr) : (s.begin i).quiet := h

@[simp] theorem begin_issuerAllows (s : State) (i : Instr) (op ch : Byte) :
    (s.begin i).issuerAllows op ch = s.issuerAllows op ch := rfl

/-! ### The issuer check (R105) -/

theorem checkIssuer_begin {s : State} {i : Instr} (h : s.mayRun i) : checkIssuer (s.begin i) = .ok () (s.begin i) := by
  rw [checkIssuer_apply, if_pos]
  exact h.2

theorem checkIssuer_begin_refused {s : State} {i : Instr} (h : s.issuerAllows i.opcode i.chField = false) :
    checkIssuer (s.begin i) = .error .fatal ((s.begin i).enterFaulted .badState (i.opcode.setWidth 32)) := by
  rw [checkIssuer_apply, if_neg]
  · rfl
  · simp [h]

/-! ### The families' checks -/

theorem drvOn_begin {s : State} {i : Instr} (h : s.mayRun i) (hon : s.drv.on = true) :
    drvOn (s.begin i) = .ok () (s.begin i) := by
  rw [drvOn, act_bind_ok (checkIssuer_begin h), act_get_bind, ensureState_apply, if_pos]
  exact hon

theorem drvOn_begin_off {s : State} {i : Instr} (h : s.mayRun i) (hon : s.drv.on = false) :
    drvOn (s.begin i) = .error .fatal ((s.begin i).enterFaulted .badState (i.opcode.setWidth 32)) := by
  rw [drvOn, act_bind_ok (checkIssuer_begin h), act_get_bind, ensureState_apply, if_neg]
  · rfl
  · simp [hon]

theorem mxOn_begin {s : State} {i : Instr} (h : s.mayRun i) (hon : s.mx.on = true) :
    mxOn (s.begin i) = .ok () (s.begin i) := by
  rw [mxOn, act_bind_ok (checkIssuer_begin h), act_get_bind, ensureState_apply, if_pos]
  exact hon

theorem mxOn_begin_off {s : State} {i : Instr} (h : s.mayRun i) (hon : s.mx.on = false) :
    mxOn (s.begin i) = .error .fatal ((s.begin i).enterFaulted .badState (i.opcode.setWidth 32)) := by
  rw [mxOn, act_bind_ok (checkIssuer_begin h), act_get_bind, ensureState_apply, if_neg]
  · rfl
  · simp [hon]

theorem chanChecks_begin {s : State} {i : Instr} (h : s.mayRun i) (hon : s.mx.on = true)
    (hc : i.chField.toNat < s.mx.nch.toNat) : chanChecks i.chField (s.begin i) = .ok () (s.begin i) := by
  rw [chanChecks, act_bind_ok (mxOn_begin h hon), act_get_bind, ensure_apply, if_pos]
  exact hc

theorem chanChecks_begin_range {s : State} {i : Instr} (h : s.mayRun i) (hon : s.mx.on = true)
    (hc : s.mx.nch.toNat ≤ i.chField.toNat) :
    chanChecks i.chField (s.begin i) = .error .fatal ((s.begin i).enterFaulted .badArg (i.chField.setWidth 32)) := by
  rw [chanChecks, act_bind_ok (mxOn_begin h hon), act_get_bind, ensure_apply, if_neg]
  simp only [State.begin_mx]
  omega

theorem chanChecks_begin_off {s : State} {i : Instr} (h : s.mayRun i) (hon : s.mx.on = false) :
    chanChecks i.chField (s.begin i) = .error .fatal ((s.begin i).enterFaulted .badState (i.opcode.setWidth 32)) := by
  rw [chanChecks, act_bind_error (mxOn_begin_off h hon)]

theorem sbIndex_begin {s : State} {i : Instr} (h : s.mayRun i) (hc : i.chField.toNat < 32) :
    sbIndex i.chField (s.begin i) = .ok () (s.begin i) := by
  rw [sbIndex, act_bind_ok (checkIssuer_begin h), ensure_apply, if_pos hc]

theorem sbIndex_begin_range {s : State} {i : Instr} (h : s.mayRun i) (hc : 32 ≤ i.chField.toNat) :
    sbIndex i.chField (s.begin i) = .error .fatal ((s.begin i).enterFaulted .badArg (i.chField.setWidth 32)) := by
  rw [sbIndex, act_bind_ok (checkIssuer_begin h), ensure_apply, if_neg]
  simp only [tableSize]
  omega

theorem sbOn_begin {s : State} {i : Instr} (h : s.mayRun i) (hc : i.chField.toNat < 32)
    (hon : (s.sb i.chField.toNat).on = true) : sbOn i.chField (s.begin i) = .ok () (s.begin i) := by
  rw [sbOn, act_bind_ok (sbIndex_begin h hc), act_get_bind, ensureState_apply, if_pos]
  exact hon

theorem sbOn_begin_off {s : State} {i : Instr} (h : s.mayRun i) (hc : i.chField.toNat < 32)
    (hon : (s.sb i.chField.toNat).on = false) :
    sbOn i.chField (s.begin i) = .error .fatal ((s.begin i).enterFaulted .badState (i.opcode.setWidth 32)) := by
  rw [sbOn, act_bind_ok (sbIndex_begin h hc), act_get_bind, ensureState_apply, if_neg]
  · rfl
  · simp [hon]

theorem vsOn_begin {s : State} {i : Instr} (h : s.mayRun i) (hon : s.vs.on = true) :
    vsOn (s.begin i) = .ok () (s.begin i) := by
  rw [vsOn, act_bind_ok (checkIssuer_begin h), act_get_bind, ensureState_apply, if_pos]
  exact hon

theorem vsOn_begin_off {s : State} {i : Instr} (h : s.mayRun i) (hon : s.vs.on = false) :
    vsOn (s.begin i) = .error .fatal ((s.begin i).enterFaulted .badState (i.opcode.setWidth 32)) := by
  rw [vsOn, act_bind_ok (checkIssuer_begin h), act_get_bind, ensureState_apply, if_neg]
  · rfl
  · simp [hon]

/-! ### Tables -/

theorem Table.at_put_same {α : Type} [Inhabited α] (t : Table α) {k : Nat} (x : α) (h : k < tableSize) :
    Table.at (Table.put t k x) k = x := by
  simp [Table.at, Table.put, h]

theorem Table.at_put_other {α : Type} [Inhabited α] (t : Table α) {k j : Nat} (x : α) (h : j ≠ k) :
    Table.at (Table.put t k x) j = Table.at t j := by
  unfold Table.at Table.put
  split
  · rw [Vector.getElem_setIfInBounds_ne _ (fun e => h e.symm)]
  · rfl

theorem Table.put_put {α : Type} (t : Table α) (k : Nat) (x y : α) : Table.put (Table.put t k x) k y = Table.put t k y := by
  apply Vector.ext
  intro j hj
  simp only [Table.put, Vector.getElem_setIfInBounds]
  split <;> rfl

theorem Table.at_mapBelow {α : Type} [Inhabited α] (t : Table α) (n : Nat) (f : Nat → α → α) {k : Nat} (h : k < tableSize) :
    Table.at (Table.mapBelow t n f) k = if k < n then f k (Table.at t k) else Table.at t k := by
  simp only [Table.at, h, dite_true, Table.mapBelow, Vector.getElem_ofFn]
  rfl

theorem modSb_sb_same (s : State) {i : Nat} (f : SampleBuf → SampleBuf) (h : i < tableSize) :
    (s.modSb i f).sb i = f (s.sb i) := Table.at_put_same _ _ h

theorem modSb_sb_other (s : State) {i j : Nat} (f : SampleBuf → SampleBuf) (h : j ≠ i) : (s.modSb i f).sb j = s.sb j :=
  Table.at_put_other _ _ h

theorem modChan_chan_same (s : State) {i : Nat} (f : Channel → Channel) (h : i < tableSize) :
    (s.modChan i f).chan i = f (s.chan i) := Table.at_put_same _ _ h

theorem modChan_chan_other (s : State) {i j : Nat} (f : Channel → Channel) (h : j ≠ i) :
    (s.modChan i f).chan j = s.chan j := Table.at_put_other _ _ h

/-- Two updates of one buffer are one. -/
theorem modSb_modSb (s : State) {i : Nat} (f g : SampleBuf → SampleBuf) (h : i < tableSize) :
    (s.modSb i f).modSb i g = s.modSb i fun b => g (f b) := by
  have e : (s.modSb i f).modSb i g = { s.modSb i f with sbs := Table.put (s.modSb i f).sbs i (g ((s.modSb i f).sb i)) } := rfl
  rw [e, modSb_sb_same s f h]
  show { s with sbs := Table.put (Table.put s.sbs i (f (s.sb i))) i (g (f (s.sb i))) } = _
  rw [Table.put_put]
  rfl

/-- Two updates of one channel are one. -/
theorem modChan_modChan (s : State) {i : Nat} (f g : Channel → Channel) (h : i < tableSize) :
    (s.modChan i f).modChan i g = s.modChan i fun x => g (f x) := by
  have e : (s.modChan i f).modChan i g =
      { s.modChan i f with chans := Table.put (s.modChan i f).chans i (g ((s.modChan i f).chan i)) } := rfl
  rw [e, modChan_chan_same s f h]
  show { s with chans := Table.put (Table.put s.chans i (f (s.chan i))) i (g (f (s.chan i))) } = _
  rw [Table.put_put]
  rfl

end Sys2Proof.Machine
end

