-- ==== Sys2Proof/Laws/Keeps.lean ====
section
/-!
SUPPORT. Invariants of computations: `Keeps I x` says that `x`, started in a state that meets `I`, ends in one, whether it answers or
stops.  One lemma per combinator and per draw, so that a proof about a command follows its pseudocode.
-/

namespace Sys2Proof.Machine

/-- A result whose state meets `I`. -/
def Ends {α : Type} (I : State → Prop) : EStateM.Result Stop State α → Prop
  | .ok _ t => I t
  | .error _ t => I t

/-- Started in a state that meets `I`, the computation ends in one. -/
def Keeps {α : Type} (I : State → Prop) (x : Act α) : Prop := ∀ s, I s → Ends I (x s)

variable {α β : Type} {I : State → Prop}

theorem keeps_pure (a : α) : Keeps I (pure a : Act α) := fun _ h => h

theorem keeps_bind {x : Act α} {f : α → Act β} (hx : Keeps I x) (hf : ∀ a, Keeps I (f a)) : Keeps I (x >>= f) := by
  intro s h
  rw [act_bind]
  have := hx s h
  cases e : x s with
  | ok a t => rw [e] at this; exact hf a t this
  | error r t => rw [e] at this; exact this

/-- A computation that reads the state may use what `I` says of the state it read. -/
theorem keeps_get_bind {f : State → Act β} (hf : ∀ s, I s → Ends I (f s s)) : Keeps I ((get : Act State) >>= f) :=
  fun s h => hf s h

theorem keeps_get : Keeps I (get : Act State) := fun _ h => h

theorem keeps_modify {g : State → State} (h : ∀ s, I s → I (g s)) : Keeps I (modify g : Act PUnit) := fun s hs => h s hs

theorem keeps_ite {p : Prop} [Decidable p] {x y : Act α} (hx : Keeps I x) (hy : Keeps I y) :
    Keeps I (if p then x else y) := by
  split
  · exact hx
  · exact hy

theorem keeps_raise (h : ∀ s c v, I s → I (s.enterFaulted c v)) (c : FaultCode) (v : Word) : Keeps I (raise c v : Act α) :=
  fun s hs => h s c v hs

theorem keeps_ensure (h : ∀ s c v, I s → I (s.enterFaulted c v)) (p : Prop) [Decidable p] (c : FaultCode) (v : Word) :
    Keeps I (ensure p c v) := keeps_ite (keeps_pure ()) (keeps_raise h c v)

theorem keeps_ensureState (h : ∀ s c v, I s → I (s.enterFaulted c v)) (p : Prop) [Decidable p] : Keeps I (ensureState p) :=
  keeps_ite (keeps_pure ()) (fun s hs => h s _ _ hs)

theorem keeps_checkIssuer (h : ∀ s c v, I s → I (s.enterFaulted c v)) : Keeps I checkIssuer :=
  fun s hs => keeps_ensureState h _ s hs

theorem keeps_stick : Keeps I (stick : Act α) := fun _ hs => hs

theorem keeps_halt (f : Fault) : Keeps I (halt f : Act α) := fun _ hs => hs

theorem keeps_forRange {f : Nat → Act Unit} (h : ∀ k, Keeps I (f k)) (n start : Nat) : Keeps I (forRange start f n) := by
  induction n generalizing start with
  | zero => exact keeps_pure ()
  | succ n ih => exact keeps_bind (h start) fun _ => ih (start + 1)

theorem keeps_forList {f : α → Act Unit} {xs : List α} (h : ∀ x, Keeps I (f x)) : Keeps I (forList f xs) := by
  induction xs with
  | nil => exact keeps_pure ()
  | cons x xs ih => exact keeps_bind (h x) fun _ => ih

/-- Draws change the environment's choices alone. -/
theorem keeps_draws (h : ∀ s o, I s → I { s with oracle := o }) :
    (∀ idle, Keeps I (drawMovesOr idle)) ∧ Keeps I drawMoves ∧ Keeps I drawRun ∧ Keeps I drawAlloc ∧ Keeps I drawTie := by
  refine ⟨fun idle => ?_, ?_, ?_, ?_, ?_⟩ <;>
  · intro s hs
    simp only [drawMoves, drawMovesOr, drawRun, drawAlloc, drawTie]
    split
    · exact h s _ hs
    · split
      · exact h s _ hs
      · exact hs

theorem keeps_resultWord (h : ∀ s o, I s → I { s with oracle := o }) (v : Nat) : Keeps I (resultWord v) := by
  intro s hs
  simp only [resultWord]
  split
  · exact hs
  · exact h s _ hs

theorem keeps_laterTick (h : ∀ s o, I s → I { s with oracle := o }) (t : Dword) (n : Nat) : Keeps I (laterTick t n) := by
  intro s hs
  simp only [laterTick]
  split
  · exact hs
  · exact h s _ hs

/-- What a step that runs a computation ends in meets `I` where ending a command does not disturb it. -/
theorem keeps_settle {x : Act Reply} (hx : Keeps I x) (hf : ∀ s r, I s → I (s.finish r)) (hw : ∀ s p, I s → I (s.waiting p))
    {s t : State} (hs : I s) (h : settle (x s) = .next t) : I t := by
  have := hx s hs
  cases e : x s with
  | ok r u =>
    rw [e] at this h
    cases r with
    | done r => cases h; exact hf u r this
    | wait p => cases h; exact hw u p this
  | error r u =>
    rw [e] at this h
    cases r with
    | fatal => cases h; exact this
    | stuck => cases h; exact hw u .callback this
    | fault f => cases h

end Sys2Proof.Machine
end

