-- ==== Sys2Proof/Laws/Ops.lean ====
section
/-!
SUPPORT. What each shared operation of Machine/Ops.lean, the device and the sample buffers does: one lemma per path, which proofs cite
instead of unfolding it.
-/

namespace Sys2Proof.Machine

/-! ### Accesses to memory -/

theorem blockWrite_ok {a : Nat} {bs : List Byte} {s : State} (h : a + bs.length ≤ s.memBytes) :
    blockWrite a bs s = .ok () (s.cpuPut a bs) := by simp [blockWrite, h]

theorem blockWrite_outside {a : Nat} {bs : List Byte} {s : State} (h : s.memBytes < a + bs.length) :
    blockWrite a bs s = .error .fatal
      ((s.cpuPut a (bs.take (s.memBytes - a))).enterFaulted .badAddr (s.addrInfo (max a s.memBytes))) := by
  simp [blockWrite, Nat.not_le.2 h, raise]

theorem blockZero_ok {a n : Nat} {s : State} (h : a + n ≤ s.memBytes) : blockZero a n s = .ok () (s.cpuClear a n) := by
  simp [blockZero, h]

theorem blockZero_outside {a n : Nat} {s : State} (h : s.memBytes < a + n) :
    blockZero a n s = .error .fatal ((s.cpuClear a (s.memBytes - a)).enterFaulted .badAddr (s.addrInfo (max a s.memBytes))) := by
  simp [blockZero, Nat.not_le.2 h, raise]

theorem copyByte_ok {src dst : Nat} {s : State} (hs : src < s.memBytes) (hd : dst < s.memBytes) :
    copyByte src dst s = .ok () (s.cpuPut dst [s.cpuByte src]) := by
  rw [copyByte, act_get_bind, ensure_bind, if_pos hs, blockWrite_ok (by simpa using hd)]

/-- All the zeroing loop does in a quiet environment: the range reads 0, every other byte as before, and no field but memory, the cache and
the race record changes. -/
theorem zeroBytes_quiet {dst n : Nat} {s : State} (h : s.quiet) (hd : dst + n ≤ s.memBytes) :
    ∃ t, zeroBytes dst n s = .ok () t ∧ t = { s with mem := t.mem, cache := t.cache, race := t.race } ∧
      ∀ x, t.mem.read x = if dst ≤ x ∧ x < dst + n then 0 else s.mem.read x := by
  induction n generalizing dst s with
  | zero => exact ⟨s, rfl, rfl, fun x => by rw [if_neg (by omega)]⟩
  | succ n ih =>
    have hq : (s.cpuClear dst 1).quiet := h
    obtain ⟨t, h1, h2, h3⟩ := ih (dst := dst + 1) hq (by have : (s.cpuClear dst 1).memBytes = s.memBytes := rfl; omega)
    refine ⟨t, ?_, ?_, fun x => ?_⟩
    · rw [zeroBytes, act_bind_ok (blockZero_ok (by omega)), act_bind_ok (boundary_quiet hq), h1]
    · rw [h2]; rfl
    · rw [h3, cpuClear_read]
      by_cases hx : dst ≤ x ∧ x < dst + (n + 1)
      · rw [if_pos hx]; split
        · rfl
        · rw [if_pos (by omega)]
      · rw [if_neg hx, if_neg (by omega), if_neg (by omega)]

/-- All the copying loop does in a quiet environment, upwards or between ranges that do not overlap: the target holds what the CPU saw of the
source, every other byte is as before, and no field but memory, the cache and the race record changes. -/
theorem copyBytes_quiet {src dst n : Nat} {s : State} (h : s.quiet) (hs : src + n ≤ s.memBytes) (hd : dst + n ≤ s.memBytes)
    (hov : dst ≤ src ∨ src + n ≤ dst) :
    ∃ t, copyBytes src dst n s = .ok () t ∧ t = { s with mem := t.mem, cache := t.cache, race := t.race } ∧
      ∀ x, t.mem.read x = if dst ≤ x ∧ x < dst + n then s.cpuByte (src + (x - dst)) else s.mem.read x := by
  induction n generalizing src dst s with
  | zero => exact ⟨s, rfl, rfl, fun x => by rw [if_neg (by omega)]⟩
  | succ n ih =>
    have hq : (s.cpuPut dst [s.cpuByte src]).quiet := h
    have hm : (s.cpuPut dst [s.cpuByte src]).memBytes = s.memBytes := rfl
    obtain ⟨t, h1, h2, h3⟩ := ih (src := src + 1) (dst := dst + 1) hq (by omega) (by omega) (by omega)
    refine ⟨t, ?_, ?_, fun x => ?_⟩
    · rw [copyBytes, act_bind_ok (copyByte_ok (by omega) (by omega)), act_bind_ok (boundary_quiet hq), h1]
    · rw [h2]; rfl
    · rw [h3, cpuPut_cpuByte, cpuPut_read]
      simp only [List.length_singleton]
      by_cases hx : dst + 1 ≤ x ∧ x < dst + 1 + n
      · rw [if_pos hx, if_neg (by omega), if_pos (by omega)]
        congr 1
        omega
      · rw [if_neg hx]
        by_cases hd' : x = dst
        · subst hd'
          rw [if_pos (by omega), if_pos (by omega)]
          simp
        · rw [if_neg (by omega), if_neg (by omega)]

/-! ### The bytes of a push -/

theorem addrInfo_fits {a : Nat} (h : a < 2 ^ 32) (s : State) : s.addrInfo a = w32 a := by
  unfold State.addrInfo
  rw [if_pos h]

/-- All a pass of `AI_PUSH` does to memory in a quiet environment, from silence or from a source whose bytes it does not overwrite before
it reads them: the region takes them, every other byte is as before, and no field but memory, the cache and the race record changes. -/
theorem pushBytes_quiet {k src acc dst j n : Nat} {s : State} (h : s.quiet) (hk : s.drv.pushable k)
    (hd : dst + j + n ≤ s.memBytes) (hs : src ≠ 0 → src + 4 * acc + j + n ≤ s.memBytes)
    (hov : src ≠ 0 → dst ≤ src + 4 * acc ∨ src + 4 * acc + n ≤ dst) :
    ∃ t, pushBytes k src acc dst j n s = .ok true t ∧ t = { s with mem := t.mem, cache := t.cache, race := t.race } ∧
      ∀ x, t.mem.read x =
        if dst + j ≤ x ∧ x < dst + j + n then if src = 0 then 0 else s.cpuByte (src + 4 * acc + (x - dst)) else s.mem.read x := by
  induction n generalizing j s with
  | zero =>
    refine ⟨s, ?_, rfl, fun x => by rw [if_neg (by omega)]⟩
    rw [pushBytes, act_bind_ok (boundary_quiet h), act_get_bind, act_pure, decide_eq_true hk]
  | succ n ih =>
    obtain ⟨u, hu, hq, hu', hm, hr, hc⟩ : ∃ u, pushByte src acc dst j s = .ok () u ∧ u.quiet ∧
        u = { s with mem := u.mem, cache := u.cache, race := u.race } ∧ u.memBytes = s.memBytes ∧
        (∀ x, u.mem.read x =
          if x = dst + j then if src = 0 then 0 else s.cpuByte (src + 4 * acc + j) else s.mem.read x) ∧
        ∀ x, src ≠ 0 → x ≠ dst + j → u.cpuByte x = s.cpuByte x := by
      by_cases h0 : src = 0
      · refine ⟨s.cpuClear (dst + j) 1, ?_, h, rfl, rfl, fun x => ?_, fun x hx => absurd h0 hx⟩
        · rw [pushByte, if_pos h0, blockZero_ok (by omega)]
        · rw [cpuClear_read, if_pos h0]
          exact if_congr (by omega) rfl rfl
      · have := hs h0
        refine ⟨s.cpuPut (dst + j) [s.cpuByte (src + 4 * acc + j)], ?_, h, rfl, rfl, fun x => ?_, fun x _ hx => ?_⟩
        · rw [pushByte, if_neg h0, copyByte_ok (by omega) (by omega)]
        · rw [cpuPut_read, if_neg h0]
          simp only [List.length_singleton]
          by_cases hx : x = dst + j
          · subst hx
            rw [if_pos (by omega), if_pos rfl]
            simp
          · rw [if_neg (by omega), if_neg hx]
        · rw [cpuPut_cpuByte]
          simp only [List.length_singleton]
          rw [if_neg (by omega)]
    have hk' : u.drv.pushable k := by rw [hu']; exact hk
    obtain ⟨t, h1, h2, h3⟩ := ih (j := j + 1) hq hk' (by rw [hm]; omega) (fun h0 => by rw [hm]; have := hs h0; omega)
      (fun h0 => by have := hov h0; omega)
    refine ⟨t, ?_, ?_, fun x => ?_⟩
    · rw [pushBytes, act_bind_ok (boundary_quiet h), act_get_bind, if_pos hk, act_bind_ok hu, h1]
    · rw [h2, hu']
    · rw [h3, hr]
      by_cases hx : dst + (j + 1) ≤ x ∧ x < dst + (j + 1) + n
      · rw [if_pos hx, if_pos (show dst + j ≤ x ∧ x < dst + j + (n + 1) by omega)]
        by_cases h0 : src = 0
        · simp only [if_pos h0]
        · have := hov h0
          simp only [if_neg h0]
          exact hc _ h0 (by omega)
      · rw [if_neg hx]
        by_cases hx' : x = dst + j
        · subst hx'
          rw [if_pos rfl, if_pos (show dst + j ≤ dst + j ∧ dst + j < dst + j + (n + 1) by omega), show dst + j - dst = j by omega]
        · rw [if_neg hx', if_neg (by omega)]

/-! ### Whose turn it is -/

/-- Choosing an agent consumes choices of the environment and does nothing else. -/
theorem nextAgent_state (s : State) : ∃ o, s.nextAgent.2 = { s with oracle := o } := by
  have hw : ∀ u : State, ∃ o, u.drawWait.2 = { u with oracle := o } := fun u => by
    unfold State.drawWait
    split
    · exact ⟨_, rfl⟩
    · exact ⟨_, rfl⟩
  have hd : ∀ (u : State) (a : Agent), ∃ o, u.passDuties a = { u with oracle := o } := fun u a => by
    obtain ⟨o, ho⟩ := hw u
    unfold State.passDuties
    split
    · simp only [ho]
      exact ⟨_, rfl⟩
    · exact ⟨_, rfl⟩
  have hk : ∀ u : State, ∃ o, u.passClients = { u with oracle := o } := fun u => by
    obtain ⟨o, ho⟩ := hw u
    unfold State.passClients
    split
    · split
      · exact ⟨u.oracle, rfl⟩
      · simp only [ho]
        exact ⟨_, rfl⟩
    · exact ⟨u.oracle, rfl⟩
  have hp : ∀ (u : State) (a : Agent), ∃ o, u.passTurn a = { u with oracle := o } := fun u a => by
    obtain ⟨o, ho⟩ := hd u a
    obtain ⟨o', ho'⟩ := hk (u.passDuties a)
    exact ⟨o', by rw [State.passTurn, ho', ho]⟩
  have hc : ∃ o, s.chosen.2 = { s with oracle := o } := by
    unfold State.chosen
    split
    · exact ⟨_, rfl⟩
    · split
      · exact ⟨_, rfl⟩
      · exact ⟨s.oracle, rfl⟩
  unfold State.nextAgent
  cases s.overdue with
  | some d => exact hp s _
  | none =>
    obtain ⟨o, ho⟩ := hc
    obtain ⟨o', ho'⟩ := hp s.chosen.2 s.chosen.1
    refine ⟨o', ?_⟩
    show s.chosen.2.passTurn s.chosen.1 = _
    generalize s.chosen.2 = u, s.chosen.1 = a at ho ho' ⊢
    subst ho
    exact ho'

/-! ### Results, ticks and fractions -/

theorem resultWord_fits {v : Nat} (h : v < 2 ^ 32) (s : State) : resultWord v s = .ok (w32 v) s := by
  unfold resultWord
  rw [if_pos h]

theorem laterTick_fits {t : Dword} {n : Nat} (h : t.toNat + n < 2 ^ 64) (s : State) :
    laterTick t n s = .ok (BitVec.ofNat 64 (t.toNat + n)) s := by
  unfold laterTick
  rw [if_pos h]

theorem volQ15_ok {f : Word} (h : f.toNat ≤ 0x10000) (s : State) : volQ15 f s = .ok (q15Of f) s := by
  rw [volQ15, ensure_bind, if_pos (show f ≤ q16One from h), act_pure]

theorem volQ15_over {f : Word} (h : 0x10000 < f.toNat) (s : State) :
    volQ15 f s = .error .fatal (s.enterFaulted .badArg f) := by
  rw [volQ15, ensure_bind, if_neg]
  show ¬ f.toNat ≤ 0x10000
  omega

/-! ### The allocator -/

theorem alloc_ok {s : State} {a : Word} {more : List (Option Word)} {n : Nat} (h : s.oracle.allocs = some a :: more)
    (ha : s.mayAlloc a n) :
    alloc n s = .ok (some a) { s with oracle := { s.oracle with allocs := more }, allocs := (a.toNat, n) :: s.allocs } := by
  have hd : drawAlloc s = .ok (some a) { s with oracle := { s.oracle with allocs := more } } := by
    unfold drawAlloc
    rw [h]
  rw [alloc, act_bind_ok hd]
  exact if_pos ha

/-- Whatever the environment proposes, an address that `ALLOC` answers is one R89 allows. -/
theorem alloc_answers {s t : State} {n : Nat} {a : Word} (h : alloc n s = .ok (some a) t) :
    a ≠ 0 ∧ a.toNat % 8 = 0 ∧ a.toNat + n ≤ t.memBytes ∧ t.allocs.head? = some (a.toNat, n) := by
  rw [alloc, act_bind_ok_iff] at h
  obtain ⟨p, u, -, h⟩ := h
  cases p with
  | none => simp at h
  | some b =>
    simp only at h
    split at h
    · rename_i hm
      simp only [EStateM.Result.ok.injEq, Option.some.injEq] at h
      obtain ⟨rfl, rfl⟩ := h
      exact ⟨hm.1, hm.2.1, hm.2.2.1, rfl⟩
    · simp at h

theorem freeRegion_apply (a : Word) (s : State) :
    freeRegion a s = .ok () { s with allocs := s.allocs.eraseP fun r => r.1 == a.toNat } := rfl

/-! ### The device -/

theorem aiWrite_len_ok {v : Word} {s : State} (h : s.ai.fifo.length < 2) :
    aiWrite .len v s = .ok () { s with ai := { s.ai with fifo := s.ai.fifo ++ [⟨s.ai.addr, v &&& 0x3FFF8⟩] } } := by
  rw [aiWrite, act_get_bind, ensure_bind, if_pos h]
  rfl

theorem aiWrite_len_full {v : Word} {s : State} (h : 2 ≤ s.ai.fifo.length) :
    aiWrite .len v s = .error .fatal (s.enterFaulted .hwFifoOverrun v) := by
  rw [aiWrite, act_get_bind, ensure_bind, if_neg (by omega)]

theorem enqueue_ok {a v : Word} {s : State} (h : s.ai.fifo.length < 2) :
    enqueue a v s = .ok () { s with
      ai := { s.ai with addr := a &&& 0xFFFFFFF8, fifo := s.ai.fifo ++ [⟨a &&& 0xFFFFFFF8, v &&& 0x3FFF8⟩] } } := by
  have ha : aiWrite .dramAddr a s = .ok () (s.modAi fun d => { d with addr := a &&& 0xFFFFFFF8 }) := rfl
  rw [enqueue, act_bind_ok ha]
  exact aiWrite_len_ok h

/-- All another client can do: nothing, or take the coprocessor that is free. -/
theorem clientStart_cases (s : State) :
    clientStart s = s ∨ (s.coproc.jobBusy = false ∧ ∃ o, clientStart s = { s.clientHolds with oracle := o }) := by
  unfold clientStart
  split
  · exact .inl rfl
  · rename_i hb
    have hb : s.coproc.jobBusy = false := by simpa using hb
    split
    · split
      · exact .inl rfl
      · exact .inr ⟨hb, _, rfl⟩
    · exact .inr ⟨hb, s.oracle, rfl⟩

theorem startDevice_apply (n : Nat) (s : State) :
    startDevice n s = .ok () { s with
      ai := { s.ai with dacrate := (w32 n).extractLsb' 0 14, bitrate := 15, dmaEn := true } } := rfl

theorem hwCount_eq {d : AiDevice} (h : d.fifo.length ≤ 2) : d.hwCount = d.fifo.length := by
  unfold AiDevice.hwCount AiDevice.full AiDevice.busy
  have : d.fifo.length = 0 ∨ d.fifo.length = 1 ∨ d.fifo.length = 2 := by omega
  rcases this with h | h | h <;> simp [h]

/-! ### Critical sections -/

theorem critical_modify {g : State → State} {s : State} (hd : s.irqDepth ≠ 0xFFFFFFFF)
    (hg : (g { s with irqDepth := s.irqDepth + 1 }).irqDepth = s.irqDepth + 1) :
    critical (modify g) s = .ok () { g { s with irqDepth := s.irqDepth + 1 } with irqDepth := s.irqDepth } :=
  critical_ok hd rfl hg

theorem critical_deepest {body : Act Unit} {s : State} (hd : s.irqDepth = 0xFFFFFFFF) :
    critical body s = .error .fatal (s.enterFaulted .irqUnbalanced 0) := by
  rw [critical, act_bind_error]
  rw [disableIrq_apply, if_neg (by simpa using hd)]

/-! ### Sample buffers -/

theorem sbInitProc_apply (i : Nat) (base bytes : Word) (s : State) :
    sbInitProc i base bytes s = .ok () ((s.invalidate base.toNat bytes.toNat).modSb i fun _ => SampleBuf.bound base bytes) := rfl

theorem sbFlushProc_apply (i : Nat) (s : State) : sbFlushProc i s = .ok () (s.modSb i fun b => b.emptyAt 0) := rfl

theorem sbDiscardProc_before {i p : Nat} {s : State} (h : p ≤ (s.sb i).wpos.toNat) : sbDiscardProc i p s = .ok () s := by
  rw [sbDiscardProc, act_get_bind, if_pos h, act_pure]

theorem sbDiscardProc_all {i p : Nat} {s : State} (h : (s.sb i).wpos.toNat < p)
    (hk : (s.sb i).widx.toNat ≤ p - (s.sb i).wpos.toNat) :
    sbDiscardProc i p s = .ok () (s.modSb i fun b => b.emptyAt p) := by
  rw [sbDiscardProc, act_get_bind, if_neg (by omega), if_pos hk, act_modify]

theorem sbDiscardProc_part {i p : Nat} {s t : State} (h : (s.sb i).wpos.toNat < p)
    (hk : p - (s.sb i).wpos.toNat < (s.sb i).widx.toNat)
    (hc : copyBytes ((s.sb i).idxPtr (p - (s.sb i).wpos.toNat)) (s.sb i).base.toNat
      (((s.sb i).widx.toNat - (p - (s.sb i).wpos.toNat)) * 2 ^ (s.sb i).bps.toNat) s = .ok () t) :
    sbDiscardProc i p s = .ok () (t.modSb i fun b => b.dropped p (p - (s.sb i).wpos.toNat)) := by
  rw [sbDiscardProc, act_get_bind, if_neg (by omega), if_neg (by omega), act_bind_ok hc, act_modify]

theorem sbMakeRoom_fits {i n : Nat} {s : State} (h : (s.sb i).widx.toNat + n ≤ (s.sb i).size) : sbMakeRoom i n s = .ok () s := by
  rw [sbMakeRoom, act_get_bind, if_pos h, act_pure]

theorem sbAppendProc_fits {i n : Nat} {s : State} (h : (s.sb i).widx.toNat + n ≤ (s.sb i).size)
    (hp : (s.sb i).idxPtr (s.sb i).widx.toNat < 2 ^ 32) :
    sbAppendProc i n s = .ok (w32 ((s.sb i).idxPtr (s.sb i).widx.toNat)) (s.modSb i fun b => b.grown n) := by
  rw [sbAppendProc, act_bind_ok (sbMakeRoom_fits h), act_get_bind, act_modify_bind, resultWord_fits hp]

end Sys2Proof.Machine
end

