-- ==== Sys2Proof/Laws/PerInstr.lean ====
section
/-!
SUPPORT. The per-instruction family `Header`: for every instruction, word 0 holds its three fields, R127 knows its opcode and gives it as
many arguments as it has, with no reserved field set (spec/30_encoding.md R100 to R103, R127).
-/

namespace Sys2Proof.Laws

open Sys2Proof

/-- Word 0 as a number. -/
theorem headerWord_toNat (op ch : Byte) (imm : Half) :
    (headerWord op ch imm).toNat = (op.toNat * 256 + ch.toNat) * 65536 + imm.toNat := by
  unfold headerWord
  rw [BitVec.toNat_append, BitVec.toNat_append, ← Nat.shiftLeft_add_eq_or_of_lt ch.isLt, ← Nat.shiftLeft_add_eq_or_of_lt imm.isLt,
    Nat.shiftLeft_eq, Nat.shiftLeft_eq]

theorem opOf_headerWord (op ch : Byte) (imm : Half) : opOf (headerWord op ch imm) = op := by
  have h1 := op.isLt; have h2 := ch.isLt; have h3 := imm.isLt
  apply BitVec.eq_of_toNat_eq
  rw [opOf, BitVec.extractLsb'_toNat, headerWord_toNat, Nat.shiftRight_eq_div_pow]
  omega

theorem chOf_headerWord (op ch : Byte) (imm : Half) : chOf (headerWord op ch imm) = ch := by
  have h1 := op.isLt; have h2 := ch.isLt; have h3 := imm.isLt
  apply BitVec.eq_of_toNat_eq
  rw [chOf, BitVec.extractLsb'_toNat, headerWord_toNat, Nat.shiftRight_eq_div_pow]
  omega

theorem immOf_headerWord (op ch : Byte) (imm : Half) : immOf (headerWord op ch imm) = imm := by
  have h3 := imm.isLt
  apply BitVec.eq_of_toNat_eq
  rw [immOf, BitVec.extractLsb'_toNat, headerWord_toNat, Nat.shiftRight_eq_div_pow]
  omega

/-- What R127 gives an opcode fits this instruction's fields. -/
def formatFits (i : Instr) (f : OpFormat) : Prop :=
  f.nargs = i.argWords.length ∧ (f.usesCh = false → i.chField = 0) ∧ i.immField &&& ~~~f.immBits = 0

/-- The header fields of an instruction are those its encoding holds and those the two opcode maps give it. -/
def Header.Statement (i : Instr) : Prop :=
  opOf i.word0 = i.opcode ∧ chOf i.word0 = i.chField ∧ immOf i.word0 = i.immField ∧ ∃ f, opFormat i.opcode = some f ∧ formatFits i f

/-- The three fields are read back from word 0, whatever they are. -/
theorem header_of_format {i : Instr} {f : OpFormat} (h : opFormat i.opcode = some f) (hf : formatFits i f) : Header.Statement i :=
  ⟨opOf_headerWord _ _ _, chOf_headerWord _ _ _, immOf_headerWord _ _ _, f, h, hf⟩

theorem Header.aiInit (numBuffers : Half) (freq : Word) : Header.Statement (.aiInit numBuffers freq) :=
  header_of_format rfl ⟨rfl, fun _ => rfl, by simp [Instr.immField]⟩
theorem Header.aiClose : Header.Statement (.aiClose) :=
  header_of_format rfl ⟨rfl, fun _ => rfl, by simp [Instr.immField]⟩
theorem Header.aiSetFillCallback (cb : Word) : Header.Statement (.aiSetFillCallback cb) :=
  header_of_format rfl ⟨rfl, fun _ => rfl, by simp [Instr.immField]⟩
theorem Header.aiWriteBegin : Header.Statement (.aiWriteBegin) :=
  header_of_format rfl ⟨rfl, fun _ => rfl, by simp [Instr.immField]⟩
theorem Header.aiWriteEnd : Header.Statement (.aiWriteEnd) :=
  header_of_format rfl ⟨rfl, fun _ => rfl, by simp [Instr.immField]⟩
theorem Header.aiPush (blocking : Bool) (src n : Word) : Header.Statement (.aiPush blocking src n) :=
  header_of_format rfl ⟨rfl, fun _ => rfl, by cases blocking <;> simp [Instr.immField, boolImm]⟩
theorem Header.aiPause (pause : Bool) : Header.Statement (.aiPause pause) :=
  header_of_format rfl ⟨rfl, fun _ => rfl, by cases pause <;> simp [Instr.immField, boolImm]⟩
theorem Header.aiGetFrequency : Header.Statement (.aiGetFrequency) :=
  header_of_format rfl ⟨rfl, fun _ => rfl, by simp [Instr.immField]⟩
theorem Header.sbInit (ch : Byte) (base bytes : Word) : Header.Statement (.sbInit ch base bytes) :=
  header_of_format rfl ⟨rfl, nofun, by simp [Instr.immField]⟩
theorem Header.sbSetBitWidth (ch : Byte) (bits : Half) : Header.Statement (.sbSetBitWidth ch bits) :=
  header_of_format rfl ⟨rfl, nofun, by simp [Instr.immField]⟩
theorem Header.sbSetDecoder (ch : Byte) (fn ctx : Word) : Header.Statement (.sbSetDecoder ch fn ctx) :=
  header_of_format rfl ⟨rfl, nofun, by simp [Instr.immField]⟩
theorem Header.sbGet (ch : Byte) (wpos wlen : Word) : Header.Statement (.sbGet ch wpos wlen) :=
  header_of_format rfl ⟨rfl, nofun, by simp [Instr.immField]⟩
theorem Header.sbAppend (ch : Byte) (wlen : Word) : Header.Statement (.sbAppend ch wlen) :=
  header_of_format rfl ⟨rfl, nofun, by simp [Instr.immField]⟩
theorem Header.sbDiscard (ch : Byte) (wpos : Word) : Header.Statement (.sbDiscard ch wpos) :=
  header_of_format rfl ⟨rfl, nofun, by simp [Instr.immField]⟩
theorem Header.sbFlush (ch : Byte) : Header.Statement (.sbFlush ch) :=
  header_of_format rfl ⟨rfl, nofun, by simp [Instr.immField]⟩
theorem Header.mxInit (channels : Half) (rate : Word) : Header.Statement (.mxInit channels rate) :=
  header_of_format rfl ⟨rfl, fun _ => rfl, by simp [Instr.immField]⟩
theorem Header.mxClose : Header.Statement (.mxClose) :=
  header_of_format rfl ⟨rfl, fun _ => rfl, by simp [Instr.immField]⟩
theorem Header.mxSampleRate : Header.Statement (.mxSampleRate) :=
  header_of_format rfl ⟨rfl, fun _ => rfl, by simp [Instr.immField]⟩
theorem Header.mxSetMasterVolume (vol : Word) : Header.Statement (.mxSetMasterVolume vol) :=
  header_of_format rfl ⟨rfl, fun _ => rfl, by simp [Instr.immField]⟩
theorem Header.mxPoll (n : Word) : Header.Statement (.mxPoll n) :=
  header_of_format rfl ⟨rfl, fun _ => rfl, by simp [Instr.immField]⟩
theorem Header.mxExec (out n : Word) : Header.Statement (.mxExec out n) :=
  header_of_format rfl ⟨rfl, fun _ => rfl, by simp [Instr.immField]⟩
theorem Header.chPlay (ch : Byte) (wave : Word) : Header.Statement (.chPlay ch wave) :=
  header_of_format rfl ⟨rfl, nofun, by simp [Instr.immField]⟩
theorem Header.chStop (ch : Byte) : Header.Statement (.chStop ch) :=
  header_of_format rfl ⟨rfl, nofun, by simp [Instr.immField]⟩
theorem Header.chPlaying (ch : Byte) : Header.Statement (.chPlaying ch) :=
  header_of_format rfl ⟨rfl, nofun, by simp [Instr.immField]⟩
theorem Header.chSetFrequency (ch : Byte) (freq : Word) : Header.Statement (.chSetFrequency ch freq) :=
  header_of_format rfl ⟨rfl, nofun, by simp [Instr.immField]⟩
theorem Header.chSetPosition (ch : Byte) (pos : Word) : Header.Statement (.chSetPosition ch pos) :=
  header_of_format rfl ⟨rfl, nofun, by simp [Instr.immField]⟩
theorem Header.chGetPosition (ch : Byte) : Header.Statement (.chGetPosition ch) :=
  header_of_format rfl ⟨rfl, nofun, by simp [Instr.immField]⟩
theorem Header.chSetVolume (ch : Byte) (l r : Word) : Header.Statement (.chSetVolume ch l r) :=
  header_of_format rfl ⟨rfl, nofun, by simp [Instr.immField]⟩
theorem Header.chSetPan (ch : Byte) (vol pan : Word) : Header.Statement (.chSetPan ch vol pan) :=
  header_of_format rfl ⟨rfl, nofun, by simp [Instr.immField]⟩
theorem Header.chSetDolby (ch : Byte) (fl fr c sl sr : Word) : Header.Statement (.chSetDolby ch fl fr c sl sr) :=
  header_of_format rfl ⟨rfl, nofun, by simp [Instr.immField]⟩
theorem Header.chSetLimits (ch : Byte) (maxBits maxFreq maxBuf : Word) : Header.Statement (.chSetLimits ch maxBits maxFreq maxBuf) :=
  header_of_format rfl ⟨rfl, nofun, by simp [Instr.immField]⟩
theorem Header.evAdd (delay cb ctx : Word) : Header.Statement (.evAdd delay cb ctx) :=
  header_of_format rfl ⟨rfl, fun _ => rfl, by simp [Instr.immField]⟩
theorem Header.evRemove (cb : Word) : Header.Statement (.evRemove cb) :=
  header_of_format rfl ⟨rfl, fun _ => rfl, by simp [Instr.immField]⟩
theorem Header.vsInit (fps rate : Word) : Header.Statement (.vsInit fps rate) :=
  header_of_format rfl ⟨rfl, fun _ => rfl, by simp [Instr.immField]⟩
theorem Header.vsSuggestedBufferSize : Header.Statement (.vsSuggestedBufferSize) :=
  header_of_format rfl ⟨rfl, fun _ => rfl, by simp [Instr.immField]⟩
theorem Header.vsCurrentFrameSamples : Header.Statement (.vsCurrentFrameSamples) :=
  header_of_format rfl ⟨rfl, fun _ => rfl, by simp [Instr.immField]⟩
theorem Header.vsNextFrame : Header.Statement (.vsNextFrame) :=
  header_of_format rfl ⟨rfl, fun _ => rfl, by simp [Instr.immField]⟩
theorem Header.irqDisable : Header.Statement (.irqDisable) :=
  header_of_format rfl ⟨rfl, fun _ => rfl, by simp [Instr.immField]⟩
theorem Header.irqEnable : Header.Statement (.irqEnable) :=
  header_of_format rfl ⟨rfl, fun _ => rfl, by simp [Instr.immField]⟩

end Sys2Proof.Laws
end

