-- ==== Sys2Proof/Tests/Slice0.lean ====
section
/-!
SUPPORT. Tests: the smoke test of well-formedness, a written-out word for every constructor, one step of every instruction against
the vectors of spec/95_test_vectors.md, and for every statement with hypotheses concrete states that meet them.
-/

namespace Sys2Proof.Tests

set_option Elab.async false

open Sys2Proof.Machine

/-! ### Well-formedness (R100 to R104) -/

theorem test_wellFormed_accepts : packetWellFormed [0x01000004, 0xAC44] = true := by decide
theorem test_wellFormed_reserved_opcode : packetWellFormed [0x09000000] = false := by decide
theorem test_wellFormed_reserved_ch : packetWellFormed [0x01010004, 0xAC44] = false := by decide
theorem test_wellFormed_reserved_imm : packetWellFormed [0x06000002, 1, 1] = false := by decide
theorem test_wellFormed_short : packetWellFormed [0x30000000, 1, 2, 3, 4] = false := by decide
theorem test_wellFormed_long : packetWellFormed [0x02000000, 0] = false := by decide
theorem test_wellFormed_empty : packetWellFormed [] = false := by decide
theorem test_wellFormed_internal : (Instr.mxExec 0 0).wellFormed = false := by decide

/-! ### Decoding: words from R127 and the table of spec/95_test_vectors.md §2.1 -/

theorem test_decode_aiInit : decode [0x01000004, 0xAC44] = .instr (.aiInit 4 0xAC44) [] := by decide
theorem test_decode_aiClose : decode [0x02000000] = .instr .aiClose [] := by decide
theorem test_decode_aiSetFillCallback : decode [0x03000000, 0x1234] = .instr (.aiSetFillCallback 0x1234) [] := by decide
theorem test_decode_aiWriteBegin : decode [0x04000000] = .instr .aiWriteBegin [] := by decide
theorem test_decode_aiWriteEnd : decode [0x05000000] = .instr .aiWriteEnd [] := by decide
theorem test_decode_aiPush : decode [0x06000001, 0x200000, 0xFA0] = .instr (.aiPush true 0x200000 0xFA0) [] := by decide
theorem test_decode_aiPause : decode [0x07000001] = .instr (.aiPause true) [] := by decide
theorem test_decode_aiGetFrequency : decode [0x08000000] = .instr .aiGetFrequency [] := by decide
theorem test_decode_sbInit : decode [0x10030000, 0x300000, 0x100] = .instr (.sbInit 3 0x300000 0x100) [] := by decide
theorem test_decode_sbSetBitWidth : decode [0x11030010] = .instr (.sbSetBitWidth 3 16) [] := by decide
theorem test_decode_sbSetDecoder : decode [0x12030000, 0x5000, 7] = .instr (.sbSetDecoder 3 0x5000 7) [] := by decide
theorem test_decode_sbGet : decode [0x13030000, 0xA, 0x14] = .instr (.sbGet 3 10 20) [] := by decide
theorem test_decode_sbAppend : decode [0x14030000, 0x18] = .instr (.sbAppend 3 24) [] := by decide
theorem test_decode_sbDiscard : decode [0x15030000, 0x10] = .instr (.sbDiscard 3 16) [] := by decide
theorem test_decode_sbFlush : decode [0x16030000] = .instr (.sbFlush 3) [] := by decide
theorem test_decode_mxInit : decode [0x20000020, 0xAC44] = .instr (.mxInit 32 0xAC44) [] := by decide
theorem test_decode_mxClose : decode [0x21000000] = .instr .mxClose [] := by decide
theorem test_decode_mxSampleRate : decode [0x22000000] = .instr .mxSampleRate [] := by decide
theorem test_decode_mxSetMasterVolume : decode [0x23000000, 0x8000] = .instr (.mxSetMasterVolume 0x8000) [] := by decide
theorem test_decode_mxPoll : decode [0x24000000, 0x3E8] = .instr (.mxPoll 1000) [] := by decide
theorem test_decode_mxExec : decode [0x25000000, 0x400000, 0x64] = .instr (.mxExec 0x400000 100) [] := by decide
theorem test_decode_chPlay : decode [0x28050000, 0x100000] = .instr (.chPlay 5 0x100000) [] := by decide
theorem test_decode_chStop : decode [0x29010000] = .instr (.chStop 1) [] := by decide
theorem test_decode_chPlaying : decode [0x2A000000] = .instr (.chPlaying 0) [] := by decide
theorem test_decode_chSetFrequency : decode [0x2B010000, 0x56220000] = .instr (.chSetFrequency 1 0x56220000) [] := by decide
theorem test_decode_chSetPosition : decode [0x2C000000, 0x834000] = .instr (.chSetPosition 0 0x834000) [] := by decide
theorem test_decode_chGetPosition : decode [0x2D1F0000] = .instr (.chGetPosition 31) [] := by decide
theorem test_decode_chSetVolume : decode [0x2E010000, 0x10000, 0x8000] = .instr (.chSetVolume 1 0x10000 0x8000) [] := by decide
theorem test_decode_chSetPan : decode [0x2F000000, 0x10000, 0x4000] = .instr (.chSetPan 0 0x10000 0x4000) [] := by decide
theorem test_decode_chSetDolby : decode [0x30000000, 1, 2, 3, 4, 5] = .instr (.chSetDolby 0 1 2 3 4 5) [] := by decide
theorem test_decode_chSetLimits : decode [0x31000000, 8, 0xAC440000, 0x100] = .instr (.chSetLimits 0 8 0xAC440000 256) [] := by
  decide
theorem test_decode_evAdd : decode [0x40000000, 0x1F4, 0x7000, 1] = .instr (.evAdd 500 0x7000 1) [] := by decide
theorem test_decode_evRemove : decode [0x41000000, 0x7000] = .instr (.evRemove 0x7000) [] := by decide
theorem test_decode_vsInit : decode [0x50000000, 0x3C0000, 0xBB80] = .instr (.vsInit 0x3C0000 48000) [] := by decide
theorem test_decode_vsSuggestedBufferSize : decode [0x51000000] = .instr .vsSuggestedBufferSize [] := by decide
theorem test_decode_vsCurrentFrameSamples : decode [0x52000000] = .instr .vsCurrentFrameSamples [] := by decide
theorem test_decode_vsNextFrame : decode [0x53000000] = .instr .vsNextFrame [] := by decide
theorem test_decode_irqDisable : decode [0x60000000] = .instr .irqDisable [] := by decide
theorem test_decode_irqEnable : decode [0x61000000] = .instr .irqEnable [] := by decide
theorem test_decode_refuses_ch : decode [0x40010000, 0, 0, 0] = .illegal 0x40010000 .reservedCh := by decide
theorem test_decode_refuses_imm : decode [0x29000001] = .illegal 0x29000001 .reservedImm := by decide
theorem test_decode_refuses_opcode : decode [0x62000000] = .illegal 0x62000000 .reservedOpcode := by decide

/-! ### States: the set-up of spec/95_test_vectors.md §0, in an environment that does nothing of its own -/

/-- Right after reset, with the vectors' parameters. -/
def still : State :=
  { State.reset with
    params := ⟨48681812, 0x800000, .linear, .default, .reference⟩, oracle := ⟨[], [], [], [], [], [], ⟨9, 9, 9, 9, 9⟩, false, 0⟩ }

/-- The allocator answers these addresses, in order. -/
def withAllocs (s : State) (as : List Word) : State := { s with oracle := { s.oracle with allocs := as.map some } }

/-- The callbacks called from here on do this, in order. -/
def withRuns (s : State) (rs : List CbRun) : State := { s with oracle := { s.oracle with runs := rs } }

/-- The driver is on, with four free regions of 8 frames, 0x100 bytes apart from 0x1000 on. -/
def driver : State :=
  { still with
    owner := .driver
    drv := { Driver.reset with on := true, freq := 44095, n := 4, q := 8, region := Vector.ofFn fun k => w32 (0x1000 + 0x100 * k.val) }
    ai := { still.ai with dmaEn := true } }

/-- The same with states for the first regions, a queue in the driver and in the device. -/
def driving (st : List RegionState) (inflight : List Nat) (fifo : List Xfer) : State :=
  { driver with
    drv := { driver.drv with st := Vector.ofFn fun k => st.getD k.val .free, inflight := inflight }
    ai := { driver.ai with fifo := fifo } }

/-- Region `k` of that driver, as the device holds it. -/
def region (k : Nat) : Xfer := ⟨w32 (0x1000 + 0x100 * k), 32⟩

/-- The driver is full: two regions queued, two full. -/
def driverFull : State :=
  let s := driving [.queued, .queued, .full, .full] [0, 1] [region 0, region 1]
  { s with drv := { s.drv with rd := 2 } }

/-- Instance 3 is on, 256 bytes at 0x300000, decoder 0x5000 with context 7. -/
def buffered (bps : BitVec 2) (wpos widx ridx : Word) : State :=
  still.modSb 3 fun _ => ⟨true, 0x300000, 256, bps, wpos, widx, ridx, 0x5000, 7⟩

/-- The engine is on with two channels at 44100 Hz, its ring at 0x400000 (MX1). -/
def engine : State :=
  { still with
    owner := .engine
    mx := ⟨true, 2, 44095, 0x7FFF, 0, 0, false, false⟩
    ring := ⟨0x400000, 7344, 0, none, []⟩
    chans := still.chans.map (Channel.fresh 44100)
    allocs := [(0x400000, 29376)]
    ai := ⟨[], 0, true, 1103, 15, false⟩ }

/-- A waveform record at an address, its seven fields as R114 lays them out. -/
def withWave (s : State) (a : Nat) (fields : List Word) : State := { s with mem := Memory.put s.mem a (fields.flatMap be32) }

/-- The engine with the records WA, WB and WC of the vectors in memory, and room for two buffers of 0x4000 bytes at 0x500000. -/
def engineReady : State :=
  let s := withWave engine 0x100000 [0, 8, 0xAC440000, 1000, 0, 0x8000, 0]
  let s := withWave s 0x100020 [0, 8, 0xAC440000, 2000, 500, 0x8000, 0]
  let s := withWave s 0x100040 [0, 16, 0xAC440000, 2000, 500, 0x8000, 0]
  { s with
    mx := { s.mx with bufMem := 0x500000 }
    allocs := (0x500000, 0x8000) :: s.allocs
    sbs := Table.mapBelow s.sbs 2 fun c _ => ⟨true, w32 (0x500000 + 0x4000 * c), 0x4000, 1, 0, 0, 0, 0, 0⟩ }

/-- A channel that plays from `ptr`, with its waveform. -/
def sounding (s : State) (c : Nat) (d : Desc) (w : Wave) : State := s.modChan c fun x => { x with desc := d, wave := w }

/-- WB bound, and WC bound, at a position. -/
def loopingB (pos : Word) : State :=
  sounding engineReady 0 ⟨pos, 4096, 0x7D0000, 0x1F4000, 0x500000, 0⟩ ⟨0x100020, 8, 0xAC440000, 2000, 500, 0x8000, 0⟩
def loopingC (pos : Word) : State :=
  sounding engineReady 0 ⟨pos, 8192, 0xFA0000, 0x3E8000, 0x500000, 5⟩ ⟨0x100040, 16, 0xAC440000, 2000, 500, 0x8000, 0⟩

/-- A sub-run is open, and channel 0 plays WA, whose first samples the buffer holds: 0x40 and 0x40. -/
def oneSample : State :=
  let s := sounding engineReady 0 ⟨0, 4096, 0x3E8000, 0, 0x500000, 0⟩ ⟨0x100000, 8, 0xAC440000, 1000, 0, 0x8000, 0⟩
  let s := s.modSb 0 fun b => { b with bps := 0, widx := 8, decFn := wrapCb }
  { s with mem := Memory.put s.mem 0x500000 [0x40, 0x40], mx := { s.mx with subRun := true } }

/-- What holds of the next state, if there is one. -/
def after (o : Host.Outcome State Fault Refusal) (p : State → Bool) : Bool :=
  match o with
  | .next t => p t
  | .fault _ => false
  | .refused _ => false

/-- The next state is FAULTED with this code and information. -/
def faulted (o : Host.Outcome State Fault Refusal) (code : FaultCode) (info : Word) : Bool :=
  after o fun t => t.fault.any fun f => f.code == code && f.info == info

/-- The window of instance 3. -/
def window (t : State) : List Nat := [(t.sb 3).wpos.toNat, (t.sb 3).widx.toNat, (t.sb 3).ridx.toNat]

/-! ### One step of every instruction; the expected values are the vectors' -/

/-- AI1, with the regions at the addresses the vectors' allocator answers. -/
theorem test_aiInit :
    after (exec (.aiInit 4 44100) (withAllocs still [0x400000, 0x401B80, 0x403700, 0x405280])) (fun t =>
      t.drv.freq == 44095 && t.drv.n == 4 && t.drv.q == 1760 && t.ai.dacrate == 1103 && t.ai.bitrate == 15 && t.ai.dmaEn &&
        t.drv.addr 3 == 0x405280 && t.owner == .driver && t.res == []) = true := by decide +kernel
theorem test_aiInit_rate : faulted (exec (.aiInit 4 0) still) .badArg 0 = true := by decide +kernel
/-- AI20. -/
theorem test_aiClose : after (exec .aiClose driver) (fun t => t.owner == .none && !t.ai.dmaEn && !t.drv.on) = true := by
  decide +kernel
/-- AI14, with an index for each state. -/
theorem test_aiSetFillCallback :
    after (exec (.aiSetFillCallback 0x1234) driver) (fun t => t.calls.length == 4 && t.drv.inflight == [0, 1] && t.drv.rd == 2 &&
      t.drv.wr == 0 && t.drv.state 2 == .full && t.drv.state 3 == .full && t.ai.fifo == [region 0, region 1]) = true := by
  decide +kernel
/-- AI15. -/
theorem test_aiSetFillCallback_reserved :
    faulted (exec (.aiSetFillCallback 0xFFFFFFFF) driver) .badArg 0xFFFFFFFF = true := by decide +kernel
/-- AI7. -/
theorem test_aiWriteBegin : after (exec .aiWriteBegin driver) (fun t => t.res == [0x1000] && t.drv.begun) = true := by decide +kernel
/-- AI21. -/
theorem test_aiWriteBegin_off : faulted (exec .aiWriteBegin still) .badState 4 = true := by decide +kernel
/-- AI8. -/
theorem test_aiWriteEnd :
    after (exec .aiWriteEnd { driver with drv := { driver.drv with begun := true } }) (fun t =>
      t.drv.inflight == [0] && t.drv.wr == 1 && t.drv.rd == 1 && t.ai.fifo == [region 0] && !t.drv.begun) = true := by decide +kernel
/-- AI10. -/
theorem test_aiWriteEnd_unbegun : faulted (exec .aiWriteEnd driver) .badState 5 = true := by decide +kernel
/-- AI11, scaled to regions of 8 frames: 19 frames fill two and leave 3. -/
theorem test_aiPush :
    after (exec (.aiPush false 0x200000 19) driver) (fun t => t.res == [19] && t.drv.inflight == [0, 1] && t.drv.wr == 2 &&
      t.drv.rd == 2 && t.drv.pushOff == 3) = true := by decide +kernel
/-- AI12, scaled likewise: the flush pads the region and marks it. -/
theorem test_aiPush_flush :
    after (exec (.aiPush false 0 0) { driverFull with drv := { driverFull.drv with wr := 2, pushOff := 3 } }) (fun t =>
      t.res == [0] && t.drv.wr == 3 && t.drv.pushOff == 0 && t.drv.state 2 == .full) = true := by decide +kernel
/-- AI16. -/
theorem test_aiPause :
    after (exec (.aiPause true) { driver with drv := { driver.drv with fillCb := 0x1234 } }) (fun t =>
      t.drv.fillCb == 0xFFFFFFFF && t.drv.savedCb == 0x1234 && t.drv.paused && t.calls == []) = true := by decide +kernel
/-- AI6. -/
theorem test_aiGetFrequency : after (exec .aiGetFrequency driver) (fun t => t.res == [44095]) = true := by decide +kernel
/-- SB1. -/
theorem test_sbInit :
    after (exec (.sbInit 3 0x300000 256) still) (fun t => (t.sb 3).size == 128 && (t.sb 3).ptrf == 0x300001 && (t.sb 3).on) = true := by
  decide +kernel
/-- SB20. -/
theorem test_sbInit_unaligned : faulted (exec (.sbInit 3 0x300004 256) still) .badArg 0x300004 = true := by decide +kernel
/-- SB14. -/
theorem test_sbSetBitWidth :
    after (exec (.sbSetBitWidth 3 8) (buffered 1 40 0 0)) (fun t => (t.sb 3).size == 256 && window t == [40, 0, 0]) = true := by
  decide +kernel
/-- SB13. -/
theorem test_sbSetBitWidth_held : faulted (exec (.sbSetBitWidth 3 8) (buffered 1 0 24 0)) .badState 0x11 = true := by decide +kernel
/-- SB17. -/
theorem test_sbSetDecoder_reserved :
    faulted (exec (.sbSetDecoder 3 0xFFFFFFFE 0) (buffered 1 0 0 0)) .badArg 0xFFFFFFFE = true := by decide +kernel
theorem test_sbSetDecoder :
    after (exec (.sbSetDecoder 3 0x6000 9) (buffered 1 0 0 0)) (fun t => (t.sb 3).decFn == 0x6000 && (t.sb 3).decCtx == 9) = true := by
  decide +kernel
/-- SB3: a hit that needs a top-up; the decoder appends what it is asked for. -/
theorem test_sbGet :
    after (exec (.sbGet 3 10 20) (withRuns (buffered 1 0 24 0) [⟨[.issue ⟨0x14030000, 8, 0, 0, 0, 0⟩], some 0⟩])) (fun t =>
      t.res == [0x300014, 20] && window t == [0, 32, 10] && t.calls == [Call.mk 0x5000 [7, 3, 24, 8, 0]]) = true := by decide +kernel
/-- SB5: a miss flushes first. -/
theorem test_sbGet_miss :
    after (exec (.sbGet 3 40 8) (withRuns (buffered 1 0 32 10) [⟨[.issue ⟨0x14030000, 8, 0, 0, 0, 0⟩], some 0⟩])) (fun t =>
      t.res == [0x300000, 8] && window t == [40, 8, 0] && t.calls == [Call.mk 0x5000 [7, 3, 40, 8, 1]]) = true := by decide +kernel
/-- SB6. -/
theorem test_sbAppend :
    after (exec (.sbAppend 3 16) (buffered 1 0 120 50)) (fun t => t.res == [0x300090] && window t == [48, 88, 2]) = true := by
  decide +kernel
/-- SB7. -/
theorem test_sbAppend_small : faulted (exec (.sbAppend 3 16) (buffered 1 0 120 0)) .bufferTooSmall 16 = true := by decide +kernel
/-- SB10: byte 2·16 of the window comes to byte 0. -/
theorem test_sbDiscard :
    after (exec (.sbDiscard 3 116) { buffered 1 100 40 30 with mem := [(0x300020, 0xAB)] }) (fun t =>
      window t == [116, 24, 14] && t.mem.read 0x300000 == 0xAB) = true := by decide +kernel
/-- SB15. -/
theorem test_sbFlush :
    after (exec (.sbFlush 3) (buffered 1 9 24 3)) (fun t => window t == [0, 0, 0] && (t.sb 3).decFn == 0x5000) = true := by
  decide +kernel
/-- MX1. -/
theorem test_mxInit :
    after (exec (.mxInit 2 44100) (withAllocs still [0x400000])) (fun t => t.mx == ⟨true, 2, 44095, 0x7FFF, 0, 0, false, false⟩ &&
      t.ring == ⟨0x400000, 7344, 0, none, []⟩ && (t.chan 1).vol == ⟨0x7FFF, 0x7FFF⟩ && (t.chan 1).limits == ⟨16, 0xAC440000, 0⟩ &&
      t.owner == .engine && t.ai.dacrate == 1103) = true := by decide +kernel
/-- MX4. -/
theorem test_mxInit_rate : faulted (exec (.mxInit 2 96000) still) .badArg 96000 = true := by decide +kernel
/-- MX9. -/
theorem test_mxClose : after (exec .mxClose engine) (fun t => t.owner == .none && !t.mx.on && t.allocs == []) = true := by
  decide +kernel
/-- MX6. -/
theorem test_mxSampleRate : after (exec .mxSampleRate engine) (fun t => t.res == [44095]) = true := by decide +kernel
/-- MX7. -/
theorem test_mxSetMasterVolume : after (exec (.mxSetMasterVolume 0x8000) engine) (fun t => t.mx.master == 0x3FFF) = true := by
  decide +kernel
/-- EX7, with 4 frames: one job writes zero frames, and the block is queued. -/
theorem test_mxPoll :
    after (exec (.mxPoll 4) { engine with mem := [(0x400000, 9), (0x40000F, 9), (0x400010, 9)] }) (fun t =>
      t.mx.ticks == 4 && t.ring.w == 16 && t.ai.fifo == [⟨0x400000, 16⟩] && t.mem == [(0x400010, 9)]) = true := by decide +kernel
/-- EX5. -/
theorem test_mxPoll_long : faulted (exec (.mxPoll 7346) engine) .badArg 7346 = true := by decide +kernel
theorem test_mxExec_port : faulted (exec (.mxExec 0x400000 100) engine) .illegalCommand 0x25000000 = true := by decide +kernel
/-- EX8 inside a sub-run: the 8-bit sample 0x40 at full volume gives the frame 0x3FFE 0x3FFE. -/
theorem test_mxExec :
    after (exec (.mxExec 0x400000 1) oneSample) (fun t =>
      Memory.bytes t.mem 0x400000 5 == [0x3F, 0xFE, 0x3F, 0xFE, 0] && (t.desc 0).pos == 4096) = true := by decide +kernel
/-- CH1, in a buffer that is there. -/
theorem test_chPlay :
    after (exec (.chPlay 0 0x100000) engineReady) (fun t => t.desc 0 == ⟨0, 4096, 0x3E8000, 0, 0x500000, 0⟩ &&
      (t.sb 0).decFn == wrapCb && (t.sb 0).bps == 0 && (t.chan 0).wave.id == 0x100000) = true := by decide +kernel
/-- CH4. -/
theorem test_chPlay_null : faulted (exec (.chPlay 0 0) engineReady) .badArg 0 = true := by decide +kernel
/-- CH3. -/
theorem test_chStop :
    after (exec (.chStop 0) (loopingB 0)) (fun t => (t.desc 0).ptr == 0 && (t.chan 0).wave.id == 0 && (t.sb 0).decFn == 0) = true := by
  decide +kernel
/-- CH1 and CH20. -/
theorem test_chPlaying : after (exec (.chPlaying 0) (loopingB 0)) (fun t => t.res == [1]) = true := by decide +kernel
theorem test_chPlaying_range : faulted (exec (.chPlaying 2) engine) .badArg 2 = true := by decide +kernel
/-- CH9. -/
theorem test_chSetFrequency :
    after (exec (.chSetFrequency 0 0x56220000) (loopingC 0)) (fun t => (t.desc 0).step == 4096) = true := by decide +kernel
/-- CH10. -/
theorem test_chSetFrequency_limit : faulted (exec (.chSetFrequency 0 0xAC450000) (loopingC 0)) .limitExceeded 0 = true := by
  decide +kernel
/-- CH11. -/
theorem test_chSetPosition : after (exec (.chSetPosition 0 0x834000) (loopingB 0)) (fun t => (t.desc 0).pos == 0x640000) = true := by
  decide +kernel
/-- CH13. -/
theorem test_chGetPosition : after (exec (.chGetPosition 0) (loopingB 0x834000)) (fun t => t.res == [0x640000]) = true := by
  decide +kernel
/-- CH14. -/
theorem test_chGetPosition_16 : after (exec (.chGetPosition 0) (loopingC 0x2000)) (fun t => t.res == [0x1000]) = true := by
  decide +kernel
/-- CH15. -/
theorem test_chSetVolume :
    after (exec (.chSetVolume 1 0x10000 0x8000) engine) (fun t => (t.chan 1).vol == ⟨0x7FFF, 0x3FFF⟩) = true := by decide +kernel
/-- CH16. -/
theorem test_chSetPan :
    after (exec (.chSetPan 0 0x10000 0x4000) engine) (fun t => (t.chan 0).vol == ⟨0x5FFF, 0x1FFF⟩) = true := by decide +kernel
/-- CH18. -/
theorem test_chSetPan_range : faulted (exec (.chSetPan 0 0x10000 0x10001) engine) .badArg 0x10001 = true := by decide +kernel
/-- R228: an operand above 1.0. -/
theorem test_chSetDolby_range : faulted (exec (.chSetDolby 0 0 0 0x10001 0 0) engine) .badArg 0x10001 = true := by decide +kernel
/-- CH6. -/
theorem test_chSetLimits :
    after (exec (.chSetLimits 0 8 0x56220000 4096) engineReady) (fun t => (t.chan 0).limits == ⟨8, 0x56220000, 4096⟩ &&
      t.mx.bufMem == 0 && t.allocs == [(0x400000, 29376)]) = true := by decide +kernel
/-- CH7. -/
theorem test_chSetLimits_playing : faulted (exec (.chSetLimits 1 16 0xAC440000 0) (loopingB 0)) .badState 0x31 = true := by
  decide +kernel
/-- EV1. -/
theorem test_evAdd :
    after (exec (.evAdd 500 0x7000 1) { engine with mx := { engine.mx with ticks := 1000 } }) (fun t =>
      t.events == [⟨0, 1500, 0x7000, 1⟩]) = true := by decide +kernel
/-- EV6. -/
theorem test_evAdd_reserved : faulted (exec (.evAdd 5 0xFFFFFFFE 0) engine) .badArg 0xFFFFFFFE = true := by decide +kernel
/-- EV2. -/
theorem test_evRemove :
    after (exec (.evRemove 0xA) { engine with events := [⟨0, 1500, 0xA, 1⟩, ⟨1, 1200, 0xB, 2⟩, ⟨2, 1700, 0xA, 3⟩] }) (fun t =>
      t.events == [⟨1, 1200, 0xB, 2⟩, ⟨2, 1700, 0xA, 3⟩]) = true := by decide +kernel
/-- EV3. -/
theorem test_evRemove_none : faulted (exec (.evRemove 0xA) engine) .eventNotFound 0xA = true := by decide +kernel
/-- VS1. -/
theorem test_vsInit : after (exec (.vsInit 0x3C0000 48000) still) (fun t => t.vs == ⟨true, 0x3C0000, 48000, 800, 800⟩) = true := by
  decide +kernel
/-- VS9. -/
theorem test_vsInit_slow : faulted (exec (.vsInit 0x3C0000 100) still) .badArg 0x3C0000 = true := by decide +kernel
/-- VS4. -/
theorem test_vsSuggestedBufferSize :
    after (exec .vsSuggestedBufferSize { still with vs := ⟨true, 0x3C0000, 32000, 1600 / 3, 1600 / 3⟩ }) (fun t => t.res == [534]) =
      true := by decide +kernel
/-- §1.10: the second frame of 32000 Hz at 60 frames. -/
theorem test_vsCurrentFrameSamples :
    after (exec .vsCurrentFrameSamples { still with vs := ⟨true, 0x3C0000, 32000, 1600 / 3, 1598 / 3⟩ }) (fun t => t.res == [534]) =
      true := by decide +kernel
theorem test_vsNextFrame :
    after (exec .vsNextFrame { still with vs := ⟨true, 0x3C0000, 32000, 1600 / 3, 1600 / 3⟩ }) (fun t => t.vs.counter == 1598 / 3) =
      true := by decide +kernel
/-- IQ1. -/
theorem test_irqDisable : after (exec .irqDisable { still with irqDepth := 1 }) (fun t => t.irqDepth == 2) = true := by decide +kernel
/-- IQ4. -/
theorem test_irqDisable_deepest : faulted (exec .irqDisable { still with irqDepth := 0xFFFFFFFF }) .irqUnbalanced 0 = true := by
  decide +kernel
/-- IQ2. -/
theorem test_irqEnable : after (exec .irqEnable { still with irqDepth := 2 }) (fun t => t.irqDepth == 1) = true := by decide +kernel
/-- IQ3. -/
theorem test_irqEnable_unbalanced : faulted (exec .irqEnable still) .irqUnbalanced 0 = true := by decide +kernel
/-! ### What the other agents do meanwhile -/

/-- The other agents make these moves at the next boundaries. -/
def withMoves (s : State) (ms : List (List Agent)) : State := { s with oracle := { s.oracle with moves := ms } }

/-- R360, R389: a decoder that never returns leaves the block stuck in the command, with the effects before it; nothing is FAULTED. -/
theorem test_stuck :
    after (exec (.sbGet 3 10 20) (withRuns (buffered 1 0 24 0) [⟨[], none⟩])) (fun t => t.pending == some .callback &&
      t.ctx == .decoder 3 && t.fault == none && window t == [0, 24, 10]) = true := by decide +kernel
/-- R389: the device drains while the block is stuck. -/
theorem test_stuck_drains :
    after (step { driverFull with pending := some .callback, ctx := .fill, oracle := { still.oracle with sched := [.aiDma] } })
      (fun t => t.ai.fifo == [region 1] && t.pending == some .callback && t.output.length == 8) = true := by decide +kernel
/-- R391 (a): a device that may wait no longer drains, whatever the environment would have moved. -/
theorem test_fair :
    after (step { driverFull with oracle := { still.oracle with sched := [.host], waits := [3], patience := ⟨0, 9, 9, 9, 9⟩ } })
      (fun t => t.ai.fifo == [region 1] && t.oracle.patience.drain == 7 && t.oracle.sched == [.host]) = true := by decide +kernel
/-- R158: a full region that is not queued when `AI_CLOSE` begins is dropped, though an interrupt comes first. -/
theorem test_aiClose_drops :
    after (exec .aiClose (withMoves (driving [.queued, .full] [0] [region 0]) [[.aiDma, .irq]])) (fun t =>
      t.owner == .none && t.ai.fifo == [] && t.output.length == 8) = true := by decide +kernel
/-- The driver is paused, its regions are free, and the interrupt is pending: it refills all of them (R146, R386). -/
def refilling : State :=
  { driver with drv := { driver.drv with fillCb := silenceCb, paused := true }, ai := { driver.ai with irq := true } }

/-- R150, R343: an interrupt between the test of `AI_PUSH` and its first byte, or between two bytes, takes the region, and the push writes no more. -/
theorem test_push_refilled :
    [[[], [.irq]], [[], [], [.irq]]].all (fun ms => after (exec (.aiPush false 0 2) (withMoves refilling ms)) (fun t =>
      t.res == [0] && t.ai.fifo == [region 0, region 1] && t.drv.pushOff == 0 && t.drv.inflight == [0, 1])) = true := by decide +kernel
/-- R150, R343: an interrupt between the last look of `AI_WRITE_BEGIN` and its mark takes the region, and the spin goes on. -/
theorem test_writeBegin_refilled :
    after (exec .aiWriteBegin (withMoves refilling [[.irq]])) (fun t =>
      t.pending == some .writeBegin && !t.drv.begun && t.drv.state 0 == .queued) = true := by decide +kernel
/-- R391: no other client comes ahead of a waiting engine once it may no more. -/
theorem test_client_bounded :
    let s := { engine.waiting (.execAcquire 0 4) with oracle := { still.oracle with patience := ⟨9, 9, 9, 9, 0⟩ } }
    clientStart s = s ∧ (clientStart engine).coproc.client = true := by decide +kernel
/-- R264: a client that takes the coprocessor right after the engine's job does not prolong the wait for it. -/
theorem test_job_client :
    after (agentTurn exec .host ((clientStart engine).waiting .execJob)) (fun t => t.pending == none && t.coproc.client) = true := by
  decide +kernel
/-- R264: a poll whose job has not ended waits; the job is a step of the coprocessor. -/
theorem test_job :
    after (exec (.mxPoll 4) (withMoves engine [[], [], []])) (fun t => t.pending == some (.pollJob 0 4 0 4) && t.coproc.jobBusy &&
      after (agentTurn exec .coproc t) (fun u => !u.coproc.jobBusy && after (agentTurn exec .host u) fun v =>
        v.mx.ticks == 4 && v.pending == none)) = true := by decide +kernel
/-- R77, R80: one access stores a u32, and the uncached view shows what the CPU wrote cached. -/
theorem test_access :
    (match hostAccess (.write false .word 0x100 0x11223344) still with
      | .ok _ t => Memory.bytes t.mem 0x100 4 == [0x11, 0x22, 0x33, 0x44] &&
        match hostAccess (.write true .half 0x102 0xAABBCCDD) t with
          | .ok _ u => u.cpuWord 0x100 == 0x1122CCDD && u.mem.read 0x102 == 0x33 && u.raced 0x100 4 == []
          | .error _ _ => false
      | .error _ _ => false) = true := by decide +kernel
/-- R80: what hardware wrote is newer than the CPU's dirty byte, until the CPU writes it again. -/
theorem test_newer :
    let s := (still.cachedPut 0x100 [1, 2]).hwPut 0x101 [9]
    s.cpuByte 0x100 = 1 ∧ s.cpuByte 0x101 = 9 ∧ (s.cachedPut 0x101 [7]).cpuByte 0x101 = 7 ∧ (s.writeback 0x101 1).mem.read 0x101 = 2 := by
  decide +kernel
/-- R123: an open backend sees nothing of a stopped channel's descriptor. -/
theorem test_idle_hidden :
    let s := sounding engineReady 0 ⟨5, 4096, 0x3E8000, 7, 0, 5⟩ ⟨0x100000, 8, 0xAC440000, 1000, 0, 0x8000, 0⟩
    ((s.upload 0x400000 4).mixJob).block = ((engineReady.upload 0x400000 4).mixJob).block := by decide +kernel
/-- R12, R220: `UNKNOWN_LEN` is longer than a descriptor holds. -/
theorem test_unknownLen :
    (match descLengths 0 (sounding engineReady 0 ⟨0, 4096, 0, 0, 1, 0⟩ ⟨1, 8, 1, unknownLen, 0, 1, 0⟩) with
      | .ok _ t => (t.desc 0).len == 0xFFFFFFFF
      | .error _ _ => false) = true := by decide +kernel
/-- HW5 and HW6. -/
theorem test_ai_registers :
    (match aiWrite .dramAddr 0x400007 still with
      | .ok _ t => match aiWrite .len 0x41B84 t with
        | .ok _ u => u.ai.fifo == [⟨0x400000, 0x1B80⟩]
        | .error _ _ => false
      | .error _ _ => false) = true := by decide +kernel
/-- A packet at the port: EV_ADD with a nonzero CH. -/
theorem test_step_illegal :
    faulted (step { still with host := [.issue ⟨0x40010000, 0, 0, 0, 0, 0⟩] }) .illegalCommand 0x40010000 = true := by decide +kernel
/-- A packet placed by `withFetchWord` runs in the next step. -/
theorem test_step_fetch : after (step (State.reset.withFetchWord 32 0x60000000)) (fun t => t.irqDepth == 1) = true := by decide +kernel

/-! ### States that meet the hypotheses of the statements, at the boundary values of each clause -/

/-- The foreground's next packet. -/
def offering (s : State) (p : Packet) : State := { s with host := [.issue p] }

/-- The engine with the interrupt pending, a device queue and a ring. -/
def interrupted (fifo : List Xfer) (pending : Option Xfer) (inflight : List Xfer) : State :=
  { engine with
    ai := { engine.ai with irq := true, fifo := fifo }, ring := { engine.ring with pending := pending, inflight := inflight } }

/-- Two records are due at tick 100, the earlier one is not in front. -/
def twoDue : State :=
  { engine with
    mx := { engine.mx with ticks := 100 }
    events := [⟨0, 300, 0xA, 0⟩, ⟨1, 100, 0xB, 1⟩, ⟨2, 90, 0xC, 2⟩], nextEvent := 3 }

/-- VideoSync at 1600/3 samples per frame. -/
def paced : State := { still with vs := ⟨true, 0x3C0000, 32000, 1600 / 3, 1598 / 3⟩ }

theorem witness_DecodeReadsEncodings : decode [0x24000000, 5, 9] = .instr (.mxPoll 5) [9] := by decide
theorem witness_IllegalPacketFaults :
    let p : Packet := ⟨0x40010000, 0, 0, 0, 0, 0⟩
    let s := offering still p
    s.fault = none ∧ s.pending = none ∧ s.nextAgent.1 = .host ∧ s.host = .issue p :: [] ∧
      decode p.words = .illegal 0x40010000 .reservedCh := by decide +kernel
theorem witness_StepRunsDecodedInstruction :
    let p : Packet := ⟨0x24000000, 2, 0, 0, 0, 0⟩
    let s := offering engine p
    s.fault = none ∧ s.pending = none ∧ s.nextAgent.1 = .host ∧ s.host = .issue p :: [] ∧
      decode p.words = .instr (.mxPoll 2) [0, 0, 0, 0] := by decide +kernel
theorem witness_FaultedIsTerminal : (still.enterFaulted .badArg 0).fault ≠ none := by decide +kernel
theorem witness_IssuerViolationFaults :
    ({ still with ctx := .fill }).issuerAllows (Instr.irqDisable).opcode 0 = false ∧
      engine.issuerAllows (Instr.sbGet 1 0 8).opcode (Instr.sbGet 1 0 8).chField = false ∧
      ({ engine with ctx := .event }).issuerAllows (Instr.chSetLimits 0 8 1 0).opcode 0 = false ∧
      ({ engine with ctx := .decoder 0 }).issuerAllows (Instr.mxPoll 2).opcode 0 = false ∧ engine.mx.inPoll = false := by
  decide +kernel
theorem witness_IrqCommandsEffect :
    ({ still with ctx := .fill }).fault = none ∧ ({ still with ctx := .fill }).issuerAllows (Instr.irqDisable).opcode 0 = false ∧
      ({ still with ctx := .fill }).issuerAllows (Instr.irqEnable).opcode 0 = false ∧
      still.mayRun .irqDisable ∧ still.mayRun .irqEnable ∧ ({ still with irqDepth := 0xFFFFFFFF }).mayRun .irqDisable ∧
      ({ still with irqDepth := 1 }).mayRun .irqEnable := by decide +kernel
theorem witness_OnlyIrqCommandsChangeDepth :
    engine.fault = none ∧ ∃ t, exec .mxSampleRate engine = .next t ∧ t.fault = none ∧ ¬ t.stuck :=
  ⟨by decide +kernel, _, rfl, rfl, by decide +kernel⟩
theorem witness_InterruptIsPrecise :
    still.ai.irq = false ∧ (interrupted [] (some ⟨0x400000, 16⟩) []).irqEligible ∧
      ∃ t, takeAiIrq (interrupted [] (some ⟨0x400000, 16⟩) []) = .ok () t ∧ t.ai.fifo = [⟨0x400000, 16⟩] :=
  ⟨by decide +kernel, by decide +kernel, _, rfl, by decide +kernel⟩
theorem witness_EngineInterrupt :
    [interrupted [] none [], interrupted [] (some ⟨0x400000, 16⟩) [⟨0x400010, 16⟩, ⟨0x400020, 16⟩],
      interrupted [⟨0x400020, 16⟩] (some ⟨0x400000, 16⟩) [⟨0x400010, 16⟩, ⟨0x400020, 16⟩],
      interrupted [⟨0x400010, 16⟩, ⟨0x400020, 16⟩] (some ⟨0x400000, 16⟩) [⟨0x400010, 16⟩, ⟨0x400020, 16⟩]].all (fun s =>
        decide (s.irqEligible ∧ s.owner = .engine ∧ s.mx.on = true ∧ s.quiet ∧ s.ai.fifo.length ≤ 2)) = true := by decide +kernel
theorem witness_AiDeviceRegisters :
    still.ai.fifo.length = 0 ∧ (driving [] [] [region 0]).ai.fifo.length = 1 ∧ driverFull.ai.fifo.length = 2 := by decide +kernel
theorem witness_DrainStep :
    driverFull.ai.dmaEn = true ∧ driverFull.ai.fifo = region 0 :: [region 1] ∧ driverFull.due .drain = true ∧
      (clientStart driverFull).due .job = true ∧ (interrupted [] none []).due .irq = true ∧
      (still.waiting .aiClose).due .host = true ∧ (engine.waiting (.execAcquire 0 4)).awaitsCoproc = true ∧
      (engine.waiting (.pollAcquire 0 8 0 4)).awaitsCoproc = true := by decide +kernel
theorem witness_DriverDispatch :
    ([driver, driverFull, driving [.full] [] [], driving [.queued, .full, .queued] [2, 0] [region 2]].flatMap fun s =>
      [0, 0x1234, silenceCb].map fun cb => { s with drv := { s.drv with fillCb := cb }, ai := { s.ai with irq := true } }).all (fun s =>
        decide (s.quiet ∧ s.drv.inRange ∧ s.dispatchable ∧ s.regionsBacked ∧ s.irqEligible ∧ s.owner = .driver ∧
          s.drv.on = true)) = true := by decide +kernel
theorem witness_AiInitEffect :
    let as : List Word := [0x400000, 0x401B80, 0x403700, 0x405280]
    let s := withAllocs still as
    let q := aiQuantum (actualRate s.params.videoClockHz 44100)
    s.mayRun (.aiInit 4 44100) ∧ s.owner = .none ∧ rateValid s.params.videoClockHz 44100 ∧ as.length = regionCount 4 ∧
      s.oracle.allocs = as.map some ++ [] ∧ (as.all fun a => decide (s.mayAlloc a (4 * q))) = true ∧
      as.Pairwise (fun a b => a.toNat + 4 * q ≤ b.toNat ∨ b.toNat + 4 * q ≤ a.toNat) := by decide +kernel
theorem witness_AiCloseEffect :
    [driver, driverFull].all (fun s => decide (s.mayRun .aiClose ∧ s.drv.on = true ∧ s.quiet ∧ s.irqDepth ≠ 0xFFFFFFFF)) = true ∧
      driver.ai.fifo = [] ∧ driverFull.ai.fifo ≠ [] ∧
      ∃ t, drvDispatch { driver with drv := { driver.drv with closing := true } } = .ok () t ∧ t.ai.fifo = [] :=
  ⟨by decide +kernel, by decide +kernel, by decide +kernel, _, rfl, by decide +kernel⟩
theorem witness_AiSetFillCallbackEffect :
    [driver, driverFull, { driver with drv := { driver.drv with paused := true, fillCb := silenceCb } }].all (fun s =>
      decide (s.mayRun (.aiSetFillCallback 0x1234) ∧ s.drv.on = true ∧ ¬ reservedHandle 0x1234 ∧ s.quiet ∧ s.dispatchable ∧
        s.drv.inRange ∧ s.regionsBacked)) = true ∧
      (0x1234 : Word) ≠ 0 ∧ driver.drv.paused = false ∧ driver.drv.begun = false ∧ driver.drv.pushOff = 0 := by decide +kernel
theorem witness_AiWriteBeginEffect :
    driver.mayRun .aiWriteBegin ∧ driver.drv.on = true ∧ driver.drv.begun = false ∧ driver.drv.pushOff = 0 ∧ driver.quiet ∧
      driver.drv.state driver.drv.wr.toNat = .free := by decide +kernel
theorem witness_AiWriteEndEffect :
    [{ driver with drv := { driver.drv with begun := true } },
      { driver with drv := { driver.drv with begun := true, fillCb := silenceCb } }].all (fun s =>
      decide (s.mayRun .aiWriteEnd ∧ s.drv.on = true ∧ s.drv.begun = true ∧ s.quiet ∧ s.dispatchable ∧ s.drv.inRange ∧
        (s.drv.fillCb = silenceCb → s.regionsBacked) ∧ s.drv.wr.toNat ∉ s.drv.inflight ∧ s.ai.fifo = [] ∧ s.drv.inflight = [] ∧
        s.drv.rd = s.drv.wr ∧ s.drv.closing = false)) = true := by decide +kernel
theorem witness_AiPushSilence :
    let s := { driver with drv := { driver.drv with pushOff := 6 } }
    driver.mayRun (.aiPush true 0 7) ∧ driver.pushReady ∧ s.pushReady ∧ (7 : Word).toNat < driver.drv.q.toNat ∧
      (2 : Word).toNat = s.drv.q.toNat - s.drv.pushOff.toNat ∧ (10 : Word).toNat ≤ 2 + s.drv.q.toNat ∧
      s.drv.pushTarget + 4 * 2 ≤ s.memBytes ∧ s.dispatchable ∧ s.drv.inRange ∧ s.regionsBacked ∧
      driver.mayRun (.aiPush false 0 0) ∧ driver.drv.pushOff = 0 ∧ s.mayRun (.aiPush false 0 0) ∧ s.drv.pushOff ≠ 0 := by decide +kernel
/-- After a push that ends the region the next one is free, or it is not. -/
theorem witness_AiPushSilence_crossing :
    let s := { driver with drv := { driver.drv with pushOff := 6 } }
    let full := { driverFull with drv := { driverFull.drv with wr := 2, pushOff := 6 } }
    after (exec (.aiPush false 0 10) s) (fun t => t.res == [10] && t.drv.wr == 2) = true ∧
      after (exec (.aiPush false 0 3) full) (fun t => t.res == [2] && t.drv.wr == 3) = true ∧ full.pushReady := by decide +kernel
theorem witness_AiPushCopy :
    driver.mayRun (.aiPush false 0x1010 16) ∧ driver.pushReady ∧ (0x1010 : Word) ≠ 0 ∧ (16 : Word) ≠ 0 ∧
      driver.drv.pushTarget + 4 * min 16 8 ≤ driver.memBytes ∧ 0x1010 + 4 * 16 ≤ driver.memBytes ∧ driver.drv.pushTarget ≤ 0x1010 ∧
      driver.mayRun (.aiPush true 0xFE4 7) ∧ 0xFE4 + 4 * 7 ≤ driver.drv.pushTarget := by decide +kernel
theorem witness_BusyRegionBlocksWriter :
    driverFull.fault = none ∧ driverFull.ctx = .host ∧ driverFull.drv.on = true ∧ driverFull.drv.begun = false ∧
      driverFull.drv.pushOff = 0 ∧ driverFull.quiet ∧ driverFull.irqDepth ≠ 0xFFFFFFFF ∧ driverFull.ai.fifo.length = 2 ∧
      driverFull.drv.inflight.length ≤ 2 ∧ (5 : Word) ≠ 0 ∧ driverFull.drv.state driverFull.drv.wr.toNat ≠ .free := by decide +kernel
theorem witness_AiPauseAndFrequency :
    still.drv.on = false ∧ still.mayRun (.aiPause true) ∧ still.mayRun .aiGetFrequency ∧
      ({ driver with irqDepth := 0xFFFFFFFF }).mayRun (.aiPause true) ∧
      driver.drv.on = true ∧ driver.mayRun (.aiPause true) ∧ driver.mayRun (.aiPause false) ∧ driver.irqDepth ≠ 0xFFFFFFFF ∧
      driver.mayRun .aiGetFrequency := by decide +kernel
theorem witness_SbInitEffect :
    still.mayRun (.sbInit 31 0x7FFF00 256) ∧ (31 : Byte).toNat < 32 ∧ (0x7FFF00 : Word).toNat % 8 = 0 ∧ (256 : Word) ≠ 0 ∧
      0x7FFF00 + 256 ≤ still.memBytes := by decide +kernel
theorem witness_SbSettingsEffect :
    let s := buffered 1 40 0 0
    (s.sb 3).on = true ∧ s.mayRun (.sbSetBitWidth 3 8) ∧ s.mayRun (.sbSetBitWidth 3 16) ∧ (s.sb 3).widx = 0 ∧
      s.mayRun (.sbSetDecoder 3 0x6000 9) ∧ ¬ reservedHandle 0x6000 ∧ s.mayRun (.sbFlush 3) := by decide +kernel
/-- The next callback appends `k` samples to instance 3 and returns 7. -/
def supplied (s : State) (k : Word) : State := withRuns s [⟨[.issue ⟨0x14030000, k, 0, 0, 0, 0⟩], some 7⟩]
theorem witness_SbGetHeldWindow :
    let s := buffered 1 100 40 0
    s.mayRun (.sbGet 3 100 40) ∧ s.mayRun (.sbGet 3 140 1) ∧ (s.sb 3).on = true ∧ 0 < (s.sb 3).widx.toNat ∧
      (s.sb 3).wpos.toNat ≤ 100 ∧ 100 - (s.sb 3).wpos.toNat + 40 ≤ (s.sb 3).widx.toNat ∧
      140 - (s.sb 3).wpos.toNat ≤ (s.sb 3).widx.toNat ∧ (s.sb 3).widx.toNat < 140 - (s.sb 3).wpos.toNat + 1 ∧ s.quiet ∧
      (supplied s 88).appends 3 ⟨0x14030000, 88, 0, 0, 0, 0⟩ [0, 0, 0, 0] 88 7 ∧ (supplied s 88).mayRun (.sbGet 3 140 1) ∧
      (s.sb 3).decFn ≠ 0 ∧ (s.sb 3).widx.toNat + 88 ≤ (s.sb 3).size ∧ (s.sb 3).decFn ≠ wrapCb ∧ (s.sb 3).base.toNat + (140 - (s.sb 3).wpos.toNat) * 2 ^ (s.sb 3).bps.toNat < 2 ^ 32 := by decide +kernel
theorem witness_SbGetMiss :
    [(buffered 1 0 0 0, 0), (buffered 1 100 40 0, 99), (buffered 1 100 40 0, 141)].all (fun x =>
      let s : State := x.1
      let p : Word := x.2
      decide (s.mayRun (.sbGet 3 p 8) ∧ (s.sb 3).on = true ∧ p.toNat + 8 < 2 ^ 32 ∧ s.quiet ∧ (s.sb 3).decFn ≠ wrapCb ∧
        (supplied s 128).appends 3 ⟨0x14030000, 128, 0, 0, 0, 0⟩ [0, 0, 0, 0] 128 7 ∧ (supplied s 128).mayRun (.sbGet 3 p 8) ∧
        (s.sb 3).decFn ≠ 0 ∧ (128 : Word).toNat ≤ (s.sb 3).size ∧
        ((s.sb 3).widx = 0 ∨ p.toNat < (s.sb 3).wpos.toNat ∨ (s.sb 3).wpos.toNat + (s.sb 3).widx.toNat < p.toNat))) = true := by
  decide +kernel
theorem witness_SbAppendEffect :
    [(buffered 1 0 120 50, 8), (buffered 1 0 120 50, 16), (buffered 1 0 120 50, 200)].all (fun x =>
      let s : State := x.1
      let n : Word := x.2
      decide (s.mayRun (.sbAppend 3 n) ∧ (s.sb 3).on = true ∧ (s.sb 3).ridx.toNat ≤ (s.sb 3).widx.toNat ∧
        (s.sb 3).widx.toNat ≤ (s.sb 3).size ∧ (s.sb 3).base.toNat + (s.sb 3).bytes.toNat ≤ s.memBytes ∧ s.quiet)) = true := by
  decide +kernel
theorem witness_SbDiscardEffect :
    let s := buffered 1 100 40 30
    s.quiet ∧ s.mayRun (.sbDiscard 3 100) ∧ s.mayRun (.sbDiscard 3 139) ∧ s.mayRun (.sbDiscard 3 140) ∧ (s.sb 3).on = true ∧
      (s.sb 3).widx.toNat ≤ (s.sb 3).size ∧ (s.sb 3).base.toNat + (s.sb 3).bytes.toNat ≤ s.memBytes := by decide +kernel
theorem witness_IndexOutOfRangeFaults :
    still.mayRun (.sbGet 32 0 8) ∧ still.mayRun (.sbInit 255 0 8) ∧ engine.mayRun (.chPlaying 2) ∧ engine.mx.on = true ∧
      engine.mx.nch.toNat ≤ 2 := by decide +kernel
theorem witness_MxInitEffect :
    let s := withAllocs still [0x400000]
    s.mayRun (.mxInit 1 44100) ∧ s.mayRun (.mxInit 32 44100) ∧ s.owner = .none ∧ rateValid s.params.videoClockHz 44100 ∧
      s.oracle.allocs = some 0x400000 :: [] ∧ s.mayAlloc 0x400000 (4 * ringFrames (actualRate s.params.videoClockHz 44100)) := by
  decide +kernel
theorem witness_MxCloseEffect :
    [engine, engineReady].all (fun s =>
      decide (s.mayRun .mxClose ∧ s.mx.on = true ∧ s.quiet ∧ s.irqDepth ≠ 0xFFFFFFFF ∧ s.ai.fifo = [])) = true ∧
      let s := { engine with ai := { engine.ai with fifo := [⟨0x400000, 8⟩] } }
      s.mayRun .mxClose ∧ s.quiet ∧ s.ai.fifo ≠ [] := by decide +kernel
theorem witness_MxRateAndMasterVolume :
    still.mx.on = false ∧ still.mayRun .mxSampleRate ∧ still.mayRun (.mxSetMasterVolume 0) ∧
      engine.mx.on = true ∧ engine.mayRun .mxSampleRate ∧ engine.mayRun (.mxSetMasterVolume 0x10000) ∧
      engine.mayRun (.mxSetMasterVolume 0x10001) := by decide +kernel
theorem witness_CommandsBeforeInitFault :
    still.mayRun .aiClose ∧ still.drv.on = false ∧ still.mayRun (.sbGet 31 0 8) ∧ (still.sb 31).on = false ∧
      still.mayRun (.mxPoll 2) ∧ still.mx.on = false ∧ still.mx.inPoll = false ∧ still.mayRun (.evRemove 1) ∧
      still.mayRun .vsNextFrame ∧ still.vs.on = false ∧ driver.mayRun (.aiInit 4 44100) ∧ driver.mayRun (.mxInit 2 44100) ∧
      driver.owner ≠ .none := by decide +kernel
theorem witness_ChSetLimitsEffect :
    [engine, engineReady].all (fun s =>
      decide (s.channelReady (.chSetLimits 1 8 1 0) ∧ s.channelReady (.chSetLimits 0 16 0xAC440000 0x100) ∧ s.mx.nch.toNat ≤ 32 ∧
        ∀ c < s.mx.nch.toNat, (s.desc c).ptr = 0)) = true := by decide +kernel
theorem witness_EnsureBuffersEffect :
    let s := withAllocs engine [0x4072C0]
    s.mx.bufMem = 0 ∧ s.mx.nch.toNat ≤ 32 ∧ s.oracle.allocs = some 0x4072C0 :: [] ∧ s.mayAlloc 0x4072C0 s.bufTotal := by
  decide +kernel
/-- The hypotheses of `CH_PLAY` on channel 0, in a buffer that is bound to this waveform or to none. -/
def playable (s : State) (wave : Word) : Prop :=
  let w := s.waveAt wave
  let b := if w.bits = 16 then 1 else 0
  let sb := if (s.chan 0).wave.id = wave then s.sb 0
    else { s.sb 0 with wpos := 0, widx := 0, ridx := 0, bps := BitVec.ofNat 2 b, decFn := 0xFFFFFFFE, decCtx := 0 }
  s.channelReady (.chPlay 0 wave) ∧ wave ≠ 0 ∧ wave.toNat + 0x1C ≤ s.memBytes ∧ s.waveLegal wave ∧
    (s.chan 0).limits.admits w ∧ s.mx.bufMem ≠ 0 ∧
    (w.loop ≠ 0 → w.loop.toNat + 80 ≤ sb.size → w.len.toNat * 2 ^ (12 + b) < 2 ^ 32) ∧ sb.base - w32 (sb.wpos.toNat * 2 ^ b) ≠ 0
theorem witness_ChPlayEffect_noLoop : playable engineReady 0x100000 := by unfold playable; decide +kernel
theorem witness_ChPlayEffect_resident : playable engineReady 0x100040 := by unfold playable; decide +kernel
theorem witness_ChPlayEffect_again : playable (loopingC 0) 0x100040 := by unfold playable; decide +kernel
theorem witness_ChPlayEffect_unrolled : playable (engineReady.modSb 0 fun b => { b with bytes := 256 }) 0x100020 := by
  unfold playable; decide +kernel
theorem witness_ChStopAndReaders :
    (loopingB 0x834000).channelReady (.chStop 0) ∧ (loopingB 0x7D0000).channelReady (.chGetPosition 0) ∧
      engine.channelReady (.chPlaying 1) := by decide +kernel
theorem witness_ChFrequencyAndPosition :
    (loopingC 0).channelReady (.chSetFrequency 0 0xAC440000) ∧ (loopingC 0).channelReady (.chSetFrequency 0 0xAC440001) ∧
      (loopingC 0).mx.rate ≠ 0 ∧ (loopingC 0).channelReady (.chSetPosition 0 0x7D0000) ∧
      engine.channelReady (.chSetPosition 1 0xFFFFFFFF) := by decide +kernel
theorem witness_ChVolumeEffect :
    engine.channelReady (.chSetVolume 1 0x10000 0) ∧ engine.channelReady (.chSetPan 0 0x10000 0x10000) ∧
      engine.channelReady (.chSetDolby 0 0x10000 0 0 0 0) ∧ (∀ x ∈ ([0x10000, 0, 0, 0, 0] : List Word), x.toNat ≤ 0x10000) := by
  refine ⟨by decide +kernel, by decide +kernel, by decide +kernel, by simp⟩
theorem witness_RawReadsStayInside :
    let w := ((loopingB 0).chan 0).wave
    (loopingB 0).quiet ∧ w.loop.toNat ≤ w.len.toNat ∧ 80 - min 80 (w.len.toNat - w.rolled 1990) ≤ max w.loop.toNat 64 + 7 ∧
      507 - min 507 (w.len.toNat - w.rolled 2000) ≤ max w.loop.toNat 64 + 7 ∧ (engineReady.chan 0).wave.loop = 0 := by decide +kernel
theorem witness_JobBlockReadsBack :
    (0xFFFFFFFF : Nat) < 2 ^ 32 ∧ 0 < (loopingC 0).mx.nch.toNat ∧ ((loopingC 0).desc 0).ptr ≠ 0 ∧ ((loopingC 0).desc 1).ptr = 0 := by
  decide +kernel
theorem witness_HandoffAdvancesPositions :
    (loopingC 0).mx.nch.toNat ≤ 32 ∧ 0 < (loopingC 0).mx.nch.toNat ∧ ((loopingC 0).chan 0).desc.ptr ≠ 0 ∧
      let d := ((loopingC 0).chan 0).desc
      d.loopLen ≠ 0 ∧ d.loopLen.toNat ≤ d.len.toNat ∧ d.wrap d.len.toNat = d.len.toNat - d.loopLen.toNat ∧
        d.wrap (d.len.toNat - 1) = d.len.toNat - 1 := by decide +kernel
/-- Channels that need no decoder call: no loop, one sample before its end; a resident loop, at its start; an unrolled one, past the end. -/
def heldA : State := sounding (engineReady.modSb 0 fun b => { b with bps := 0, wpos := 999, widx := 8, decFn := wrapCb }) 0
  ⟨0x3E7000, 4096, 0, 0, 1, 0⟩ ⟨0x100000, 8, 0xAC440000, 1000, 0, 0x8000, 0⟩
def heldB : State := sounding (engineReady.modSb 0 fun b => { b with bps := 0, wpos := 1500, widx := 564, decFn := wrapCb }) 0
  ⟨0x5DC000, 4096, 0, 0, 1, 0⟩ ⟨0x100020, 8, 0xAC440000, 2000, 500, 0x8000, 0⟩
/-- The state R255 leaves behind: the window starts less than 8 samples before the loop. -/
def heldD : State := heldB.modSb 0 fun b => { b with wpos := 1496, widx := 568 }
def heldC : State := sounding (engineReady.modSb 0 fun b => { b with bytes := 256, bps := 0, wpos := 2000, widx := 64, decFn := wrapCb }) 0
  ⟨0x7D0000, 4096, 0, 0, 1, 0⟩ ⟨0x100020, 8, 0xAC440000, 2000, 500, 0x8000, 0⟩
/-- Every Playing channel's window of `n` frames is held. -/
def allHeld (s : State) (n : Nat) : Bool :=
  (List.range s.mx.nch.toNat).all fun c => decide ((s.desc c).ptr ≠ 0 → s.windowHeld c n)
theorem witness_MxExecEffect :
    [engine, heldA, heldB, heldC, heldD].all (fun e =>
      let s := { e with mx := { e.mx with subRun := true } }
      decide (s.fault = none ∧ s.mx.subRun = true ∧ s.quiet ∧ allHeld s 4 = true ∧
        s.coproc.jobBusy = false ∧ (clientStart s).coproc.jobBusy = true ∧ (clientStart s).mx.subRun = true)) = true ∧
      (heldA.desc 0).ptr ≠ 0 ∧ (heldC.rolledBack 0).1.pos = 0x5DC000 ∧ engine.mx.subRun = false := by decide +kernel
theorem witness_MxPollChecks :
    engine.mayRun (.mxPoll 0) ∧ engine.mayRun (.mxPoll 1) ∧ engine.mayRun (.mxPoll 7346) ∧ engine.mx.on = true ∧
      engine.mx.inPoll = false ∧ engine.ring.nf.toNat < 7346 ∧
      ({ engine with mx := { engine.mx with inPoll := true } }).mx.inPoll = true := by decide +kernel
theorem witness_MxPollEffect :
    [(engine, 2), (engine, 7344), ({ engine with ring := { engine.ring with w := 29368 } }, 4),
      (heldA, 4), (heldB, 2), (heldD, 2),
      ({ engine with
          ring := { engine.ring with w := 8, inflight := [⟨0x400000, 8⟩] }, ai := { engine.ai with fifo := [⟨0x400000, 8⟩] } }, 4)].all
      (fun x =>
        let s : State := x.1
        let n : Word := x.2
        let off := if 4 * s.ring.nf.toNat < s.ring.w.toNat + 4 * n.toNat then 0 else s.ring.w.toNat
        decide (s.mayRun (.mxPoll n) ∧ s.mx.on = true ∧ s.mx.inPoll = false ∧ s.mx.nch.toNat ≤ 32 ∧ n.toNat % 2 = 0 ∧ 0 < n.toNat ∧
          n.toNat ≤ s.ring.nf.toNat ∧ s.quiet ∧ s.irqDepth ≠ 0xFFFFFFFF ∧
          allHeld s n.toNat = true ∧ s.events = [] ∧
          s.coproc.jobBusy = false ∧ s.ai.fifo.length < 2 ∧ s.ring.pending = none ∧ s.ring.inflight.length ≤ s.ai.fifo.length ∧
          s.ring.ready off n.toNat ∧ s.ring.base.toNat + 4 * s.ring.nf.toNat < 2 ^ 32 ∧ s.mx.ticks.toNat + n.toNat < 2 ^ 64)) =
      true ∧ heldD.params.backend = .reference ∧ (heldD.desc 0).ptr ≠ 0 ∧ engine.params.backend = .reference ∧
        engine.ring.base.toNat + 4 * engine.ring.nf.toNat ≤ engine.memBytes := by decide +kernel
theorem witness_EventListCommands :
    let full := { engine with events := List.replicate 32 ⟨0, 5, 0xA, 0⟩ }
    engine.mx.on = true ∧ engine.mayRun (.evAdd 500 0x7000 1) ∧ ¬ reservedHandle 0x7000 ∧ engine.events.length < 32 ∧
      engine.mx.ticks.toNat + 500 < 2 ^ 64 ∧ full.events.length = 32 ∧ full.mayRun (.evAdd 0 0x7000 0) ∧
      twoDue.mayRun (.evRemove 0xB) ∧ twoDue.events = [⟨0, 300, 0xA, 0⟩] ++ ⟨1, 100, 0xB, 1⟩ :: [⟨2, 90, 0xC, 2⟩] ∧
      (∀ x ∈ ([⟨0, 300, 0xA, 0⟩] : List Event), x.cb ≠ 0xB) ∧ twoDue.mayRun (.evRemove 0xD) ∧ ∀ x ∈ twoDue.events, x.cb ≠ 0xD := by
  decide +kernel
theorem witness_FireOneEffect :
    [some 0, some 7, none].all (fun ret =>
      let s := withRuns twoDue [⟨[], ret⟩]
      decide (s.oracle.free = false ∧ s.oracle.moves = [] ∧ s.oracle.ties = [] ∧ s.oracle.runs = [⟨[], ret⟩] ∧ s.dueEvents ≠ [] ∧
        (s.events.map Event.id).Nodup ∧ s.mx.ticks.toNat + (7 : Word).toNat < 2 ^ 64)) = true ∧ twoDue.oracle.runs = [] := by
  decide +kernel
/-- R295: a callback that returns 7 keeps its record, at its place, due at tick 107. -/
theorem test_fireOne_again :
    (match fireOne (withRuns twoDue [⟨[], some 7⟩]) with
      | .ok _ t => t.events == [⟨0, 300, 0xA, 0⟩, ⟨1, 100, 0xB, 1⟩, ⟨2, 107, 0xC, 2⟩]
      | .error _ _ => false) = true := by decide +kernel
theorem witness_SubRunBounds :
    let s := { engine with events := [⟨0, 1, 0xA, 0⟩, ⟨1, 300, 0xB, 0⟩] }
    s.dueEvents = [] ∧ s.subRunLength 1000 = 1 ∧ engine.dueEvents = [] ∧ engine.subRunLength 1000 = 1000 := by decide +kernel
theorem witness_OnlyPollMovesTicks : ∃ t, exec .irqDisable engine = .next t := ⟨_, rfl⟩
theorem witness_VsInitEffect :
    still.mayRun (.vsInit 0x10000 2) ∧ 2 * (0x10000 : Word).toNat ≤ (2 : Word).toNat * 65536 ∧ engine.mayRun (.vsInit 0x3C0000 0) ∧
      engine.mx.on = true ∧ 2 * (0x3C0000 : Word).toNat ≤ engine.mx.rate.toNat * 65536 := by decide +kernel
theorem witness_VsFrameEffect :
    paced.vs.on = true ∧ paced.mayRun .vsCurrentFrameSamples ∧ paced.mayRun .vsSuggestedBufferSize ∧ paced.mayRun .vsNextFrame ∧
      (⌈paced.vs.counter⌉ + ⌈paced.vs.counter⌉ % 2).toNat < 2 ^ 32 ∧ (⌈paced.vs.spf⌉ + ⌈paced.vs.spf⌉ % 2).toNat < 2 ^ 32 ∧
      2 ≤ paced.vs.spf ∧ paced.vs.spf - 2 < paced.vs.counter ∧ paced.vs.counter ≤ paced.vs.spf ∧ 0 < paced.vs.counter := by
  decide +kernel
theorem witness_FrameCountBounds : (⟨true, 0x3C0000, 32000, 1600 / 3, 1600 / 3⟩ : VideoSync).counter = 1600 / 3 := by decide +kernel
theorem witness_SettingCommandsKeepMemory :
    (Instr.mxSampleRate).opcode = 0x22 ∧ ∃ t, exec .mxSampleRate engine = .next t := ⟨by decide, _, rfl⟩
theorem witness_StepKeepsLegal : still.legal ∧ engine.legal ∧ ∃ t, step (offering still ⟨0x60000000, 0, 0, 0, 0, 0⟩) = .next t :=
  ⟨by decide +kernel, by decide +kernel, _, rfl⟩
theorem witness_StepKeepsWindows :
    (buffered 1 0 128 128).windowsLegal ∧ ∃ t, step (offering (buffered 1 0 128 128) ⟨0x60000000, 0, 0, 0, 0, 0⟩) = .next t :=
  ⟨by decide +kernel, _, rfl⟩

end Sys2Proof.Tests
end

section
/-!
SUPPORT. A step in which the foreground moves (spec/00_scope.md R10): choosing the agent leaves the foreground's work alone, and the work a
packet stands for is the one its decoding names (spec/30_encoding.md R100 to R103).
-/

namespace Sys2Proof.Machine

/-! ### Choosing the agent that moves -/

@[simp] theorem nextAgent_pending (s : State) : s.nextAgent.2.pending = s.pending := by
  obtain ⟨o, ho⟩ := nextAgent_state s
  rw [ho]

@[simp] theorem nextAgent_host (s : State) : s.nextAgent.2.host = s.host := by
  obtain ⟨o, ho⟩ := nextAgent_state s
  rw [ho]

theorem step_hostTurn {s : State} (hf : s.fault = none) (ha : s.nextAgent.1 = .host) :
    step s = hostTurn exec s.nextAgent.2 := by
  have running : ¬ s.fault.isSome := by simp [hf]
  rw [step, if_neg running, ha, agentTurn]

/-! ### The work in the foreground's next action -/

theorem workOf_issue_instr {p : Packet} {i : Instr} {ws : List Word} (hd : decode p.words = .instr i ws) :
    workOf (.issue p) = .run i := by
  simp only [workOf, hd]

theorem hostTurn_run {s : State} {a : HostAct} {rest : List HostAct} {i : Instr}
    (run : Instr → State → Host.Outcome State Fault Refusal)
    (hp : s.pending = none) (hh : s.host = a :: rest) (hw : workOf a = .run i) :
    hostTurn run s = run i { s with host := rest } := by
  simp only [hostTurn, hp, hh, hw]

/-- Settles O6: the agent's choice leaves the pending command and the list of actions as they were, so the foreground takes up the packet, and
its work is to run the decoded instruction. -/
theorem stepRunsDecodedInstruction : Obligations.StepRunsDecodedInstruction := by
  intro s p rest i ws hfault hpending hagent hhost hdecode
  calc step s
      = hostTurn exec s.nextAgent.2 := step_hostTurn hfault hagent
    _ = exec i { s.nextAgent.2 with host := rest } :=
        hostTurn_run exec ((nextAgent_pending s).trans hpending) ((nextAgent_host s).trans hhost) (workOf_issue_instr hdecode)

end Sys2Proof.Machine
end

section
/-!
SUPPORT. Contracts of computations: a claim about the state a computation starts in and the one it answers or stops in.  One walk over the
model shows that every computation honours each contract that its elementary updates honour (spec/00_scope.md R10, R343, R360).
-/

namespace Sys2Proof.Machine

set_option Elab.async false

/-- `ok` relates the state a computation starts in to the one it answers in, `stop` to the one it stops in. -/
structure Contract where
  ok : State → State → Prop
  stop : Stop → State → State → Prop

/-- What a contract says of a result, for a computation that started in `s`. -/
def Contract.Claims {α : Type} (C : Contract) (s : State) : EStateM.Result Stop State α → Prop
  | .ok _ t => C.ok s t
  | .error e t => C.stop e s t

/-- The computation honours the contract when it starts in `s`. -/
def ObeysAt {α : Type} (C : Contract) (x : Act α) (s : State) : Prop := C.Claims s (x s)

/-- The computation honours the contract from every state. -/
def Obeys {α : Type} (C : Contract) (x : Act α) : Prop := ∀ s, ObeysAt C x s

/-! ### Elementary updates -/

/-- A volume in [0, 0x7FFF] on both sides (R35). -/
def Volume.legal (v : Volume) : Prop := v.l.toNat ≤ 0x7FFF ∧ v.r.toNat ≤ 0x7FFF

/-- Every volume of the table is legal. -/
def volumesLegal (t : Table Channel) : Prop := ∀ c < 32, (Table.at t c).vol.legal

/-- An update that leaves the critical section's depth and the clock alone, and every bound of the legal form but the buffers' in place. -/
structure Bounded (s t : State) : Prop where
  depth : t.irqDepth = s.irqDepth := by rfl
  ticks : t.mx.ticks = s.mx.ticks := by rfl
  mem : s.mem.wf → t.mem.wf := by intro h; exact h
  coproc : s.coproc.mem.wf → t.coproc.mem.wf := by intro h; exact h
  dirty : s.cache.dirty.Pairwise (fun x y => x.1 < y.1) → t.cache.dirty.Pairwise (fun x y => x.1 < y.1) := by intro h; exact h
  fifo : s.ai.fifo.length ≤ 2 → t.ai.fifo.length ≤ 2 := by intro h; exact h
  regions : s.drv.inflight.length ≤ 2 → t.drv.inflight.length ≤ 2 := by intro h; exact h
  blocks : s.ring.inflight.length ≤ 2 → t.ring.inflight.length ≤ 2 := by intro h; exact h
  events : s.events.length ≤ 32 → t.events.length ≤ 32 := by intro h; exact h
  master : s.mx.master.toNat ≤ 0x7FFF → t.mx.master.toNat ≤ 0x7FFF := by intro h; exact h
  volumes : volumesLegal s.chans → volumesLegal t.chans := by intro h; exact h

/-- A bounded update that touches no sample buffer. -/
structure Tame (s t : State) : Prop extends Bounded s t where
  sbs : t.sbs = s.sbs := by rfl

/-- The read cursor is within the window, and the window within the buffer (R31). -/
def SampleBuf.windowLegal (b : SampleBuf) : Prop := b.ridx.toNat ≤ b.widx.toNat ∧ b.widx.toNat ≤ b.size

/-- What an update of one buffer keeps: its bit-width shift in range, and its window legal (R29, R31). -/
structure SampleBuf.Kept (a b : SampleBuf) : Prop where
  bps : a.bps.toNat ≤ 1 → b.bps.toNat ≤ 1 := by intro h; exact h
  window : a.windowLegal → b.windowLegal := by intro h; exact h

/-- A bounded update that keeps every sample buffer's bounds. -/
structure Kept (s t : State) : Prop extends Bounded s t where
  bufs : ∀ i < 32, (s.sb i).Kept (t.sb i)

theorem Tame.kept {s t : State} (h : Tame s t) : Kept s t where
  toBounded := h.toBounded
  bufs i _ := by rw [State.sb, State.sb, h.sbs]; exact {}

theorem Bounded.trans {s t u : State} (h : Bounded s t) (k : Bounded t u) : Bounded s u where
  depth := k.depth.trans h.depth
  ticks := k.ticks.trans h.ticks
  mem := k.mem ∘ h.mem
  coproc := k.coproc ∘ h.coproc
  dirty := k.dirty ∘ h.dirty
  fifo := k.fifo ∘ h.fifo
  regions := k.regions ∘ h.regions
  blocks := k.blocks ∘ h.blocks
  events := k.events ∘ h.events
  master := k.master ∘ h.master
  volumes := k.volumes ∘ h.volumes

theorem Tame.trans {s t u : State} (h : Tame s t) (k : Tame t u) : Tame s u where
  toBounded := h.toBounded.trans k.toBounded
  sbs := k.sbs.trans h.sbs

/-! ### Draws -/

/-- A draw answers, and changes the environment's choices alone. -/
theorem draws_answer (s : State) :
    (∀ idle, ∃ a o, drawMovesOr idle s = .ok a { s with oracle := o }) ∧ (∃ a o, drawRun s = .ok a { s with oracle := o }) ∧
      (∃ a o, drawAlloc s = .ok a { s with oracle := o }) ∧ ∃ a o, drawTie s = .ok a { s with oracle := o } := by
  refine ⟨fun idle => ?_, ?_, ?_, ?_⟩ <;>
  · simp only [drawMovesOr, drawRun, drawAlloc, drawTie]
    split
    · exact ⟨_, _, rfl⟩
    · split
      · exact ⟨_, _, rfl⟩
      · exact ⟨_, s.oracle, rfl⟩

theorem resultWord_answers (v : Nat) (s : State) : ∃ a o, resultWord v s = .ok a { s with oracle := o } := by
  unfold resultWord
  split
  · exact ⟨_, s.oracle, rfl⟩
  · exact ⟨_, _, rfl⟩

theorem laterTick_answers (t : Dword) (n : Nat) (s : State) : ∃ a o, laterTick t n s = .ok a { s with oracle := o } := by
  unfold laterTick
  split
  · exact ⟨_, s.oracle, rfl⟩
  · exact ⟨_, _, rfl⟩

/-! ### Contracts that the elementary updates honour -/

/-- A contract that composes, and that tame updates, faults, critical sections and the interrupt honour. -/
structure Contract.Sound (C : Contract) : Prop where
  trans : ∀ {s t u}, C.ok s t → C.ok t u → C.ok s u
  thenStop : ∀ {e s t u}, C.ok s t → C.stop e t u → C.stop e s u
  tame : ∀ {s t}, Tame s t → C.ok s t
  fault : ∀ s c v, C.stop .fatal s (s.enterFaulted c v)
  stay : ∀ e s, e ≠ .fatal → C.stop e s s
  critical : ∀ {body}, Obeys C body → Obeys C (critical body)
  interrupt : ∀ {handler}, Obeys C handler → Obeys C (interrupt handler)

variable {C : Contract} {α β : Type}

/-! ### Combinators -/

theorem obeysAt_get_bind {f : State → Act β} {s : State} (h : ObeysAt C (f s) s) : ObeysAt C ((get : Act State) >>= f) s := h

theorem obeys_read {f : State → Act β} (h : ∀ s, Obeys C (f s)) : Obeys C ((get : Act State) >>= f) := fun s => h s s

theorem obeys_ite {p : Prop} [Decidable p] {x y : Act α} (hx : Obeys C x) (hy : Obeys C y) : Obeys C (if p then x else y) := by
  split
  · exact hx
  · exact hy

namespace Contract.Sound

variable (hC : C.Sound)
include hC

theorem refl (s : State) : C.ok s s := hC.tame {}

theorem answer (a : α) : Obeys C (pure a : Act α) := hC.refl

theorem bindAt {x : Act α} {f : α → Act β} {s : State} (hx : ObeysAt C x s)
    (hf : ∀ a t, x s = .ok a t → ObeysAt C (f a) t) : ObeysAt C (x >>= f) s := by
  unfold ObeysAt at hx ⊢
  rw [act_bind]
  cases e : x s with
  | error r t => rw [e] at hx; exact hx
  | ok a t =>
    rw [e] at hx
    have ht := hf a t e
    unfold ObeysAt at ht
    show C.Claims s (f a t)
    cases e' : f a t with
    | ok b u => rw [e'] at ht; exact hC.trans hx ht
    | error r u => rw [e'] at ht; exact hC.thenStop hx ht

theorem bind {x : Act α} {f : α → Act β} (hx : Obeys C x) (hf : ∀ a, Obeys C (f a)) : Obeys C (x >>= f) :=
  fun s => hC.bindAt (hx s) fun a t _ => hf a t

theorem update {g : State → State} (h : ∀ s, Tame s (g s)) : Obeys C (modify g : Act PUnit) := fun s => hC.tame (h s)

theorem updateBind {g : State → State} {f : PUnit → Act β} (h : ∀ s, Tame s (g s)) (hf : ∀ a, Obeys C (f a)) :
    Obeys C ((modify g : Act PUnit) >>= f) := hC.bind (hC.update h) hf

/-- A computation that replaces the state it reads. -/
theorem readSet {g : State → State} {f : State → PUnit → Act β} (h : ∀ s, Tame s (g s)) (hf : ∀ s a, Obeys C (f s a)) :
    Obeys C ((get : Act State) >>= fun s => (set (g s) : Act PUnit) >>= f s) := fun s =>
  hC.bindAt (x := set (g s)) (hC.tame (h s)) fun a t _ => hf s a t

/-! ### Raising and checking -/

theorem raise (c : FaultCode) (v : Word) : Obeys C (Machine.raise c v : Act α) := fun s => hC.fault s c v

theorem raiseAfter {s t : State} (h : C.ok s t) (c : FaultCode) (v : Word) : C.Claims s ((Machine.raise c v : Act α) t) :=
  hC.thenStop h (hC.fault t c v)

theorem raiseBadState : Obeys C (Machine.raiseBadState : Act α) := fun s => hC.fault s _ _

theorem stick : Obeys C (Machine.stick : Act α) := fun s => hC.stay .stuck s nofun

theorem haltAt (f : Machine.Fault) (s : State) : ObeysAt C (halt f : Act α) s := hC.stay (.fault f) s nofun

theorem ensure (p : Prop) [Decidable p] (c : FaultCode) (v : Word) : Obeys C (Machine.ensure p c v) :=
  obeys_ite (hC.answer ()) (hC.raise c v)

theorem ensureState (p : Prop) [Decidable p] : Obeys C (Machine.ensureState p) := obeys_ite (hC.answer ()) hC.raiseBadState

/-- What follows a check may use the condition. -/
theorem ensureBindAt {p : Prop} [Decidable p] {c : FaultCode} {v : Word} {f : Unit → Act β} {s : State}
    (h : p → ObeysAt C (f ()) s) : ObeysAt C (Machine.ensure p c v >>= f) s :=
  hC.bindAt (hC.ensure p c v s) fun a t e => by
    rw [ensure_apply] at e
    split at e
    · cases e; exact h ‹p›
    · cases e

theorem checkIssuer : Obeys C Machine.checkIssuer := fun s => hC.ensureState _ s

/-! ### Loops -/

theorem forRange {f : Nat → Act Unit} (h : ∀ k, Obeys C (f k)) (n start : Nat) : Obeys C (Machine.forRange start f n) := by
  induction n generalizing start with
  | zero => exact hC.answer ()
  | succ n ih => exact hC.bind (h start) fun _ => ih (start + 1)

theorem forList {f : α → Act Unit} (h : ∀ x, Obeys C (f x)) (xs : List α) : Obeys C (Machine.forList f xs) := by
  induction xs with
  | nil => exact hC.answer ()
  | cons x xs ih => exact hC.bind (h x) fun _ => ih

/-! ### The environment's draws -/

theorem draw {x : Act α} {s : State} (h : ∃ a o, x s = .ok a { s with oracle := o }) : ObeysAt C x s := by
  obtain ⟨a, o, e⟩ := h
  unfold ObeysAt
  rw [e]
  exact hC.tame {}

theorem drawMovesOr (idle : List Agent) : Obeys C (Machine.drawMovesOr idle) := fun s => hC.draw ((draws_answer s).1 idle)

theorem drawRun : Obeys C Machine.drawRun := fun s => hC.draw (draws_answer s).2.1

theorem drawAlloc : Obeys C Machine.drawAlloc := fun s => hC.draw (draws_answer s).2.2.1

theorem drawTie : Obeys C Machine.drawTie := fun s => hC.draw (draws_answer s).2.2.2

theorem resultWord (v : Nat) : Obeys C (Machine.resultWord v) := fun s => hC.draw (resultWord_answers v s)

theorem laterTick (t : Dword) (n : Nat) : Obeys C (Machine.laterTick t n) := fun s => hC.draw (laterTick_answers t n s)

end Contract.Sound
end Sys2Proof.Machine
end

section
/-!
SUPPORT. The contracts of the shared operations, the device and the two dispatchers: memory accesses, device moves, what a boundary lets
the other agents do, and the interrupt (Machine/Ops.lean, Machine/Device.lean, Machine/Dispatchers.lean).
-/

namespace Sys2Proof.Machine

set_option Elab.async false

/-! ### The dirty bytes stay in order -/

/-- By rising address. -/
abbrev risingCells (d : List Host.Cell) : Prop := d.Pairwise fun x y => x.1 < y.1

theorem dirtyOutside_rising {d : List Host.Cell} (h : risingCells d) (a n : Nat) : risingCells (dirtyOutside d a n) := h.filter _

theorem cachedPut_rising {s : State} (h : risingCells s.cache.dirty) (a : Nat) (bs : List Byte) :
    risingCells (s.cachedPut a bs).cache.dirty := by
  refine List.pairwise_append.mpr ⟨List.pairwise_append.mpr ⟨h.filter _, cellsOf_sorted a bs, ?_⟩, h.filter _, ?_⟩
  · intro c hc d hd
    exact (Memory.below_key hc).trans_le (cellsOf_key hd).1
  · intro c hc d hd
    have hd := Memory.above_key hd
    rcases List.mem_append.mp hc with hc | hc
    · have := Memory.below_key hc
      omega
    · have := (cellsOf_key hc).2
      omega

/-! ### Updates of memory -/

theorem tame_cpuPut (s : State) (a : Nat) (bs : List Byte) : Tame s (s.cpuPut a bs) where
  mem h := cpuPut_wf h a bs
  dirty h := dirtyOutside_rising h a bs.length

theorem tame_cpuClear (s : State) (a n : Nat) : Tame s (s.cpuClear a n) where
  mem h := cpuClear_wf h a n
  dirty h := dirtyOutside_rising h a n

theorem tame_cachedPut (s : State) (a : Nat) (bs : List Byte) : Tame s (s.cachedPut a bs) where
  dirty h := cachedPut_rising h a bs

theorem tame_invalidate (s : State) (a n : Nat) : Tame s (s.invalidate a n) where
  dirty h := dirtyOutside_rising h a n

theorem tame_hwPut (s : State) (a : Nat) (bs : List Byte) : Tame s (s.hwPut a bs) where
  mem h := hwPut_wf h a bs

theorem tame_foldl {α : Type} {f : State → α → State} (h : ∀ s a, Tame s (f s a)) (xs : List α) (s : State) :
    Tame s (xs.foldl f s) := by
  induction xs generalizing s with
  | nil => exact {}
  | cons x xs ih => exact (h s x).trans (ih (f s x))

theorem tame_writeback (s : State) (a n : Nat) : Tame s (s.writeback a n) := 
  tame_foldl (fun s (c : Host.Cell) => tame_cpuPut s c.1 [c.2]) _ s

/-! ### Moves of the hardware agents (R354 to R357, R265) -/

theorem tame_upload (s : State) (out n : Nat) : Tame s (s.upload out n) where
  coproc h := upload_wf h out n

theorem tame_runJob (s : State) : Tame s s.runJob where
  mem h := hwPut_wf h _ _
  coproc h := writePositions_wf _ _ _ h

theorem tame_coprocMove (s : State) : Tame s (coprocMove s) := by
  unfold coprocMove
  split
  · exact tame_runJob s
  · exact {}

theorem tame_aiDmaMove (s : State) : Tame s (aiDmaMove s) := by
  unfold aiDmaMove
  split
  · split
    · exact {}
    · next x rest he =>
      exact { fifo := fun h => by
                rw [he] at h
                exact (Nat.le_succ _).trans h }
  · exact {}

theorem tame_clientStart (s : State) : Tame s (clientStart s) := by
  rcases clientStart_cases s with h | ⟨-, o, h⟩
  · rw [h]; exact {}
  · rw [h]; exact {}

theorem tame_clientWrite (s : State) (c : Nat × Byte) : Tame s (clientWrite s c) := by
  unfold clientWrite
  split
  · exact tame_hwPut s _ _
  · exact {}

theorem tame_clientDone (s : State) (ws : List (Nat × Byte)) : Tame s (clientDone s ws) := by
  unfold clientDone
  split
  · exact (tame_foldl tame_clientWrite ws s).trans {}
  · exact {}

theorem tame_deviceMove (a : Agent) (s : State) : Tame s (deviceMove a s) := by
  cases a with
  | host => exact {}
  | irq => exact {}
  | aiDma => exact tame_aiDmaMove s
  | coproc => exact tame_coprocMove s
  | clientStart => exact tame_clientStart s
  | clientDone ws => exact tame_clientDone s ws

section
variable {C : Contract}

/-! ### The block's accesses to memory -/

theorem blockWrite_obeys (hC : C.Sound) (a : Nat) (bs : List Byte) : Obeys C (blockWrite a bs) := by
  intro s
  unfold ObeysAt blockWrite
  split
  · exact hC.tame (tame_cpuPut s a bs)
  · exact hC.raiseAfter (hC.tame (tame_cpuPut s a _)) _ _

theorem blockZero_obeys (hC : C.Sound) (a n : Nat) : Obeys C (blockZero a n) := by
  intro s
  unfold ObeysAt blockZero
  split
  · exact hC.tame (tame_cpuClear s a n)
  · exact hC.raiseAfter (hC.tame (tame_cpuClear s a _)) _ _

theorem copyByte_obeys (hC : C.Sound) (src dst : Nat) : Obeys C (copyByte src dst) :=
  obeys_read fun _ => hC.bind (hC.ensure _ _ _) fun _ => blockWrite_obeys hC _ _

theorem alloc_obeys (hC : C.Sound) (n : Nat) : Obeys C (alloc n) := by
  refine hC.bind hC.drawAlloc fun proposal => ?_
  cases proposal with
  | none => exact hC.answer _
  | some a =>
    intro s
    show C.Claims s (if _ then _ else _)
    split
    · exact hC.tame {}
    · exact hC.refl s

theorem freeRegion_obeys (hC : C.Sound) (a : Word) : Obeys C (freeRegion a) := hC.update fun _ => {}

/-! ### Host code -/

theorem hostAccess_obeys (hC : C.Sound) (a : HostAct) : Obeys C (hostAccess a) := by
  intro s
  cases a with
  | issue p => exact hC.refl s
  | write cached w a v =>
    show C.Claims s (if _ then _ else _)
    split
    · cases cached with
      | true => exact hC.tame (tame_cachedPut s _ _)
      | false => exact hC.tame (tame_cpuPut s _ _)
    · exact hC.haltAt (α := Unit) _ s
  | read cached w a =>
    show C.Claims s (if _ then _ else _)
    split
    · exact hC.tame {}
    · exact hC.haltAt (α := Unit) _ s
  | writeback a n => exact hC.tame (tame_writeback s _ _)
  | invalidate a n => exact hC.tame (tame_invalidate s _ _)

theorem runActs_obeys (hC : C.Sound) {issue : Packet → Act Unit} {b : Act Unit} (hi : ∀ p, Obeys C (issue p)) (hb : Obeys C b)
    (acts : List HostAct) : Obeys C (runActs issue b acts) := by
  induction acts with
  | nil => exact hC.answer ()
  | cons a acts ih =>
    have rest : Obeys C (do b; runActs issue b acts) := hC.bind hb fun _ => ih
    cases a with
    | issue p => exact hC.bind (hi p) fun _ => rest
    | write cached w a v => exact hC.bind (hostAccess_obeys hC _) fun _ => rest
    | read cached w a => exact hC.bind (hostAccess_obeys hC _) fun _ => rest
    | writeback a n => exact hC.bind (hostAccess_obeys hC _) fun _ => rest
    | invalidate a n => exact hC.bind (hostAccess_obeys hC _) fun _ => rest

/-- A callback honours the contract where the packets it issues and the boundaries do (R360, R361). -/
theorem callHost_obeys (hC : C.Sound) {issue : Packet → Act Unit} {b : Act Unit} (ctx : Ctx) (fn : Word) (args : List Nat)
    (hi : ∀ p, Obeys C (issue p)) (hb : Obeys C b) : Obeys C (callHost issue b ctx fn args) := by
  refine hC.readSet (fun _ => {}) fun s _ => hC.bind hC.drawRun fun run => hC.bind (runActs_obeys hC hi hb _) fun _ => ?_
  cases run.ret with
  | none => exact hC.stick
  | some r =>
    exact obeys_read fun _ => hC.bind (hC.ensure _ _ _) fun _ => hC.updateBind (fun _ => {}) fun _ => hC.answer _

theorem subCommand_obeys (hC : C.Sound) (i : Instr) {body : Act (List Word)} (h : Obeys C body) : Obeys C (subCommand i body) :=
  hC.readSet (fun _ => {}) fun _ _ => hC.bind h fun _ => hC.update fun _ => {}

theorem refusePacket_obeys (hC : C.Sound) (p : Packet) : Obeys C (refusePacket p) := by
  refine hC.readSet (fun _ => {}) fun s _ => ?_
  split
  · exact obeys_ite (hC.raise _ _) hC.raiseBadState
  · exact hC.raise _ _
  · exact hC.raiseBadState
  · exact hC.raise _ _
  · exact hC.raise _ _

/-! ### The device's registers (R350 to R355) -/

theorem aiWrite_obeys (hC : C.Sound) (r : AiReg) (v : Word) : Obeys C (aiWrite r v) := by
  cases r with
  | len =>
    intro s
    refine obeysAt_get_bind (hC.ensureBindAt fun hroom => hC.tame ?_)
    exact { fifo := fun _ => by
              show (s.ai.fifo ++ [_]).length ≤ 2
              rw [List.length_append]
              exact hroom }
  | dramAddr => exact hC.update fun _ => {}
  | control => exact hC.update fun _ => {}
  | status => exact hC.update fun _ => {}
  | dacrate => exact hC.update fun _ => {}
  | bitrate => exact hC.update fun _ => {}

theorem enqueue_obeys (hC : C.Sound) (a v : Word) : Obeys C (enqueue a v) :=
  hC.bind (aiWrite_obeys hC _ _) fun _ => aiWrite_obeys hC _ _

theorem startDevice_obeys (hC : C.Sound) (n : Nat) : Obeys C (startDevice n) :=
  hC.bind (aiWrite_obeys hC _ _) fun _ => hC.bind (aiWrite_obeys hC _ _) fun _ => aiWrite_obeys hC _ _

theorem deviceBoundary_obeys (hC : C.Sound) : Obeys C deviceBoundary :=
  hC.bind (hC.drawMovesOr []) fun moves => hC.forList (fun a => hC.update fun s => tame_deviceMove a s) moves

/-! ### The driver's dispatch (R144 to R148) -/

theorem tame_retireHead (s : State) : Tame s (s.modDrv Driver.retireHead) where
  regions h := by
    show (Driver.retireHead s.drv).inflight.length ≤ 2
    unfold Driver.retireHead
    split
    · exact h
    · next k rest e =>
      rw [e] at h
      exact (Nat.le_succ _).trans h

theorem drvRetireLoop_obeys (hC : C.Sound) (n : Nat) : Obeys C (drvRetireLoop n) := by
  induction n with
  | zero => exact hC.answer ()
  | succ n ih =>
    exact hC.bind (deviceBoundary_obeys hC) fun _ => obeys_read fun _ =>
      obeys_ite (hC.updateBind tame_retireHead fun _ => ih) (hC.answer ())

theorem drvRetire_obeys (hC : C.Sound) : Obeys C drvRetire := obeys_read fun _ => drvRetireLoop_obeys hC _

theorem fillRegion_obeys (hC : C.Sound) : Obeys C fillRegion :=
  obeys_read fun _ => obeys_ite (blockZero_obeys hC _ _)
    (hC.bind (callHost_obeys hC _ _ _ (refusePacket_obeys hC) (deviceBoundary_obeys hC)) fun _ => hC.answer ())

theorem drvRefillLoop_obeys (hC : C.Sound) (n : Nat) : Obeys C (drvRefillLoop n) := by
  induction n with
  | zero => exact hC.answer ()
  | succ n ih =>
    exact obeys_read fun _ =>
      obeys_ite (hC.bind (fillRegion_obeys hC) fun _ => hC.updateBind (fun _ => {}) fun _ => ih) (hC.answer ())

/-- Queueing a transfer leaves the driver and the ring as they are. -/
theorem enqueue_keeps {a v : Word} {s t : State} (h : enqueue a v s = .ok () t) : t.drv = s.drv ∧ t.ring = s.ring := by
  by_cases hroom : s.ai.fifo.length < 2
  · rw [enqueue_ok hroom] at h
    cases h
    exact ⟨rfl, rfl⟩
  · have hfull : aiWrite .len v (s.modAi fun d => { d with addr := a &&& 0xFFFFFFF8 }) = _ := aiWrite_len_full (Nat.not_lt.mp hroom)
    have hstep : enqueue a v s = aiWrite .len v (s.modAi fun d => { d with addr := a &&& 0xFFFFFFF8 }) := rfl
    rw [hstep, hfull] at h
    cases h

theorem drvCommitLoop_obeys (hC : C.Sound) (n : Nat) : Obeys C (drvCommitLoop n) := by
  induction n with
  | zero => exact hC.answer ()
  | succ n ih =>
    refine hC.bind (deviceBoundary_obeys hC) fun _ s => obeysAt_get_bind ?_
    rw [ObeysAt, act_ite]
    split
    · next hmay =>
      obtain ⟨-, -, hfew, -⟩ := hmay
      refine hC.bindAt (enqueue_obeys hC _ _ s) fun _ t he => ?_
      obtain ⟨hdrv, -⟩ := enqueue_keeps he
      have hroom : t.drv.inflight.length < 2 := by rw [hdrv]; exact hfew
      refine hC.bindAt (hC.tame ?_) fun _ u _ => ih u
      exact { regions := fun _ => by
                show (t.drv.inflight ++ [_]).length ≤ 2
                rw [List.length_append]
                exact hroom }
    · exact hC.refl s

theorem drvDispatch_obeys (hC : C.Sound) : Obeys C drvDispatch :=
  hC.critical (hC.bind (drvRetire_obeys hC) fun _ => hC.bind (drvRefillLoop_obeys hC _) fun _ => drvCommitLoop_obeys hC _)

theorem drvIrq_obeys (hC : C.Sound) : Obeys C drvIrq :=
  hC.bind (aiWrite_obeys hC _ _) fun _ => obeys_read fun _ => obeys_ite (drvDispatch_obeys hC) (hC.answer ())

/-! ### The engine's dispatch (R275, R276) -/

theorem mxRetireLoop_obeys (hC : C.Sound) (n : Nat) : Obeys C (mxRetireLoop n) := by
  induction n with
  | zero => exact hC.answer ()
  | succ n ih =>
    refine hC.bind (deviceBoundary_obeys hC) fun _ => obeys_read fun _ =>
      obeys_ite (hC.updateBind (fun s => ?_) fun _ => ih) (hC.answer ())
    exact { blocks := fun h => by
              show s.ring.inflight.tail.length ≤ 2
              rw [List.length_tail]
              omega }

theorem mxCommitPending_obeys (hC : C.Sound) : Obeys C mxCommitPending := by
  refine hC.bind (deviceBoundary_obeys hC) fun _ s => obeysAt_get_bind ?_
  cases s.ring.pending with
  | none => exact hC.refl s
  | some x =>
    show ObeysAt C (if _ then _ else _) s
    rw [ObeysAt, act_ite]
    split
    · exact hC.refl s
    · next hmay =>
      have hroom : s.ring.inflight.length < 2 := by
        by_contra h
        exact hmay (.inr (Nat.not_lt.mp h))
      refine hC.bindAt (enqueue_obeys hC _ _ s) fun _ t he => hC.tame ?_
      obtain ⟨-, hring⟩ := enqueue_keeps he
      exact { blocks := fun _ => by
                show (t.ring.inflight ++ [x]).length ≤ 2
                rw [List.length_append, hring]
                exact hroom }

theorem mxDispatch_obeys (hC : C.Sound) : Obeys C mxDispatch :=
  hC.critical (obeys_read fun _ => hC.bind (mxRetireLoop_obeys hC _) fun _ => mxCommitPending_obeys hC)

theorem mxIrq_obeys (hC : C.Sound) : Obeys C mxIrq :=
  hC.bind (aiWrite_obeys hC _ _) fun _ => obeys_read fun _ => obeys_ite (mxDispatch_obeys hC) (hC.answer ())

/-! ### The interrupt and the boundary (R343 to R347) -/

theorem takeAiIrq_obeys (hC : C.Sound) : Obeys C takeAiIrq :=
  obeys_read fun _ => obeys_ite (hC.interrupt (obeys_ite (drvIrq_obeys hC) (mxIrq_obeys hC))) (hC.answer ())

theorem agentMove_obeys (hC : C.Sound) (a : Agent) : Obeys C (agentMove a) := by
  cases a with
  | irq => exact takeAiIrq_obeys hC
  | host => exact hC.answer ()
  | aiDma => exact hC.update fun s => tame_deviceMove _ s
  | coproc => exact hC.update fun s => tame_deviceMove _ s
  | clientStart => exact hC.update fun s => tame_deviceMove _ s
  | clientDone ws => exact hC.update fun s => tame_deviceMove _ s

theorem boundary_obeys (hC : C.Sound) : Obeys C boundary :=
  hC.bind (hC.drawMovesOr []) fun moves => hC.forList (agentMove_obeys hC) moves

theorem jobBoundary_obeys (hC : C.Sound) : Obeys C jobBoundary :=
  hC.bind (hC.drawMovesOr [.coproc]) fun moves => hC.forList (agentMove_obeys hC) moves

theorem zeroBytes_obeys (hC : C.Sound) (n dst : Nat) : Obeys C (zeroBytes dst n) := by
  induction n generalizing dst with
  | zero => exact hC.answer ()
  | succ n ih => exact hC.bind (blockZero_obeys hC _ _) fun _ => hC.bind (boundary_obeys hC) fun _ => ih _

theorem copyBytes_obeys (hC : C.Sound) (n src dst : Nat) : Obeys C (copyBytes src dst n) := by
  induction n generalizing src dst with
  | zero => exact hC.answer ()
  | succ n ih => exact hC.bind (copyByte_obeys hC _ _) fun _ => hC.bind (boundary_obeys hC) fun _ => ih _ _

end
end Sys2Proof.Machine
end

section
/-!
SUPPORT. The contracts of the driver's commands (Machine/AiDriver.lean).
-/

namespace Sys2Proof.Machine

set_option Elab.async false

section
variable {C : Contract}

theorem drvOn_obeys (hC : C.Sound) : Obeys C drvOn :=
  hC.bind hC.checkIssuer fun _ => obeys_read fun _ => hC.ensureState _

/-! ### `AI_INIT` and `AI_CLOSE` (R140 to R143, R158) -/

theorem initRegion_obeys (hC : C.Sound) (k : Nat) : Obeys C (initRegion k) := by
  refine obeys_read fun _ => hC.bind (alloc_obeys hC _) fun a => ?_
  cases a with
  | none => exact hC.raise _ _
  | some a =>
    exact hC.updateBind (fun _ => {}) fun _ => hC.bind (blockZero_obeys hC _ _) fun _ => hC.update fun _ => {}

theorem aiInit_obeys (hC : C.Sound) (numBuffers : Half) (freq : Word) : Obeys C (aiInit numBuffers freq) :=
  hC.bind hC.checkIssuer fun _ => obeys_read fun _ => hC.bind (hC.ensure _ _ _) fun _ => hC.bind (hC.ensure _ _ _) fun _ =>
    hC.updateBind (fun _ => {}) fun _ => hC.bind (hC.forRange (initRegion_obeys hC) _ _) fun _ =>
    hC.updateBind (fun _ => { regions := fun _ => Nat.zero_le 2 }) fun _ => hC.bind (startDevice_obeys hC _) fun _ =>
    hC.update fun _ => {}

theorem aiCloseWait_obeys (hC : C.Sound) : Obeys C aiCloseWait :=
  obeys_read fun _ => obeys_ite
    (hC.bind (aiWrite_obeys hC _ _) fun _ =>
      hC.bind (hC.forRange (fun _ => obeys_read fun _ => freeRegion_obeys hC _) _ _) fun _ =>
      hC.updateBind (fun _ => {}) fun _ => hC.answer _)
    (hC.answer _)

theorem aiClose_obeys (hC : C.Sound) : Obeys C aiClose :=
  hC.bind (drvOn_obeys hC) fun _ => hC.bind (hC.critical (hC.update fun _ => {})) fun _ => hC.bind (boundary_obeys hC) fun _ =>
    aiCloseWait_obeys hC

/-! ### The fill callback, pause and frequency (R149, R155, R157) -/

theorem aiSetFillCallback_obeys (hC : C.Sound) (cb : Word) : Obeys C (aiSetFillCallback cb) := by
  refine hC.bind (drvOn_obeys hC) fun _ => hC.bind (hC.ensure _ _ _) fun _ => hC.bind (hC.critical (hC.update fun s => ?_)) fun _ =>
    hC.bind (boundary_obeys hC) fun _ => drvDispatch_obeys hC
  exact { regions := fun h => by
            show (if s.drv.paused then _ else _ : Driver).inflight.length ≤ 2
            split
            · exact h
            · exact h }

theorem pauseSwap_inflight (d : Driver) (pause : Bool) : (d.pauseSwap pause).inflight = d.inflight := by
  unfold Driver.pauseSwap
  split
  · rfl
  · split
    · rfl
    · rfl

theorem aiPause_obeys (hC : C.Sound) (pause : Bool) : Obeys C (aiPause pause) :=
  hC.bind (drvOn_obeys hC) fun _ => hC.critical (hC.update fun s =>
    { regions := fun h => (congrArg List.length (pauseSwap_inflight s.drv pause)).trans_le h })

theorem aiGetFrequency_obeys (hC : C.Sound) : Obeys C aiGetFrequency :=
  hC.bind (drvOn_obeys hC) fun _ => obeys_read fun _ => hC.answer _

/-! ### `AI_WRITE_BEGIN` and `AI_WRITE_END` (R151, R152) -/

theorem handOut_obeys (hC : C.Sound) : Obeys C handOut :=
  hC.bind (boundary_obeys hC) fun _ => obeys_read fun _ =>
    obeys_ite (hC.updateBind (fun _ => {}) fun _ => hC.answer _) (hC.answer _)

theorem aiWriteBeginSpin_obeys (hC : C.Sound) : Obeys C aiWriteBeginSpin :=
  obeys_read fun _ => obeys_ite (handOut_obeys hC)
    (hC.bind (drvDispatch_obeys hC) fun _ => hC.bind (boundary_obeys hC) fun _ => obeys_read fun _ =>
      obeys_ite (handOut_obeys hC) (hC.answer _))

theorem aiWriteBegin_obeys (hC : C.Sound) : Obeys C aiWriteBegin :=
  hC.bind hC.checkIssuer fun _ => obeys_read fun _ => hC.bind (hC.ensureState _) fun _ => aiWriteBeginSpin_obeys hC

theorem aiWriteEnd_obeys (hC : C.Sound) : Obeys C aiWriteEnd :=
  hC.bind hC.checkIssuer fun _ => obeys_read fun _ => hC.bind (hC.ensureState _) fun _ =>
    hC.bind (hC.critical (hC.update fun _ => {})) fun _ => hC.bind (boundary_obeys hC) fun _ => drvDispatch_obeys hC

/-! ### `AI_PUSH` (R153, R154) -/

theorem pushCommit_obeys (hC : C.Sound) (k : Nat) : Obeys C (pushCommit k) :=
  hC.bind (hC.critical (hC.update fun _ => {})) fun _ => hC.bind (boundary_obeys hC) fun _ => drvDispatch_obeys hC

theorem drvFlush_obeys (hC : C.Sound) : Obeys C drvFlush :=
  obeys_read fun _ => obeys_ite (hC.answer ())
    (hC.bind (boundary_obeys hC) fun _ => hC.bind (zeroBytes_obeys hC _ _) fun _ => pushCommit_obeys hC _)

theorem pushByte_obeys (hC : C.Sound) (src acc dst j : Nat) : Obeys C (pushByte src acc dst j) :=
  obeys_ite (blockZero_obeys hC _ _) (copyByte_obeys hC _ _)

theorem pushBytes_obeys (hC : C.Sound) (k src acc dst n j : Nat) : Obeys C (pushBytes k src acc dst j n) := by
  induction n generalizing j with
  | zero => exact hC.bind (boundary_obeys hC) fun _ => obeys_read fun _ => hC.answer _
  | succ n ih =>
    exact hC.bind (boundary_obeys hC) fun _ => obeys_read fun _ =>
      obeys_ite (hC.bind (pushByte_obeys hC _ _ _ _) fun _ => ih _) (hC.answer _)

theorem pushFrames_obeys (hC : C.Sound) (src acc left : Nat) : Obeys C (pushFrames src acc left) :=
  obeys_read fun _ => hC.bind (pushBytes_obeys hC _ _ _ _ _ _) fun _ => obeys_ite
    (hC.updateBind (fun _ => {}) fun _ => hC.bind (boundary_obeys hC) fun _ => obeys_read fun _ =>
      obeys_ite (hC.bind (pushCommit_obeys hC _) fun _ => hC.answer _) (hC.answer _))
    (hC.answer _)

theorem pushLoop_obeys (hC : C.Sound) (blocking : Bool) (src n fuel acc : Nat) : Obeys C (pushLoop blocking src n fuel acc) := by
  induction fuel generalizing acc with
  | zero => exact hC.answer _
  | succ fuel ih =>
    have pass : Obeys C (do let m ← pushFrames src acc (n - acc); pushLoop blocking src n fuel (acc + m)) :=
      hC.bind (pushFrames_obeys hC _ _ _) fun _ => ih _
    refine obeys_ite (hC.answer _) (hC.bind (boundary_obeys hC) fun _ => obeys_read fun _ => obeys_ite ?_ pass)
    exact hC.bind (drvDispatch_obeys hC) fun _ => hC.bind (boundary_obeys hC) fun _ => obeys_read fun _ =>
      obeys_ite pass (obeys_ite (hC.answer _) (hC.answer _))

theorem aiPush_obeys (hC : C.Sound) (blocking : Bool) (src n : Word) : Obeys C (aiPush blocking src n) :=
  hC.bind hC.checkIssuer fun _ => obeys_read fun _ => hC.bind (hC.ensureState _) fun _ =>
    obeys_ite (hC.bind (drvFlush_obeys hC) fun _ => hC.answer _) (pushLoop_obeys hC _ _ _ _ _)

end
end Sys2Proof.Machine
end

section
/-!
SUPPORT. The contracts of the sample-buffer procedures and commands and of the decoder calls (Machine/SampleBuffer.lean,
Machine/Decoder.lean).
-/

namespace Sys2Proof.Machine

set_option Elab.async false

/-! ### Updates of one buffer (R29, R31) -/

theorem SampleBuf.size_lt (b : SampleBuf) : b.size < 2 ^ 32 := (Nat.div_le_self _ _).trans_lt b.bytes.isLt

theorem SampleBuf.windowLegal_of_empty {b : SampleBuf} (hr : b.ridx = 0) (hw : b.widx = 0) : b.windowLegal := by
  rw [SampleBuf.windowLegal, hr, hw]
  exact ⟨le_rfl, Nat.zero_le _⟩

theorem SampleBuf.kept_emptyAt (b : SampleBuf) (p : Nat) : b.Kept (b.emptyAt p) where
  window _ := SampleBuf.windowLegal_of_empty rfl rfl

theorem SampleBuf.kept_bound (b : SampleBuf) (base bytes : Word) : b.Kept (SampleBuf.bound base bytes) where
  bps _ := le_rfl
  window _ := SampleBuf.windowLegal_of_empty rfl rfl

theorem SampleBuf.kept_dropped (b : SampleBuf) (p k : Nat) : b.Kept (b.dropped p k) where
  window := by
    intro ⟨hr, hw⟩
    have hlt := b.widx.isLt
    have hwidx : (w32 (b.widx.toNat - k)).toNat = b.widx.toNat - k := Nat.mod_eq_of_lt (by omega)
    have hridx : (w32 (b.ridx.toNat - k)).toNat = b.ridx.toNat - k := Nat.mod_eq_of_lt (by omega)
    refine ⟨?_, ?_⟩
    · show (w32 (b.ridx.toNat - k)).toNat ≤ (w32 (b.widx.toNat - k)).toNat
      omega
    · show (w32 (b.widx.toNat - k)).toNat ≤ b.size
      omega

theorem SampleBuf.kept_grown {b : SampleBuf} {n : Nat} (h : b.widx.toNat + n ≤ b.size) : b.Kept (b.grown n) where
  window := by
    intro ⟨hr, _⟩
    have hwidx : (w32 (b.widx.toNat + n)).toNat = b.widx.toNat + n := Nat.mod_eq_of_lt (h.trans_lt b.size_lt)
    refine ⟨?_, ?_⟩
    · show b.ridx.toNat ≤ (w32 (b.widx.toNat + n)).toNat
      omega
    · show (w32 (b.widx.toNat + n)).toNat ≤ b.size
      omega

/-- An empty buffer may change its bit width (R182). -/
theorem SampleBuf.kept_of_empty {a b : SampleBuf} (ha : a.widx = 0) (hr : b.ridx = a.ridx) (hw : b.widx = 0) (hb : b.bps.toNat ≤ 1) :
    a.Kept b where
  bps _ := hb
  window h := SampleBuf.windowLegal_of_empty (by
    have := h.1
    rw [ha] at this
    rw [hr]
    exact BitVec.eq_of_toNat_eq (Nat.le_zero.mp this)) hw

theorem bpsOf_le (n : Nat) : (BitVec.ofNat 2 (bpsOf n)).toNat ≤ 1 := by
  unfold bpsOf
  split <;> decide

theorem kept_modSb {s : State} {i : Nat} {f : SampleBuf → SampleBuf} (h : i < 32 → (s.sb i).Kept (f (s.sb i))) :
    Kept s (s.modSb i f) where
  bufs j hj := by
    by_cases hji : j = i
    · subst hji
      rw [modSb_sb_same s f hj]
      exact h hj
    · rw [modSb_sb_other s f hji]
      exact {}

theorem Kept.trans {s t u : State} (h : Kept s t) (k : Kept t u) : Kept s u where
  toBounded := h.toBounded.trans k.toBounded
  bufs i hi :=
    { bps := (k.bufs i hi).bps ∘ (h.bufs i hi).bps
      window := (k.bufs i hi).window ∘ (h.bufs i hi).window }

/-! ### Contracts that kept buffers honour -/

/-- A sound contract that every kept update honours. -/
structure Contract.Buffered (C : Contract) : Prop extends C.Sound where
  kept : ∀ {s t}, Kept s t → C.ok s t

/-- A buffered contract that every windowed read of a u32 position honours too (R188). -/
structure Contract.Reading (C : Contract) : Prop extends C.Buffered where
  get : ∀ {i p n}, p < 2 ^ 32 → Obeys C (sbGetProc i p n)

/-- Every append honours the contract: what a decoder may do to the buffers (R199). -/
abbrev Contract.Appends (C : Contract) : Prop := ∀ i n, Obeys C (sbAppendProc i n)

section
variable {C : Contract}

theorem Contract.Buffered.modSb (hC : C.Buffered) {i : Nat} {f : SampleBuf → SampleBuf} (h : ∀ b : SampleBuf, b.Kept (f b)) :
    Obeys C (modify fun s => s.modSb i f) := fun _ => hC.kept (kept_modSb fun _ => h _)

/-! ### The internal procedures -/

theorem kept_sbInit (s : State) (i : Nat) (base bytes : Word) :
    Kept s ((s.invalidate base.toNat bytes.toNat).modSb i fun _ => SampleBuf.bound base bytes) :=
  (tame_invalidate s _ _).kept.trans (kept_modSb fun _ => SampleBuf.kept_bound _ _ _)

theorem sbInitProc_obeys (hC : C.Buffered) (i : Nat) (base bytes : Word) : Obeys C (sbInitProc i base bytes) :=
  fun s => hC.kept (kept_sbInit s i base bytes)

theorem sbFlushProc_obeys (hC : C.Buffered) (i : Nat) : Obeys C (sbFlushProc i) :=
  hC.modSb fun b => b.kept_emptyAt 0

theorem sbDiscardProc_obeys (hC : C.Buffered) (i p : Nat) : Obeys C (sbDiscardProc i p) :=
  obeys_read fun _ => obeys_ite (hC.answer ()) (obeys_ite (hC.modSb fun b => b.kept_emptyAt p)
    (hC.bind (copyBytes_obeys hC.toSound _ _ _) fun _ => hC.modSb fun b => b.kept_dropped p _))

theorem sbMakeRoom_obeys (hC : C.Buffered) (i n : Nat) : Obeys C (sbMakeRoom i n) :=
  obeys_read fun _ => obeys_ite (hC.answer ())
    (hC.bind (sbDiscardProc_obeys hC _ _) fun _ => obeys_read fun _ => hC.ensure _ _ _)

/-- Where `SbAppend` goes on, the samples fit (R191, R192). -/
theorem sbMakeRoom_room {i n : Nat} {s t : State} (h : sbMakeRoom i n s = .ok () t) : (t.sb i).widx.toNat + n ≤ (t.sb i).size := by
  rw [sbMakeRoom, act_get_bind, act_ite] at h
  split at h
  · next hfits =>
    cases h
    exact hfits
  · obtain ⟨-, u, -, h⟩ := act_bind_ok_iff.mp h
    rw [act_get_bind, ensure_apply] at h
    split at h
    · next hfits =>
      cases h
      exact hfits
    · cases h

theorem sbAppendProc_obeys (hC : C.Buffered) : C.Appends := fun i n s =>
  hC.bindAt (sbMakeRoom_obeys hC i n s) fun _ _ hroom => obeysAt_get_bind
    (hC.bindAt (hC.kept (kept_modSb fun _ => SampleBuf.kept_grown (sbMakeRoom_room hroom))) fun _ u _ => hC.resultWord _ u)

/-! ### Commands (R181 to R184, R191, R193) -/

theorem sbIndex_obeys (hC : C.Sound) (ch : Byte) : Obeys C (sbIndex ch) := hC.bind hC.checkIssuer fun _ => hC.ensure _ _ _

theorem sbOn_obeys (hC : C.Sound) (ch : Byte) : Obeys C (sbOn ch) :=
  hC.bind (sbIndex_obeys hC ch) fun _ => obeys_read fun _ => hC.ensureState _

theorem sbInit_obeys (hC : C.Buffered) (ch : Byte) (base bytes : Word) : Obeys C (sbInit ch base bytes) :=
  hC.bind (sbIndex_obeys hC.toSound ch) fun _ => obeys_read fun _ => hC.bind (hC.ensure _ _ _) fun _ =>
    hC.bind (hC.ensure _ _ _) fun _ => sbInitProc_obeys hC _ _ _

theorem sbSetBitWidth_obeys (hC : C.Buffered) (ch : Byte) (bits : Half) : Obeys C (sbSetBitWidth ch bits) := by
  refine hC.bind (sbOn_obeys hC.toSound ch) fun _ s => obeysAt_get_bind (hC.bindAt (hC.ensure _ _ _ s) fun _ t e => ?_)
  have ht : t = s := by
    rw [ensure_apply] at e
    split at e
    · cases e; rfl
    · cases e
  subst ht
  rw [ObeysAt, ensureState_bind]
  split
  · next hempty => exact hC.kept (kept_modSb fun _ => SampleBuf.kept_of_empty hempty rfl hempty (bpsOf_le _))
  · exact hC.fault t _ _

theorem sbSetDecoder_obeys (hC : C.Buffered) (ch : Byte) (fn ctx : Word) : Obeys C (sbSetDecoder ch fn ctx) :=
  hC.bind (sbOn_obeys hC.toSound ch) fun _ => hC.bind (hC.ensure _ _ _) fun _ => hC.modSb fun _ => {}

theorem sbAppend_obeys (hC : C.Sound) (happend : C.Appends) (ch : Byte) (wlen : Word) :
    Obeys C (sbAppend ch wlen) :=
  hC.bind (sbOn_obeys hC ch) fun _ => hC.bind (happend _ _) fun _ => hC.answer _

theorem sbDiscard_obeys (hC : C.Buffered) (ch : Byte) (wpos : Word) : Obeys C (sbDiscard ch wpos) :=
  hC.bind (sbOn_obeys hC.toSound ch) fun _ => sbDiscardProc_obeys hC _ _

theorem sbFlush_obeys (hC : C.Buffered) (ch : Byte) : Obeys C (sbFlush ch) :=
  hC.bind (sbOn_obeys hC.toSound ch) fun _ => sbFlushProc_obeys hC _

/-! ### Decoder calls (R199, R200, R231) -/

theorem decoderIssue_obeys (hC : C.Sound) (happend : C.Appends) (p : Packet) : Obeys C (decoderIssue p) := by
  unfold decoderIssue
  split
  · exact subCommand_obeys hC _ (sbAppend_obeys hC happend _ _)
  · exact refusePacket_obeys hC p

theorem rawRead_obeys (hC : C.Sound) (happend : C.Appends) (i : Nat) (fn ctx : Word) (p n : Nat)
    (seeking : Bool) : Obeys C (rawRead i fn ctx p n seeking) :=
  hC.bind (callHost_obeys hC _ _ _ (decoderIssue_obeys hC happend) (boundary_obeys hC)) fun _ => hC.answer ()

theorem loopSegments_obeys (hC : C.Sound) (happend : C.Appends) (c : Nat) (w : Wave) (fuel rem : Nat) :
    Obeys C (loopSegments c w fuel rem) := by
  induction fuel generalizing rem with
  | zero => exact hC.answer ()
  | succ fuel ih => exact obeys_ite (hC.answer ()) (hC.bind (rawRead_obeys hC happend _ _ _ _ _ _) fun _ => ih _)

theorem readWrapper_obeys (hC : C.Sound) (happend : C.Appends) (c p n : Nat) (seeking : Bool) :
    Obeys C (readWrapper c p n seeking) :=
  obeys_read fun _ => obeys_ite (obeys_ite (hC.answer ()) (rawRead_obeys hC happend _ _ _ _ _ _))
    (hC.bind (rawRead_obeys hC happend _ _ _ _ _ _) fun _ => obeys_ite (loopSegments_obeys hC happend _ _ _ _)
      (hC.bind (hC.resultWord _) fun _ => hC.raise _ _))

theorem callDecoder_obeys (hC : C.Sound) (happend : C.Appends) (i p n : Nat) (seeking : Bool) :
    Obeys C (callDecoder i p n seeking) :=
  obeys_read fun _ => obeys_ite (hC.answer ())
    (obeys_ite (readWrapper_obeys hC happend _ _ _ _) (rawRead_obeys hC happend _ _ _ _ _ _))

/-! ### `SB_GET` (R187, R188) -/

/-- The end of `SbGet`: the read cursor is set, and the index pointer and the count are returned (R188). -/
def readWindow (i p n : Nat) : Act (Nat × Nat) := do
  let t ← get
  let b := t.sb i
  let j := p - b.wpos.toNat
  modify fun s => s.modSb i fun b => { b with ridx := w32 j }
  pure (b.idxPtr j, min n (b.widx.toNat - j))

theorem sbGetProc_eq (i p n : Nat) (s : State) : sbGetProc i p n s =
    ((if (s.sb i).hit p then sbHit i p n else sbMiss i p n) >>= fun _ => readWindow i p n) s := by
  rw [sbGetProc, act_get_bind]
  split
  · rfl
  · rfl

theorem sbMiss_obeys (hC : C.Buffered) (i p n : Nat) : Obeys C (sbMiss i p n) :=
  hC.bind (sbFlushProc_obeys hC i) fun _ => hC.bind (hC.modSb fun _ => {}) fun _ =>
    callDecoder_obeys hC.toSound (sbAppendProc_obeys hC) _ _ _ _

/-- A contract that does not look at a buffer's read cursor is honoured by a windowed read of that buffer. -/
theorem sbGetProc_obeys (hC : C.Buffered) {i : Nat}
    (hcursor : ∀ (s : State) (r : SampleBuf → Word), C.ok s (s.modSb i fun b => { b with ridx := r b })) (p n : Nat) :
    Obeys C (sbGetProc i p n) := by
  have cursor : ∀ r : SampleBuf → Word, Obeys C (modify fun s => s.modSb i fun b => { b with ridx := r b }) :=
    fun r s => hcursor s r
  have hit : Obeys C (sbHit i p n) := obeys_read fun _ => hC.bind (cursor fun b => w32 (p - b.wpos.toNat)) fun _ =>
    obeys_ite (callDecoder_obeys hC.toSound (sbAppendProc_obeys hC) _ _ _ _) (hC.answer ())
  intro s
  rw [ObeysAt, sbGetProc_eq]
  exact hC.bind (obeys_ite hit (sbMiss_obeys hC i p n)) (fun _ => obeys_read fun _ =>
    hC.bind (cursor fun _ => _) fun _ => hC.answer _) s

theorem sbGet_obeys (hC : C.Reading) (ch : Byte) (wpos wlen : Word) : Obeys C (sbGet ch wpos wlen) :=
  hC.bind (sbOn_obeys hC.toSound ch) fun _ => hC.bind (hC.ensure _ _ _) fun _ => hC.bind (hC.get wpos.isLt) fun _ =>
    hC.bind (hC.resultWord _) fun _ => hC.answer _

end
end Sys2Proof.Machine
end

section
/-!
SUPPORT. The contracts of the channel, event and VideoSync commands and of the engine's internal exec (Machine/Channel.lean,
Machine/Events.lean, Machine/VideoSync.lean, Machine/Exec.lean).
-/

namespace Sys2Proof.Machine

set_option Elab.async false

/-! ### Volumes (R35, R112) -/

theorem q15Of_le {f : Word} (h : f ≤ q16One) : (q15Of f).toNat ≤ 0x7FFF := by
  have hf : f.toNat ≤ 65536 := h
  have hdiv : f.toNat * 0x7FFF / 65536 ≤ 0x7FFF := by omega
  rw [q15Of, BitVec.toNat_ofNat]
  exact (Nat.mod_le _ _).trans hdiv

theorem volQ15_answers {f : Word} {s t : State} {v : Half} (h : volQ15 f s = .ok v t) : t = s ∧ v.toNat ≤ 0x7FFF := by
  rw [volQ15, ensure_bind] at h
  split at h
  · next hf =>
    cases h
    exact ⟨rfl, q15Of_le hf⟩
  · cases h

theorem tame_modChan {s : State} {c : Nat} {f : Channel → Channel} (h : ∀ x : Channel, x.vol.legal → (f x).vol.legal) :
    Tame s (s.modChan c f) where
  volumes hs j hj := by
    by_cases hjc : j = c
    · subst hjc
      have e : Table.at (s.modChan j f).chans j = f (s.chan j) := modChan_chan_same s f hj
      rw [e]
      exact h _ (hs j hj)
    · have e : Table.at (s.modChan c f).chans j = s.chan j := modChan_chan_other s f hjc
      rw [e]
      exact hs j hj

theorem tame_modDesc {s : State} {c : Nat} {f : Desc → Desc} : Tame s (s.modDesc c f) := tame_modChan fun _ => id

theorem volumesLegal_mapBelow {t : Table Channel} {n : Nat} {f : Nat → Channel → Channel}
    (h : ∀ k (x : Channel), x.vol.legal → (f k x).vol.legal) (ht : volumesLegal t) : volumesLegal (Table.mapBelow t n f) := by
  intro c hc
  rw [Table.at_mapBelow t n f hc]
  split
  · exact h c _ (ht c hc)
  · exact ht c hc

theorem kept_mapBelow {f : Nat → SampleBuf → SampleBuf} (h : ∀ k (b : SampleBuf), b.Kept (f k b)) (s : State) (n : Nat) :
    ∀ i < 32, (s.sb i).Kept (Table.at (Table.mapBelow s.sbs n f) i) := by
  intro i hi
  rw [Table.at_mapBelow s.sbs n f hi]
  split
  · exact h i _
  · exact {}

/-- Both tables replaced by tables within the same bounds. -/
theorem kept_tables {s : State} {b : Table SampleBuf} {c : Table Channel} (hb : ∀ i < 32, (s.sb i).Kept (Table.at b i))
    (hc : volumesLegal s.chans → volumesLegal c) : Kept s { s with sbs := b, chans := c } where
  volumes := hc
  bufs := hb

theorem tame_chans {s : State} {c : Table Channel} (hc : volumesLegal s.chans → volumesLegal c) : Tame s { s with chans := c } where
  volumes := hc

section
variable {C : Contract}

theorem mxOn_obeys (hC : C.Sound) : Obeys C mxOn :=
  hC.bind hC.checkIssuer fun _ => obeys_read fun _ => hC.ensureState _

theorem chanChecks_obeys (hC : C.Sound) (ch : Byte) : Obeys C (chanChecks ch) :=
  hC.bind (mxOn_obeys hC) fun _ => obeys_read fun _ => hC.ensure _ _ _

theorem volQ15_obeys (hC : C.Sound) (f : Word) : Obeys C (volQ15 f) := hC.bind (hC.ensure _ _ _) fun _ => hC.answer _

/-! ### The engine's settings (R213, R214) -/

theorem mxSampleRate_obeys (hC : C.Sound) : Obeys C mxSampleRate :=
  hC.bind (mxOn_obeys hC) fun _ => obeys_read fun _ => hC.answer _

theorem mxSetMasterVolume_obeys (hC : C.Sound) (vol : Word) : Obeys C (mxSetMasterVolume vol) :=
  hC.bind (mxOn_obeys hC) fun _ s => hC.bindAt (volQ15_obeys hC vol s) fun _ _ h =>
    hC.tame { master := fun _ => (volQ15_answers h).2 }

/-! ### Lazy buffers and descriptors (R217, R220, R260) -/

theorem bindBuffers_obeys (hC : C.Buffered) (n c a : Nat) : Obeys C (bindBuffers c a n) := by
  induction n generalizing c a with
  | zero => exact hC.answer ()
  | succ n ih =>
    refine obeys_read fun s => ?_
    intro u
    refine hC.bindAt (sbInitProc_obeys hC _ _ _ u) fun _ v hv => hC.bindAt (hC.kept (kept_modSb fun hc => ?_)) fun _ w _ => ih _ _ w
    have hempty : (v.sb c).widx = 0 := by
      cases hv
      rw [modSb_sb_same _ _ hc]
      rfl
    exact SampleBuf.kept_of_empty hempty rfl hempty (bpsOf_le _)

theorem ensureBuffers_obeys (hC : C.Buffered) : Obeys C ensureBuffers := by
  refine obeys_read fun _ => obeys_ite (hC.answer ()) (hC.bind (alloc_obeys hC.toSound _) fun a => ?_)
  cases a with
  | none => exact hC.bind (hC.resultWord _) fun _ => hC.raise _ _
  | some a => exact hC.updateBind (fun _ => {}) fun _ => bindBuffers_obeys hC _ _ _

theorem descLengths_obeys (hC : C.Sound) (c : Nat) : Obeys C (descLengths c) := by
  refine obeys_read fun s => ?_
  cases s.strategy c with
  | noLoop => exact hC.update fun _ => tame_modDesc
  | resident => exact hC.bind (hC.ensure _ _ _) fun _ => hC.update fun _ => tame_modDesc
  | unrolled => exact hC.update fun _ => tame_modDesc

theorem setPtr_obeys (hC : C.Sound) (c : Nat) : Obeys C (setPtr c) :=
  obeys_read fun _ => hC.bind (hC.ensure _ _ _) fun _ => hC.update fun _ => tame_modDesc

/-! ### Channel commands (R216 to R228) -/

theorem rebind_obeys (hC : C.Buffered) {b : Nat} (hb : (BitVec.ofNat 2 b).toNat ≤ 1) (c : Nat) (wave : Word) :
    Obeys C (rebind c b wave) := fun s =>
  hC.bindAt (sbFlushProc_obeys hC c s) fun _ t ht => by
    refine hC.bindAt (hC.kept (kept_modSb fun hc => ?_)) fun _ _ _ => hC.tame (tame_modChan fun _ => id)
    have hempty : (t.sb c).widx = 0 := by
      cases ht
      rw [modSb_sb_same _ _ hc]
      rfl
    exact SampleBuf.kept_of_empty hempty rfl hempty hb

theorem chPlay_obeys (hC : C.Buffered) (ch : Byte) (wave : Word) : Obeys C (chPlay ch wave) := by
  refine hC.bind (chanChecks_obeys hC.toSound ch) fun _ => hC.bind (hC.ensure _ _ _) fun _ => obeys_read fun _ =>
    hC.bind (hC.ensure _ _ _) fun _ => hC.bind (hC.ensure _ _ _) fun _ => hC.bind (hC.ensure _ _ _) fun _ =>
    hC.bind (ensureBuffers_obeys hC) fun _ => hC.updateBind (fun _ => tame_modChan fun _ => id) fun _ => obeys_ite ?_
      (hC.bind (rebind_obeys hC (bpsOf_le _) _ _) fun _ => ?_)
  all_goals exact hC.updateBind (fun _ => tame_modDesc) fun _ => hC.bind (descLengths_obeys hC.toSound _) fun _ =>
    setPtr_obeys hC.toSound _

theorem kept_chStop (s : State) (c : Nat) :
    Kept s ((s.modChan c Channel.stopped).modSb c fun b => { b with decFn := 0, decCtx := 0 }) := by
  have hchan : Tame s (s.modChan c Channel.stopped) := tame_modChan fun _ => id
  exact hchan.kept.trans (kept_modSb fun _ => {})

theorem chStop_obeys (hC : C.Buffered) (ch : Byte) : Obeys C (chStop ch) :=
  hC.bind (chanChecks_obeys hC.toSound ch) fun _ s => hC.kept (kept_chStop s _)

theorem chPlaying_obeys (hC : C.Sound) (ch : Byte) : Obeys C (chPlaying ch) :=
  hC.bind (chanChecks_obeys hC ch) fun _ => obeys_read fun _ => hC.answer _

theorem chSetFrequency_obeys (hC : C.Sound) (ch : Byte) (freq : Word) : Obeys C (chSetFrequency ch freq) :=
  hC.bind (chanChecks_obeys hC ch) fun _ => obeys_read fun _ => hC.bind (hC.ensure _ _ _) fun _ => hC.update fun _ => tame_modDesc

theorem chSetPosition_obeys (hC : C.Sound) (ch : Byte) (pos : Word) : Obeys C (chSetPosition ch pos) :=
  hC.bind (chanChecks_obeys hC ch) fun _ => obeys_read fun _ => hC.bind (hC.ensure _ _ _) fun _ => hC.update fun _ => tame_modDesc

theorem chGetPosition_obeys (hC : C.Sound) (ch : Byte) : Obeys C (chGetPosition ch) :=
  hC.bind (chanChecks_obeys hC ch) fun _ => obeys_read fun _ => hC.answer _

theorem setVolume_obeys (hC : C.Sound) (c : Nat) (l r : Word) : Obeys C (setVolume c l r) := fun s =>
  hC.bindAt (volQ15_obeys hC l s) fun _ t hl => hC.bindAt (volQ15_obeys hC r t) fun _ _ hr =>
    hC.tame (tame_modChan fun _ _ => ⟨(volQ15_answers hl).2, (volQ15_answers hr).2⟩)

theorem chSetVolume_obeys (hC : C.Sound) (ch : Byte) (l r : Word) : Obeys C (chSetVolume ch l r) :=
  hC.bind (chanChecks_obeys hC ch) fun _ => setVolume_obeys hC _ _ _

theorem fraction_obeys (hC : C.Sound) (x : Word) : Obeys C (fraction x) := hC.ensure _ _ _

theorem chSetPan_obeys (hC : C.Sound) (ch : Byte) (vol pan : Word) : Obeys C (chSetPan ch vol pan) :=
  hC.bind (chanChecks_obeys hC ch) fun _ => hC.bind (fraction_obeys hC vol) fun _ => hC.bind (fraction_obeys hC pan) fun _ =>
    obeys_read fun _ => setVolume_obeys hC _ _ _

theorem chSetDolby_obeys (hC : C.Sound) (ch : Byte) (fl fr c sl sr : Word) : Obeys C (chSetDolby ch fl fr c sl sr) :=
  hC.bind (chanChecks_obeys hC ch) fun _ => hC.bind (hC.forList (fraction_obeys hC) _) fun _ => setVolume_obeys hC _ _ _

theorem freeBufMem_obeys (hC : C.Sound) : Obeys C freeBufMem :=
  obeys_read fun _ => obeys_ite (hC.answer ()) (freeRegion_obeys hC _)

theorem kept_unbindAll (s : State) : Kept s s.unbindAll :=
  kept_tables (kept_mapBelow (fun _ _ => {}) s _) (volumesLegal_mapBelow fun _ _ => id)

theorem chSetLimits_obeys (hC : C.Buffered) (ch : Byte) (maxBits maxFreq maxBuf : Word) :
    Obeys C (chSetLimits ch maxBits maxFreq maxBuf) :=
  hC.bind (chanChecks_obeys hC.toSound ch) fun _ => hC.bind (hC.ensure _ _ _) fun _ => hC.bind (hC.ensure _ _ _) fun _ =>
    hC.bind (hC.ensure _ _ _) fun _ => obeys_read fun _ => hC.bind (hC.ensureState _) fun _ =>
    hC.updateBind (fun _ => tame_modChan fun _ => id) fun _ => hC.bind (freeBufMem_obeys hC.toSound) fun _ s =>
    hC.kept ((Tame.kept (t := s.modMx fun m => { m with bufMem := 0 }) {}).trans (kept_unbindAll _))

/-! ### The event list (R290, R291, R295) -/

theorem evAdd_obeys (hC : C.Sound) (delay cb ctx : Word) : Obeys C (evAdd delay cb ctx) := by
  refine hC.bind (mxOn_obeys hC) fun _ => hC.bind (hC.ensure _ _ _) fun _ s => obeysAt_get_bind (hC.ensureBindAt fun hroom =>
    hC.bindAt (hC.laterTick _ _ s) fun tick t he => hC.tame ?_)
  obtain ⟨_, o, ho⟩ := laterTick_answers s.mx.ticks delay.toNat s
  have ht : t = { s with oracle := o } := by
    rw [ho] at he
    cases he
    rfl
  subst ht
  exact { events := fun h => by
            have h : s.events.length ≤ 32 := h
            have hroom : s.events.length ≠ 32 := hroom
            show (s.events ++ [_]).length ≤ 32
            rw [List.length_append, List.length_singleton]
            omega }

theorem evRemove_obeys (hC : C.Sound) (cb : Word) : Obeys C (evRemove cb) :=
  hC.bind (mxOn_obeys hC) fun _ => obeys_read fun _ => hC.bind (hC.ensure _ _ _) fun _ =>
    hC.update fun _ => { events := List.length_eraseP_le.trans }

theorem returnHandling_obeys (hC : C.Sound) (id : Nat) (r : Word) : Obeys C (returnHandling id r) :=
  obeys_read fun _ => obeys_ite
    (obeys_ite (hC.update fun _ => { events := List.length_eraseP_le.trans })
      (hC.bind (hC.laterTick _ _) fun _ => hC.update fun _ => { events := (List.length_map _).trans_le }))
    (hC.answer ())

/-! ### VideoSync (R310 to R314) -/

theorem vsOn_obeys (hC : C.Sound) : Obeys C vsOn :=
  hC.bind hC.checkIssuer fun _ => obeys_read fun _ => hC.ensureState _

theorem vsInit_obeys (hC : C.Sound) (fps rate : Word) : Obeys C (vsInit fps rate) :=
  hC.bind hC.checkIssuer fun _ => hC.bind (hC.ensure _ _ _) fun _ => obeys_read fun _ => hC.bind (hC.ensureState _) fun _ =>
    hC.bind (hC.ensure _ _ _) fun _ => hC.update fun _ => {}

theorem vsSuggestedBufferSize_obeys (hC : C.Sound) : Obeys C vsSuggestedBufferSize :=
  hC.bind (vsOn_obeys hC) fun _ => obeys_read fun _ => hC.answer _

theorem vsCurrentFrameSamples_obeys (hC : C.Sound) : Obeys C vsCurrentFrameSamples :=
  hC.bind (vsOn_obeys hC) fun _ => obeys_read fun _ => hC.answer _

theorem vsNextFrame_obeys (hC : C.Sound) : Obeys C vsNextFrame := hC.bind (vsOn_obeys hC) fun _ => hC.update fun _ => {}

/-! ### One channel's exec (R251 to R260) -/

theorem rewrapped_eq (s : State) (c : Nat) : s.rewrapped c =
    (s.modDesc c fun d => { d with pos := d.pos - w32 ((s.chan c).wave.loop.toNat * d.scale) }).modSb c fun b =>
      { b with wpos := b.wpos - (s.chan c).wave.loop } := rfl

theorem kept_rewrapped (s : State) (c : Nat) : Kept s (s.rewrapped c) := by
  rw [rewrapped_eq]
  exact tame_modDesc.kept.trans (kept_modSb fun _ => {})

theorem rewrap_obeys (hC : C.Buffered) (c : Nat) : Obeys C (rewrap c) :=
  obeys_read fun _ => obeys_ite (fun s => hC.kept (kept_rewrapped s c)) (hC.answer ())

theorem zeroFill_obeys (hC : C.Sound) (c j0 j1 : Nat) : Obeys C (zeroFill c j0 j1) := obeys_read fun _ => blockZero_obeys hC _ _

theorem getWindow_obeys (hC : C.Reading) (c : Nat) {start : Nat} (hstart : start < 2 ^ 32) (wlen : Nat) :
    Obeys C (getWindow c start wlen) :=
  hC.bind (hC.get hstart) fun _ => obeys_read fun _ => hC.bind (hC.ensure _ _ _) fun _ =>
    obeys_ite (zeroFill_obeys hC.toSound _ _ _) (hC.answer ())

theorem fetchWindow_obeys (hC : C.Reading) (c : Nat) {start : Nat} (hstart : start < 2 ^ 32) (last : Nat) :
    Obeys C (fetchWindow c start last) :=
  hC.bind (descLengths_obeys hC.toSound c) fun _ => hC.bind (getWindow_obeys hC c hstart _) fun _ => setPtr_obeys hC.toSound c

theorem Desc.window_lt (d : Desc) (n : Nat) : (d.window n).1 < 2 ^ 32 := (Nat.div_le_self _ _).trans_lt d.pos.isLt

theorem Wave.loopStart_lt (w : Wave) : w.loopStart < 2 ^ 32 := (Nat.sub_le _ _).trans_lt w.len.isLt

theorem windowNoLoop_obeys (hC : C.Reading) (c : Nat) {wpos : Nat} (h : wpos < 2 ^ 32) (wlast len : Nat) :
    Obeys C (windowNoLoop c wpos wlast len) :=
  obeys_ite (hC.update fun _ => tame_modDesc) (fetchWindow_obeys hC c h _)

theorem dropBeforeLoop_obeys (hC : C.Buffered) (c loopStart : Nat) : Obeys C (dropBeforeLoop c loopStart) :=
  obeys_read fun _ => obeys_ite (sbDiscardProc_obeys hC _ _) (hC.answer ())

theorem windowResident_obeys (hC : C.Reading) (c : Nat) {wpos : Nat} (h : wpos < 2 ^ 32) (wlast : Nat) (w : Wave) :
    Obeys C (windowResident c wpos wlast w) :=
  obeys_ite (hC.bind (dropBeforeLoop_obeys hC.toBuffered _ _) fun _ => fetchWindow_obeys hC c w.loopStart_lt _) (fetchWindow_obeys hC c h _)

theorem execChannel_obeys (hC : C.Reading) (c n : Nat) : Obeys C (execChannel c n) := by
  refine obeys_read fun s => ?_
  generalize s.strategy c = st
  refine obeys_ite (hC.bind (rewrap_obeys hC.toBuffered c) fun _ => ?_) ?_
  all_goals
    refine obeys_read fun t => hC.bind (hC.ensure _ _ _) fun _ => ?_
    cases st with
    | noLoop => exact windowNoLoop_obeys hC c (Desc.window_lt _ n) _ _
    | resident => exact windowResident_obeys hC c (Desc.window_lt _ n) _ _
    | unrolled => exact fetchWindow_obeys hC c (Desc.window_lt _ n) _

theorem execActive_obeys (hC : C.Reading) (n c : Nat) : Obeys C (execActive n c) :=
  obeys_read fun _ => obeys_ite (execChannel_obeys hC c n) (hC.answer ())

/-! ### The hand-off (R263, R264, R266, R267) -/

theorem tame_readBack (s : State) : Tame s s.readBack := by
  refine tame_chans (volumesLegal_mapBelow fun _ x hx => ?_)
  split
  · exact hx
  · exact hx

theorem tame_postCheck (s : State) : Tame s s.postCheck := by
  refine tame_chans (volumesLegal_mapBelow fun _ x hx => ?_)
  split
  · exact hx
  · exact hx

theorem awaitJob_obeys (hC : C.Sound) : Obeys C awaitJob := by
  refine hC.bind (jobBoundary_obeys hC) fun _ s => obeysAt_get_bind ?_
  rw [ObeysAt, act_ite]
  split
  · exact hC.refl s
  · exact hC.tame ((tame_readBack s).trans (tame_postCheck _))

theorem tryHandoff_obeys (hC : C.Sound) (out n : Nat) : Obeys C (tryHandoff out n) := by
  refine hC.bind (boundary_obeys hC) fun _ s => obeysAt_get_bind ?_
  rw [ObeysAt, act_ite]
  split
  · exact hC.refl s
  · refine hC.bindAt (x := set (s.acquired.upload out n)) (hC.tame ?_) fun _ t _ =>
      hC.bind (awaitJob_obeys hC) (fun _ => hC.answer _) t
    exact Tame.trans (t := s.acquired) {} (tame_upload _ _ _)

theorem mxExecRun_obeys (hC : C.Reading) (out n : Nat) : Obeys C (mxExecRun out n) :=
  obeys_read fun _ => hC.bind (hC.forRange (execActive_obeys hC n) _ _) fun _ => tryHandoff_obeys hC.toSound _ _

theorem mxExec_obeys (hC : C.Reading) (out n : Word) : Obeys C (mxExec out n) :=
  obeys_read fun _ => obeys_ite (hC.bind (mxExecRun_obeys hC _ _) fun _ => hC.answer _) (hC.raise _ _)

end
end Sys2Proof.Machine
end

section
/-!
SUPPORT. The contracts of the engine's init, close and poll (Machine/Mixer.lean): contracts that also allow the clock to move.
-/

namespace Sys2Proof.Machine

set_option Elab.async false

/-! ### Init and close (R210 to R212) -/

/-- What `MX_INIT` sets up, for any two tables within the old bounds, is a bounded update from the state with the clock at 0. -/
theorem kept_fresh {s : State} {b : Table SampleBuf} {c : Table Channel} (ring : Word) (nch : Byte)
    (hb : ∀ i < 32, (s.sb i).Kept (Table.at b i)) (hc : volumesLegal c) :
    Kept (s.modMx fun m => { m with ticks := 0 })
      { s with
        ring := { s.ring with base := ring, w := 0, pending := none, inflight := [] }
        mx := { s.mx with nch := nch, master := 0x7FFF, ticks := 0, bufMem := 0, inPoll := false, subRun := false }
        chans := c, sbs := b, events := [] } where
  blocks _ := Nat.zero_le 2
  events _ := Nat.zero_le 32
  master _ := le_rfl
  volumes _ := hc
  bufs := hb

theorem volumesLegal_fresh (t : Table Channel) (rate : Word) : volumesLegal (t.map (Channel.fresh rate)) := by
  intro c hc
  rw [Table.at, dif_pos hc, Vector.getElem_map]
  exact ⟨le_rfl, le_rfl⟩

theorem kept_engineFresh (s : State) (channels : Half) (rate ring : Word) :
    Kept (s.modMx fun m => { m with ticks := 0 }) (s.engineFresh channels rate ring) :=
  kept_fresh ring _ (kept_mapBelow (fun _ _ => {}) s _) (volumesLegal_fresh _ _)

/-- What `MX_CLOSE` leaves, for any buffer table within the old bounds. -/
theorem kept_off {s : State} {b : Table SampleBuf} (hb : ∀ i < 32, (s.sb i).Kept (Table.at b i)) :
    Kept s { s with sbs := b, events := [], mx := { s.mx with on := false }, owner := .none } where
  events _ := Nat.zero_le 32
  bufs := hb

theorem kept_engineOff (s : State) : Kept s s.engineOff := kept_off (kept_mapBelow (fun _ _ => {}) s _)

/-- A contract that also allows the clock to move, and the call of an event callback (R273, R293). -/
structure Contract.Timed (C : Contract) : Prop extends C.Reading where
  clock : ∀ (s : State) d, C.ok s (s.modMx fun m => { m with ticks := d })
  eventCall : ∀ fn args, Obeys C (callHost eventIssue boundary .event fn args)

section
variable {C : Contract}

theorem mxCloseWait_obeys (hC : C.Buffered) : Obeys C mxCloseWait :=
  obeys_read fun _ => obeys_ite
    (hC.bind (aiWrite_obeys hC.toSound _ _) fun _ => hC.bind (freeRegion_obeys hC.toSound _) fun _ =>
      hC.bind (freeBufMem_obeys hC.toSound) fun _ => hC.bind (fun s => hC.kept (kept_engineOff s)) fun _ => hC.answer _)
    (hC.answer _)

theorem mxClose_obeys (hC : C.Buffered) : Obeys C mxClose :=
  hC.bind (mxOn_obeys hC.toSound) fun _ => hC.bind (hC.critical (hC.update fun _ => {})) fun _ =>
    hC.bind (boundary_obeys hC.toSound) fun _ => mxCloseWait_obeys hC

theorem mxInit_obeys (hC : C.Timed) (channels : Half) (rate : Word) : Obeys C (mxInit channels rate) := by
  refine hC.bind hC.checkIssuer fun _ => obeys_read fun _ => hC.bind (hC.ensure _ _ _) fun _ => hC.bind (hC.ensure _ _ _) fun _ =>
    hC.bind (hC.ensure _ _ _) fun _ => hC.updateBind (fun _ => {}) fun _ => hC.bind (alloc_obeys hC.toSound _) fun a => ?_
  cases a with
  | none => exact hC.raise _ _
  | some a =>
    exact hC.bind (blockZero_obeys hC.toSound _ _) fun _ =>
      hC.bind (fun s => hC.trans (hC.clock s 0) (hC.kept (kept_engineFresh s channels rate a))) fun _ =>
      hC.bind (startDevice_obeys hC.toSound _) fun _ => hC.update fun _ => {}

/-! ### Event callbacks (R105, R293 to R296) -/

/-- Every command an event callback may issue honours the contract, the critical-section commands by hypothesis. -/
theorem eventBody_obeys (hC : C.Buffered) (hdisable : Obeys C irqDisable) (henable : Obeys C irqEnable) {i : Instr}
    {body : Act (List Word)} (h : eventBody i = some body) : Obeys C body := by
  have quiet : ∀ {x : Act Unit}, Obeys C x → Obeys C (do x; pure ([] : List Word)) := fun hx => hC.bind hx fun _ => hC.answer _
  cases i with
  | mxSampleRate => cases h; exact mxSampleRate_obeys hC.toSound
  | mxSetMasterVolume vol => cases h; exact quiet (mxSetMasterVolume_obeys hC.toSound vol)
  | chPlay ch wave => cases h; exact quiet (chPlay_obeys hC ch wave)
  | chStop ch => cases h; exact quiet (chStop_obeys hC ch)
  | chPlaying ch => cases h; exact chPlaying_obeys hC.toSound ch
  | chSetFrequency ch freq => cases h; exact quiet (chSetFrequency_obeys hC.toSound ch freq)
  | chSetPosition ch pos => cases h; exact quiet (chSetPosition_obeys hC.toSound ch pos)
  | chGetPosition ch => cases h; exact chGetPosition_obeys hC.toSound ch
  | chSetVolume ch l r => cases h; exact quiet (chSetVolume_obeys hC.toSound ch l r)
  | chSetPan ch vol pan => cases h; exact quiet (chSetPan_obeys hC.toSound ch vol pan)
  | chSetDolby ch fl fr c sl sr => cases h; exact quiet (chSetDolby_obeys hC.toSound ch fl fr c sl sr)
  | evAdd delay cb ctx => cases h; exact quiet (evAdd_obeys hC.toSound delay cb ctx)
  | evRemove cb => cases h; exact quiet (evRemove_obeys hC.toSound cb)
  | vsInit fps rate => cases h; exact quiet (vsInit_obeys hC.toSound fps rate)
  | vsSuggestedBufferSize => cases h; exact vsSuggestedBufferSize_obeys hC.toSound
  | vsCurrentFrameSamples => cases h; exact vsCurrentFrameSamples_obeys hC.toSound
  | vsNextFrame => cases h; exact quiet (vsNextFrame_obeys hC.toSound)
  | irqDisable => cases h; exact quiet hdisable
  | irqEnable => cases h; exact quiet henable
  | _ => cases h

theorem eventIssue_obeys (hC : C.Buffered) (hdisable : Obeys C irqDisable) (henable : Obeys C irqEnable) (p : Packet) :
    Obeys C (eventIssue p) := by
  unfold eventIssue
  split
  · split
    · next hbody => exact subCommand_obeys hC.toSound _ (eventBody_obeys hC hdisable henable hbody)
    · exact refusePacket_obeys hC.toSound p
  · exact refusePacket_obeys hC.toSound p
  · exact refusePacket_obeys hC.toSound p

theorem fireOne_obeys (hC : C.Timed) : Obeys C fireOne := by
  refine hC.bind hC.drawTie fun choice => obeys_read fun s => ?_
  cases pickEvent s.firstDue choice with
  | none => exact hC.answer ()
  | some e => exact hC.bind (hC.eventCall _ _) fun _ => returnHandling_obeys hC.toSound _ _

/-! ### `MX_POLL` (R269 to R274) -/

theorem pollCommit_obeys (hC : C.Sound) (off n : Nat) : Obeys C (pollCommit off n) :=
  hC.bind (hC.critical (hC.update fun _ => {})) fun _ => hC.bind (boundary_obeys hC) fun _ => hC.bind (mxDispatch_obeys hC) fun _ =>
    hC.updateBind (fun _ => {}) fun _ => hC.answer _

theorem closeSubRun_obeys (hC : C.Timed) (m : Nat) : Obeys C (closeSubRun m) := by
  refine obeys_read fun _ => hC.bind (hC.laterTick _ _) fun d s => hC.trans (hC.clock s d) (hC.tame ?_)
  exact {}

theorem pollLoop_obeys (hC : C.Timed) (off n fuel done : Nat) : Obeys C (pollLoop off n fuel done) := by
  induction fuel generalizing done with
  | zero => exact hC.answer _
  | succ fuel ih =>
    refine obeys_ite (pollCommit_obeys hC.toSound off n) (hC.bind (boundary_obeys hC.toSound) fun _ => obeys_read fun s => obeys_ite
      (hC.bind (fireOne_obeys hC) fun _ => ih done)
      (hC.updateBind (fun _ => {}) fun _ => hC.bind (mxExecRun_obeys hC.toReading _ _) fun h => ?_))
    match h with
    | .over => exact hC.bind (closeSubRun_obeys hC _) fun _ => ih _
    | .acquiring => exact hC.answer _
    | .running => exact hC.answer _

theorem pollAfter_obeys (hC : C.Timed) (off n done m : Nat) : Obeys C (pollAfter off n done m) :=
  hC.bind (closeSubRun_obeys hC m) fun _ => pollLoop_obeys hC _ _ _ _

theorem pollAcquireSpin_obeys (hC : C.Timed) (off n done m : Nat) : Obeys C (pollAcquireSpin off n done m) := by
  refine obeys_read fun _ => hC.bind (tryHandoff_obeys hC.toSound _ _) fun h => ?_
  match h with
  | .over => exact pollAfter_obeys hC off n done m
  | .acquiring => exact hC.answer _
  | .running => exact hC.answer _

theorem pollJobSpin_obeys (hC : C.Timed) (off n done m : Nat) : Obeys C (pollJobSpin off n done m) :=
  hC.bind (awaitJob_obeys hC.toSound) fun _ => obeys_ite (pollAfter_obeys hC off n done m) (hC.answer _)

theorem pollPlaceSpin_obeys (hC : C.Timed) (n : Nat) : Obeys C (pollPlaceSpin n) :=
  obeys_read fun _ => obeys_ite (pollLoop_obeys hC _ _ _ _)
    (hC.bind (mxDispatch_obeys hC.toSound) fun _ => hC.bind (boundary_obeys hC.toSound) fun _ => obeys_read fun _ =>
      obeys_ite (pollLoop_obeys hC _ _ _ _) (hC.answer _))

theorem mxPoll_obeys (hC : C.Timed) (n : Word) : Obeys C (mxPoll n) :=
  obeys_read fun _ => hC.bind (hC.ensure _ _ _) fun _ => hC.bind (mxOn_obeys hC.toSound) fun _ => hC.bind (hC.ensure _ _ _) fun _ =>
    obeys_ite (hC.answer _) (hC.updateBind (fun _ => {}) fun _ => pollPlaceSpin_obeys hC _)

/-! ### Every command -/

/-- The computation behind each command. -/
def commandBody : Instr → Act Reply
  | .aiInit numBuffers freq => replyNone (aiInit numBuffers freq)
  | .aiClose => aiClose
  | .aiSetFillCallback cb => replyNone (aiSetFillCallback cb)
  | .aiWriteBegin => aiWriteBegin
  | .aiWriteEnd => replyNone aiWriteEnd
  | .aiPush blocking src n => aiPush blocking src n
  | .aiPause pause => replyNone (aiPause pause)
  | .aiGetFrequency => reply aiGetFrequency
  | .sbInit ch base bytes => replyNone (sbInit ch base bytes)
  | .sbSetBitWidth ch bits => replyNone (sbSetBitWidth ch bits)
  | .sbSetDecoder ch fn ctx => replyNone (sbSetDecoder ch fn ctx)
  | .sbGet ch wpos wlen => reply (sbGet ch wpos wlen)
  | .sbAppend ch wlen => reply (sbAppend ch wlen)
  | .sbDiscard ch wpos => replyNone (sbDiscard ch wpos)
  | .sbFlush ch => replyNone (sbFlush ch)
  | .mxInit channels rate => replyNone (mxInit channels rate)
  | .mxClose => mxClose
  | .mxSampleRate => reply mxSampleRate
  | .mxSetMasterVolume vol => replyNone (mxSetMasterVolume vol)
  | .mxPoll n => mxPoll n
  | .mxExec out n => mxExec out n
  | .chPlay ch wave => replyNone (chPlay ch wave)
  | .chStop ch => replyNone (chStop ch)
  | .chPlaying ch => reply (chPlaying ch)
  | .chSetFrequency ch freq => replyNone (chSetFrequency ch freq)
  | .chSetPosition ch pos => replyNone (chSetPosition ch pos)
  | .chGetPosition ch => reply (chGetPosition ch)
  | .chSetVolume ch l r => replyNone (chSetVolume ch l r)
  | .chSetPan ch vol pan => replyNone (chSetPan ch vol pan)
  | .chSetDolby ch fl fr c sl sr => replyNone (chSetDolby ch fl fr c sl sr)
  | .chSetLimits ch maxBits maxFreq maxBuf => replyNone (chSetLimits ch maxBits maxFreq maxBuf)
  | .evAdd delay cb ctx => replyNone (evAdd delay cb ctx)
  | .evRemove cb => replyNone (evRemove cb)
  | .vsInit fps rate => replyNone (vsInit fps rate)
  | .vsSuggestedBufferSize => reply vsSuggestedBufferSize
  | .vsCurrentFrameSamples => reply vsCurrentFrameSamples
  | .vsNextFrame => replyNone vsNextFrame
  | .irqDisable => replyNone irqDisable
  | .irqEnable => replyNone irqEnable

/-- The meaning of an instruction is its command's computation, run as a command. -/
theorem exec_eq_command (i : Instr) (s : State) : exec i s = command i (commandBody i) s := by
  cases i <;> rfl

theorem replyNone_obeys (hC : C.Sound) {body : Act Unit} (h : Obeys C body) : Obeys C (replyNone body) :=
  hC.bind h fun _ => hC.answer _

theorem reply_obeys (hC : C.Sound) {body : Act (List Word)} (h : Obeys C body) : Obeys C (reply body) :=
  hC.bind h fun _ => hC.answer _

/-- Every command but those that move the depth or the clock honours every buffered contract. -/
theorem commandBody_obeys (hR : C.Reading) {i : Instr} (hdisable : i ≠ .irqDisable) (henable : i ≠ .irqEnable)
    (hpoll : ∀ n, i ≠ .mxPoll n) (hinit : ∀ c r, i ≠ .mxInit c r) : Obeys C (commandBody i) := by
  have hC := hR.toBuffered
  have hS := hR.toSound
  cases i with
  | aiInit numBuffers freq => exact replyNone_obeys hS (aiInit_obeys hS _ _)
  | aiClose => exact aiClose_obeys hS
  | aiSetFillCallback cb => exact replyNone_obeys hS (aiSetFillCallback_obeys hS _)
  | aiWriteBegin => exact aiWriteBegin_obeys hS
  | aiWriteEnd => exact replyNone_obeys hS (aiWriteEnd_obeys hS)
  | aiPush blocking src n => exact aiPush_obeys hS _ _ _
  | aiPause pause => exact replyNone_obeys hS (aiPause_obeys hS _)
  | aiGetFrequency => exact reply_obeys hS (aiGetFrequency_obeys hS)
  | sbInit ch base bytes => exact replyNone_obeys hS (sbInit_obeys hC _ _ _)
  | sbSetBitWidth ch bits => exact replyNone_obeys hS (sbSetBitWidth_obeys hC _ _)
  | sbSetDecoder ch fn ctx => exact replyNone_obeys hS (sbSetDecoder_obeys hC _ _ _)
  | sbGet ch wpos wlen => exact reply_obeys hS (sbGet_obeys hR _ _ _)
  | sbAppend ch wlen => exact reply_obeys hS (sbAppend_obeys hS (sbAppendProc_obeys hC) _ _)
  | sbDiscard ch wpos => exact replyNone_obeys hS (sbDiscard_obeys hC _ _)
  | sbFlush ch => exact replyNone_obeys hS (sbFlush_obeys hC _)
  | mxInit channels rate => exact absurd rfl (hinit channels rate)
  | mxClose => exact mxClose_obeys hC
  | mxSampleRate => exact reply_obeys hS (mxSampleRate_obeys hS)
  | mxSetMasterVolume vol => exact replyNone_obeys hS (mxSetMasterVolume_obeys hS _)
  | mxPoll n => exact absurd rfl (hpoll n)
  | mxExec out n => exact mxExec_obeys hR _ _
  | chPlay ch wave => exact replyNone_obeys hS (chPlay_obeys hC _ _)
  | chStop ch => exact replyNone_obeys hS (chStop_obeys hC _)
  | chPlaying ch => exact reply_obeys hS (chPlaying_obeys hS _)
  | chSetFrequency ch freq => exact replyNone_obeys hS (chSetFrequency_obeys hS _ _)
  | chSetPosition ch pos => exact replyNone_obeys hS (chSetPosition_obeys hS _ _)
  | chGetPosition ch => exact reply_obeys hS (chGetPosition_obeys hS _)
  | chSetVolume ch l r => exact replyNone_obeys hS (chSetVolume_obeys hS _ _ _)
  | chSetPan ch vol pan => exact replyNone_obeys hS (chSetPan_obeys hS _ _ _)
  | chSetDolby ch fl fr c sl sr => exact replyNone_obeys hS (chSetDolby_obeys hS _ _ _ _ _ _)
  | chSetLimits ch maxBits maxFreq maxBuf => exact replyNone_obeys hS (chSetLimits_obeys hC _ _ _ _)
  | evAdd delay cb ctx => exact replyNone_obeys hS (evAdd_obeys hS _ _ _)
  | evRemove cb => exact replyNone_obeys hS (evRemove_obeys hS _)
  | vsInit fps rate => exact replyNone_obeys hS (vsInit_obeys hS _ _)
  | vsSuggestedBufferSize => exact reply_obeys hS (vsSuggestedBufferSize_obeys hS)
  | vsCurrentFrameSamples => exact reply_obeys hS (vsCurrentFrameSamples_obeys hS)
  | vsNextFrame => exact replyNone_obeys hS (vsNextFrame_obeys hS)
  | irqDisable => exact absurd rfl hdisable
  | irqEnable => exact absurd rfl henable

/-- Every command but the two that move the depth honours every timed contract. -/
theorem commandBody_obeys_timed (hC : C.Timed) {i : Instr} (hdisable : i ≠ .irqDisable) (henable : i ≠ .irqEnable) :
    Obeys C (commandBody i) := by
  by_cases hpoll : ∃ n, i = .mxPoll n
  · obtain ⟨n, rfl⟩ := hpoll
    exact mxPoll_obeys hC n
  · by_cases hinit : ∃ c r, i = .mxInit c r
    · obtain ⟨c, r, rfl⟩ := hinit
      exact replyNone_obeys hC.toSound (mxInit_obeys hC c r)
    · exact commandBody_obeys hC.toReading hdisable henable (fun n h => hpoll ⟨n, h⟩) fun c r h => hinit ⟨c, r, h⟩

/-- A command that waits honours every timed contract as it goes on, a callback that never returns aside. -/
theorem resume_obeys (hC : C.Timed) {p : Pending} (hp : p ≠ .callback) : Obeys C (resume p) := by
  have hS := hC.toSound
  cases p with
  | writeBegin => exact aiWriteBeginSpin_obeys hS
  | push blocking src n acc => exact pushLoop_obeys hS _ _ _ _ _
  | aiClose => exact aiCloseWait_obeys hS
  | mxClose => exact mxCloseWait_obeys hC.toBuffered
  | pollPlace n => exact pollPlaceSpin_obeys hC _
  | pollRun off n done => exact pollLoop_obeys hC _ _ _ _
  | pollAcquire off n done m => exact pollAcquireSpin_obeys hC _ _ _ _
  | pollJob off n done m => exact pollJobSpin_obeys hC _ _ _ _
  | execAcquire out m => exact hC.bind (tryHandoff_obeys hS _ _) fun _ => hC.answer _
  | execJob => exact hC.bind (awaitJob_obeys hS) fun _ => hC.answer _
  | callback => exact absurd rfl hp

end
end Sys2Proof.Machine
end

section
/-!
SUPPORT. Invariants of the whole machine: an invariant that every kept update, the clock, the depth and a windowed read keep is kept by
every step, in any environment (spec/00_scope.md R10, spec/70_reset_and_hazards.md R380).
-/

namespace Sys2Proof.Machine

set_option Elab.async false

/-! ### Invariants as contracts -/

/-- The contract of an invariant: where it holds at the start, it holds at the end, whether the computation answers or stops. -/
def invariantContract (I : State → Prop) : Contract := ⟨fun s t => I s → I t, fun _ s t => I s → I t⟩

theorem obeys_iff_keeps {α : Type} {I : State → Prop} {x : Act α} : Obeys (invariantContract I) x ↔ Keeps I x := by
  refine forall_congr' fun s => ?_
  rw [ObeysAt]
  cases x s with
  | ok a t => exact Iff.rfl
  | error e t => exact Iff.rfl

/-- A property that tame updates keep, and that does not look at the critical section's depth. -/
structure Invariant (I : State → Prop) : Prop where
  tame : ∀ {s t}, Tame s t → I s → I t
  depth : ∀ s d, I s → I { s with irqDepth := d }

namespace Invariant

variable {I : State → Prop} (hI : Invariant I)
include hI

theorem fault (s : State) (c : FaultCode) (v : Word) : I s → I (s.enterFaulted c v) := hI.tame {}

theorem keeps_disableIrq : Keeps I disableIrq := by
  intro s hs
  rw [disableIrq_apply]
  split
  · exact hI.depth s _ hs
  · exact hI.fault s _ _ hs

theorem keeps_enableIrq : Keeps I enableIrq := by
  intro s hs
  rw [enableIrq_apply]
  split
  · exact hI.depth s _ hs
  · exact hI.fault s _ _ hs

theorem keeps_critical {body : Act Unit} (h : Keeps I body) : Keeps I (critical body) :=
  keeps_bind hI.keeps_disableIrq fun _ => keeps_bind h fun _ => hI.keeps_enableIrq

theorem irqEntry {s : State} (h : I s) : I s.irqEntry :=
  hI.tame (s := { s with irqDepth := s.irqDepth + 1 }) {} (hI.depth s _ h)

theorem irqReturn {s : State} (h : I s) (ctx : Ctx) (cmd : CmdId) : I (s.irqReturn ctx cmd) :=
  hI.tame (s := { s with irqDepth := s.irqDepth - 1 }) {} (hI.depth s _ h)

theorem keeps_interrupt {handler : Act Unit} (h : Keeps I handler) : Keeps I (interrupt handler) := by
  refine keeps_get_bind fun s hs => ?_
  rw [act_set_bind]
  exact keeps_bind h (fun _ => keeps_modify fun t ht => hI.irqReturn ht s.ctx s.cmd) s.irqEntry (hI.irqEntry hs)

theorem sound : (invariantContract I).Sound where
  trans h k := k ∘ h
  thenStop h k := k ∘ h
  tame := hI.tame
  fault := hI.fault
  stay _ _ _ := id
  critical h := obeys_iff_keeps.mpr (hI.keeps_critical (obeys_iff_keeps.mp h))
  interrupt h := obeys_iff_keeps.mpr (hI.keeps_interrupt (obeys_iff_keeps.mp h))

theorem obeys_irqDisable : Obeys (invariantContract I) irqDisable :=
  hI.sound.bind hI.sound.checkIssuer fun _ => obeys_iff_keeps.mpr hI.keeps_disableIrq

theorem obeys_irqEnable : Obeys (invariantContract I) irqEnable :=
  hI.sound.bind hI.sound.checkIssuer fun _ => obeys_iff_keeps.mpr hI.keeps_enableIrq

end Invariant

/-! ### Invariants of every step -/

/-- An invariant that kept buffers, the clock and a windowed read of a u32 position keep. -/
structure StepInvariant (I : State → Prop) : Prop extends Invariant I where
  kept : ∀ {s t}, Kept s t → I s → I t
  clock : ∀ (s : State) d, I s → I (s.modMx fun m => { m with ticks := d })
  get : ∀ {i p n}, p < 2 ^ 32 → Keeps I (sbGetProc i p n)

namespace StepInvariant

variable {I : State → Prop} (hI : StepInvariant I)
include hI

theorem reading : (invariantContract I).Reading where
  toSound := hI.sound
  kept := hI.kept
  get hp := obeys_iff_keeps.mpr (hI.get hp)

theorem eventIssue (p : Packet) : Obeys (invariantContract I) (Machine.eventIssue p) :=
  eventIssue_obeys hI.reading.toBuffered hI.obeys_irqDisable hI.obeys_irqEnable p

theorem timed : (invariantContract I).Timed where
  toReading := hI.reading
  clock := hI.clock
  eventCall fn args := callHost_obeys hI.sound .event fn args hI.eventIssue (boundary_obeys hI.sound)

theorem finish {s : State} (r : List Word) (h : I s) : I (s.finish r) := hI.tame {} h

theorem waiting {s : State} (p : Pending) (h : I s) : I (s.waiting p) := hI.tame {} h

theorem settle_keeps {x : Act Reply} (hx : Obeys (invariantContract I) x) {s t : State} (hs : I s)
    (h : settle (x s) = .next t) : I t :=
  keeps_settle (obeys_iff_keeps.mp hx) (fun _ r h => hI.finish r h) (fun _ p h => hI.waiting p h) hs h

theorem settleMove_keeps {x : Act Unit} (hx : Obeys (invariantContract I) x) {s t : State} (hs : I s)
    (h : settleMove (x s) = .next t) : I t := by
  have hend := obeys_iff_keeps.mp hx s hs
  cases e : x s with
  | ok _ u => rw [e] at hend h; cases h; exact hend
  | error r u =>
    rw [e] at hend h
    cases r with
    | fatal => cases h; exact hend
    | stuck => cases h; exact hI.waiting .callback hend
    | fault f => cases h

theorem obeys_commandBody (i : Instr) : Obeys (invariantContract I) (commandBody i) := by
  by_cases hdisable : i = .irqDisable
  · subst hdisable
    exact replyNone_obeys hI.sound hI.obeys_irqDisable
  · by_cases henable : i = .irqEnable
    · subst henable
      exact replyNone_obeys hI.sound hI.obeys_irqEnable
    · exact commandBody_obeys_timed hI.timed hdisable henable

theorem exec_keeps {i : Instr} {s t : State} (hs : I s) (h : exec i s = .next t) : I t := by
  rw [exec_eq_command, command] at h
  split at h
  · cases h
  · exact hI.settle_keeps (hI.obeys_commandBody i) (s := s.begin i) (hI.tame {} hs) h

theorem obeys_resume (p : Pending) : Obeys (invariantContract I) (resume p) := by
  by_cases hp : p = .callback
  · subst hp
    refine obeys_read fun s => hI.sound.bind hI.sound.drawRun fun run =>
      hI.sound.bind (runActs_obeys hI.sound (fun q => ?_) (boundary_obeys hI.sound) _) fun _ => hI.sound.answer _
    cases s.ctx with
    | decoder i => exact decoderIssue_obeys hI.sound (sbAppendProc_obeys hI.reading.toBuffered) q
    | event => exact hI.eventIssue q
    | host => exact refusePacket_obeys hI.sound q
    | fill => exact refusePacket_obeys hI.sound q
    | irq => exact refusePacket_obeys hI.sound q
  · exact resume_obeys hI.timed hp

theorem hostTurn_keeps {s t : State} (hs : I s) (h : hostTurn exec s = .next t) : I t := by
  unfold hostTurn at h
  split at h
  · exact hI.settle_keeps (hI.obeys_resume _) hs h
  · split at h
    · cases h
      exact hs
    · next a rest _ =>
      have hrest : I { s with host := rest } := hI.tame {} hs
      split at h
      · exact hI.exec_keeps hrest h
      · cases h
        exact hI.tame {} hrest
      · exact hI.settleMove_keeps (hostAccess_obeys hI.sound _) hrest h

theorem agentTurn_keeps {a : Agent} {s t : State} (hs : I s) (h : agentTurn exec a s = .next t) : I t := by
  cases a with
  | host => exact hI.hostTurn_keeps hs h
  | irq => exact hI.settleMove_keeps (agentMove_obeys hI.sound .irq) hs h
  | aiDma => exact hI.settleMove_keeps (agentMove_obeys hI.sound .aiDma) hs h
  | coproc => exact hI.settleMove_keeps (agentMove_obeys hI.sound .coproc) hs h
  | clientStart => exact hI.settleMove_keeps (agentMove_obeys hI.sound .clientStart) hs h
  | clientDone ws => exact hI.settleMove_keeps (agentMove_obeys hI.sound (.clientDone ws)) hs h

/-- Every step keeps the invariant: the environment's choice of the agent touches nothing it speaks of, and the turn keeps it. -/
theorem step_keeps {s t : State} (hs : I s) (h : step s = .next t) : I t := by
  unfold step at h
  split at h
  · cases h
  · obtain ⟨o, ho⟩ := nextAgent_state s
    rw [ho] at h
    exact hI.agentTurn_keeps (hI.tame {} hs) h

end StepInvariant

/-! ### The legal form -/

theorem legal_of_bounded {s t : State} (h : Bounded s t) (hbps : ∀ i < 32, (s.sb i).bps.toNat ≤ 1 → (t.sb i).bps.toNat ≤ 1)
    (hs : s.legal) : t.legal := by
  obtain ⟨hmem, hcoproc, hdirty, hfifo, hregions, hblocks, hevents, hmaster, hvolumes, hbuffers⟩ := hs
  exact ⟨h.mem hmem, h.coproc hcoproc, h.dirty hdirty, h.fifo hfifo, h.regions hregions, h.blocks hblocks, h.events hevents,
    h.master hmaster, h.volumes hvolumes, fun i hi => hbps i hi (hbuffers i hi)⟩

theorem kept_legal {s t : State} (h : Kept s t) : s.legal → t.legal := legal_of_bounded h.toBounded fun i hi => (h.bufs i hi).bps

/-- The read cursor is no part of the legal form. -/
theorem cursor_legal (s : State) (i : Nat) (r : SampleBuf → Word) (hs : s.legal) :
    (s.modSb i fun b => { b with ridx := r b }).legal := by
  refine legal_of_bounded (s := s) {} (fun j hj hb => ?_) hs
  by_cases hji : j = i
  · subst hji
    rw [modSb_sb_same s _ hj]
    exact hb
  · rw [modSb_sb_other s _ hji]
    exact hb

theorem invariant_legal : Invariant State.legal where
  tame h := kept_legal h.kept
  depth _ _ h := h

theorem stepInvariant_legal : StepInvariant State.legal where
  toInvariant := invariant_legal
  kept := kept_legal
  clock _ _ h := h
  get {i p n} _ := obeys_iff_keeps.mp
    (sbGetProc_obeys (C := invariantContract State.legal) { toSound := invariant_legal.sound, kept := kept_legal }
      (fun s r => cursor_legal s i r) p n)

/-- Settles O58: the legal form is kept by every kept update, it does not speak of the clock, and no windowed read touches a bit width. -/
theorem stepKeepsLegal : Obligations.StepKeepsLegal := fun _ _ => stepInvariant_legal.step_keeps

end Sys2Proof.Machine
end

section
/-!
SUPPORT. The sample-buffer invariant of R31 through a windowed read: while a decoder fills the window, its appends move the window's
start and the read cursor together, so that the position asked for stays where the read cursor is (R188, R191, R193).
-/

namespace Sys2Proof.Machine

set_option Elab.async false

/-- What follows a computation may use the state it answered in. -/
theorem ends_bind {α β : Type} {I : State → Prop} {x : Act α} {f : α → Act β} {s : State} (hx : Ends I (x s))
    (hf : ∀ a t, x s = .ok a t → I t → Ends I (f a t)) : Ends I ((x >>= f) s) := by
  rw [act_bind]
  cases e : x s with
  | ok a t => rw [e] at hx; exact hf a t e hx
  | error r t => rw [e] at hx; exact hx

/-! ### Invariants of the buffers alone -/

theorem invariant_of_sbs {P : Table SampleBuf → Prop} : Invariant fun s => P s.sbs where
  tame h hs := by rw [h.sbs]; exact hs
  depth _ _ h := h

/-- Copying bytes moves no window. -/
theorem copyBytes_sbs {src dst n : Nat} {s t : State} (h : copyBytes src dst n s = .ok () t) : t.sbs = s.sbs := by
  have hkeeps : Keeps (fun u => u.sbs = s.sbs) (copyBytes src dst n) :=
    obeys_iff_keeps.mp (copyBytes_obeys (invariant_of_sbs (P := fun b => b = s.sbs)).sound n src dst)
  have hend := hkeeps s rfl
  rw [h] at hend
  exact hend

/-! ### The position under the read cursor -/

/-- The read cursor stands at waveform position `p`. -/
def SampleBuf.cursorAt (p : Nat) (b : SampleBuf) : Prop := b.wpos.toNat + b.ridx.toNat = p

/-- Every window is legal, and the read cursor of buffer `i` stands at `p`. -/
def State.readingAt (i p : Nat) (s : State) : Prop := s.windowsLegal ∧ (s.sb i).cursorAt p

theorem invariant_readingAt (i p : Nat) : Invariant (State.readingAt i p) :=
  invariant_of_sbs (P := fun b => (∀ j < 32, (Table.at b j).windowLegal) ∧ (Table.at b i).cursorAt p)

theorem kept_windowsLegal {s t : State} (h : Kept s t) (hs : s.windowsLegal) : t.windowsLegal :=
  fun i hi => (h.bufs i hi).window (hs i hi)

theorem roundDown8_le (n : Nat) : roundDown8 n ≤ n := Nat.div_mul_le_self n 8

theorem readingAt_modSb {i p j : Nat} {s : State} {f : SampleBuf → SampleBuf} (hi : i < 32) (hs : s.readingAt i p)
    (hkept : (s.sb j).Kept (f (s.sb j))) (hcursor : j = i → (f (s.sb i)).cursorAt p) : (s.modSb j f).readingAt i p := by
  refine ⟨kept_windowsLegal (kept_modSb fun _ => hkept) hs.1, ?_⟩
  by_cases hij : i = j
  · subst hij
    rw [modSb_sb_same s f hi]
    exact hcursor rfl
  · rw [modSb_sb_other s f hij]
    exact hs.2

/-- A window emptied up to its read cursor starts at the position the cursor stood at. -/
theorem SampleBuf.cursorAt_emptyAt {b : SampleBuf} {p : Nat} (hp : p < 2 ^ 32) (hb : b.cursorAt p) (hlegal : b.windowLegal)
    (hall : b.widx.toNat ≤ roundDown8 b.ridx.toNat) : (b.emptyAt (b.wpos.toNat + roundDown8 b.ridx.toNat)).cursorAt p := by
  have hround := roundDown8_le b.ridx.toNat
  have hridx := hlegal.1
  have hsum : b.wpos.toNat + b.ridx.toNat = p := hb
  have hpos : b.wpos.toNat + roundDown8 b.ridx.toNat = p := by omega
  show (w32 _).toNat + 0 = p
  rw [hpos]
  exact Nat.mod_eq_of_lt hp

/-- Samples dropped in front of the read cursor leave it at its position. -/
theorem SampleBuf.cursorAt_dropped {b : SampleBuf} {p k : Nat} (hp : p < 2 ^ 32) (hb : b.cursorAt p) (hk : k ≤ b.ridx.toNat) :
    (b.dropped (b.wpos.toNat + k) k).cursorAt p := by
  have hsum : b.wpos.toNat + b.ridx.toNat = p := hb
  have hwpos : (w32 (b.wpos.toNat + k)).toNat = b.wpos.toNat + k := Nat.mod_eq_of_lt (by omega)
  have hridx : (w32 (b.ridx.toNat - k)).toNat = b.ridx.toNat - k := Nat.mod_eq_of_lt (by omega)
  show (w32 (b.wpos.toNat + k)).toNat + (w32 (b.ridx.toNat - k)).toNat = p
  omega

/-- The discard with which an append makes room goes no further than the read cursor (R191, R193). -/
theorem sbDiscardProc_readingAt {i p : Nat} (hi : i < 32) (hp : p < 2 ^ 32) (j : Nat) {s : State} (hs : s.readingAt i p) :
    Ends (State.readingAt i p) (sbDiscardProc j ((s.sb j).wpos.toNat + roundDown8 (s.sb j).ridx.toNat) s) := by
  have hI := invariant_readingAt i p
  have hk := Nat.add_sub_cancel_left (s.sb j).wpos.toNat (roundDown8 (s.sb j).ridx.toNat)
  rw [sbDiscardProc, act_get_bind, act_ite, act_ite, hk]
  split
  · exact hs
  split
  · next hall =>
    exact readingAt_modSb hi hs (SampleBuf.kept_emptyAt _ _) fun hji => by
      subst hji
      exact SampleBuf.cursorAt_emptyAt hp hs.2 (hs.1 j hi) hall
  · have hcopy := copyBytes_obeys hI.sound (((s.sb j).widx.toNat - roundDown8 (s.sb j).ridx.toNat) * 2 ^ (s.sb j).bps.toNat)
      ((s.sb j).idxPtr (roundDown8 (s.sb j).ridx.toNat)) (s.sb j).base.toNat
    refine ends_bind (obeys_iff_keeps.mp hcopy s hs) fun _ u hu hend => ?_
    have hsb : s.sb j = u.sb j := by rw [State.sb, State.sb, copyBytes_sbs hu]
    refine readingAt_modSb hi hend (SampleBuf.kept_dropped _ _ _) fun hji => ?_
    subst hji
    rw [hsb]
    exact SampleBuf.cursorAt_dropped hp hend.2 (roundDown8_le _)

theorem sbMakeRoom_readingAt {i p : Nat} (hi : i < 32) (hp : p < 2 ^ 32) (j n : Nat) :
    Keeps (State.readingAt i p) (sbMakeRoom j n) := by
  refine keeps_get_bind fun s hs => ?_
  rw [act_ite]
  split
  · exact hs
  · exact ends_bind (sbDiscardProc_readingAt hi hp j hs) fun _ u _ hu =>
      keeps_get_bind (fun v hv => keeps_ensure (invariant_readingAt i p).fault _ _ _ v hv) u hu

/-- Whatever a decoder appends, the position asked for stays under the read cursor. -/
theorem appends_readingAt {i p : Nat} (hi : i < 32) (hp : p < 2 ^ 32) : (invariantContract (State.readingAt i p)).Appends := by
  refine fun j n => obeys_iff_keeps.mpr fun s hs => ends_bind (sbMakeRoom_readingAt hi hp j n s hs) fun _ t hroom ht => ?_
  have hgrown : (t.modSb j fun b => b.grown n).readingAt i p :=
    readingAt_modSb hi ht (SampleBuf.kept_grown (sbMakeRoom_room hroom)) fun _ => ht.2
  exact keeps_resultWord (fun _ _ h => h) _ _ hgrown

theorem callDecoder_readingAt {i p : Nat} (hi : i < 32) (hp : p < 2 ^ 32) (q n : Nat) (seeking : Bool) :
    Keeps (State.readingAt i p) (callDecoder i q n seeking) :=
  obeys_iff_keeps.mp (callDecoder_obeys (invariant_readingAt i p).sound (appends_readingAt hi hp) i q n seeking)

/-! ### A windowed read (R188) -/

theorem sbMiss_readingAt {i p : Nat} (hi : i < 32) (hp : p < 2 ^ 32) (n : Nat) {s : State} (hs : s.windowsLegal) :
    Ends (State.readingAt i p) (sbMiss i p n s) := by
  have hempty : ((s.modSb i fun b => b.emptyAt 0).modSb i fun b => { b with wpos := w32 p }).readingAt i p := by
    rw [modSb_modSb s _ _ hi]
    refine ⟨kept_windowsLegal (kept_modSb fun _ => SampleBuf.kept_emptyAt _ p) hs, ?_⟩
    rw [modSb_sb_same s _ hi]
    exact Nat.mod_eq_of_lt hp
  exact callDecoder_readingAt hi hp p (roundUp8 n) true _ hempty

theorem sbHit_readingAt {i p : Nat} (hi : i < 32) (n : Nat) {s : State} (hp : p < 2 ^ 32) (hs : s.windowsLegal)
    (hhit : (s.sb i).hit p) : Ends (State.readingAt i p) (sbHit i p n s) := by
  obtain ⟨-, hlow, hhigh⟩ := hhit
  have hridx : (w32 (p - (s.sb i).wpos.toNat)).toNat = p - (s.sb i).wpos.toNat := Nat.mod_eq_of_lt (by omega)
  have hmoved : (s.modSb i fun b => { b with ridx := w32 (p - b.wpos.toNat) }).readingAt i p := by
    refine ⟨kept_windowsLegal (kept_modSb fun _ => { window := fun h => ⟨?_, h.2⟩ }) hs, ?_⟩
    · show (w32 (p - (s.sb i).wpos.toNat)).toNat ≤ (s.sb i).widx.toNat
      omega
    · rw [modSb_sb_same s _ hi]
      show (s.sb i).wpos.toNat + (w32 (p - (s.sb i).wpos.toNat)).toNat = p
      omega
  rw [sbHit, act_get_bind, act_modify_bind, act_ite]
  split
  · exact callDecoder_readingAt hi hp _ _ _ _ hmoved
  · exact hmoved

/-- With the read cursor at `p`, the end of `SbGet` sets it where it stands. -/
theorem readWindow_windowsLegal {i p : Nat} (n : Nat) {s : State} (hs : s.readingAt i p) :
    Ends State.windowsLegal (readWindow i p n s) := by
  obtain ⟨hlegal, hcursor⟩ := hs
  have hsum : (s.sb i).wpos.toNat + (s.sb i).ridx.toNat = p := hcursor
  have hlt := (s.sb i).ridx.isLt
  have hridx : (w32 (p - (s.sb i).wpos.toNat)).toNat = (s.sb i).ridx.toNat := by
    rw [← hsum, Nat.add_sub_cancel_left]
    exact Nat.mod_eq_of_lt hlt
  refine kept_windowsLegal (kept_modSb fun _ => { window := fun h => ⟨?_, h.2⟩ }) hlegal
  exact hridx.trans_le h.1

theorem sbGetProc_windowsLegal {i p n : Nat} (hi : i < 32) (hp : p < 2 ^ 32) : Keeps State.windowsLegal (sbGetProc i p n) := by
  intro s hs
  have hfill : Ends (State.readingAt i p) ((if (s.sb i).hit p then sbHit i p n else sbMiss i p n) s) := by
    rw [act_ite]
    split
    · next hhit => exact sbHit_readingAt hi n hp hs hhit
    · exact sbMiss_readingAt hi hp n hs
  rw [sbGetProc_eq, act_bind]
  split
  · next t e =>
    rw [e] at hfill
    exact readWindow_windowsLegal n hfill
  · next e =>
    rw [e] at hfill
    exact hfill.1

theorem invariant_windowsLegal : Invariant State.windowsLegal where
  tame h := kept_windowsLegal h.kept
  depth _ _ h := h

theorem stepInvariant_windowsLegal : StepInvariant State.windowsLegal where
  toInvariant := invariant_windowsLegal
  kept := kept_windowsLegal
  clock _ _ h := h
  get {i p n} hp := by
    by_cases hi : i < 32
    · exact sbGetProc_windowsLegal hi hp
    · exact obeys_iff_keeps.mp
        (sbGetProc_obeys (C := invariantContract State.windowsLegal) { toSound := invariant_windowsLegal.sound, kept := kept_windowsLegal }
          (fun s r => kept_windowsLegal (kept_modSb fun h => absurd h hi)) p n)

/-- Settles O59: kept updates keep every window legal, and a windowed read ends with its cursor where the decoder's appends left it. -/
theorem stepKeepsWindows : Obligations.StepKeepsWindows := fun _ _ => stepInvariant_windowsLegal.step_keeps

end Sys2Proof.Machine
end

section
/-!
SUPPORT. What commands leave of the critical section's depth and of the clock: the depth is as it was unless the block is FAULTED or stuck
(spec/10_state.md R23, spec/60_exceptions.md R340, R344, R361), and only a poll and the engine's init move `TICKS` (R32).
-/

namespace Sys2Proof.Machine

set_option Elab.async false

/-! ### The depth as a contract -/

/-- Where `P` holds, a computation that answers leaves the depth as it was; one that raises Fatal leaves the block FAULTED. -/
def depthContract (P : Prop) : Contract := ⟨fun s t => P → t.irqDepth = s.irqDepth, fun e _ t => e = .fatal → t.fault ≠ none⟩

theorem depthContract_raise (P : Prop) {s t : State} (c : FaultCode) (v : Word) :
    (depthContract P).stop .fatal s (t.enterFaulted c v) := fun _ => by simp

/-- A critical section comes back to the depth it began at (R340). -/
theorem critical_depth {P : Prop} {body : Act Unit} (h : Obeys (depthContract P) body) : Obeys (depthContract P) (critical body) := by
  intro s
  rw [ObeysAt]
  by_cases hd : s.irqDepth = 0xFFFFFFFF
  · rw [critical_deepest hd]
    exact depthContract_raise P _ _
  · have hbody := h { s with irqDepth := s.irqDepth + 1 }
    rw [ObeysAt] at hbody
    rw [critical, act_bind_ok (by rw [disableIrq_apply, if_pos hd]), act_bind]
    cases e : body { s with irqDepth := s.irqDepth + 1 } with
    | error r t =>
      rw [e] at hbody
      exact hbody
    | ok _ t =>
      rw [e] at hbody
      show Contract.Claims _ s (enableIrq t)
      rw [enableIrq_apply]
      split
      · intro hP
        have ht : t.irqDepth = s.irqDepth + 1 := hbody hP
        show t.irqDepth - 1 = s.irqDepth
        rw [ht]
        exact BitVec.add_sub_cancel _ _
      · exact depthContract_raise P _ _

/-- An interrupt returns to the depth it was taken at (R344). -/
theorem interrupt_depth {P : Prop} {handler : Act Unit} (h : Obeys (depthContract P) handler) :
    Obeys (depthContract P) (interrupt handler) := by
  intro s
  have hhandler := h s.irqEntry
  rw [ObeysAt] at hhandler ⊢
  rw [interrupt, act_get_bind, act_set_bind, act_bind]
  cases e : handler s.irqEntry with
  | error r t =>
    rw [e] at hhandler
    exact hhandler
  | ok _ t =>
    rw [e] at hhandler
    intro hP
    have ht : t.irqDepth = s.irqDepth + 1 := hhandler hP
    show t.irqDepth - 1 = s.irqDepth
    rw [ht]
    exact BitVec.add_sub_cancel _ _

theorem depthContract_sound (P : Prop) : (depthContract P).Sound where
  trans h k hP := (k hP).trans (h hP)
  thenStop _ k := k
  tame h _ := h.depth
  fault _ c v := depthContract_raise P c v
  stay _ _ hne he := absurd he hne
  critical := critical_depth
  interrupt := interrupt_depth

theorem depthContract_reading (P : Prop) : (depthContract P).Reading :=
  have buffered : (depthContract P).Buffered := { toSound := depthContract_sound P, kept := fun h _ => h.depth }
  { toBuffered := buffered, get := fun _ => sbGetProc_obeys buffered (fun _ _ _ => rfl) _ _ }

/-! ### Event callbacks may nest, and are checked (R361) -/

/-- The two commands that move the depth claim nothing of it. -/
theorem irqDisable_depth : Obeys (depthContract False) irqDisable :=
  (depthContract_sound False).bind (depthContract_sound False).checkIssuer fun _ s => by
    rw [ObeysAt, disableIrq_apply]
    split
    · exact False.elim
    · exact depthContract_raise False _ _

theorem irqEnable_depth : Obeys (depthContract False) irqEnable :=
  (depthContract_sound False).bind (depthContract_sound False).checkIssuer fun _ s => by
    rw [ObeysAt, enableIrq_apply]
    split
    · exact False.elim
    · exact depthContract_raise False _ _

/-- A callback that returns has balanced its critical sections, or the block is FAULTED (R361). -/
theorem callHost_balanced {issue : Packet → Act Unit} {b : Act Unit} {ctx : Ctx} {fn : Word} {args : List Nat} {s t : State} {r : Word}
    (h : callHost issue b ctx fn args s = .ok r t) : t.irqDepth = s.irqDepth := by
  rw [callHost, act_get_bind, act_set_bind, act_bind_ok_iff] at h
  obtain ⟨run, u, -, h⟩ := h
  obtain ⟨-, v, -, h⟩ := act_bind_ok_iff.mp h
  cases e : run.ret with
  | none =>
    rw [e] at h
    cases h
  | some r' =>
    rw [e] at h
    replace h : (ensure (v.irqDepth = s.irqDepth) .irqUnbalanced v.irqDepth >>= fun _ =>
      (modify fun t => { t with ctx := s.ctx }) >>= fun _ => pure r') v = .ok r t := h
    rw [ensure_bind] at h
    split at h
    · next hdepth =>
      cases h
      exact hdepth
    · cases h

theorem eventCall_depth (P : Prop) (fn : Word) (args : List Nat) :
    Obeys (depthContract P) (callHost eventIssue boundary .event fn args) := by
  intro s
  have hfault := callHost_obeys (depthContract_sound False) .event fn args
    (eventIssue_obeys (depthContract_reading False).toBuffered irqDisable_depth irqEnable_depth)
    (boundary_obeys (depthContract_sound False)) s
  rw [ObeysAt] at hfault ⊢
  cases e : callHost eventIssue boundary .event fn args s with
  | ok r t => exact fun _ => callHost_balanced e
  | error r t =>
    rw [e] at hfault
    exact hfault

theorem depthContract_timed (P : Prop) : (depthContract P).Timed where
  toReading := depthContract_reading P
  clock _ _ _ := rfl
  eventCall := eventCall_depth P

/-- Settles O12: every command but the two honours the contract of the depth, and a step ends neither FAULTED nor stuck only where the
command answered. -/
theorem onlyIrqCommandsChangeDepth : Obligations.OnlyIrqCommandsChangeDepth := by
  intro i s t hdisable henable hf h hrunning hstuck
  have hbody := commandBody_obeys_timed (depthContract_timed True) hdisable henable (s.begin i)
  rw [exec_eq_command, command_running hf] at h
  rw [ObeysAt] at hbody
  cases e : commandBody i (s.begin i) with
  | ok r u =>
    rw [e] at h hbody
    have hu : u.irqDepth = s.irqDepth := hbody trivial
    cases r with
    | done res => cases h; exact hu
    | wait p => cases h; exact hu
  | error r u =>
    rw [e] at h hbody
    cases r with
    | fatal => cases h; exact absurd hrunning (hbody rfl)
    | stuck => cases h; exact absurd rfl hstuck
    | fault f => cases h

/-! ### The clock (R32) -/

theorem invariant_ticks (d : Dword) : Invariant fun s => s.mx.ticks = d where
  tame h hs := h.ticks.trans hs
  depth _ _ h := h

theorem ticks_reading (d : Dword) : (invariantContract fun s => s.mx.ticks = d).Reading :=
  have buffered : (invariantContract fun s => s.mx.ticks = d).Buffered :=
    { toSound := (invariant_ticks d).sound, kept := fun h hs => h.ticks.trans hs }
  { toBuffered := buffered, get := fun _ => sbGetProc_obeys buffered (fun _ _ h => h) _ _ }

theorem commandBody_keeps_ticks {i : Instr} (hpoll : ∀ n, i ≠ .mxPoll n) (hinit : ∀ c r, i ≠ .mxInit c r) (d : Dword) :
    Keeps (fun s => s.mx.ticks = d) (commandBody i) := by
  refine obeys_iff_keeps.mp ?_
  have hI := invariant_ticks d
  by_cases hdisable : i = .irqDisable
  · subst hdisable
    exact replyNone_obeys hI.sound hI.obeys_irqDisable
  · by_cases henable : i = .irqEnable
    · subst henable
      exact replyNone_obeys hI.sound hI.obeys_irqEnable
    · exact commandBody_obeys (ticks_reading d) hdisable henable hpoll hinit

/-- Settles O53: no elementary update of any other command moves the clock. -/
theorem onlyPollMovesTicks : Obligations.OnlyPollMovesTicks := by
  intro i s t hpoll hinit h
  rw [exec_eq_command, command] at h
  split at h
  · cases h
  · exact keeps_settle (commandBody_keeps_ticks hpoll hinit s.mx.ticks) (fun _ _ h => h) (fun _ _ h => h) (s := s.begin i) rfl h

end Sys2Proof.Machine
end

section
/-!
SUPPORT. The state after power-on (spec/10_state.md R43), the commands of a sub-block that is off, the channel readers and `CH_STOP`
(spec/43_mixer_channel.md R221 to R225), and the event list (spec/45_event_scheduler.md R290, R291).
-/

namespace Sys2Proof.Machine

set_option Elab.async false

/-! ### The reset state (R43) -/

theorem Table.at_replicate {α : Type} [Inhabited α] (x : α) {k : Nat} (hk : k < tableSize) :
    Table.at (Vector.replicate tableSize x) k = x := by
  rw [Table.at, dif_pos hk, Vector.getElem_replicate]

theorem reset_sb {i : Nat} (hi : i < 32) : State.reset.sb i = SampleBuf.reset := Table.at_replicate SampleBuf.reset hi

theorem reset_chan {c : Nat} (hc : c < 32) : State.reset.chan c = Channel.reset := Table.at_replicate Channel.reset hc

/-- Settles O8: each element is its value in the reset state's definition; every buffer is the one of reset. -/
theorem resetState : Obligations.ResetState :=
  ⟨rfl, rfl, rfl, rfl, rfl, rfl, rfl, rfl, rfl, rfl, rfl, rfl, fun i hi => by rw [reset_sb hi]; rfl, rfl⟩

theorem reset_legal : State.reset.legal := by
  obtain ⟨hmem, hcoproc⟩ := reset_memories_wf
  refine ⟨hmem, hcoproc, List.Pairwise.nil, Nat.zero_le _, Nat.zero_le _, Nat.zero_le _, Nat.zero_le _, Nat.zero_le _,
    fun c hc => ?_, fun i hi => ?_⟩
  · rw [reset_chan hc]
    exact ⟨Nat.zero_le _, Nat.zero_le _⟩
  · rw [reset_sb hi]
    exact Nat.zero_le _

theorem reset_windowsLegal : State.reset.windowsLegal := by
  intro i hi
  rw [reset_sb hi]
  exact SampleBuf.windowLegal_of_empty rfl rfl

/-- Settles O60: the legal form and the empty windows of the reset state. -/
theorem resetMeetsInvariants : Obligations.ResetMeetsInvariants := ⟨reset_legal, reset_windowsLegal⟩

/-! ### Commands of a sub-block that is off (R21, R140, R180, R210, R215, R290, R310) -/

/-- A command whose computation raises Fatal ends in the FAULTED state it reached. -/
theorem exec_fatal {i : Instr} {s t : State} (hf : s.fault = none) (h : commandBody i (s.begin i) = .error .fatal t) :
    exec i s = .next t := by
  rw [exec_eq_command, command_running hf, h, settle_fatal]

/-- The fault of a command whose sub-block is off: BAD_STATE with its opcode. -/
abbrev badState (i : Instr) (s : State) : State := (s.begin i).enterFaulted .badState (i.opcode.setWidth 32)

/-- A state check behind the issuer check that fails. -/
theorem issuerThenState_fails {i : Instr} {s : State} (h : s.mayRun i) {α : Type} {p : State → Prop} [∀ s, Decidable (p s)]
    (hp : ¬ p (s.begin i)) (f : State → Act α) :
    (checkIssuer >>= fun _ => get >>= fun s => ensureState (p s) >>= fun _ => f s) (s.begin i) = .error .fatal (badState i s) := by
  rw [act_bind_ok (checkIssuer_begin h), act_get_bind, ensureState_bind, if_neg hp]
  rfl

theorem driver_off {i : Instr} {s : State} (h : s.mayRun i) (hop : 0x02 ≤ i.opcode.toNat ∧ i.opcode.toNat ≤ 0x08)
    (hoff : s.drv.on = false) : commandBody i (s.begin i) = .error .fatal (badState i s) := by
  have off : ∀ {α : Type} (f : Unit → Act α), (drvOn >>= f) (s.begin i) = .error .fatal (badState i s) :=
    fun f => act_bind_error (drvOn_begin_off h hoff)
  have notOn : ¬ (s.begin i).drv.on = true := by simp [hoff]
  cases i with
  | aiClose => exact off _
  | aiSetFillCallback cb => exact replyNone_error (off _)
  | aiWriteBegin => exact issuerThenState_fails h (fun hon => notOn hon.1) _
  | aiWriteEnd => exact replyNone_error (issuerThenState_fails h (fun hon => notOn hon.1) _)
  | aiPush blocking src n => exact issuerThenState_fails h (fun hon => notOn hon.1) _
  | aiPause pause => exact replyNone_error (off _)
  | aiGetFrequency => exact reply_error (off _)
  | _ => simp [Instr.opcode] at hop

theorem buffer_off {i : Instr} {s : State} (h : s.mayRun i) (hop : 0x11 ≤ i.opcode.toNat ∧ i.opcode.toNat ≤ 0x16)
    (hch : i.chField.toNat < 32) (hoff : (s.sb i.chField.toNat).on = false) :
    commandBody i (s.begin i) = .error .fatal (badState i s) := by
  have off : ∀ {α : Type} (f : Unit → Act α), (sbOn i.chField >>= f) (s.begin i) = .error .fatal (badState i s) :=
    fun f => act_bind_error (sbOn_begin_off h hch hoff)
  cases i with
  | sbSetBitWidth ch bits => exact replyNone_error (off _)
  | sbSetDecoder ch fn ctx => exact replyNone_error (off _)
  | sbGet ch wpos wlen => exact reply_error (off _)
  | sbAppend ch wlen => exact reply_error (off _)
  | sbDiscard ch wpos => exact replyNone_error (off _)
  | sbFlush ch => exact replyNone_error (off _)
  | _ => simp [Instr.opcode] at hop

theorem engine_off {i : Instr} {s : State} (h : s.mayRun i) (hop : 0x21 ≤ i.opcode.toNat ∧ i.opcode.toNat ≤ 0x24)
    (hoff : s.mx.on = false) (hpoll : s.mx.inPoll = false) : commandBody i (s.begin i) = .error .fatal (badState i s) := by
  have off : ∀ {α : Type} (f : Unit → Act α), (mxOn >>= f) (s.begin i) = .error .fatal (badState i s) :=
    fun f => act_bind_error (mxOn_begin_off h hoff)
  cases i with
  | mxClose => exact off _
  | mxSampleRate => exact reply_error (off _)
  | mxSetMasterVolume vol => exact replyNone_error (off _)
  | mxPoll n =>
    show mxPoll n (s.begin (.mxPoll n)) = _
    rw [mxPoll, act_get_bind, ensure_bind, if_pos (show (s.begin (.mxPoll n)).mx.inPoll = false from hpoll)]
    exact off _
  | _ => simp [Instr.opcode] at hop

theorem channels_off {i : Instr} {s : State} (h : s.mayRun i) (hop : 0x28 ≤ i.opcode.toNat ∧ i.opcode.toNat ≤ 0x41)
    (hoff : s.mx.on = false) : commandBody i (s.begin i) = .error .fatal (badState i s) := by
  have off : ∀ {α : Type} (f : Unit → Act α), (mxOn >>= f) (s.begin i) = .error .fatal (badState i s) :=
    fun f => act_bind_error (mxOn_begin_off h hoff)
  have chanOff : ∀ {α : Type} (f : Unit → Act α), (chanChecks i.chField >>= f) (s.begin i) = .error .fatal (badState i s) :=
    fun f => act_bind_error (chanChecks_begin_off h hoff)
  cases i with
  | chPlay ch wave => exact replyNone_error (chanOff _)
  | chStop ch => exact replyNone_error (chanOff _)
  | chPlaying ch => exact reply_error (chanOff _)
  | chSetFrequency ch freq => exact replyNone_error (chanOff _)
  | chSetPosition ch pos => exact replyNone_error (chanOff _)
  | chGetPosition ch => exact reply_error (chanOff _)
  | chSetVolume ch l r => exact replyNone_error (chanOff _)
  | chSetPan ch vol pan => exact replyNone_error (chanOff _)
  | chSetDolby ch fl fr c sl sr => exact replyNone_error (chanOff _)
  | chSetLimits ch maxBits maxFreq maxBuf => exact replyNone_error (chanOff _)
  | evAdd delay cb ctx => exact replyNone_error (off _)
  | evRemove cb => exact replyNone_error (off _)
  | _ => simp [Instr.opcode] at hop

theorem videoSync_off {i : Instr} {s : State} (h : s.mayRun i) (hop : 0x51 ≤ i.opcode.toNat ∧ i.opcode.toNat ≤ 0x53)
    (hoff : s.vs.on = false) : commandBody i (s.begin i) = .error .fatal (badState i s) := by
  have off : ∀ {α : Type} (f : Unit → Act α), (vsOn >>= f) (s.begin i) = .error .fatal (badState i s) :=
    fun f => act_bind_error (vsOn_begin_off h hoff)
  cases i with
  | vsSuggestedBufferSize => exact reply_error (off _)
  | vsCurrentFrameSamples => exact reply_error (off _)
  | vsNextFrame => exact replyNone_error (off _)
  | _ => simp [Instr.opcode] at hop

/-- The owner check that the two init commands begin with. -/
theorem ownerCheck_fails {i : Instr} {s : State} (h : s.mayRun i) (ho : s.owner ≠ .none) {α : Type} (f : State → Act α) :
    (checkIssuer >>= fun _ => get >>= fun s => ensure (s.owner = .none) .ownerConflict (Config.ownerCode s.owner) >>= fun _ => f s)
      (s.begin i) = .error .fatal ((s.begin i).enterFaulted .ownerConflict (Config.ownerCode s.owner)) := by
  rw [act_bind_ok (checkIssuer_begin h), act_get_bind, ensure_bind, if_neg (show (s.begin i).owner ≠ .none from ho)]
  rfl

theorem init_owned {i : Instr} {s : State} (h : s.mayRun i) (hop : i.opcode = 0x01 ∨ i.opcode = 0x20) (ho : s.owner ≠ .none) :
    commandBody i (s.begin i) = .error .fatal ((s.begin i).enterFaulted .ownerConflict (Config.ownerCode s.owner)) := by
  cases i with
  | aiInit numBuffers freq => exact replyNone_error (ownerCheck_fails h ho _)
  | mxInit channels rate => exact replyNone_error (ownerCheck_fails h ho _)
  | _ => simp [Instr.opcode] at hop

/-- Settles O37: family by family, the check that comes first raises. -/
theorem commandsBeforeInitFault : Obligations.CommandsBeforeInitFault := by
  refine fun i s h => ⟨fun hoff => exec_fatal h.1 ?_, fun hop ho => exec_fatal h.1 (init_owned h hop ho)⟩
  rcases hoff with ⟨hlo, hhi, hoff⟩ | ⟨hlo, hhi, hch, hoff⟩ | ⟨hlo, hhi, hoff, hpoll⟩ | ⟨hlo, hhi, hoff⟩ | ⟨hlo, hhi, hoff⟩
  · exact driver_off h ⟨hlo, hhi⟩ hoff
  · exact buffer_off h ⟨hlo, hhi⟩ hch hoff
  · exact engine_off h ⟨hlo, hhi⟩ hoff hpoll
  · exact channels_off h ⟨hlo, hhi⟩ hoff
  · exact videoSync_off h ⟨hlo, hhi⟩ hoff

/-! ### `CH_STOP` and the readers (R221, R222, R225) -/

theorem chanChecks_ready {s : State} {i : Instr} (h : s.channelReady i) {ch : Byte} (hch : i.chField = ch) :
    chanChecks ch (s.begin i) = .ok () (s.begin i) := by
  obtain ⟨hrun, hon, hrange⟩ := h
  subst hch
  exact chanChecks_begin hrun hon hrange

theorem chStop_ready {s : State} {ch : Byte} (h : s.channelReady (.chStop ch)) : chStop ch (s.begin (.chStop ch)) =
    .ok () (((s.begin (.chStop ch)).modChan ch.toNat Channel.stopped).modSb ch.toNat fun b => { b with decFn := 0, decCtx := 0 }) := by
  rw [chStop, act_bind_ok (chanChecks_ready (ch := ch) h rfl), act_modify]

theorem chPlaying_ready {s : State} {ch : Byte} (h : s.channelReady (.chPlaying ch)) : chPlaying ch (s.begin (.chPlaying ch)) =
    .ok [boolWord (decide (s.playing ch.toNat))] (s.begin (.chPlaying ch)) := by
  rw [chPlaying, act_bind_ok (chanChecks_ready (ch := ch) h rfl), act_get_bind, act_pure]
  rfl

theorem chGetPosition_ready {s : State} {ch : Byte} (h : s.channelReady (.chGetPosition ch)) :
    chGetPosition ch (s.begin (.chGetPosition ch)) = .ok [s.reportedPosition ch.toNat] (s.begin (.chGetPosition ch)) := by
  rw [chGetPosition, act_bind_ok (chanChecks_ready (ch := ch) h rfl), act_get_bind, act_pure]
  rfl

/-- The response of `CH_PLAYING` is 1 exactly when the pointer is not 0 (R222). -/
theorem boolWord_playing (s : State) (c : Nat) :
    boolWord (decide (s.playing c)) = if (s.chan c).desc.ptr ≠ 0 then 1 else 0 := by
  rw [boolWord]
  exact if_congr decide_eq_true_iff rfl rfl

/-- The reported position, with the reduction into the loop written out (R225). -/
theorem reportedPosition_eq (s : State) (c : Nat) :
    let x := s.chan c
    let p := x.desc.pos.toNat / 2 ^ (x.desc.flags.toNat % 4)
    let ls := (x.wave.len.toNat - x.wave.loop.toNat) * 4096
    s.reportedPosition c =
      if x.wave.id ≠ 0 ∧ x.wave.loop ≠ 0 ∧ x.wave.len.toNat ≤ p / 4096 then w32 (ls + (p - ls) % (x.wave.loop.toNat * 4096))
      else w32 p := by
  intro x p ls
  rw [State.reportedPosition, intoLoop, apply_ite w32]
  rfl

/-- Settles O41: the channel checks pass, and each command is its one statement. -/
theorem chStopAndReaders : Obligations.ChStopAndReaders := by
  intro s ch x p ls
  refine ⟨fun h => ?_, fun h => ?_, fun h => ?_⟩
  · exact (command_replyNone h.1.1 (chStop_ready h)).trans rfl
  · rw [← boolWord_playing]
    exact (command_reply h.1.1 (chPlaying_ready h)).trans rfl
  · rw [← reportedPosition_eq]
    exact (command_reply h.1.1 (chGetPosition_ready h)).trans rfl

/-! ### The event list (R290, R291) -/

/-- The tick of a delay is the sum of u64s. -/
theorem tick_eq_add (t : Dword) (d : Word) :
    BitVec.ofNat 64 (t.toNat + d.toNat) = t + BitVec.setWidth 64 d := by
  apply BitVec.eq_of_toNat_eq
  rw [BitVec.toNat_ofNat, BitVec.toNat_add, BitVec.toNat_setWidth, Nat.mod_eq_of_lt (show d.toNat < 2 ^ 64 by omega)]

/-- `EV_ADD` of a legal callback comes to the test for room. -/
theorem evAdd_begin {s : State} {delay cb ctx : Word} (h : s.mayRun (.evAdd delay cb ctx)) (hon : s.mx.on = true)
    (hcb : cb ≠ 0 ∧ ¬ reservedHandle cb) : evAdd delay cb ctx (s.begin (.evAdd delay cb ctx)) =
      (ensure (s.events.length ≠ maxEvents) .eventFull cb >>= fun _ => laterTick s.mx.ticks delay.toNat >>= fun tick =>
        modify fun s => s.addEvent tick cb ctx) (s.begin (.evAdd delay cb ctx)) := by
  rw [evAdd, act_bind_ok (mxOn_begin h hon), ensure_bind, if_pos hcb, act_get_bind]
  rfl

theorem evAdd_adds {s : State} {delay cb ctx : Word} (h : s.mayRun (.evAdd delay cb ctx)) (hon : s.mx.on = true)
    (hcb : cb ≠ 0 ∧ ¬ reservedHandle cb) (hroom : s.events.length < 32) (hfit : s.mx.ticks.toNat + delay.toNat < 2 ^ 64) :
    evAdd delay cb ctx (s.begin (.evAdd delay cb ctx)) =
      .ok () ((s.begin (.evAdd delay cb ctx)).addEvent (s.mx.ticks + BitVec.setWidth 64 delay) cb ctx) := by
  rw [evAdd_begin h hon hcb, ensure_bind, if_pos (show s.events.length ≠ maxEvents from hroom.ne), act_bind_ok (laterTick_fits hfit _),
    act_modify, tick_eq_add]

theorem evAdd_full {s : State} {delay cb ctx : Word} (h : s.mayRun (.evAdd delay cb ctx)) (hon : s.mx.on = true)
    (hcb : cb ≠ 0 ∧ ¬ reservedHandle cb) (hfull : s.events.length = 32) :
    evAdd delay cb ctx (s.begin (.evAdd delay cb ctx)) =
      .error .fatal ((s.begin (.evAdd delay cb ctx)).enterFaulted .eventFull cb) := by
  rw [evAdd_begin h hon hcb, ensure_bind, if_neg (fun hne => hne hfull)]

/-- The first record of the callback leaves the list, and the others keep their order (R291). -/
theorem withoutFirst_append {before after : List Event} {e : Event} {cb : Word} (he : e.cb = cb) (hb : ∀ x ∈ before, x.cb ≠ cb) :
    withoutFirst (before ++ e :: after) cb = before ++ after := by
  rw [withoutFirst, List.eraseP_append_right _ (fun x hx => by simpa using hb x hx), List.eraseP_cons_of_pos (by simpa using he)]

theorem evRemove_begin {s : State} {cb : Word} (h : s.mayRun (.evRemove cb)) (hon : s.mx.on = true) :
    evRemove cb (s.begin (.evRemove cb)) = (ensure (∃ e ∈ s.events, e.cb = cb) .eventNotFound cb >>= fun _ =>
      modify fun s => { s with events := withoutFirst s.events cb }) (s.begin (.evRemove cb)) := by
  rw [evRemove, act_bind_ok (mxOn_begin h hon), act_get_bind]
  rfl

theorem evRemove_removes {s : State} {cb : Word} (h : s.mayRun (.evRemove cb)) (hon : s.mx.on = true)
    (hin : ∃ e ∈ s.events, e.cb = cb) : evRemove cb (s.begin (.evRemove cb)) =
      .ok () { s.begin (.evRemove cb) with events := withoutFirst s.events cb } := by
  rw [evRemove_begin h hon, ensure_bind, if_pos hin, act_modify]
  rfl

theorem evRemove_absent {s : State} {cb : Word} (h : s.mayRun (.evRemove cb)) (hon : s.mx.on = true)
    (hout : ¬ ∃ e ∈ s.events, e.cb = cb) : evRemove cb (s.begin (.evRemove cb)) =
      .error .fatal ((s.begin (.evRemove cb)).enterFaulted .eventNotFound cb) := by
  rw [evRemove_begin h hon, ensure_bind, if_neg hout]

/-- Settles O50: the two commands on a list with room, on a full one, with a record of the callback, and without. -/
theorem eventListCommands : Obligations.EventListCommands := by
  refine fun s hon => ⟨fun delay cb ctx h hne hres => ⟨fun hroom hfit => ?_, fun hfull => ?_⟩, fun cb h =>
    ⟨fun before e after hlist he hbefore => ?_, fun hnone => ?_⟩⟩
  · exact (command_replyNone h.1 (evAdd_adds h hon ⟨hne, hres⟩ hroom hfit)).trans rfl
  · exact command_replyNone_fatal h.1 (evAdd_full h hon ⟨hne, hres⟩ hfull)
  · have hin : ∃ x ∈ s.events, x.cb = cb := ⟨e, by simp [hlist], he⟩
    have hcut : withoutFirst s.events cb = before ++ after := by rw [hlist, withoutFirst_append he hbefore]
    rw [← hcut]
    exact (command_replyNone h.1 (evRemove_removes h hon hin)).trans rfl
  · exact command_replyNone_fatal h.1 (evRemove_absent h hon fun ⟨x, hx, hxcb⟩ => hnone x hx hxcb)

end Sys2Proof.Machine
end

section
/-!
SUPPORT. Discards and appends of a sample buffer in an environment that does nothing meanwhile (spec/42_sample_buffer.md R191 to R194): what
a discard leaves of the window and of memory, and from it `SB_DISCARD` and the two ways an append can end.
-/

namespace Sys2Proof.Machine

set_option Elab.async false

/-! ### The window's bytes (R29, R186) -/

/-- A window inside the buffer ends inside the buffer's memory. -/
theorem SampleBuf.idxPtr_le {b : SampleBuf} {j : Nat} (h : j ≤ b.size) : b.idxPtr j ≤ b.base.toNat + b.bytes.toNat :=
  Nat.add_le_add_left ((Nat.mul_le_mul_right _ h).trans (Nat.div_mul_le_self _ _)) _

/-- The samples behind the first `k` of the window end where the window ends. -/
theorem SampleBuf.idxPtr_tail (b : SampleBuf) {k : Nat} (h : k ≤ b.widx.toNat) :
    b.idxPtr k + (b.widx.toNat - k) * 2 ^ b.bps.toNat = b.idxPtr b.widx.toNat := by
  rw [SampleBuf.idxPtr, SampleBuf.idxPtr, Nat.add_assoc, ← Nat.add_mul, Nat.add_sub_cancel' h]

/-! ### A discard (R193, R194) -/

/-- The window after the samples before position `p` are gone. -/
def SampleBuf.discarded (b : SampleBuf) (p : Nat) : SampleBuf :=
  if p ≤ b.wpos.toNat then b
  else if b.widx.toNat ≤ p - b.wpos.toNat then b.emptyAt p
  else b.dropped p (p - b.wpos.toNat)

/-- Memory after a discard of `k` samples: the rest of the window stands at its start, and every other byte is as before. -/
def State.movedDown (s : State) (b : SampleBuf) (k : Nat) (m : Memory) : Prop :=
  ∀ x, m.read x =
    if 0 < k ∧ b.base.toNat ≤ x ∧ x < b.base.toNat + (b.widx.toNat - k) * 2 ^ b.bps.toNat then
      s.cpuByte (x + k * 2 ^ b.bps.toNat)
    else s.mem.read x

theorem State.movedDown_refl (s : State) {b : SampleBuf} {k : Nat} (h : k = 0 ∨ b.widx.toNat ≤ k) : s.movedDown b k s.mem := by
  intro x
  rw [if_neg]
  rintro ⟨hk, hlo, hhi⟩
  have hnone : b.widx.toNat - k = 0 := by omega
  rw [hnone, Nat.zero_mul] at hhi
  omega

/-- All a discard does while nothing else moves. -/
theorem sbDiscardProc_quiet {s : State} {i p : Nat} (hq : s.quiet) (hi : i < 32) (hw : (s.sb i).widx.toNat ≤ (s.sb i).size)
    (hb : (s.sb i).base.toNat + (s.sb i).bytes.toNat ≤ s.memBytes) :
    ∃ t, sbDiscardProc i p s = .ok () t ∧ t = { s with sbs := t.sbs, mem := t.mem, cache := t.cache, race := t.race } ∧
      (∀ j, j ≠ i → t.sb j = s.sb j) ∧ t.sb i = (s.sb i).discarded p ∧
      s.movedDown (s.sb i) (p - (s.sb i).wpos.toNat) t.mem := by
  unfold SampleBuf.discarded
  by_cases hbefore : p ≤ (s.sb i).wpos.toNat
  · exact ⟨s, sbDiscardProc_before hbefore, rfl, fun _ _ => rfl, (if_pos hbefore).symm, s.movedDown_refl (.inl (by omega))⟩
  by_cases hall : (s.sb i).widx.toNat ≤ p - (s.sb i).wpos.toNat
  · refine ⟨_, sbDiscardProc_all (Nat.not_le.mp hbefore) hall, rfl, fun j => modSb_sb_other s _, ?_, s.movedDown_refl (.inr hall)⟩
    rw [if_neg hbefore, if_pos hall, modSb_sb_same s _ hi]
  · have htail := (s.sb i).idxPtr_tail (Nat.le_of_not_le hall)
    have hend := SampleBuf.idxPtr_le hw
    have hstart : (s.sb i).base.toNat ≤ (s.sb i).idxPtr (p - (s.sb i).wpos.toNat) := Nat.le_add_right _ _
    obtain ⟨t, hcopy, hframe, hread⟩ := copyBytes_quiet (s := s) (src := (s.sb i).idxPtr (p - (s.sb i).wpos.toNat))
      (dst := (s.sb i).base.toNat) (n := ((s.sb i).widx.toNat - (p - (s.sb i).wpos.toNat)) * 2 ^ (s.sb i).bps.toNat)
      hq (by omega) (by omega) (.inl hstart)
    have hsb : ∀ j, t.sb j = s.sb j := fun j => by rw [hframe]; rfl
    refine ⟨_, sbDiscardProc_part (Nat.not_le.mp hbefore) (Nat.not_le.mp hall) hcopy, ?_, fun j hj => ?_, ?_, fun x => ?_⟩
    · rw [hframe]; rfl
    · rw [modSb_sb_other t _ hj, hsb]
    · rw [if_neg hbefore, if_neg hall, modSb_sb_same t _ hi, hsb]
    · refine (hread x).trans (ite_congr (propext ⟨fun h => ⟨by omega, h⟩, And.right⟩) (fun h => ?_) fun _ => rfl)
      rw [SampleBuf.idxPtr]
      congr 1
      omega

/-! ### Commands -/

theorem sbOn_ready {s : State} {i : Instr} {ch : Byte} (h : s.mayRun i) (hch : i.chField = ch) (hc : ch.toNat < 32)
    (hon : (s.sb ch.toNat).on = true) : sbOn ch (s.begin i) = .ok () (s.begin i) := by
  subst hch
  exact sbOn_begin h hc hon

theorem w32_toNat (x : Word) : w32 x.toNat = x := (BitVec.ofNat_toNat 32 x).trans (BitVec.setWidth_eq x)

/-- Settles O32: behind the common checks the command is one discard, at the position it names. -/
theorem sbDiscardEffect : Obligations.SbDiscardEffect := by
  intro s ch p b k kept hrun hch hon hw hmem hq
  obtain ⟨t, hrun', hframe, hothers, hwindow, hmoved⟩ := sbDiscardProc_quiet (s := s.begin (.sbDiscard ch p)) (p := p.toNat)
    (begin_quiet hq _) hch hw hmem
  have hbody : sbDiscard ch p (s.begin (.sbDiscard ch p)) = .ok () t := by
    rw [sbDiscard, act_bind_ok (sbOn_ready (ch := ch) hrun rfl hch hon), hrun']
  refine ⟨t.finish [], command_replyNone hrun.1 hbody, ?_, hothers, hwindow.trans ?_, fun x => (hmoved x).trans ?_⟩
  · rw [hframe]; rfl
  · show b.discarded p.toNat = _
    rw [SampleBuf.discarded, SampleBuf.emptyAt, SampleBuf.dropped, w32_toNat]
    exact if_congr (by omega) rfl rfl
  · show ite (0 < k ∧ b.base.toNat ≤ x ∧ x < b.base.toNat + kept) _ _ = _
    refine ite_congr (propext ⟨fun ⟨hk, hlo, hhi⟩ => ⟨hk, ?_, hlo, hhi⟩, fun ⟨hk, _, hlo, hhi⟩ => ⟨hk, hlo, hhi⟩⟩)
      (fun _ => rfl) fun _ => rfl
    by_contra hle
    have hnone : kept = 0 := by
      show (b.widx.toNat - k) * _ = 0
      rw [Nat.sub_eq_zero_of_le (Nat.not_lt.mp hle), Nat.zero_mul]
    omega

/-! ### An append (R191, R192) -/

/-- A discard that goes no further than the read cursor takes its samples off the window, even where that is none or all of it. -/
theorem SampleBuf.discarded_toCursor {b : SampleBuf} {k : Nat} (hk : k ≤ b.ridx.toNat) (hr : b.ridx.toNat ≤ b.widx.toNat) :
    b.discarded (b.wpos.toNat + k) = b.dropped (b.wpos.toNat + k) k := by
  rw [SampleBuf.discarded, Nat.add_sub_cancel_left]
  split
  · have hnone : k = 0 := by omega
    rw [hnone, SampleBuf.dropped, Nat.add_zero, Nat.sub_zero, Nat.sub_zero, w32_toNat, w32_toNat, w32_toNat]
  · split
    · have hwidx : b.widx.toNat - k = 0 := by omega
      have hridx : b.ridx.toNat - k = 0 := by omega
      rw [SampleBuf.dropped, hwidx, hridx]
      rfl
    · rfl

/-- An append that does not fit goes on where the discard has made enough room, and is a fault where it has not. -/
theorem sbMakeRoom_discards {s t : State} {i n : Nat} (h : ¬ (s.sb i).widx.toNat + n ≤ (s.sb i).size)
    (ht : sbDiscardProc i ((s.sb i).wpos.toNat + roundDown8 (s.sb i).ridx.toNat) s = .ok () t) :
    sbMakeRoom i n s = if (t.sb i).widx.toNat + n ≤ (t.sb i).size then .ok () t
      else .error .fatal (t.enterFaulted .bufferTooSmall (w32 n)) := by
  rw [sbMakeRoom, act_get_bind, if_neg h, act_bind_ok ht, act_get_bind, ensure_apply]

/-- Behind enough room an append answers the window's old end and grows the window. -/
theorem sbAppendProc_grows {s t : State} {i n : Nat} (h : sbMakeRoom i n s = .ok () t)
    (hp : (t.sb i).idxPtr (t.sb i).widx.toNat < 2 ^ 32) :
    sbAppendProc i n s = .ok (w32 ((t.sb i).idxPtr (t.sb i).widx.toNat)) (t.modSb i fun b => b.grown n) := by
  rw [sbAppendProc, act_bind_ok h, act_get_bind, act_modify_bind, resultWord_fits hp]

theorem sbAppend_answers {s t : State} {ch : Byte} {n p : Word} (hrun : s.mayRun (.sbAppend ch n)) (hch : ch.toNat < 32)
    (hon : (s.sb ch.toNat).on = true) (h : sbAppendProc ch.toNat n.toNat (s.begin (.sbAppend ch n)) = .ok p t) :
    exec (.sbAppend ch n) s = .next (t.finish [p]) :=
  command_reply hrun.1 (by rw [sbAppend, act_bind_ok (sbOn_ready (ch := ch) hrun rfl hch hon), act_bind_ok h, act_pure])

theorem sbAppend_faults {s t : State} {ch : Byte} {n : Word} (hrun : s.mayRun (.sbAppend ch n)) (hch : ch.toNat < 32)
    (hon : (s.sb ch.toNat).on = true) (h : sbAppendProc ch.toNat n.toNat (s.begin (.sbAppend ch n)) = .error .fatal t) :
    exec (.sbAppend ch n) s = .next t :=
  command_reply_fatal hrun.1 (by rw [sbAppend, act_bind_ok (sbOn_ready (ch := ch) hrun rfl hch hon), act_bind_error h])

theorem SampleBuf.grown_eq_add (b : SampleBuf) (n : Word) : b.grown n.toNat = { b with widx := b.widx + n } := by
  have hsum : w32 (b.widx.toNat + n.toNat) = b.widx + n := BitVec.eq_of_toNat_eq (by rw [BitVec.toNat_ofNat, BitVec.toNat_add])
  rw [SampleBuf.grown, hsum]

/-- Settles O31: what fits is appended at once; what does not is appended, or is a fault, behind a discard up to the read cursor. -/
theorem sbAppendEffect : Obligations.SbAppendEffect := by
  intro s ch n b k hrun hch hon hr hw hmem hfit
  have hend : ∀ j ≤ b.widx.toNat, b.idxPtr j < 2 ^ 32 := fun j hj => (SampleBuf.idxPtr_le (hj.trans hw)).trans_lt hfit
  split
  · next hroom =>
    have happend := sbAppend_answers hrun hch hon (sbAppendProc_fits (s := s.begin (.sbAppend ch n)) hroom (hend _ le_rfl))
    refine happend.trans ?_
    simp only [SampleBuf.grown_eq_add]
    rfl
  · next hroom =>
    intro hq
    obtain ⟨t, hdiscard, hframe, hothers, hwindow, hmoved⟩ := sbDiscardProc_quiet (s := s.begin (.sbAppend ch n))
      (p := b.wpos.toNat + roundDown8 b.ridx.toNat) (begin_quiet hq _) hch hw hmem
    have hwindow : t.sb ch.toNat = b.dropped (b.wpos.toNat + k) k :=
      hwindow.trans (SampleBuf.discarded_toCursor (roundDown8_le _) hr)
    have hmoved : s.movedDown b k t.mem := by
      have hk : b.wpos.toNat + roundDown8 b.ridx.toNat - b.wpos.toNat = k := Nat.add_sub_cancel_left _ _
      rw [← hk]
      exact hmoved
    have hwidx : (t.sb ch.toNat).widx.toNat = b.widx.toNat - k := by
      rw [hwindow]
      exact Nat.mod_eq_of_lt (by have := b.widx.isLt; omega)
    have hsize : (t.sb ch.toNat).size = b.size := by rw [hwindow]; rfl
    have hptr : (t.sb ch.toNat).idxPtr (b.widx.toNat - k) = b.idxPtr (b.widx.toNat - k) := by rw [hwindow]; rfl
    have hmake := sbMakeRoom_discards (s := s.begin (.sbAppend ch n)) (n := n.toNat) hroom hdiscard
    rw [hwidx, hsize] at hmake
    by_cases henough : b.widx.toNat - k + n.toNat ≤ b.size
    · rw [if_pos henough] at hmake
      have happend := sbAppendProc_grows hmake (by rw [hwidx, hptr]; exact hend _ (Nat.sub_le _ _))
      rw [hwidx, hptr] at happend
      refine ⟨_, sbAppend_answers hrun hch hon happend, hmoved, ?_⟩
      rw [if_pos henough]
      refine ⟨rfl, ?_, fun i hi => (modSb_sb_other t (fun b => b.grown n.toNat) hi).trans (hothers i hi),
        (modSb_sb_same t (fun b => b.grown n.toNat) hch).trans ?_⟩
      · rw [hframe]; rfl
      · rw [SampleBuf.grown, hwidx, hwindow, SampleBuf.dropped]
    · rw [if_neg henough] at hmake
      have happend : sbAppendProc ch.toNat n.toNat (s.begin (.sbAppend ch n)) = .error .fatal _ :=
        act_bind_error hmake
      refine ⟨_, sbAppend_faults hrun hch hon happend, hmoved, ?_⟩
      rw [if_neg henough]
      refine ⟨?_, rfl⟩
      rw [hframe, w32_toNat]
      rfl

end Sys2Proof.Machine
end

section
/-!
SUPPORT. The driver's dispatch in an environment that does nothing meanwhile (spec/41_ai_driver.md R144 to R147): what each of its three
loops does as a whole, and the dispatch that is made of them.
-/

namespace Sys2Proof.Machine

set_option Elab.async false

/-! ### The ring of regions (R27) -/

theorem w32_toNat_of_lt {x : Nat} (h : x < 2 ^ 32) : (w32 x).toNat = x := Nat.mod_eq_of_lt h

/-- The region `j` places after the writer's. -/
def Driver.wrAt (d : Driver) (j : Nat) : Nat := (d.wr.toNat + j) % d.n.toNat

/-- The region `j` places after the dispatcher's. -/
def Driver.rdAt (d : Driver) (j : Nat) : Nat := (d.rd.toNat + j) % d.n.toNat

theorem ring_injective {a n i j : Nat} (hi : i < n) (hj : j < n) (h : (a + i) % n = (a + j) % n) : i = j :=
  Nat.ModEq.eq_of_lt_of_lt (Nat.ModEq.add_left_cancel' a h) hi hj

theorem Driver.wrAt_lt {d : Driver} (h : d.inRange) (j : Nat) : d.wrAt j < d.n.toNat := Nat.mod_lt _ h.1

theorem Driver.rdAt_lt {d : Driver} (h : d.inRange) (j : Nat) : d.rdAt j < d.n.toNat := Nat.mod_lt _ h.1

theorem Driver.wrAt_lt_table {d : Driver} (h : d.inRange) (j : Nat) : d.wrAt j < tableSize := (Driver.wrAt_lt h j).trans_le h.2.1

theorem Driver.rdAt_lt_table {d : Driver} (h : d.inRange) (j : Nat) : d.rdAt j < tableSize := (Driver.rdAt_lt h j).trans_le h.2.1

theorem Driver.w32_wrAt {d : Driver} (h : d.inRange) (j : Nat) : (w32 (d.wrAt j)).toNat = d.wrAt j :=
  w32_toNat_of_lt ((Driver.wrAt_lt h j).trans d.n.isLt)

theorem Driver.w32_rdAt {d : Driver} (h : d.inRange) (j : Nat) : (w32 (d.rdAt j)).toNat = d.rdAt j :=
  w32_toNat_of_lt ((Driver.rdAt_lt h j).trans d.n.isLt)

theorem Driver.wrAt_zero {d : Driver} (h : d.inRange) : w32 (d.wrAt 0) = d.wr := by
  obtain ⟨-, -, hwr, -⟩ := h
  rw [Driver.wrAt, Nat.add_zero, Nat.mod_eq_of_lt hwr, w32_toNat]

theorem Driver.rdAt_zero {d : Driver} (h : d.inRange) : w32 (d.rdAt 0) = d.rd := by
  obtain ⟨-, -, -, hrd⟩ := h
  rw [Driver.rdAt, Nat.add_zero, Nat.mod_eq_of_lt hrd, w32_toNat]

theorem Driver.next_wrAt (d : Driver) (j : Nat) : d.next (d.wrAt j) = w32 (d.wrAt (j + 1)) := by
  rw [Driver.next, Driver.wrAt, Driver.wrAt, Nat.mod_add_mod, Nat.add_assoc]

theorem Driver.next_rdAt (d : Driver) (j : Nat) : d.next (d.rdAt j) = w32 (d.rdAt (j + 1)) := by
  rw [Driver.next, Driver.rdAt, Driver.rdAt, Nat.mod_add_mod, Nat.add_assoc]

theorem Table.at_put {α : Type} [Inhabited α] (t : Table α) {k : Nat} (j : Nat) (x : α) (h : k < tableSize) :
    Table.at (Table.put t j x) k = if k = j then x else Table.at t k := by
  split
  · next hkj =>
    subst hkj
    exact Table.at_put_same t x h
  · next hkj => exact Table.at_put_other t x hkj

/-- Where the first `m` of some entries hold `x`, the write of entry `m` makes it the first `m + 1`. -/
theorem Table.at_put_next {α : Type} [Inhabited α] {t : Table α} {a : Nat → Nat} {m k : Nat} {x y : α} (hk : k < tableSize)
    (ht : Table.at t k = if ∃ j < m, k = a j then x else y) :
    Table.at (Table.put t (a m) x) k = if ∃ j < m + 1, k = a j then x else y := by
  rw [Table.at_put _ _ _ hk, ht]
  by_cases hkm : k = a m
  · rw [if_pos hkm, if_pos ⟨m, Nat.lt_succ_self m, hkm⟩]
  · rw [if_neg hkm]
    refine if_congr ⟨fun ⟨j, hj, e⟩ => ⟨j, Nat.lt_succ_of_lt hj, e⟩, fun ⟨j, hj, e⟩ => ⟨j, ?_, e⟩⟩ rfl rfl
    rcases Nat.lt_succ_iff_lt_or_eq.mp hj with hj | rfl
    · exact hj
    · exact absurd e hkm

/-! ### Retiring (R145) -/

/-- How many regions in flight the device no longer holds. -/
def State.goneCount (s : State) : Nat := s.drv.inflight.length - s.ai.fifo.length

/-- The regions in flight that the device no longer holds. -/
def State.gone (s : State) : List Nat := s.drv.inflight.take s.goneCount

/-- Those regions have left the list of regions in flight, with the region states `st`. -/
def State.retired (s : State) (st : Table RegionState) : State :=
  { s with drv := { s.drv with st := st, inflight := s.drv.inflight.drop s.goneCount } }

/-- Freed where gone, and as before elsewhere. -/
def State.Retires (s : State) (st : Table RegionState) : Prop :=
  ∀ k < 32, Table.at st k = if k ∈ s.gone then .free else s.drv.state k

theorem drvRetireLoop_quiet {fuel : Nat} {s : State} (hq : s.quiet) (hfifo : s.ai.fifo.length ≤ 2) (hfuel : s.goneCount < fuel) :
    ∃ st, drvRetireLoop fuel s = .ok () (s.retired st) ∧ s.Retires st := by
  induction fuel generalizing s with
  | zero => exact absurd hfuel (Nat.not_lt_zero _)
  | succ fuel ih =>
    rw [drvRetireLoop, act_bind_ok (deviceBoundary_quiet hq), act_get_bind, act_ite, hwCount_eq hfifo]
    split
    · next hmore =>
      obtain ⟨k, rest, hk⟩ := List.exists_cons_of_length_pos (Nat.zero_lt_of_lt hmore)
      have hhead : s.drv.retireHead = { s.drv with st := Table.put s.drv.st k .free, inflight := rest } := by
        rw [Driver.retireHead, hk]
        rfl
      have hinflight : (s.modDrv Driver.retireHead).drv.inflight = rest := by
        show s.drv.retireHead.inflight = rest
        rw [hhead]
      have hcount : s.goneCount = (s.modDrv Driver.retireHead).goneCount + 1 := by
        rw [hk, List.length_cons] at hmore
        rw [State.goneCount, State.goneCount, hinflight, hk, List.length_cons]
        exact Nat.succ_sub (Nat.le_of_lt_succ hmore)
      have hgone : s.gone = k :: (s.modDrv Driver.retireHead).gone := by
        rw [State.gone, State.gone, hcount, hinflight, hk, List.take_succ_cons]
      obtain ⟨st, hrun, hst⟩ := ih (s := s.modDrv Driver.retireHead) hq hfifo (by omega)
      refine ⟨st, ?_, fun j hj => ?_⟩
      · rw [act_modify_bind, hrun, State.retired, State.retired, hcount, hinflight, hk, List.drop_succ_cons]
        show EStateM.Result.ok () { s with drv := { s.drv.retireHead with st := st, inflight := _ } } = _
        rw [hhead]
      · rw [hst j hj, hgone]
        have hput : (s.modDrv Driver.retireHead).drv.state j = if j = k then .free else s.drv.state j := by
          show s.drv.retireHead.state j = _
          rw [hhead]
          exact Table.at_put _ _ _ hj
        rw [hput]
        by_cases hjk : j = k
        · simp [hjk]
        · simp [hjk]
    · next hnone =>
      have hcount : s.goneCount = 0 := by rw [State.goneCount]; omega
      refine ⟨s.drv.st, ?_, fun k _ => ?_⟩
      · rw [State.retired, hcount, List.drop_zero, act_pure]
      · rw [State.gone, hcount, List.take_zero, if_neg List.not_mem_nil]
        rfl

theorem drvRetire_quiet {s : State} (hq : s.quiet) (hfifo : s.ai.fifo.length ≤ 2) :
    ∃ st, drvRetire s = .ok () (s.retired st) ∧ s.Retires st := by
  rw [drvRetire, act_get_bind]
  exact drvRetireLoop_quiet hq hfifo (Nat.lt_succ_of_le (Nat.sub_le _ _))

/-! ### Refilling (R146) -/

/-- What filling leaves in the fields it writes, the writer's index and the trace of calls aside. -/
structure Fill where
  st : Table RegionState
  mem : Memory
  cache : Cache
  race : List Host.Cell

/-- The region states `st`, with the memory of a state. -/
def State.fillOf (s : State) (st : Table RegionState) : Fill := ⟨st, s.mem, s.cache, s.race⟩

/-- The call that fills region `k`. -/
def Driver.fillCall (d : Driver) (k : Nat) : Call := ⟨d.fillCb, [(d.addr k).toNat, d.q.toNat]⟩

/-- The trace of filling `r` regions: none for silence. -/
def Driver.fillCalls (d : Driver) (r : Nat) : List Call :=
  if d.fillCb = silenceCb then [] else (List.range r).map fun j => d.fillCall (d.wrAt j)

/-- `r` regions have been filled. -/
def State.refilled (s : State) (r : Nat) (f : Fill) : State :=
  { s with
    drv := { s.drv with st := f.st, wr := w32 (s.drv.wrAt r) }
    mem := f.mem, cache := f.cache, race := f.race
    calls := s.calls ++ s.drv.fillCalls r }

/-- Byte `x` lies in one of the first `r` regions from the writer's on. -/
def Driver.silenced (d : Driver) (r x : Nat) : Prop :=
  d.fillCb = silenceCb ∧ ∃ j < r, (d.addr (d.wrAt j)).toNat ≤ x ∧ x < (d.addr (d.wrAt j)).toNat + 4 * d.q.toNat

/-- What filling `r` regions from the writer's on does: they were free and are full, and only silence writes memory. -/
structure State.Refills (s : State) (r : Nat) (f : Fill) : Prop where
  le : r ≤ s.drv.n.toNat
  allowed : 0 < r → s.drv.fillCb ≠ 0 ∧ s.drv.begun = false ∧ s.drv.pushOff = 0
  idle : ∀ j < r, s.drv.state (s.drv.wrAt j) = .free
  states : ∀ k < 32, Table.at f.st k = if ∃ j < r, k = s.drv.wrAt j then .full else s.drv.state k
  kept : s.drv.fillCb ≠ silenceCb → f.mem = s.mem ∧ f.cache = s.cache ∧ f.race = s.race
  inside : ∀ x, s.drv.silenced r x → f.mem.read x = 0
  outside : ∀ x, ¬ s.drv.silenced r x → f.mem.read x = s.mem.read x

/-- The test of the refill's loop. -/
abbrev State.mayFill (s : State) : Prop :=
  s.drv.fillCb ≠ 0 ∧ s.drv.state s.drv.wr.toNat = .free ∧ s.drv.begun = false ∧ s.drv.pushOff = 0

theorem refills_none (s : State) : s.Refills 0 (s.fillOf s.drv.st) where
  le := Nat.zero_le _
  allowed h := absurd h (Nat.lt_irrefl 0)
  idle _ hj := absurd hj (Nat.not_lt_zero _)
  states k _ := by
    rw [if_neg (fun ⟨_, hj, _⟩ => Nat.not_lt_zero _ hj)]
    rfl
  kept _ := ⟨rfl, rfl, rfl⟩
  inside _ h := by
    obtain ⟨-, _, hj, -⟩ := h
    exact absurd hj (Nat.not_lt_zero _)
  outside _ _ := rfl

theorem refilled_none {s : State} (h : s.drv.inRange) : s.refilled 0 (s.fillOf s.drv.st) = s := by
  rw [State.refilled, Driver.wrAt_zero h, Driver.fillCalls, List.range_zero, List.map_nil, ite_self, List.append_nil]
  rfl

/-- The writes of one fill: zeros for silence, and none for a callback that returns at once (R156). -/
def State.fillOnce (s : State) : State :=
  if s.drv.fillCb = silenceCb then s.cpuClear (s.drv.addr s.drv.wr.toNat).toNat (4 * s.drv.q.toNat)
  else { s with calls := s.calls ++ [s.drv.fillCall s.drv.wr.toNat] }

theorem fillRegion_quiet {s : State} (hq : s.quiet)
    (hback : s.drv.fillCb = silenceCb → (s.drv.addr s.drv.wr.toNat).toNat + 4 * s.drv.q.toNat ≤ s.memBytes) :
    fillRegion s = .ok () s.fillOnce := by
  rw [fillRegion, act_get_bind, act_ite, State.fillOnce]
  split
  · next hsilence => exact blockZero_ok (hback hsilence)
  · exact act_bind_ok (callHost_quiet hq _ _ _ _ _)

/-- The region the loop is about to fill was free from the start, so the loop is not once round the ring yet. -/
theorem State.Refills.next_idle {s : State} {r : Nat} {f : Fill} (h : s.drv.inRange) (hf : s.Refills r f)
    (hfree : Table.at f.st (s.drv.wrAt r) = .free) : s.drv.state (s.drv.wrAt r) = .free ∧ r + 1 ≤ s.drv.n.toNat := by
  have hnew : ¬ ∃ j < r, s.drv.wrAt r = s.drv.wrAt j := by
    intro hold
    rw [hf.states _ (Driver.wrAt_lt_table h r), if_pos hold] at hfree
    cases hfree
  refine ⟨?_, ?_⟩
  · rw [hf.states _ (Driver.wrAt_lt_table h r), if_neg hnew] at hfree
    exact hfree
  · by_contra hfull
    have hround : r = s.drv.n.toNat := by have := hf.le; omega
    refine hnew ⟨0, by have := h.1; omega, ?_⟩
    rw [Driver.wrAt, Driver.wrAt, hround, Nat.add_mod_right, Nat.add_zero]

/-- One region more. -/
theorem State.Refills.succ {s : State} {r : Nat} {f g : Fill} (h : s.drv.inRange) (hf : s.Refills r f)
    (hmay : s.drv.fillCb ≠ 0 ∧ s.drv.begun = false ∧ s.drv.pushOff = 0) (hfree : Table.at f.st (s.drv.wrAt r) = .free)
    (hst : g.st = Table.put f.st (s.drv.wrAt r) .full)
    (hkept : s.drv.fillCb ≠ silenceCb → g.mem = f.mem ∧ g.cache = f.cache ∧ g.race = f.race)
    (hread : s.drv.fillCb = silenceCb → ∀ x, g.mem.read x =
      if (s.drv.addr (s.drv.wrAt r)).toNat ≤ x ∧ x < (s.drv.addr (s.drv.wrAt r)).toNat + 4 * s.drv.q.toNat then 0 else f.mem.read x) :
    s.Refills (r + 1) g := by
  obtain ⟨hidle, hle⟩ := hf.next_idle h hfree
  refine { le := hle, allowed := fun _ => hmay, idle := fun j hj => ?_, states := fun k hk => ?_, kept := fun hne => ?_,
           inside := fun x hx => ?_, outside := fun x hx => ?_ }
  · rcases Nat.lt_succ_iff_lt_or_eq.mp hj with hj | rfl
    · exact hf.idle j hj
    · exact hidle
  · rw [hst]
    exact Table.at_put_next hk (hf.states k hk)
  · obtain ⟨hm, hc, hr⟩ := hkept hne
    rw [hm, hc, hr]
    exact hf.kept hne
  · obtain ⟨hsilence, j, hj, hin⟩ := hx
    rw [hread hsilence x]
    split
    · rfl
    · next hout =>
      rcases Nat.lt_succ_iff_lt_or_eq.mp hj with hj | rfl
      · exact hf.inside x ⟨hsilence, j, hj, hin⟩
      · exact absurd hin hout
  · have hrest : f.mem.read x = s.mem.read x :=
      hf.outside x fun ⟨hs, j, hj, hin⟩ => hx ⟨hs, j, Nat.lt_succ_of_lt hj, hin⟩
    by_cases hsilence : s.drv.fillCb = silenceCb
    · rw [hread hsilence x, if_neg fun hin => hx ⟨hsilence, r, Nat.lt_succ_self r, hin⟩, hrest]
    · rw [(hkept hsilence).1, hrest]

/-- One pass of the loop fills one region more. -/
theorem fillOnce_refilled {s : State} {r : Nat} {f : Fill} (h : s.drv.inRange) (hf : s.Refills r f)
    (hmay : (s.refilled r f).mayFill) :
    ∃ g, s.Refills (r + 1) g ∧
      (s.refilled r f).fillOnce.modDrv (fun d => d.fillDone d.wr.toNat) = s.refilled (r + 1) g := by
  have hwr : (s.refilled r f).drv.wr.toNat = s.drv.wrAt r := Driver.w32_wrAt h r
  obtain ⟨hcb, hfree, hbegun, hoff⟩ := hmay
  have hgo : s.drv.fillCb ≠ 0 ∧ s.drv.begun = false ∧ s.drv.pushOff = 0 := ⟨hcb, hbegun, hoff⟩
  replace hfree : Table.at f.st (s.drv.wrAt r) = .free := by
    rw [← hwr]
    exact hfree
  have hdone : (s.refilled r f).drv.fillDone (s.refilled r f).drv.wr.toNat =
      { s.drv with st := Table.put f.st (s.drv.wrAt r) .full, wr := w32 (s.drv.wrAt (r + 1)) } := by
    rw [hwr, ← Driver.next_wrAt]
    rfl
  by_cases hsilence : s.drv.fillCb = silenceCb
  · have hcalls : s.drv.fillCalls r = s.drv.fillCalls (r + 1) := by
      rw [Driver.fillCalls, Driver.fillCalls, if_pos hsilence, if_pos hsilence]
    have hfill : (s.refilled r f).fillOnce = (s.refilled r f).cpuClear (s.drv.addr (s.drv.wrAt r)).toNat (4 * s.drv.q.toNat) := by
      rw [State.fillOnce, if_pos (show (s.refilled r f).drv.fillCb = silenceCb from hsilence), hwr]
      rfl
    rw [hfill]
    refine ⟨((s.refilled r f).cpuClear (s.drv.addr (s.drv.wrAt r)).toNat (4 * s.drv.q.toNat)).fillOf
      (Table.put f.st (s.drv.wrAt r) .full),
      hf.succ h hgo hfree rfl (absurd hsilence) fun _ x => cpuClear_read (s.refilled r f) _ _ x, ?_⟩
    show ({ (s.refilled r f).cpuClear _ _ with drv := (s.refilled r f).drv.fillDone (s.refilled r f).drv.wr.toNat } : State) = _
    rw [hdone]
    unfold State.refilled
    rw [← hcalls]
    rfl
  · have hcalls : s.drv.fillCalls (r + 1) = s.drv.fillCalls r ++ [s.drv.fillCall (s.drv.wrAt r)] := by
      rw [Driver.fillCalls, Driver.fillCalls, if_neg hsilence, if_neg hsilence, List.range_succ, List.map_append]
      rfl
    have hfill : (s.refilled r f).fillOnce =
        { s.refilled r f with calls := s.calls ++ s.drv.fillCalls (r + 1) } := by
      rw [State.fillOnce, if_neg (show ¬ (s.refilled r f).drv.fillCb = silenceCb from hsilence), hwr, hcalls, ← List.append_assoc]
      rfl
    rw [hfill]
    refine ⟨(s.refilled r f).fillOf (Table.put f.st (s.drv.wrAt r) .full),
      hf.succ h hgo hfree rfl (fun _ => ⟨rfl, rfl, rfl⟩) fun hs => absurd hs hsilence, ?_⟩
    show ({ s.refilled r f with
      drv := (s.refilled r f).drv.fillDone (s.refilled r f).drv.wr.toNat, calls := _ } : State) = _
    rw [hdone]
    rfl

/-- The loop fills free regions in ring order until its test fails. -/
theorem drvRefillLoop_quiet {s : State} (hq : s.quiet) (h : s.drv.inRange) (hback : s.drv.fillCb = silenceCb → s.regionsBacked)
    {fuel r : Nat} {f : Fill} (hf : s.Refills r f) (hfuel : s.drv.n.toNat - r < fuel) :
    ∃ r' g, drvRefillLoop fuel (s.refilled r f) = .ok () (s.refilled r' g) ∧ s.Refills r' g ∧ ¬ (s.refilled r' g).mayFill := by
  induction fuel generalizing r f with
  | zero => exact absurd hfuel (Nat.not_lt_zero _)
  | succ fuel ih =>
    rw [drvRefillLoop, act_get_bind, act_ite]
    split
    · next hmay =>
      have hwr : (s.refilled r f).drv.wr.toNat = s.drv.wrAt r := Driver.w32_wrAt h r
      have hfill : fillRegion (s.refilled r f) = .ok () (s.refilled r f).fillOnce := fillRegion_quiet hq fun hs => by
        rw [hwr]
        exact hback hs _ (List.mem_range.mpr (Driver.wrAt_lt h r))
      obtain ⟨g, hg, hnext⟩ := fillOnce_refilled h hf hmay
      have hle := hg.le
      rw [act_bind_ok hfill, act_modify_bind, hnext]
      exact ih hg (by omega)
    · next hstop => exact ⟨r, f, rfl, hf, hstop⟩

/-- The refill as a whole. -/
theorem drvRefill_quiet {s : State} (hq : s.quiet) (h : s.drv.inRange) (hback : s.drv.fillCb = silenceCb → s.regionsBacked) :
    ∃ r f, drvRefill s = .ok () (s.refilled r f) ∧ s.Refills r f ∧ ¬ (s.refilled r f).mayFill := by
  obtain ⟨r, f, hrun, hf, hstop⟩ := drvRefillLoop_quiet hq h hback (refills_none s) (fuel := tableSize + 1)
    (by have := h.2.1; omega)
  rw [refilled_none h] at hrun
  exact ⟨r, f, hrun, hf, hstop⟩

/-- Where the refill ends: it has filled the whole ring, or the next region is not free. -/
theorem State.Refills.stops {s : State} {r : Nat} {f : Fill} (h : s.drv.inRange) (hf : s.Refills r f)
    (hstop : ¬ (s.refilled r f).mayFill) (hcb : s.drv.fillCb ≠ 0) (hbegun : s.drv.begun = false) (hoff : s.drv.pushOff = 0) :
    r = s.drv.n.toNat ∨ s.drv.state (s.drv.wrAt r) ≠ .free := by
  have hwr : (s.refilled r f).drv.wr.toNat = s.drv.wrAt r := Driver.w32_wrAt h r
  by_contra hgoes
  obtain ⟨hround, hfree⟩ := not_or.mp hgoes
  refine hstop ⟨hcb, ?_, hbegun, hoff⟩
  rw [hwr]
  refine (hf.states _ (Driver.wrAt_lt_table h r)).trans ?_
  rw [if_neg, not_not.mp hfree]
  rintro ⟨j, hj, e⟩
  have hle := hf.le
  have := ring_injective (by omega) (by omega) e
  omega

/-- With nothing to fill by, or a region half written, the refill does nothing. -/
theorem State.Refills.none_of_blocked {s : State} {r : Nat} {f : Fill} (hf : s.Refills r f)
    (hblocked : s.drv.fillCb = 0 ∨ s.drv.begun = true ∨ s.drv.pushOff ≠ 0) : r = 0 := by
  by_contra hr
  obtain ⟨hcb, hbegun, hoff⟩ := hf.allowed (Nat.pos_of_ne_zero hr)
  rcases hblocked with h | h | h
  · exact hcb h
  · rw [hbegun] at h
    cases h
  · exact h hoff

/-! ### Committing (R147) -/

/-- The transfer that region `k` is queued as. -/
def Driver.xfer (d : Driver) (k : Nat) : Xfer := ⟨d.addr k &&& 0xFFFFFFF8, w32 (4 * d.q.toNat) &&& 0x3FFF8⟩

/-- `m` regions have been queued, with the region states `st`. -/
def State.committed (s : State) (m : Nat) (st : Table RegionState) : State :=
  { s with
    drv := { s.drv with
      st := st, inflight := s.drv.inflight ++ (List.range m).map s.drv.rdAt, rd := w32 (s.drv.rdAt m) }
    ai := { s.ai with
      addr := if m = 0 then s.ai.addr else s.drv.addr (s.drv.rdAt (m - 1)) &&& 0xFFFFFFF8
      fifo := s.ai.fifo ++ (List.range m).map fun j => s.drv.xfer (s.drv.rdAt j) } }

/-- What committing `m` regions from the dispatcher's on does: they were full and are queued, and the device holds them. -/
structure State.Commits (s : State) (m : Nat) (st : Table RegionState) : Prop where
  fits : s.ai.fifo.length + m ≤ 2
  allowed : 0 < m → s.drv.closing = false
  full : ∀ j < m, s.drv.state (s.drv.rdAt j) = .full
  states : ∀ k < 32, Table.at st k = if ∃ j < m, k = s.drv.rdAt j then .queued else s.drv.state k

theorem commits_none {s : State} (h : s.ai.fifo.length ≤ 2) : s.Commits 0 s.drv.st where
  fits := h
  allowed h := absurd h (Nat.lt_irrefl 0)
  full _ hj := absurd hj (Nat.not_lt_zero _)
  states k _ := by
    rw [if_neg (fun ⟨_, hj, _⟩ => Nat.not_lt_zero _ hj)]
    rfl

theorem committed_none {s : State} (h : s.drv.inRange) : s.committed 0 s.drv.st = s := by
  rw [State.committed, Driver.rdAt_zero h, List.range_zero, List.map_nil, List.map_nil, List.append_nil, List.append_nil, if_pos rfl]

theorem committed_fifo_length (s : State) (m : Nat) (st : Table RegionState) :
    (s.committed m st).ai.fifo.length = s.ai.fifo.length + m := by
  show (s.ai.fifo ++ (List.range m).map _).length = _
  rw [List.length_append, List.length_map, List.length_range]

theorem committed_inflight_length (s : State) (m : Nat) (st : Table RegionState) :
    (s.committed m st).drv.inflight.length = s.drv.inflight.length + m := by
  show (s.drv.inflight ++ (List.range m).map _).length = _
  rw [List.length_append, List.length_map, List.length_range]

/-- The device's own mask covers the one of the length that is queued. -/
theorem xfer_mask (v : Word) : v &&& 0xFFFFFFF8 &&& 0x3FFF8 = v &&& 0x3FFF8 := by
  rw [BitVec.and_assoc]
  rfl

/-- The device has room where it is not full. -/
theorem fifo_room {d : AiDevice} (hfull : d.full = false) (h : d.fifo.length ≤ 2) : d.fifo.length < 2 := by
  have hne : d.fifo.length ≠ 2 := by simpa [AiDevice.full] using hfull
  omega

/-- One region more. -/
theorem State.Commits.succ {s : State} {m : Nat} {st : Table RegionState} (h : s.drv.inRange) (hc : s.Commits m st)
    (hmay : (s.committed m st).mayCommit) : s.Commits (m + 1) (Table.put st (s.drv.rdAt m) .queued) := by
  obtain ⟨hroom, hfull, -, hopen⟩ := hmay
  have hlt : s.drv.rdAt m < 32 := Driver.rdAt_lt_table h m
  have hrd : (s.committed m st).drv.rd.toNat = s.drv.rdAt m := Driver.w32_rdAt h m
  have hlength := committed_fifo_length s m st
  have hfits := fifo_room hroom (hlength.trans_le hc.fits)
  replace hfull : Table.at st (s.drv.rdAt m) = .full := by
    rw [← hrd]
    exact hfull
  rw [hc.states _ hlt] at hfull
  refine { fits := by omega, allowed := fun _ => hopen, full := fun j hj => ?_, states := fun k hk => ?_ }
  · rcases Nat.lt_succ_iff_lt_or_eq.mp hj with hj | rfl
    · exact hc.full j hj
    · split at hfull
      · cases hfull
      · exact hfull
  · exact Table.at_put_next hk (hc.states k hk)

/-- Behind `m` regions one more transfer is queued, and the driver does not count it yet. -/
def State.headQueued (s : State) (m : Nat) (st : Table RegionState) : State :=
  { s.committed m st with
    ai := { s.ai with
      addr := s.drv.addr (s.drv.rdAt m) &&& 0xFFFFFFF8
      fifo := s.ai.fifo ++ (List.range m).map (fun j => s.drv.xfer (s.drv.rdAt j)) ++ [s.drv.xfer (s.drv.rdAt m)] } }

theorem enqueue_head {s : State} {m : Nat} {st : Table RegionState} (h : s.drv.inRange)
    (hroom : (s.committed m st).ai.fifo.length < 2) :
    enqueue ((s.committed m st).drv.addr (s.committed m st).drv.rd.toNat) (w32 (4 * (s.committed m st).drv.q.toNat) &&& 0xFFFFFFF8)
      (s.committed m st) = .ok () (s.headQueued m st) := by
  have hrd : (s.committed m st).drv.rd.toNat = s.drv.rdAt m := Driver.w32_rdAt h m
  rw [enqueue_ok hroom, hrd, xfer_mask]
  rfl

/-- One pass of the loop queues one region more. -/
theorem commitHead_headQueued {s : State} {m : Nat} {st : Table RegionState} (h : s.drv.inRange) :
    (s.headQueued m st).modDrv Driver.commitHead = s.committed (m + 1) (Table.put st (s.drv.rdAt m) .queued) := by
  have hrd : (s.committed m st).drv.rd.toNat = s.drv.rdAt m := Driver.w32_rdAt h m
  have hhead : Driver.commitHead (s.committed m st).drv = { s.drv with
      st := Table.put st (s.drv.rdAt m) .queued
      inflight := s.drv.inflight ++ (List.range (m + 1)).map s.drv.rdAt, rd := w32 (s.drv.rdAt (m + 1)) } := by
    rw [Driver.commitHead, hrd, List.range_succ, List.map_append, ← List.append_assoc, ← Driver.next_rdAt]
    rfl
  show ({ s.headQueued m st with drv := Driver.commitHead (s.committed m st).drv } : State) = _
  rw [hhead]
  unfold State.headQueued State.committed
  rw [List.range_succ, List.map_append, List.map_append, if_neg (Nat.succ_ne_zero m), List.append_assoc]
  rfl

/-- The loop queues full regions in ring order until its test fails. -/
theorem drvCommitLoop_quiet {s : State} (hq : s.quiet) (h : s.drv.inRange) {fuel m : Nat} {st : Table RegionState}
    (hc : s.Commits m st) (hfuel : 2 < fuel + (s.ai.fifo.length + m)) :
    ∃ m' st', drvCommitLoop fuel (s.committed m st) = .ok () (s.committed m' st') ∧ s.Commits m' st' ∧
      ¬ (s.committed m' st').mayCommit := by
  induction fuel generalizing m st with
  | zero => exact absurd hfuel (by have := hc.fits; omega)
  | succ fuel ih =>
    have hq' : (s.committed m st).quiet := hq
    rw [drvCommitLoop, act_bind_ok (deviceBoundary_quiet hq'), act_get_bind, act_ite]
    split
    · next hmay =>
      have hroom := fifo_room hmay.1 ((committed_fifo_length s m st).trans_le hc.fits)
      rw [act_bind_ok (enqueue_head h hroom), act_modify_bind, commitHead_headQueued h]
      exact ih (hc.succ h hmay) (by omega)
    · next hstop => exact ⟨m, st, rfl, hc, hstop⟩

/-- The commit as a whole. -/
theorem drvCommit_quiet {s : State} (hq : s.quiet) (h : s.drv.inRange) (hfifo : s.ai.fifo.length ≤ 2) :
    ∃ m st, drvCommit s = .ok () (s.committed m st) ∧ s.Commits m st ∧ ¬ (s.committed m st).mayCommit := by
  obtain ⟨m, st, hrun, hc, hstop⟩ := drvCommitLoop_quiet hq h (commits_none hfifo) (fuel := tableSize + 1)
    (by show 2 < 32 + 1 + _; omega)
  rw [committed_none h] at hrun
  exact ⟨m, st, hrun, hc, hstop⟩

/-- Where the commit ends: the device is full, or the next region is not full. -/
theorem State.Commits.stops {s : State} {m : Nat} {st : Table RegionState} (hc : s.Commits m st)
    (hstop : ¬ (s.committed m st).mayCommit) (hopen : s.drv.closing = false)
    (hinflight : s.drv.inflight.length ≤ s.ai.fifo.length) :
    (s.committed m st).ai.fifo.length = 2 ∨ (s.committed m st).drv.state (s.committed m st).drv.rd.toNat ≠ .full := by
  by_contra hgoes
  obtain ⟨hroom, hfull⟩ := not_or.mp hgoes
  have hf := committed_fifo_length s m st
  have hi := committed_inflight_length s m st
  have hfits := hc.fits
  exact hstop ⟨by simpa [AiDevice.full] using hroom, not_not.mp hfull, by omega, hopen⟩

/-! ### The dispatch (R144) -/

theorem State.goneCount_add (s : State) : s.drv.inflight.length - s.goneCount ≤ s.ai.fifo.length := by
  rw [State.goneCount]
  omega

/-- What the three loops leave is the dispatch of the statements. -/
theorem dispatchesTo_of_loops {s : State} {r m : Nat} {st st' : Table RegionState} {f : Fill} (h : s.drv.inRange)
    (hretire : s.Retires st) (hfill : (s.retired st).Refills r f) (hnofill : ¬ ((s.retired st).refilled r f).mayFill)
    (hcommit : ((s.retired st).refilled r f).Commits m st')
    (hnocommit : ¬ (((s.retired st).refilled r f).committed m st').mayCommit) :
    s.dispatchesTo (((s.retired st).refilled r f).committed m st') := by
  have hwr : ∀ j, s.drv.wrAt j < 32 := Driver.wrAt_lt_table h
  have hrd : ∀ j, s.drv.rdAt j < 32 := Driver.rdAt_lt_table h
  have hidle : ∀ k < 32, Table.at st k = .free ↔ k ∈ s.gone ∨ s.drv.state k = .free := fun k hk => by
    rw [hretire k hk]
    by_cases hgone : k ∈ s.gone
    · simp [hgone]
    · simp [hgone]
  have hgone : s.gone.length = s.goneCount := by
    rw [State.gone, List.length_take, State.goneCount]
    omega
  have hfits := (committed_fifo_length ((s.retired st).refilled r f) m st').trans_le hcommit.fits
  refine ⟨r, m, hfill.le, by have := hcommit.fits; omega, rfl, ?idle, ?stopsFilling, Driver.w32_wrAt h r, rfl, ?kept, ?memory,
    Driver.w32_rdAt h m, ?inflight, rfl, rfl, ?states, ?full, hfits, ?stopsCommitting⟩
  case idle => exact fun j hj => (hidle _ (hwr j)).mp (hfill.idle j hj)
  case stopsFilling =>
    split
    · next hblocked => exact hfill.none_of_blocked hblocked
    · next hgo =>
      obtain ⟨hcb, hbegun, hoff⟩ : s.drv.fillCb ≠ 0 ∧ s.drv.begun ≠ true ∧ ¬ s.drv.pushOff ≠ 0 := by
        rwa [not_or, not_or] at hgo
      have hstops := State.Refills.stops (s := s.retired st) h hfill hnofill hcb (Bool.not_eq_true _ ▸ hbegun) (not_not.mp hoff)
      exact hstops.imp_right fun hne hback => hne ((hidle _ (hwr r)).mpr hback)
  case kept => exact hfill.kept
  case memory =>
    intro x
    split
    · next hin => exact hfill.inside x hin
    · next hout => exact hfill.outside x hout
  case inflight =>
    show s.drv.inflight.drop s.goneCount ++ _ = _
    rw [← hgone]
    rfl
  case states =>
    intro k hk
    refine (hcommit.states k hk).trans ?_
    refine if_congr Iff.rfl rfl ((hfill.states k hk).trans ?_)
    exact if_congr Iff.rfl rfl (hretire k hk)
  case full =>
    intro j hj
    have hfull : Table.at f.st (s.drv.rdAt j) = .full := hcommit.full j hj
    rw [hfill.states _ (hrd j)] at hfull
    split at hfull
    · next hfilled => exact .inl hfilled
    · replace hfull : Table.at st (s.drv.rdAt j) = .full := hfull
      rw [hretire _ (hrd j)] at hfull
      split at hfull
      · cases hfull
      · next hstays => exact .inr ⟨hfull, hstays⟩
  case stopsCommitting =>
    split
    · next hclosing =>
      by_contra hm
      have hopen := hcommit.allowed (Nat.pos_of_ne_zero hm)
      rw [show s.drv.closing = false from hopen] at hclosing
      cases hclosing
    · next hopen =>
      refine hcommit.stops hnocommit (Bool.not_eq_true _ ▸ hopen) ?_
      show (s.drv.inflight.drop s.goneCount).length ≤ s.ai.fifo.length
      rw [List.length_drop]
      exact s.goneCount_add

/-- The dispatch of the statements does not speak of the depth. -/
theorem dispatchesTo_atDepth {s t : State} (h : s.dispatchesTo t) (d : Word) :
    ({ s with irqDepth := d }).dispatchesTo { t with irqDepth := d } := by
  obtain ⟨r, m, hr, hm, hframe, hrest⟩ := h
  exact ⟨r, m, hr, hm, by rw [hframe], hrest⟩

/-- Nor of what belongs to the executing command. -/
theorem dispatchesTo_inCommand {s t : State} (h : s.dispatchesTo t) (c : CmdId) (res : List Word) (p : Option Pending) :
    ({ s with cmd := c, res := res, pending := p }).dispatchesTo { t with cmd := c, res := res, pending := p } := by
  obtain ⟨r, m, hr, hm, hframe, hrest⟩ := h
  exact ⟨r, m, hr, hm, by rw [hframe], hrest⟩

theorem dispatchLoops_quiet {s : State} (hq : s.quiet) (h : s.drv.inRange) (hfifo : s.ai.fifo.length ≤ 2)
    (hback : s.drv.fillCb = silenceCb → s.regionsBacked) :
    ∃ t, (do drvRetire; drvRefill; drvCommit : Act Unit) s = .ok () t ∧ s.dispatchesTo t := by
  obtain ⟨st, hretire, hst⟩ := drvRetire_quiet hq hfifo
  obtain ⟨r, f, hrefill, hf, hnofill⟩ := drvRefill_quiet (s := s.retired st) hq h hback
  have hrange : ((s.retired st).refilled r f).drv.inRange :=
    ⟨h.1, h.2.1, (Driver.w32_wrAt h r).trans_lt (Driver.wrAt_lt h r), h.2.2.2⟩
  obtain ⟨m, st', hcommit, hc, hnocommit⟩ := drvCommit_quiet (s := (s.retired st).refilled r f) hq hrange hfifo
  exact ⟨_, by rw [act_bind_ok hretire, act_bind_ok hrefill, hcommit], dispatchesTo_of_loops h hst hf hnofill hc hnocommit⟩

/-- The driver's dispatch while nothing else moves. -/
theorem drvDispatch_quiet {s : State} (hq : s.quiet) (h : s.drv.inRange) (hd : s.dispatchable)
    (hback : s.drv.fillCb = silenceCb → s.regionsBacked) : ∃ t, drvDispatch s = .ok () t ∧ s.dispatchesTo t := by
  obtain ⟨hfifo, hdepth⟩ := hd
  obtain ⟨t, hrun, ht⟩ := dispatchLoops_quiet (s := { s with irqDepth := s.irqDepth + 1 }) hq h hfifo hback
  have htdepth : t.irqDepth = s.irqDepth + 1 := by
    obtain ⟨_, _, _, _, hframe, _⟩ := ht
    rw [hframe]
  exact ⟨_, critical_ok hdepth hrun htdepth, dispatchesTo_atDepth ht s.irqDepth⟩

end Sys2Proof.Machine
end

section
/-!
SUPPORT. `AI_PUSH` in an environment that does nothing meanwhile (spec/41_ai_driver.md R153): one pass of its loop, the pass that ends a
region, and the passes on both sides of a region's end; from silence or from a source.
-/

namespace Sys2Proof.Machine

set_option Elab.async false

/-! ### A dispatch with nothing to do (R144 to R147) -/

theorem drvRetire_idle {s : State} (hq : s.quiet) (hfifo : s.ai.fifo.length ≤ 2) (h : s.drv.inflight.length ≤ s.ai.fifo.length) :
    drvRetire s = .ok () s := by
  rw [drvRetire, act_get_bind, drvRetireLoop, act_bind_ok (deviceBoundary_quiet hq), act_get_bind, hwCount_eq hfifo,
    if_neg (Nat.not_lt.mpr h), act_pure]

theorem drvRefill_idle {s : State} (h : ¬ s.mayFill) : drvRefill s = .ok () s := by
  rw [drvRefill, drvRefillLoop, act_get_bind, if_neg h, act_pure]

theorem drvCommit_idle {s : State} (hq : s.quiet) (h : ¬ s.mayCommit) : drvCommit s = .ok () s := by
  rw [drvCommit, drvCommitLoop, act_bind_ok (deviceBoundary_quiet hq), act_get_bind, if_neg h, act_pure]

/-- Where nothing is to be retired, filled or queued a dispatch changes nothing. -/
theorem drvDispatch_idle {s : State} (hq : s.quiet) (hd : s.dispatchable) (h : s.drv.inflight.length ≤ s.ai.fifo.length)
    (hfill : ¬ s.mayFill) (hcommit : ¬ s.mayCommit) : drvDispatch s = .ok () s := by
  let deeper : State := { s with irqDepth := s.irqDepth + 1 }
  have hbody : (do drvRetire; drvRefill; drvCommit : Act Unit) deeper = .ok () deeper := by
    rw [act_bind_ok (drvRetire_idle (s := deeper) hq hd.1 h), act_bind_ok (drvRefill_idle (s := deeper) hfill),
      drvCommit_idle (s := deeper) hq hcommit]
  exact critical_ok (t := deeper) hd.2 hbody rfl

/-! ### What a dispatch keeps -/

/-- What a later pass of a push needs of the state behind a dispatch. -/
structure State.AlikeForPush (s t : State) : Prop where
  quiet : t.quiet ↔ s.quiet
  mayRun : ∀ i, t.mayRun i ↔ s.mayRun i
  depth : t.irqDepth = s.irqDepth
  memBytes : t.memBytes = s.memBytes
  fields : t.drv = { s.drv with st := t.drv.st, inflight := t.drv.inflight, wr := t.drv.wr, rd := t.drv.rd }
  command : t.cmd = s.cmd ∧ t.res = s.res ∧ t.pending = s.pending

theorem dispatchesTo_alike {s t : State} (h : s.dispatchesTo t) : s.AlikeForPush t := by
  obtain ⟨_, _, _, _, hframe, _⟩ := h
  generalize t.drv.st = a, t.drv.inflight = b, t.drv.wr = c, t.drv.rd = d, t.ai.addr = e, t.ai.fifo = f, t.mem = m, t.cache = g,
    t.race = k, t.calls = l at hframe
  subst hframe
  exact ⟨Iff.rfl, fun _ => Iff.rfl, rfl, rfl, rfl, rfl, rfl, rfl⟩

theorem dispatchesTo_inRange {s t : State} (h : s.dispatchesTo t) (hrange : s.drv.inRange) : t.drv.inRange := by
  have hdrv := (dispatchesTo_alike h).fields
  obtain ⟨r, m, -, -, -, -, -, hwr, -, -, -, hrd, -⟩ := h
  have hn : t.drv.n = s.drv.n := by rw [hdrv]
  rw [Driver.inRange, hn, hwr, hrd]
  exact ⟨hrange.1, hrange.2.1, Nat.mod_lt _ hrange.1, Nat.mod_lt _ hrange.1⟩

theorem dispatchesTo_fifo {s t : State} (h : s.dispatchesTo t) : t.ai.fifo.length ≤ 2 := by
  obtain ⟨r, m, -, -, -, -, -, -, -, -, -, -, -, -, -, -, -, hfifo, -⟩ := h
  exact hfifo

theorem dispatchesTo_backed {s t : State} (h : s.dispatchesTo t) (hback : s.regionsBacked) : t.regionsBacked := by
  have halike := dispatchesTo_alike h
  intro k hk
  rw [halike.memBytes]
  rw [halike.fields] at hk ⊢
  exact hback k hk

theorem dispatchesTo_dispatchable {s t : State} (h : s.dispatchesTo t) (hd : s.dispatchable) : t.dispatchable :=
  ⟨dispatchesTo_fifo h, by rw [(dispatchesTo_alike h).depth]; exact hd.2⟩

/-- Behind a dispatch whose writer's region is not free another dispatch does nothing. -/
theorem drvDispatch_again {s t : State} (h : s.dispatchesTo t) (hq : s.quiet) (hd : s.dispatchable)
    (hbusy : t.drv.state t.drv.wr.toNat ≠ .free) : drvDispatch t = .ok () t := by
  have hqt : t.quiet := (dispatchesTo_alike h).quiet.mpr hq
  have hdt := dispatchesTo_dispatchable h hd
  have hclosing : t.drv.closing = s.drv.closing := by rw [(dispatchesTo_alike h).fields]
  obtain ⟨r, m, -, -, -, -, -, -, -, -, -, -, hinflight, hfifo, -, -, -, -, hstop⟩ := h
  refine drvDispatch_idle hqt hdt ?_ (fun hfill => hbusy hfill.2.1) fun ⟨hroom, hfull, _, hopen⟩ => ?_
  · rw [hinflight, hfifo, List.length_append, List.length_append, List.length_drop, List.length_take, List.length_map,
      List.length_map]
    omega
  · rw [← hclosing, hopen, if_neg Bool.false_ne_true] at hstop
    rcases hstop with hstop | hstop
    · rw [AiDevice.full, hstop] at hroom
      cases hroom
    · exact hstop hfull

/-! ### The bytes of a pass -/

/-- A pass of `AI_PUSH` whose bytes and source lie in memory writes all of them, wherever the source lies. -/
theorem pushBytes_answers {k src acc dst j n : Nat} {s : State} (hq : s.quiet) (hk : s.drv.pushable k)
    (hd : dst + j + n ≤ s.memBytes) (hs : src ≠ 0 → src + 4 * acc + j + n ≤ s.memBytes) :
    ∃ t, pushBytes k src acc dst j n s = .ok true t ∧ t.quiet ∧ t.drv = s.drv ∧ t.dispatchable = s.dispatchable ∧
      t.memBytes = s.memBytes := by
  induction n generalizing j s with
  | zero =>
    refine ⟨s, ?_, hq, rfl, rfl, rfl⟩
    rw [pushBytes, act_bind_ok (boundary_quiet hq), act_get_bind, act_pure, decide_eq_true hk]
  | succ n ih =>
    have hstep : ∃ u, pushByte src acc dst j s = .ok () u ∧ u.quiet ∧ u.drv = s.drv ∧ u.dispatchable = s.dispatchable ∧
        u.memBytes = s.memBytes := by
      by_cases h0 : src = 0
      · refine ⟨s.cpuClear (dst + j) 1, ?_, hq, rfl, rfl, rfl⟩
        rw [pushByte, if_pos h0, blockZero_ok (by omega)]
      · have hsrc := hs h0
        refine ⟨s.cpuPut (dst + j) [s.cpuByte (src + 4 * acc + j)], ?_, hq, rfl, rfl, rfl⟩
        rw [pushByte, if_neg h0, copyByte_ok (by omega) (by omega)]
    obtain ⟨u, hbyte, hqu, hdrv, hdisp, hmem⟩ := hstep
    obtain ⟨t, hrest, hqt, hdrv', hdisp', hmem'⟩ := ih (j := j + 1) hqu (by rw [hdrv]; exact hk) (by omega)
      (fun h0 => by have := hs h0; omega)
    refine ⟨t, ?_, hqt, hdrv'.trans hdrv, hdisp'.trans hdisp, hmem'.trans hmem⟩
    rw [pushBytes, act_bind_ok (boundary_quiet hq), act_get_bind, if_pos hk, act_bind_ok hbyte, hrest]

/-- Where a push goes on from after `acc` frames. -/
def sourceAfter (src acc : Nat) : Nat := if src = 0 then 0 else src + 4 * acc

theorem pushByte_sourceAfter (src acc dst j : Nat) : pushByte (sourceAfter src acc) 0 dst j = pushByte src acc dst j := by
  unfold sourceAfter pushByte
  by_cases h0 : src = 0
  · simp only [h0, if_true]
  · rw [if_neg h0, if_neg h0, if_neg (by omega), Nat.mul_zero, Nat.add_zero]

theorem pushBytes_sourceAfter (k src acc dst j n : Nat) : pushBytes k (sourceAfter src acc) 0 dst j n = pushBytes k src acc dst j n := by
  induction n generalizing j with
  | zero => rfl
  | succ n ih => simp only [pushBytes, pushByte_sourceAfter, ih]

/-- A pass from frame `acc` on is the first pass of a push of the rest. -/
theorem pushFrames_sourceAfter (src acc left : Nat) : pushFrames (sourceAfter src acc) 0 left = pushFrames src acc left := by
  simp only [pushFrames, pushBytes_sourceAfter]

/-! ### One pass of the loop -/

/-- The leftover grown by `m` frames. -/
def Driver.pushed (d : Driver) (m : Nat) : Driver := { d with pushOff := w32 (d.pushOff.toNat + m) }

theorem Driver.pushed_off {d : Driver} {m : Nat} (h : d.pushOff.toNat + m ≤ d.q.toNat) :
    (d.pushed m).pushOff.toNat = d.pushOff.toNat + m := w32_toNat_of_lt (h.trans_lt d.q.isLt)

/-- A pass with the bytes written counts them, and ends the region where it is full. -/
theorem pushFrames_written {src acc left : Nat} {s w : State} (hq : w.quiet)
    (hbytes : pushBytes s.drv.wr.toNat src acc s.drv.pushTarget 0 (4 * s.drv.pushRoom left) s = .ok true w) :
    let m := s.drv.pushRoom left
    let v := w.modDrv fun d => d.pushed m
    pushFrames src acc left s =
      if v.drv.pushOff = v.drv.q then (pushCommit s.drv.wr.toNat >>= fun _ => pure m) v else .ok m v := by
  intro m v
  have hqv : v.quiet := hq
  rw [pushFrames, act_get_bind, act_bind_ok hbytes, if_pos rfl, act_modify_bind]
  show (boundary >>= _) v = _
  rw [act_bind_ok (boundary_quiet hqv), act_get_bind, act_ite]
  rfl

/-- A pass that does not reach the region's end. -/
theorem pushFrames_inside {src acc left : Nat} {s w : State} (hq : w.quiet) (hdrv : w.drv = s.drv)
    (hbytes : pushBytes s.drv.wr.toNat src acc s.drv.pushTarget 0 (4 * s.drv.pushRoom left) s = .ok true w)
    (hlt : s.drv.pushOff.toNat + s.drv.pushRoom left < s.drv.q.toNat) :
    pushFrames src acc left s = .ok (s.drv.pushRoom left) (w.modDrv fun d => d.pushed (s.drv.pushRoom left)) := by
  have hoff : (w.drv.pushed (s.drv.pushRoom left)).pushOff ≠ w.drv.q := by
    rw [hdrv]
    intro he
    have hsum := Driver.pushed_off hlt.le
    rw [he] at hsum
    omega
  exact (pushFrames_written hq hbytes).trans (if_neg hoff)

/-- A pass that reaches the region's end gives the region to the dispatcher. -/
theorem pushFrames_ends {src acc left : Nat} {s w u : State} (hq : w.quiet) (hdrv : w.drv = s.drv)
    (hbytes : pushBytes s.drv.wr.toNat src acc s.drv.pushTarget 0 (4 * s.drv.pushRoom left) s = .ok true w)
    (hend : s.drv.pushOff.toNat + s.drv.pushRoom left = s.drv.q.toNat)
    (hcommit : pushCommit s.drv.wr.toNat (w.modDrv fun d => d.pushed (s.drv.pushRoom left)) = .ok () u) :
    pushFrames src acc left s = .ok (s.drv.pushRoom left) u := by
  have hoff : (w.drv.pushed (s.drv.pushRoom left)).pushOff = w.drv.q := by
    rw [hdrv]
    exact BitVec.eq_of_toNat_eq ((Driver.pushed_off hend.le).trans hend)
  refine (pushFrames_written hq hbytes).trans ((if_pos hoff).trans ?_)
  rw [act_bind_ok hcommit, act_pure]

/-- A region that a push has filled to its end is full, and a dispatch follows. -/
theorem pushCommit_quiet {s : State} {k : Nat} (hq : s.quiet) (hrange : s.drv.inRange) (hd : s.dispatchable) (hback : s.regionsBacked) :
    ∃ u, pushCommit k s = .ok () u ∧ ({ s with drv := { s.drv.fillDone k with pushOff := 0 } }).dispatchesTo u := by
  have hnext : (s.drv.next k).toNat < s.drv.n.toNat := by
    have hmod : (k + 1) % s.drv.n.toNat < s.drv.n.toNat := Nat.mod_lt _ hrange.1
    rw [Driver.next, w32_toNat_of_lt (hmod.trans s.drv.n.isLt)]
    exact hmod
  let full : State := { s with drv := { s.drv.fillDone k with pushOff := 0 } }
  obtain ⟨u, hrun, hu⟩ := drvDispatch_quiet (s := full) hq ⟨hrange.1, hrange.2.1, hnext, hrange.2.2.2⟩ hd fun _ => hback
  refine ⟨u, ?_, hu⟩
  rw [pushCommit, act_bind_ok (critical_modify hd.2 rfl)]
  exact (act_bind_ok (boundary_quiet (s := full) hq)).trans hrun

/-- A pass in memory is accepted whole. -/
theorem pushFrames_answers {src acc left : Nat} {s : State} (hq : s.quiet) (hk : s.drv.pushable s.drv.wr.toNat)
    (hoff : s.drv.pushOff.toNat ≤ s.drv.q.toNat) (hrange : s.drv.inRange) (hd : s.dispatchable) (hback : s.regionsBacked)
    (hs : src ≠ 0 → src + 4 * acc + 4 * s.drv.pushRoom left ≤ s.memBytes) :
    ∃ u, pushFrames src acc left s = .ok (s.drv.pushRoom left) u := by
  have hroom : s.drv.pushOff.toNat + s.drv.pushRoom left ≤ s.drv.q.toNat := by
    rw [Driver.pushRoom]
    omega
  have hregion := hback _ (List.mem_range.mpr hrange.2.2.1)
  obtain ⟨w, hbytes, hqw, hdrv, hdw, hmem⟩ := pushBytes_answers (dst := s.drv.pushTarget) (j := 0) hq hk
    (n := 4 * s.drv.pushRoom left) (by unfold Driver.pushTarget; omega) fun h0 => by have := hs h0; omega
  rcases Nat.lt_or_eq_of_le hroom with hlt | hend
  · exact ⟨_, pushFrames_inside hqw hdrv hbytes hlt⟩
  · let v := w.modDrv fun d => d.pushed (s.drv.pushRoom left)
    have hrangev : v.drv.inRange := by
      show w.drv.inRange
      rw [hdrv]
      exact hrange
    have hbackv : v.regionsBacked := by
      show w.regionsBacked
      intro k hk
      rw [hdrv] at hk ⊢
      rw [hmem]
      exact hback k hk
    obtain ⟨u, hcommit, -⟩ := pushCommit_quiet (s := v) (k := s.drv.wr.toNat) hqw hrangev (hdw.mpr hd) hbackv
    exact ⟨u, pushFrames_ends hqw hdrv hbytes hend hcommit⟩

/-! ### The loop (R153) -/

section
variable {blocking : Bool} {src n fuel acc : Nat} {s : State}

theorem pushLoop_done (h : n ≤ acc) : pushLoop blocking src n (fuel + 1) acc s = .ok (.done [w32 acc]) s := by
  rw [pushLoop, if_pos h, act_pure]

theorem pushLoop_pass {m : Nat} {u : State} (h : acc < n) (hq : s.quiet) (hready : s.drv.pushOff = 0 → s.drv.writable)
    (hpass : pushFrames src acc (n - acc) s = .ok m u) :
    pushLoop blocking src n (fuel + 1) acc s = pushLoop blocking src n fuel (acc + m) u := by
  have hgo : ¬ (s.drv.pushOff = 0 ∧ ¬ s.drv.writable) := fun ⟨hoff, hbusy⟩ => hbusy (hready hoff)
  rw [pushLoop, if_neg (Nat.not_le.mpr h), act_bind_ok (boundary_quiet hq), act_get_bind, if_neg hgo, act_bind_ok hpass]

theorem pushLoop_busy (h : acc < n) (hq : s.quiet) (hoff : s.drv.pushOff = 0) (hbusy : ¬ s.drv.writable)
    (hidle : drvDispatch s = .ok () s) :
    pushLoop blocking src n (fuel + 1) acc s =
      .ok (if blocking = true then .wait (.push blocking src n acc) else .done [w32 acc]) s := by
  rw [pushLoop, if_neg (Nat.not_le.mpr h), act_bind_ok (boundary_quiet hq), act_get_bind, if_pos ⟨hoff, hbusy⟩, act_bind_ok hidle,
    act_bind_ok (boundary_quiet hq), act_get_bind, if_neg hbusy]
  cases blocking with
  | true => rfl
  | false => rfl

end

/-- Behind its checks a push of some frames is its loop. -/
theorem exec_aiPush {s : State} {blocking : Bool} {src n : Word} (hrun : s.mayRun (.aiPush blocking src n)) (hon : s.drv.on = true)
    (hbegun : s.drv.begun = false) (hn : n ≠ 0) :
    exec (.aiPush blocking src n) s =
      settle (pushLoop blocking src.toNat n.toNat stepPasses 0 (s.begin (.aiPush blocking src n))) := by
  refine (command_running hrun.1).trans (congrArg settle ?_)
  rw [aiPush, act_bind_ok (checkIssuer_begin hrun), act_get_bind, ensureState_bind, if_pos ⟨hon, hbegun⟩, if_neg fun h => hn h.2]

/-! ### Inside a command and outside it -/

/-- What a computation that ran inside a command of `s` has reached, with what belongs to the command as in `s`. -/
def State.outside (t s : State) : State := { t with cmd := s.cmd, res := s.res, pending := s.pending }

/-- Every push runs under the same `OP` and `CH`. -/
theorem begin_outside {s t : State} {blocking b' : Bool} {src n src' n' : Word}
    (h : t.cmd = (s.begin (.aiPush blocking src n)).cmd ∧ t.res = [] ∧ t.pending = none) :
    (t.outside s).begin (.aiPush b' src' n') = t := by
  obtain ⟨hcmd, hres, hpending⟩ := h
  show ({ t with cmd := (s.begin (.aiPush blocking src n)).cmd, res := [], pending := none } : State) = t
  rw [← hcmd, ← hres, ← hpending]

/-! ### The first pass -/

/-- The first pass of a push of some frames has written its bytes, and reached the state `w`. -/
structure FirstPass (s : State) (blocking : Bool) (src n : Word) (w : State) : Prop where
  mayRun : s.mayRun (.aiPush blocking src n)
  ready : s.pushReady
  nonzero : n ≠ 0
  frame : w = { s.begin (.aiPush blocking src n) with mem := w.mem, cache := w.cache, race := w.race }
  bytes : pushBytes s.drv.wr.toNat src.toNat 0 s.drv.pushTarget 0 (4 * s.drv.pushRoom n.toNat) (s.begin (.aiPush blocking src n)) =
    .ok true w

section
variable {s w : State} {blocking : Bool} {src n : Word}

theorem FirstPass.drv (h : FirstPass s blocking src n w) : w.drv = s.drv := by
  rw [h.frame]
  rfl

theorem FirstPass.quiet (h : FirstPass s blocking src n w) : w.quiet := by
  obtain ⟨-, -, -, hq, -⟩ := h.ready
  rw [h.frame]
  exact hq

theorem FirstPass.dispatchable (h : FirstPass s blocking src n w) (hd : s.dispatchable) : w.dispatchable := by
  rw [h.frame]
  exact hd

theorem FirstPass.memBytes (h : FirstPass s blocking src n w) : w.memBytes = s.memBytes := by
  rw [h.frame]
  rfl

theorem FirstPass.regionsBacked (h : FirstPass s blocking src n w) (hback : s.regionsBacked) : w.regionsBacked := by
  intro k hk
  rw [h.drv] at hk ⊢
  rw [h.memBytes]
  exact hback k hk

theorem FirstPass.command (h : FirstPass s blocking src n w) :
    w.cmd = (s.begin (.aiPush blocking src n)).cmd ∧ w.res = [] ∧ w.pending = none := by
  rw [h.frame]
  exact ⟨rfl, rfl, rfl⟩

theorem FirstPass.pos (h : FirstPass s blocking src n w) : 0 < n.toNat :=
  Nat.pos_of_ne_zero fun h0 => h.nonzero (BitVec.eq_of_toNat_eq h0)

/-- The command is what its loop comes to behind the first pass. -/
theorem FirstPass.exec_eq (h : FirstPass s blocking src n w) {m : Nat} {u : State}
    (hpass : pushFrames src.toNat 0 n.toNat (s.begin (.aiPush blocking src n)) = .ok m u) :
    exec (.aiPush blocking src n) s = settle (pushLoop blocking src.toNat n.toNat 255 m u) := by
  obtain ⟨hon, hbegun, hfree, hq, -⟩ := h.ready
  rw [exec_aiPush h.mayRun hon hbegun h.nonzero]
  have hloop := pushLoop_pass (blocking := blocking) (fuel := 255) h.pos (begin_quiet hq _) hfree (m := m) (u := u) hpass
  rw [Nat.zero_add] at hloop
  exact congrArg settle hloop

/-- A push that ends inside the region. -/
theorem FirstPass.inside (h : FirstPass s blocking src n w) (hlt : n.toNat < s.drv.q.toNat - s.drv.pushOff.toNat) :
    exec (.aiPush blocking src n) s =
      .next (({ w.outside s with drv := { s.drv with pushOff := s.drv.pushOff + n } }).finish [n]) := by
  have hroom : s.drv.pushRoom n.toNat = n.toNat := Nat.min_eq_left hlt.le
  have hpass := pushFrames_inside (s := s.begin (.aiPush blocking src n)) (left := n.toNat) h.quiet h.drv h.bytes
    (show s.drv.pushOff.toNat + s.drv.pushRoom n.toNat < s.drv.q.toNat by omega)
  have hoff : w32 (s.drv.pushOff.toNat + n.toNat) = s.drv.pushOff + n := BitVec.eq_of_toNat_eq (by
    rw [BitVec.toNat_ofNat, BitVec.toNat_add])
  rw [h.exec_eq hpass]
  show settle (pushLoop _ _ _ _ (s.drv.pushRoom n.toNat) (w.modDrv fun d => d.pushed (s.drv.pushRoom n.toNat))) = _
  rw [hroom, pushLoop_done le_rfl, settle_done, w32_toNat, State.modDrv, h.drv, Driver.pushed, hoff]
  rfl

/-- The first pass of a push that reaches the region's end, and the dispatch behind it. -/
theorem FirstPass.ends (h : FirstPass s blocking src n w) (hle : s.drv.q.toNat - s.drv.pushOff.toNat ≤ n.toNat)
    (hd : s.dispatchable) (hrange : s.drv.inRange) (hback : s.regionsBacked) :
    ∃ u, exec (.aiPush blocking src n) s =
        settle (pushLoop blocking src.toNat n.toNat 255 (s.drv.q.toNat - s.drv.pushOff.toNat) u) ∧
      ({ w with drv := s.drv.regionDone }).dispatchesTo u := by
  obtain ⟨-, hbegun, -, -, hoff⟩ := h.ready
  have hroom : s.drv.pushRoom n.toNat = s.drv.q.toNat - s.drv.pushOff.toNat := Nat.min_eq_right hle
  let v := w.modDrv fun d => d.pushed (s.drv.pushRoom n.toNat)
  have hv : v.drv = s.drv.pushed (s.drv.pushRoom n.toNat) := congrArg (Driver.pushed · _) h.drv
  have hdone : ({ v.drv.fillDone s.drv.wr.toNat with pushOff := 0 } : Driver) = s.drv.regionDone := by
    rw [hv]
    show _ = ({ s.drv with st := _, wr := _, begun := false, pushOff := 0 } : Driver)
    rw [← hbegun]
    rfl
  have hrangev : v.drv.inRange := by
    rw [hv]
    exact hrange
  obtain ⟨u, hcommit, hu⟩ := pushCommit_quiet (k := s.drv.wr.toNat) (s := v) h.quiet hrangev (h.dispatchable hd)
    (h.regionsBacked hback)
  refine ⟨u, ?_, ?_⟩
  · rw [← hroom]
    exact h.exec_eq (pushFrames_ends h.quiet h.drv h.bytes
      (show s.drv.pushOff.toNat + s.drv.pushRoom n.toNat = s.drv.q.toNat by omega) hcommit)
  · rw [hdone] at hu
    exact hu

end

/-! ### The push of the statements -/

section
variable {s w u : State} {blocking : Bool} {src n : Word}

theorem begin_behindDispatch (h : FirstPass s blocking src n w) (hu : ({ w with drv := s.drv.regionDone }).dispatchesTo u)
    (b' : Bool) (src' n' : Word) : (u.outside s).begin (.aiPush b' src' n') = u := by
  obtain ⟨hcmd, hres, hpending⟩ := (dispatchesTo_alike hu).command
  obtain ⟨hcmd', hres', hpending'⟩ := h.command
  exact begin_outside ⟨hcmd.trans hcmd', hres.trans hres', hpending.trans hpending'⟩

/-- Behind the first pass and its dispatch the driver may dispatch again, and its regions lie in memory. -/
theorem FirstPass.behind (h : FirstPass s blocking src n w) (hu : ({ w with drv := s.drv.regionDone }).dispatchesTo u)
    (hd : s.dispatchable) (hrange : s.drv.inRange) (hback : s.regionsBacked) :
    u.quiet ∧ u.dispatchable ∧ u.drv.inRange ∧ u.regionsBacked ∧ u.memBytes = s.memBytes := by
  let x : State := { w with drv := s.drv.regionDone }
  have hnext : (s.drv.wr.toNat + 1) % s.drv.n.toNat < s.drv.n.toNat := Nat.mod_lt _ hrange.1
  have hrangex : x.drv.inRange :=
    ⟨hrange.1, hrange.2.1, (w32_toNat_of_lt (hnext.trans s.drv.n.isLt)).trans_lt hnext, hrange.2.2.2⟩
  have hbackx : x.regionsBacked := by
    intro k hk
    show _ ≤ w.memBytes
    rw [h.memBytes]
    exact hback k hk
  exact ⟨(dispatchesTo_alike hu).quiet.mpr h.quiet, dispatchesTo_dispatchable hu (h.dispatchable hd), dispatchesTo_inRange hu hrangex,
    dispatchesTo_backed hu hbackx, (dispatchesTo_alike hu).memBytes.trans h.memBytes⟩

/-- Where the rest of a push reads its frames. -/
theorem restSource_toNat {room : Nat} (hlt : room < n.toNat) (hsrc : src.toNat ≠ 0 → src.toNat + 4 * n.toNat ≤ s.memBytes) :
    (if src = 0 then (0 : Word) else src + w32 (4 * room)).toNat = sourceAfter src.toNat room := by
  unfold sourceAfter
  by_cases h0 : src = 0
  · rw [if_pos h0, h0]
    rfl
  · have hne : src.toNat ≠ 0 := fun h => h0 (BitVec.eq_of_toNat_eq h)
    have hbound : s.memBytes ≤ 2 ^ 32 := Nat.min_le_right _ _
    have hfits := hsrc hne
    rw [if_neg h0, if_neg hne, BitVec.toNat_add, w32_toNat_of_lt (by omega), Nat.mod_eq_of_lt (by omega)]

theorem restCount_toNat {room : Nat} (hlt : room < n.toNat) : (n - w32 room).toNat = n.toNat - room := by
  have hroom : (w32 room).toNat = room := w32_toNat_of_lt (hlt.trans n.isLt)
  rw [BitVec.toNat_sub_of_le (show (w32 room).toNat ≤ n.toNat by omega), hroom]

/-- Where the next region is free the rest of a push is a push of the rest. -/
theorem FirstPass.goesOn (h : FirstPass s blocking src n w) (hu : ({ w with drv := s.drv.regionDone }).dispatchesTo u)
    {room : Nat} (hlt : room < n.toNat) (hfits : n.toNat ≤ room + s.drv.q.toNat) (hd : s.dispatchable) (hrange : s.drv.inRange)
    (hback : s.regionsBacked) (hsrc : src.toNat ≠ 0 → src.toNat + 4 * n.toNat ≤ s.memBytes)
    (hexec : exec (.aiPush blocking src n) s = settle (pushLoop blocking src.toNat n.toNat 255 room u))
    (hfree : u.drv.state u.drv.wr.toNat = .free) :
    ∃ t, exec (.aiPush blocking (if src = 0 then 0 else src + w32 (4 * room)) (n - w32 room)) (u.outside s) = .next t ∧
      exec (.aiPush blocking src n) s = .next (t.finish [n]) := by
  have halike := dispatchesTo_alike hu
  obtain ⟨hqu, hdu, hrangeu, hbacku, hmem⟩ := h.behind hu hd hrange hback
  have hoff : u.drv.pushOff = 0 := by rw [halike.fields]
  have hquantum : u.drv.q = s.drv.q := by rw [halike.fields]
  have hroom : u.drv.pushRoom (n.toNat - room) = n.toNat - room := by
    rw [Driver.pushRoom, hoff, hquantum]
    exact Nat.min_eq_left (show _ ≤ s.drv.q.toNat - 0 by omega)
  obtain ⟨y, hpass⟩ := pushFrames_answers (src := src.toNat) (acc := room) (left := n.toNat - room) hqu ⟨rfl, .inr hfree⟩
    (by rw [hoff]; exact Nat.zero_le _) hrangeu hdu hbacku (fun h0 => by have := hsrc h0; omega)
  rw [hroom] at hpass
  have hall : exec (.aiPush blocking src n) s = .next (y.finish [n]) := by
    rw [hexec, pushLoop_pass (fuel := 254) hlt hqu (fun _ => hfree) hpass, Nat.add_sub_cancel' hlt.le, pushLoop_done le_rfl,
      settle_done, w32_toNat]
  have hcount := restCount_toNat hlt
  have hrun : (u.outside s).mayRun (.aiPush blocking (if src = 0 then 0 else src + w32 (4 * room)) (n - w32 room)) := by
    refine (halike.mayRun _).mpr ?_
    show w.mayRun _
    rw [h.frame]
    exact h.mayRun
  have hrest : exec (.aiPush blocking (if src = 0 then 0 else src + w32 (4 * room)) (n - w32 room)) (u.outside s) =
      .next (y.finish [w32 (n.toNat - room)]) := by
    have hon : u.drv.on = true := by rw [halike.fields]; exact h.ready.1
    have hbegun : u.drv.begun = false := by rw [halike.fields]
    have hsome : n - w32 room ≠ 0 := fun h0 => by
      rw [h0] at hcount
      have : 0 = n.toNat - room := hcount
      omega
    have hagain : pushFrames (sourceAfter src.toNat room) 0 (n.toNat - room - 0) u = .ok (n.toNat - room) y :=
      (congrFun (pushFrames_sourceAfter src.toNat room (n.toNat - room)) u).trans hpass
    rw [exec_aiPush hrun hon hbegun hsome, begin_behindDispatch h hu, restSource_toNat hlt hsrc, hcount,
      show stepPasses = 255 + 1 from rfl, pushLoop_pass (by omega) hqu (fun _ => hfree) hagain, Nat.zero_add,
      pushLoop_done le_rfl, settle_done]
  exact ⟨_, hrest, hall⟩

/-- Where the next region is not free the push has accepted what filled the region. -/
theorem FirstPass.stops (h : FirstPass s blocking src n w) (hu : ({ w with drv := s.drv.regionDone }).dispatchesTo u)
    {room : Nat} (hlt : room < n.toNat) (hd : s.dispatchable)
    (hexec : exec (.aiPush blocking src n) s = settle (pushLoop blocking src.toNat n.toNat 255 room u))
    (hbusy : u.drv.state u.drv.wr.toNat ≠ .free) :
    exec (.aiPush blocking src n) s = .next (if blocking = true then
      ((u.outside s).begin (.aiPush blocking src n)).waiting (.push true src.toNat n.toNat room) else (u.outside s).finish [w32 room]) := by
  have halike := dispatchesTo_alike hu
  have hqu : u.quiet := halike.quiet.mpr h.quiet
  have hoff : u.drv.pushOff = 0 := by rw [halike.fields]
  rw [hexec, pushLoop_busy (fuel := 254) hlt hqu hoff hbusy (drvDispatch_again hu h.quiet (h.dispatchable hd) hbusy),
    begin_behindDispatch h hu]
  cases blocking with
  | true => rfl
  | false => rfl

/-- The statement's cases, for a push whose first pass has stored its bytes. -/
theorem FirstPass.pushesTo (h : FirstPass s blocking src n w) {f : Nat → Byte}
    (hstored : s.storedAs (w.outside s) s.drv.pushTarget (4 * s.drv.pushRoom n.toNat) f)
    (hsrc : src.toNat ≠ 0 → src.toNat + 4 * n.toNat ≤ s.memBytes) : s.pushesTo blocking src n f := by
  constructor
  · intro _ hlt
    have hroom : s.drv.pushRoom n.toNat = n.toNat := Nat.min_eq_left hlt.le
    rw [hroom] at hstored
    exact ⟨w.outside s, hstored, h.inside hlt⟩
  · intro hle hfits hd hrange hback
    have hroom : s.drv.pushRoom n.toNat = s.drv.q.toNat - s.drv.pushOff.toNat := Nat.min_eq_right hle
    rw [hroom] at hstored
    obtain ⟨u, hexec, hu⟩ := h.ends hle hd hrange hback
    refine ⟨w.outside s, u.outside s, hstored, dispatchesTo_inCommand hu s.cmd s.res s.pending, fun hall => ?_, fun hlt hfree => ?_,
      fun hlt hbusy => ?_⟩
    · rw [hexec, hall, pushLoop_done (fuel := 254) le_rfl, settle_done, ← hall, w32_toNat]
      rfl
    · exact h.goesOn hu hlt hfits hd hrange hback hsrc hexec hfree
    · exact h.stops hu hlt hd hexec hbusy

end

/-- Where the first pass does not overwrite its source before it reads it, it stores silence or the source's bytes. -/
theorem firstPass_quiet {s : State} {blocking : Bool} {src n : Word} (hrun : s.mayRun (.aiPush blocking src n)) (hready : s.pushReady)
    (hn : n ≠ 0) (hdst : s.drv.pushTarget + 4 * s.drv.pushRoom n.toNat ≤ s.memBytes)
    (hsrc : src.toNat ≠ 0 → src.toNat + 4 * n.toNat ≤ s.memBytes)
    (hov : src.toNat ≠ 0 → s.drv.pushTarget ≤ src.toNat ∨ src.toNat + 4 * s.drv.pushRoom n.toNat ≤ s.drv.pushTarget) :
    ∃ w, FirstPass s blocking src n w ∧ s.storedAs (w.outside s) s.drv.pushTarget (4 * s.drv.pushRoom n.toNat) fun x =>
      if src.toNat = 0 then 0 else s.cpuByte (src.toNat + (x - s.drv.pushTarget)) := by
  obtain ⟨-, -, hfree, hq, -⟩ := id hready
  have hk : s.drv.pushable s.drv.wr.toNat := ⟨rfl, or_iff_not_imp_left.mpr fun h => hfree (not_not.mp h)⟩
  have hle : s.drv.pushRoom n.toNat ≤ n.toNat := Nat.min_le_left _ _
  obtain ⟨w, hbytes, hframe, hread⟩ := pushBytes_quiet (s := s.begin (.aiPush blocking src n)) (k := s.drv.wr.toNat)
    (src := src.toNat) (acc := 0) (dst := s.drv.pushTarget) (j := 0) (n := 4 * s.drv.pushRoom n.toNat) (begin_quiet hq _) hk hdst
    (fun h0 => by have := hsrc h0; show _ ≤ s.memBytes; omega) hov
  exact ⟨w, ⟨hrun, hready, hn, hframe, hbytes⟩, by rw [hframe]; rfl, hread⟩

/-- Settles O24: the first pass stores the source's bytes, and the rest of the loop is the statement's three cases. -/
theorem aiPushCopy : Obligations.AiPushCopy := by
  intro s blocking src n dst m hrun hready hsrc hn hdst hsource hov
  obtain ⟨w, hpass, hframe, hread⟩ := firstPass_quiet hrun hready hn hdst (fun _ => hsource) fun _ => hov
  have hne : src.toNat ≠ 0 := fun h => hsrc (BitVec.eq_of_toNat_eq h)
  simp only [if_neg hne] at hread
  exact hpass.pushesTo ⟨hframe, hread⟩ fun _ => hsource

end Sys2Proof.Machine
end

section
/-!
SUPPORT. The decoder and the encoder (spec/30_encoding.md R100 to R103, R127): what the decoder reads is the instruction's own encoding and
nothing else, and opcode_table.json is the format map of R127 written as masks.
-/

namespace Sys2Proof

set_option Elab.async false

/-! ### The fields of word 0 (R100) -/

theorem headerWord_fields (w : Word) : headerWord (opOf w) (chOf w) (immOf w) = w := by
  apply BitVec.eq_of_toNat_eq
  rw [Laws.headerWord_toNat, opOf, chOf, immOf, BitVec.extractLsb'_toNat, BitVec.extractLsb'_toNat, BitVec.extractLsb'_toNat]
  simp only [Nat.shiftRight_eq_div_pow]
  omega

theorem headerWord_and (a b : Byte) (c : Half) (a' b' : Byte) (c' : Half) :
    headerWord a b c &&& headerWord a' b' c' = headerWord (a &&& a') (b &&& b') (c &&& c') := by
  rw [headerWord, headerWord, headerWord, BitVec.and_append, BitVec.and_append]

theorem headerWord_eq_iff {a b a' b' : Byte} {c c' : Half} :
    headerWord a b c = headerWord a' b' c' ↔ a = a' ∧ b = b' ∧ c = c' := by
  constructor
  · intro h
    refine ⟨?_, ?_, ?_⟩
    · rw [← Laws.opOf_headerWord a b c, h, Laws.opOf_headerWord]
    · rw [← Laws.chOf_headerWord a b c, h, Laws.chOf_headerWord]
    · rw [← Laws.immOf_headerWord a b c, h, Laws.immOf_headerWord]
  · rintro ⟨rfl, rfl, rfl⟩
    rfl

/-! ### The encoder's fields (R127) -/

theorem header_holds (i : Instr) : Laws.Header.Statement i := by
  cases i with
  | aiInit numBuffers freq => exact Laws.Header.aiInit numBuffers freq
  | aiClose => exact Laws.Header.aiClose
  | aiSetFillCallback cb => exact Laws.Header.aiSetFillCallback cb
  | aiWriteBegin => exact Laws.Header.aiWriteBegin
  | aiWriteEnd => exact Laws.Header.aiWriteEnd
  | aiPush blocking src n => exact Laws.Header.aiPush blocking src n
  | aiPause pause => exact Laws.Header.aiPause pause
  | aiGetFrequency => exact Laws.Header.aiGetFrequency
  | sbInit ch base bytes => exact Laws.Header.sbInit ch base bytes
  | sbSetBitWidth ch bits => exact Laws.Header.sbSetBitWidth ch bits
  | sbSetDecoder ch fn ctx => exact Laws.Header.sbSetDecoder ch fn ctx
  | sbGet ch wpos wlen => exact Laws.Header.sbGet ch wpos wlen
  | sbAppend ch wlen => exact Laws.Header.sbAppend ch wlen
  | sbDiscard ch wpos => exact Laws.Header.sbDiscard ch wpos
  | sbFlush ch => exact Laws.Header.sbFlush ch
  | mxInit channels rate => exact Laws.Header.mxInit channels rate
  | mxClose => exact Laws.Header.mxClose
  | mxSampleRate => exact Laws.Header.mxSampleRate
  | mxSetMasterVolume vol => exact Laws.Header.mxSetMasterVolume vol
  | mxPoll n => exact Laws.Header.mxPoll n
  | mxExec out n => exact Laws.Header.mxExec out n
  | chPlay ch wave => exact Laws.Header.chPlay ch wave
  | chStop ch => exact Laws.Header.chStop ch
  | chPlaying ch => exact Laws.Header.chPlaying ch
  | chSetFrequency ch freq => exact Laws.Header.chSetFrequency ch freq
  | chSetPosition ch pos => exact Laws.Header.chSetPosition ch pos
  | chGetPosition ch => exact Laws.Header.chGetPosition ch
  | chSetVolume ch l r => exact Laws.Header.chSetVolume ch l r
  | chSetPan ch vol pan => exact Laws.Header.chSetPan ch vol pan
  | chSetDolby ch fl fr c sl sr => exact Laws.Header.chSetDolby ch fl fr c sl sr
  | chSetLimits ch maxBits maxFreq maxBuf => exact Laws.Header.chSetLimits ch maxBits maxFreq maxBuf
  | evAdd delay cb ctx => exact Laws.Header.evAdd delay cb ctx
  | evRemove cb => exact Laws.Header.evRemove cb
  | vsInit fps rate => exact Laws.Header.vsInit fps rate
  | vsSuggestedBufferSize => exact Laws.Header.vsSuggestedBufferSize
  | vsCurrentFrameSamples => exact Laws.Header.vsCurrentFrameSamples
  | vsNextFrame => exact Laws.Header.vsNextFrame
  | irqDisable => exact Laws.Header.irqDisable
  | irqEnable => exact Laws.Header.irqEnable

/-! ### One opcode's instruction (R106, R127) -/

/-- Bit 0 of the encoding of a `bool` operand is the operand (R106). -/
theorem boolImm_bit (b : Bool) : (boolImm b).getLsbD 0 = b := by
  cases b
  · rfl
  · rfl

/-- A `bool` operand is the field's bit 0 and no other (R106). -/
theorem boolImm_of_bit (imm : Half) : boolImm imm[0] = imm &&& 1#16 := by
  apply BitVec.eq_of_getLsbD_eq
  intro k hk
  cases k with
  | zero => cases h : imm[0] <;> simp [boolImm, h]
  | succ k => cases imm[0] <;> simp [boolImm, BitVec.getLsbD_one]

/-- An `IMM` field of which every bit is defined is the operand. -/
theorem imm_and_full (imm : Half) : imm &&& 0xFFFF#16 = imm := BitVec.and_allOnes

/-- An `IMM` field whose undefined bits are 0 is what its defined bits hold. -/
theorem imm_and_defined {imm m : Half} (h : imm &&& ~~~m = 0) : imm &&& m = imm := by
  have hsplit : (imm &&& m) ||| (imm &&& ~~~m) = imm := by
    rw [← BitVec.and_or_distrib_left, BitVec.or_not_self, BitVec.and_allOnes]
  rw [h] at hsplit
  simpa using hsplit

/-- An instruction's fields are assembled to the instruction. -/
theorem assemble_fields (i : Instr) : assemble i.opcode i.chField i.immField i.argWords = some i := by
  cases i with
  | aiPush blocking src n => exact congrArg (fun b => some (Instr.aiPush b src n)) (boolImm_bit blocking)
  | aiPause pause => exact congrArg (fun b => some (Instr.aiPause b)) (boolImm_bit pause)
  | _ => rfl

/-- The instruction `i` is the one of these fields: `CH` and the `IMM` bits that `f` defines are its operands, and so are the argument words. -/
structure ReadFrom (op ch : Byte) (imm : Half) (args : List Word) (f : OpFormat) (i : Instr) : Prop where
  opcode : i.opcode = op
  channel : f.usesCh = true → i.chField = ch
  immediate : i.immField = imm &&& f.immBits
  arguments : i.argWords = args

theorem byte_of_toNat {op : Byte} {k : Nat} (h : op.toNat = k) : op = BitVec.ofNat 8 k := by
  rw [← h, BitVec.ofNat_toNat, BitVec.setWidth_eq]

/-- A list is the list of its entries. -/
theorem words_eq_map (args : List Word) : args = (List.range args.length).map fun k => args.getD k 0 := by
  refine List.ext_getElem (by simp) fun k h _ => ?_
  simp [h]

/-- An opcode with as many argument words as R127 gives it is an instruction of those fields. -/
theorem assemble_total {op : Byte} {f : OpFormat} (h : opFormat op = some f) (ch : Byte) (imm : Half) {args : List Word}
    (hlen : args.length = f.nargs) : ∃ i, assemble op ch imm args = some i ∧ ReadFrom op ch imm args f i := by
  rw [words_eq_map args, hlen]
  generalize (fun k => args.getD k 0) = arg
  unfold opFormat at h
  split at h
  case h_40 => cases h
  all_goals
    next hop =>
      obtain rfl := byte_of_toNat hop
      cases h
      exact ⟨_, rfl, rfl, by simp [Instr.chField], by simp [Instr.immField, boolImm_of_bit, imm_and_full], rfl⟩

/-- An opcode with fewer argument words than R127 gives it is no instruction. -/
theorem assemble_short {op : Byte} {f : OpFormat} (h : opFormat op = some f) (ch : Byte) (imm : Half) {args : List Word}
    (hlen : args.length < f.nargs) : assemble op ch imm args = none := by
  rw [words_eq_map args]
  generalize (fun k => args.getD k 0) = arg, args.length = m at hlen ⊢
  unfold opFormat at h
  split at h
  case h_40 => cases h
  all_goals
    next hop =>
      obtain rfl := byte_of_toNat hop
      cases h
      simp only at hlen
      interval_cases m <;> rfl

/-! ### The decoder (R100 to R103) -/

/-- Word 0 has an opcode of format `f` and no reserved field set (R102, R103). -/
structure LegalHeader (w : Word) (f : OpFormat) : Prop where
  format : opFormat (opOf w) = some f
  channel : f.usesCh = false → chOf w = 0
  immediate : immOf w &&& ~~~f.immBits = 0

theorem legalHeader_word0 (i : Instr) : ∃ f, LegalHeader i.word0 f ∧ f.nargs = i.argWords.length := by
  obtain ⟨hop, hch, himm, f, hformat, hnargs, hchannel, himmediate⟩ := header_holds i
  exact ⟨f, ⟨by rw [hop, hformat], fun h => by rw [hch, hchannel h], by rw [himm, himmediate]⟩, hnargs⟩

theorem decode_packet {w : Word} {f : OpFormat} {args rest : List Word} {i : Instr} (h : LegalHeader w f)
    (hlen : args.length = f.nargs) (hi : assemble (opOf w) (chOf w) (immOf w) args = some i) :
    decode (w :: (args ++ rest)) = .instr i rest := by
  have hch : ¬ (f.usesCh = false ∧ chOf w ≠ 0) := fun ⟨hno, hne⟩ => hne (h.channel hno)
  have himm : ¬ (immOf w &&& ~~~f.immBits ≠ 0) := fun hne => hne h.immediate
  simp only [decode, h.format, if_neg hch, if_neg himm, ← hlen, List.take_left', List.drop_left', hi]

/-- All the decoder reads as an instruction: a legal word 0 and the opcode's argument words (R100 to R102). -/
theorem decode_instr_packet {ws rest : List Word} {i : Instr} (h : decode ws = .instr i rest) :
    ∃ w args f, ws = w :: (args ++ rest) ∧ LegalHeader w f ∧ args.length = f.nargs ∧
      assemble (opOf w) (chOf w) (immOf w) args = some i := by
  cases ws with
  | nil => cases h
  | cons w tail =>
    rw [decode] at h
    split at h
    · cases h
    next f hformat =>
    split at h
    · cases h
    next hch =>
    split at h
    · cases h
    next himm =>
    split at h
    · next j hj =>
      cases h
      refine ⟨w, tail.take f.nargs, f, by rw [List.take_append_drop], ⟨hformat, fun hno => ?_, not_not.mp himm⟩, ?_, hj⟩
      · exact not_not.mp fun hne => hch ⟨hno, hne⟩
      · by_contra hne
        have hfew : (tail.take f.nargs).length < f.nargs := lt_of_le_of_ne (List.length_take_le _ _) hne
        rw [assemble_short hformat _ _ hfew] at hj
        cases hj
    · cases h

/-- An illegal packet is reported with its own word 0 (R102, R103). -/
theorem decode_illegal_word {w v : Word} {tail : List Word} {why : Illegal} (h : decode (w :: tail) = .illegal v why) : v = w := by
  rw [decode] at h
  split at h
  · cases h; rfl
  split at h
  · cases h; rfl
  split at h
  · cases h; rfl
  split at h
  · cases h
  · cases h

/-! ### Encoding and decoding (R100 to R102) -/

/-- Settles O1: word 0 is legal with as many argument words as its opcode takes, and they are assembled to the instruction. -/
theorem decodeOfEncode : Obligations.DecodeOfEncode := by
  intro i rest
  obtain ⟨f, hlegal, hnargs⟩ := legalHeader_word0 i
  refine decode_packet hlegal hnargs.symm ?_
  rw [Instr.word0, Laws.opOf_headerWord, Laws.chOf_headerWord, Laws.immOf_headerWord]
  exact assemble_fields i

/-- A legal word 0 is the word 0 of the instruction that its packet is assembled to. -/
theorem word0_of_assemble {w : Word} {f : OpFormat} {args : List Word} {i : Instr} (h : LegalHeader w f)
    (hlen : args.length = f.nargs) (hi : assemble (opOf w) (chOf w) (immOf w) args = some i) : w = i.word0 ∧ args = i.argWords := by
  obtain ⟨j, hj, hread⟩ := assemble_total h.format (chOf w) (immOf w) hlen
  obtain rfl : j = i := Option.some.inj (hj.symm.trans hi)
  have hch : j.chField = chOf w := by
    cases huses : f.usesCh with
    | true => exact hread.channel huses
    | false =>
      obtain ⟨-, -, -, g, hg, -, hzero, -⟩ := header_holds j
      rw [hread.opcode, h.format] at hg
      obtain rfl := Option.some.inj hg
      rw [hzero huses, h.channel huses]
  have himm : j.immField = immOf w := hread.immediate.trans (imm_and_defined h.immediate)
  exact ⟨by rw [Instr.word0, hread.opcode, hch, himm, headerWord_fields], hread.arguments.symm⟩

/-- Settles O2: the packet's header and argument words are those of the instruction they are assembled to. -/
theorem decodeReadsEncodings : Obligations.DecodeReadsEncodings := by
  intro ws rest i h
  obtain ⟨w, args, f, rfl, hlegal, hlen, hi⟩ := decode_instr_packet h
  obtain ⟨rfl, rfl⟩ := word0_of_assemble hlegal hlen hi
  rfl

/-! ### The opcode table (spec/opcode_table.json, R127) -/

/-- The row of an opcode's format: the pattern is the opcode alone, and the mask covers `OP`, an unused `CH` and the undefined `IMM` bits. -/
abbrev OpcodeRow.Describes (r : OpcodeRow) (op : Byte) (f : OpFormat) : Prop :=
  r.pattern = headerWord op 0 0 ∧ r.mask = headerWord 0xFF (if f.usesCh then 0 else 0xFF) (~~~f.immBits) ∧ r.nargs = f.nargs

theorem opcodeTable_describes :
    ∀ r ∈ opcodeTable, (opFormat (opOf r.pattern)).any (fun f => decide (r.Describes (opOf r.pattern) f)) = true := by decide

theorem opcodeTable_complete : ∀ op : Byte, (opFormat op).isSome = true → opcodeTable.any (fun r => opOf r.pattern == op) = true := by
  decide

theorem row_describes {r : OpcodeRow} (h : r ∈ opcodeTable) : ∃ f, opFormat (opOf r.pattern) = some f ∧ r.Describes (opOf r.pattern) f := by
  have hrow := opcodeTable_describes r h
  cases hformat : opFormat (opOf r.pattern) with
  | none => rw [hformat] at hrow; cases hrow
  | some f => rw [hformat] at hrow; exact ⟨f, rfl, of_decide_eq_true hrow⟩

/-- A row's mask and pattern accept the legal headers of its opcode and no other word (R102). -/
theorem accepts_iff {r : OpcodeRow} {op : Byte} {f : OpFormat} (hformat : opFormat op = some f) (h : r.Describes op f) (w : Word) :
    r.accepts w = true ↔ opOf w = op ∧ LegalHeader w f := by
  obtain ⟨hpattern, hmask, -⟩ := h
  have hfields : r.accepts w = true ↔
      opOf w = op ∧ chOf w &&& (if f.usesCh then 0 else 0xFF) = 0 ∧ immOf w &&& ~~~f.immBits = 0 := by
    rw [OpcodeRow.accepts, beq_iff_eq, hpattern, hmask, ← headerWord_fields w, headerWord_and, headerWord_eq_iff, headerWord_fields w,
      show opOf w &&& 0xFF = opOf w from BitVec.and_allOnes]
  have hch : chOf w &&& (if f.usesCh then 0 else 0xFF) = 0 ↔ (f.usesCh = false → chOf w = 0) := by
    cases f.usesCh with
    | true => simp
    | false =>
      rw [if_neg Bool.false_ne_true, show chOf w &&& 0xFF = chOf w from BitVec.and_allOnes]
      exact ⟨fun h _ => h, fun h => h rfl⟩
  rw [hfields, hch]
  exact ⟨fun ⟨hop, hc, himm⟩ => ⟨hop, hop ▸ hformat, hc, himm⟩, fun ⟨hop, hlegal⟩ => ⟨hop, hlegal.channel, hlegal.immediate⟩⟩

theorem rowOf_legal {w : Word} {r : OpcodeRow} (h : rowOf w = some r) : ∃ f, LegalHeader w f ∧ r.nargs = f.nargs := by
  obtain ⟨f, hformat, hrow⟩ := row_describes (List.mem_of_find?_eq_some h)
  obtain ⟨-, hlegal⟩ := (accepts_iff hformat hrow w).mp (List.find?_some (p := fun q : OpcodeRow => q.accepts w) h)
  exact ⟨f, hlegal, hrow.2.2⟩

theorem rowOf_of_legal {w : Word} {f : OpFormat} (h : LegalHeader w f) : ∃ r, rowOf w = some r ∧ r.nargs = f.nargs := by
  obtain ⟨r, hr, hop⟩ := List.any_eq_true.mp (opcodeTable_complete (opOf w) (by rw [h.format]; rfl))
  obtain ⟨g, hformat, hrow⟩ := row_describes hr
  rw [eq_of_beq hop] at hformat hrow
  obtain rfl : f = g := Option.some.inj (h.format.symm.trans hformat)
  have hfound : (rowOf w).isSome = true := List.find?_isSome.mpr ⟨r, hr, (accepts_iff hformat hrow w).mpr ⟨rfl, h⟩⟩
  obtain ⟨q, hq⟩ := Option.isSome_iff_exists.mp hfound
  obtain ⟨g, hg, hnargs⟩ := rowOf_legal hq
  obtain rfl : f = g := Option.some.inj (h.format.symm.trans hg.format)
  exact ⟨q, hq, hnargs⟩

/-- A packet of the table is a legal word 0 with its opcode's number of argument words (R101, R102). -/
theorem packetWellFormed_iff {w : Word} {args : List Word} :
    packetWellFormed (w :: args) = true ↔ ∃ f, LegalHeader w f ∧ args.length = f.nargs := by
  rw [packetWellFormed]
  constructor
  · intro h
    split at h
    · cases h
    · next r hr =>
      obtain ⟨f, hlegal, hnargs⟩ := rowOf_legal hr
      exact ⟨f, hlegal, (eq_of_beq h).trans hnargs⟩
  · rintro ⟨f, hlegal, hlen⟩
    obtain ⟨r, hr, hnargs⟩ := rowOf_of_legal hlegal
    simp only [hr, beq_iff_eq, hlen, hnargs]

/-- Settles O3: both sides say that word 0 is legal and that its opcode's argument words follow it. -/
theorem decodeFollowsOpcodeTable : Obligations.DecodeFollowsOpcodeTable := by
  intro w args
  rw [packetWellFormed_iff]
  constructor
  · rintro ⟨f, hlegal, hlen⟩
    obtain ⟨i, hi, -⟩ := assemble_total hlegal.format (chOf w) (immOf w) hlen
    have hdecode := decode_packet (rest := []) hlegal hlen hi
    rw [List.append_nil] at hdecode
    exact ⟨i, hdecode⟩
  · rintro ⟨i, h⟩
    obtain ⟨v, args', f, hws, hlegal, hlen, -⟩ := decode_instr_packet h
    obtain ⟨rfl, rfl⟩ : w = v ∧ args = args' := by simpa using hws
    exact ⟨f, hlegal, hlen⟩

/-- Settles O4: each list of words is the encoding of its instruction. -/
theorem writtenWordsDecode : Obligations.WrittenWordsDecode :=
  ⟨decodeOfEncode (.aiInit 4 44100) [], decodeOfEncode (.sbSetBitWidth 3 16) [], decodeOfEncode (.mxPoll 1000) [],
    decodeOfEncode (.chSetDolby 0 1 2 3 4 5) [], decodeOfEncode (.evAdd 500 0x7000 1) [],
    decodeOfEncode (.vsInit 0x003C0000 48000) [], decodeOfEncode .irqEnable []⟩

end Sys2Proof

namespace Sys2Proof.Machine

set_option Elab.async false

/-! ### A step on an illegal packet (R102, R103, R330, R331) -/

theorem workOf_issue_illegal {p : Packet} {w : Word} {why : Illegal} (hd : decode p.words = .illegal w why) :
    workOf (.issue p) = .illegal w := by
  simp only [workOf, hd]

theorem hostTurn_illegal {s : State} {a : HostAct} {rest : List HostAct} {w : Word}
    (run : Instr → State → Host.Outcome State Fault Refusal)
    (hp : s.pending = none) (hh : s.host = a :: rest) (hw : workOf a = .illegal w) :
    hostTurn run s = .next (refuseIllegal w { s with host := rest }) := by
  simp only [hostTurn, hp, hh, hw]

/-- Settles O5: the foreground takes up the packet, and its work is to refuse word 0. -/
theorem illegalPacketFaults : Obligations.IllegalPacketFaults := by
  intro s p rest w why hfault hpending hagent hhost hdecode
  refine ⟨decode_illegal_word hdecode, ?_⟩
  calc step s
      = hostTurn exec s.nextAgent.2 := step_hostTurn hfault hagent
    _ = .next (refuseIllegal w { s.nextAgent.2 with host := rest }) :=
        hostTurn_illegal exec ((nextAgent_pending s).trans hpending) ((nextAgent_host s).trans hhost) (workOf_issue_illegal hdecode)

end Sys2Proof.Machine
end

section
/-!
SUPPORT. Commands that their checks alone decide: the issuer check of every command (spec/30_encoding.md R105, spec/60_exceptions.md R334),
the checks of `MX_POLL` (spec/44_mixer_exec.md R269, R270, R297), and the volume commands (spec/43_mixer_channel.md R226 to R228).
-/

namespace Sys2Proof.Machine

set_option Elab.async false

/-! ### The issuer check (R105, R334) -/

/-- Settles O10: every command's computation begins with the issuer check, alone or inside its family's checks. -/
theorem issuerViolationFaults : Obligations.IssuerViolationFaults := by
  intro i s hf hissuer hexec hpoll
  refine exec_fatal hf ?_
  have refused : ∀ {α : Type} (f : Unit → Act α), (checkIssuer >>= f) (s.begin i) = .error .fatal (badState i s) :=
    fun f => act_bind_error (checkIssuer_begin_refused hissuer)
  have driver : ∀ {α : Type} (f : Unit → Act α), (drvOn >>= f) (s.begin i) = .error .fatal (badState i s) :=
    fun f => act_bind_error (refused _)
  have engine : ∀ {α : Type} (f : Unit → Act α), (mxOn >>= f) (s.begin i) = .error .fatal (badState i s) :=
    fun f => act_bind_error (refused _)
  have channel : ∀ {α : Type} (ch : Byte) (f : Unit → Act α), (chanChecks ch >>= f) (s.begin i) = .error .fatal (badState i s) :=
    fun ch f => act_bind_error (engine _)
  have index : ∀ {α : Type} (ch : Byte) (f : Unit → Act α), (sbIndex ch >>= f) (s.begin i) = .error .fatal (badState i s) :=
    fun ch f => act_bind_error (refused _)
  have buffer : ∀ {α : Type} (ch : Byte) (f : Unit → Act α), (sbOn ch >>= f) (s.begin i) = .error .fatal (badState i s) :=
    fun ch f => act_bind_error (index ch _)
  have video : ∀ {α : Type} (f : Unit → Act α), (vsOn >>= f) (s.begin i) = .error .fatal (badState i s) :=
    fun f => act_bind_error (refused _)
  cases i with
  | aiInit numBuffers freq => exact replyNone_error (refused _)
  | aiClose => exact driver _
  | aiSetFillCallback cb => exact replyNone_error (driver _)
  | aiWriteBegin => exact refused _
  | aiWriteEnd => exact replyNone_error (refused _)
  | aiPush blocking src n => exact refused _
  | aiPause pause => exact replyNone_error (driver _)
  | aiGetFrequency => exact reply_error (driver _)
  | sbInit ch base bytes => exact replyNone_error (index ch _)
  | sbSetBitWidth ch bits => exact replyNone_error (buffer ch _)
  | sbSetDecoder ch fn ctx => exact replyNone_error (buffer ch _)
  | sbGet ch wpos wlen => exact reply_error (buffer ch _)
  | sbAppend ch wlen => exact reply_error (buffer ch _)
  | sbDiscard ch wpos => exact replyNone_error (buffer ch _)
  | sbFlush ch => exact replyNone_error (buffer ch _)
  | mxInit channels rate => exact replyNone_error (refused _)
  | mxClose => exact engine _
  | mxSampleRate => exact reply_error (engine _)
  | mxSetMasterVolume vol => exact replyNone_error (engine _)
  | mxPoll n =>
    show mxPoll n (s.begin (.mxPoll n)) = _
    rw [mxPoll, act_get_bind, ensure_bind, if_pos (show (s.begin (.mxPoll n)).mx.inPoll = false from hpoll n rfl)]
    exact engine _
  | mxExec out n => exact absurd rfl (hexec out n)
  | chPlay ch wave => exact replyNone_error (channel ch _)
  | chStop ch => exact replyNone_error (channel ch _)
  | chPlaying ch => exact reply_error (channel ch _)
  | chSetFrequency ch freq => exact replyNone_error (channel ch _)
  | chSetPosition ch pos => exact replyNone_error (channel ch _)
  | chGetPosition ch => exact reply_error (channel ch _)
  | chSetVolume ch l r => exact replyNone_error (channel ch _)
  | chSetPan ch vol pan => exact replyNone_error (channel ch _)
  | chSetDolby ch fl fr c sl sr => exact replyNone_error (channel ch _)
  | chSetLimits ch maxBits maxFreq maxBuf => exact replyNone_error (channel ch _)
  | evAdd delay cb ctx => exact replyNone_error (engine _)
  | evRemove cb => exact replyNone_error (engine _)
  | vsInit fps rate => exact replyNone_error (refused _)
  | vsSuggestedBufferSize => exact reply_error (video _)
  | vsCurrentFrameSamples => exact reply_error (video _)
  | vsNextFrame => exact replyNone_error (video _)
  | irqDisable => exact replyNone_error (refused _)
  | irqEnable => exact replyNone_error (refused _)

/-! ### The checks of `MX_POLL` (R269, R270, R297) -/

/-- A nested poll is refused before anything else is looked at (R297). -/
theorem mxPoll_nested {s : State} (n : Word) (h : s.mx.inPoll = true) : mxPoll n s =
    .error .fatal (s.enterFaulted .reentrantPoll (Config.ctxCode s.ctx)) := by
  rw [mxPoll, act_get_bind, ensure_bind, if_neg (by simp [h])]

/-- A poll that is not nested and that the engine may run comes to the test of its length (R269). -/
theorem mxPoll_begin {s : State} {n : Word} (h : s.mayRun (.mxPoll n)) (hon : s.mx.on = true) (hp : s.mx.inPoll = false) :
    mxPoll n (s.begin (.mxPoll n)) =
      if n.toNat % 2 = 0 ∧ n.toNat ≤ s.ring.nf.toNat then
        if n = 0 then .ok (.done []) (s.begin (.mxPoll n))
        else pollPlaceSpin n.toNat ((s.begin (.mxPoll n)).modMx fun m => { m with inPoll := true })
      else .error .fatal ((s.begin (.mxPoll n)).enterFaulted .badArg n) := by
  have hnested : (s.begin (.mxPoll n)).mx.inPoll = false := hp
  rw [mxPoll, act_get_bind, ensure_bind, if_pos hnested, act_bind_ok (mxOn_begin h hon), ensure_bind, act_ite]
  rfl

/-- Settles O48: the length's test alone decides a poll of no frames, of an odd number or of too many; a nested poll never comes to it. -/
theorem mxPollChecks : Obligations.MxPollChecks := by
  refine fun s n => ⟨fun h hon hp => ⟨fun hn => ?_, fun hbad => ?_⟩, fun hf hp => ?_⟩
  · subst hn
    rw [exec_eq_command, command_running h.1, commandBody, mxPoll_begin h hon hp, if_pos ⟨rfl, Nat.zero_le _⟩, if_pos rfl, settle_done,
      begin_finish]
  · refine exec_fatal h.1 ?_
    rw [commandBody, mxPoll_begin h hon hp, if_neg (by omega)]
  · exact exec_fatal hf (mxPoll_nested n hp)

/-! ### The volume commands (R112, R226 to R228) -/

theorem setVolume_ok {c : Nat} {l r : Word} {s : State} (hl : l.toNat ≤ 0x10000) (hr : r.toNat ≤ 0x10000) :
    setVolume c l r s = .ok () (s.modChan c fun x => { x with vol := ⟨q15Of l, q15Of r⟩ }) := by
  rw [setVolume, act_bind_ok (volQ15_ok hl s), act_bind_ok (volQ15_ok hr s), act_modify]

theorem fraction_ok {x : Word} (h : x.toNat ≤ 0x10000) (s : State) : fraction x s = .ok () s := by
  rw [fraction, ensure_apply, if_pos (show x ≤ q16One from h)]

theorem forList_fraction_ok {xs : List Word} (h : ∀ x ∈ xs, x.toNat ≤ 0x10000) (s : State) : forList fraction xs s = .ok () s := by
  induction xs with
  | nil => rfl
  | cons x xs ih =>
    obtain ⟨hx, hxs⟩ := List.forall_mem_cons.mp h
    rw [forList, act_bind_ok (fraction_ok hx s), ih hxs]

/-- A volume command whose two sides are at most 1.0 writes the channel's volume pair and nothing else. -/
theorem exec_setVolume {i : Instr} {s : State} {ch : Byte} {l r : Word} {body : Act Unit} (h : s.channelReady i)
    (hi : commandBody i = replyNone (chanChecks ch >>= fun _ => body)) (hch : i.chField = ch)
    (hbody : body (s.begin i) = setVolume ch.toNat l r (s.begin i)) (hl : l.toNat ≤ 0x10000) (hr : r.toNat ≤ 0x10000) :
    exec i s = .next ((s.modChan ch.toNat fun x => { x with vol := ⟨q15Of l, q15Of r⟩ }).finish []) := by
  rw [exec_eq_command, hi]
  have hrun : (chanChecks ch >>= fun _ => body) (s.begin i) =
      .ok () ((s.begin i).modChan ch.toNat fun x => { x with vol := ⟨q15Of l, q15Of r⟩ }) := by
    rw [act_bind_ok (chanChecks_ready h hch), hbody, setVolume_ok hl hr]
  exact (command_replyNone h.1.1 hrun).trans rfl

/-- The two sides of the pan law as numbers: the linear law's, or the open law's (R227). -/
theorem panLaw_toNat (law : PanLaw) {vol pan : Word} (hv : vol.toNat ≤ 0x10000) (hp : pan.toNat ≤ 0x10000) :
    (panLaw law vol pan).1.toNat =
        (if law = .linear then vol.toNat * (0x10000 - pan.toNat) / 65536 else (Config.panLaw vol pan).1.val) ∧
      (panLaw law vol pan).2.toNat = (if law = .linear then vol.toNat * pan.toNat / 65536 else (Config.panLaw vol pan).2.val) := by
  have product : ∀ {x : Nat}, x ≤ 0x10000 → vol.toNat * x / 65536 < 2 ^ 32 := fun {x} hx => by
    have hle : vol.toNat * x ≤ 0x10000 * 0x10000 := Nat.mul_le_mul hv hx
    omega
  cases law with
  | linear => exact ⟨w32_toNat_of_lt (product (Nat.sub_le _ _)), w32_toNat_of_lt (product hp)⟩
  | other => exact ⟨w32_toNat_of_lt (by omega), w32_toNat_of_lt (by omega)⟩

/-- The two sides of every pan law are at most 1.0 (R227). -/
theorem panLaw_le (law : PanLaw) {vol pan : Word} (hv : vol.toNat ≤ 0x10000) (hp : pan.toNat ≤ 0x10000) :
    (panLaw law vol pan).1.toNat ≤ 0x10000 ∧ (panLaw law vol pan).2.toNat ≤ 0x10000 := by
  have product : ∀ {x : Nat}, x ≤ 0x10000 → vol.toNat * x / 65536 ≤ 0x10000 := fun {x} hx => by
    have hle : vol.toNat * x ≤ 0x10000 * 0x10000 := Nat.mul_le_mul hv hx
    omega
  obtain ⟨hl, hr⟩ := panLaw_toNat law hv hp
  rw [hl, hr]
  cases law with
  | linear => exact ⟨product (Nat.sub_le _ _), product hp⟩
  | other => exact ⟨Nat.le_of_lt_succ (Fin.isLt _), Nat.le_of_lt_succ (Fin.isLt _)⟩

theorem clampOne_toNat (x : Word) : (clampOne x).toNat = min x.toNat 0x10000 := by
  unfold clampOne
  split
  · next h => exact (Nat.min_eq_left h).symm
  · next h => exact (Nat.min_eq_right (Nat.le_of_not_le h)).symm

theorem chSetPan_body {s : State} {c : Nat} {vol pan : Word} (hv : vol.toNat ≤ 0x10000) (hp : pan.toNat ≤ 0x10000) :
    (fraction vol >>= fun _ => fraction pan >>= fun _ => get >>= fun s =>
      setVolume c (panLaw s.params.panLaw vol pan).1 (panLaw s.params.panLaw vol pan).2) s =
    setVolume c (panLaw s.params.panLaw vol pan).1 (panLaw s.params.panLaw vol pan).2 s := by
  rw [act_bind_ok (fraction_ok hv s), act_bind_ok (fraction_ok hp s), act_get_bind]

/-- Settles O43: the operands pass their checks, and the two sides they give are at most 1.0. -/
theorem chVolumeEffect : Obligations.ChVolumeEffect := by
  intro s ch q15
  refine ⟨fun l r h hl hr => exec_setVolume h rfl rfl rfl hl hr, fun vol pan h hv hp => ?_, fun fl fr c sl sr h hop => ?_⟩
  · obtain ⟨hl, hr⟩ := panLaw_le s.params.panLaw hv hp
    obtain ⟨el, er⟩ := panLaw_toNat s.params.panLaw hv hp
    refine (exec_setVolume h rfl rfl (chSetPan_body hv hp) hl hr).trans ?_
    rw [q15Of, q15Of, State.begin_params, el, er]
    cases s.params.panLaw with
    | linear => rfl
    | other => rfl
  · have hle : ∀ x, (clampOne x).toNat ≤ 0x10000 := fun x => (clampOne_toNat x).trans_le (Nat.min_le_right _ _)
    refine (exec_setVolume h rfl rfl (act_bind_ok (forList_fraction_ok hop _)) (hle _) (hle _)).trans ?_
    rw [q15Of, q15Of, clampOne_toNat, clampOne_toNat]

end Sys2Proof.Machine
end

section
/-!
SUPPORT. The job block (spec/30_encoding.md R124; spec/44_mixer_exec.md R261, R263): a big-endian value that stands in the bytes written to
coprocessor memory is read back from its offset, and every field of the block stands at its own.
-/

namespace Sys2Proof.Machine

set_option Elab.async false

/-! ### Big-endian values (R70) -/

theorem be32_length (w : Word) : (be32 w).length = 4 := rfl

theorem be16_length (h : Half) : (be16 h).length = 2 := rfl

theorem beNat_be32 (w : Word) : beNat (be32 w) = w.toNat := by
  have hw := w.isLt
  simp only [beNat, be32, List.foldl_cons, List.foldl_nil, BitVec.extractLsb'_toNat, Nat.shiftRight_eq_div_pow]
  omega

theorem beNat_be16 (h : Half) : beNat (be16 h) = h.toNat := by
  have hh := h.isLt
  simp only [beNat, be16, List.foldl_cons, List.foldl_nil, BitVec.extractLsb'_toNat, Nat.shiftRight_eq_div_pow]
  omega

theorem beWord_be32 (w : Word) : beWord (be32 w) = w := by rw [beWord, beNat_be32, w32_toNat]

/-! ### Bytes where they were written -/

/-- A list of bytes stands at an offset of another one. -/
def StandsAt (bs : List Byte) (a : Nat) (field : List Byte) : Prop := ∃ pre post, bs = pre ++ field ++ post ∧ pre.length = a

theorem standsAt_head (field post : List Byte) : StandsAt (field ++ post) 0 field := ⟨[], post, rfl, rfl⟩

theorem standsAt_self (field : List Byte) : StandsAt field 0 field := ⟨[], [], by simp, rfl⟩

theorem StandsAt.append_left {bs field : List Byte} {a : Nat} (h : StandsAt bs a field) (pre : List Byte) :
    StandsAt (pre ++ bs) (pre.length + a) field := by
  obtain ⟨p, q, rfl, rfl⟩ := h
  exact ⟨pre ++ p, q, by simp, by simp⟩

theorem StandsAt.append_right {bs field : List Byte} {a : Nat} (h : StandsAt bs a field) (post : List Byte) :
    StandsAt (bs ++ post) a field := by
  obtain ⟨p, q, rfl, rfl⟩ := h
  exact ⟨p, q ++ post, by simp, rfl⟩

theorem StandsAt.trans {bs cs field : List Byte} {a b : Nat} (h : StandsAt bs a cs) (k : StandsAt cs b field) :
    StandsAt bs (a + b) field := by
  obtain ⟨p, q, rfl, rfl⟩ := h
  rw [List.append_assoc]
  exact (k.append_right q).append_left p

theorem flatMap_range_length {f : Nat → List Byte} {k : Nat} (hf : ∀ c, (f c).length = k) (n : Nat) :
    ((List.range n).flatMap f).length = k * n := by
  simp [List.length_flatMap, hf, Nat.mul_comm]

/-- Entry `c` of a sequence of entries of equal size stands at `c` times that size. -/
theorem standsAt_flatMap {f : Nat → List Byte} {k : Nat} (hf : ∀ c, (f c).length = k) {c n : Nat} (hc : c < n) :
    StandsAt ((List.range n).flatMap f) (k * c) (f c) := by
  induction n with
  | zero => exact absurd hc (Nat.not_lt_zero c)
  | succ n ih =>
    rw [List.range_succ, List.flatMap_append, List.flatMap_singleton]
    by_cases h : c < n
    · exact (ih h).append_right _
    · obtain rfl : c = n := by omega
      rw [← flatMap_range_length hf c]
      exact (standsAt_self (f c)).append_left _

theorem Memory.bytes_getElem (m : Memory) {n k : Nat} (a : Nat) (h : k < (m.bytes a n).length) : (m.bytes a n)[k] = m.read (a + k) := by
  induction n generalizing a k with
  | zero => exact absurd h (Nat.not_lt_zero k)
  | succ n ih =>
    cases k with
    | zero => rfl
    | succ k =>
      have hk := ih (a + 1) (k := k) (Nat.lt_of_succ_lt_succ h)
      rw [Nat.add_assoc, Nat.add_comm 1] at hk
      exact hk

/-- Bytes that were written are read back, field by field. -/
theorem bytes_put {bs field : List Byte} {a : Nat} (h : StandsAt bs a field) (m : Memory) :
    (Memory.put m 0 bs).bytes a field.length = field := by
  obtain ⟨pre, post, rfl, rfl⟩ := h
  refine List.ext_getElem (Memory.bytes_length _ _ _) fun k _ hk => ?_
  have hin : pre.length + k < (pre ++ field ++ post).length := by
    rw [List.length_append, List.length_append]
    omega
  rw [Memory.bytes_getElem, Memory.read_put, if_pos ⟨Nat.zero_le _, by omega⟩, Nat.sub_zero, List.getD_eq_getElem _ _ hin,
    List.getElem_append_left (by rw [List.length_append]; omega), List.getElem_append_right (Nat.le_add_right _ _)]
  simp

theorem jobWord_put {bs : List Byte} {a : Nat} {w : Word} (h : StandsAt bs a (be32 w)) (m : Memory) :
    jobWord (Memory.put m 0 bs) a = w := by
  rw [jobWord, ← be32_length w, bytes_put h, beWord_be32]

theorem jobHalf_put {bs : List Byte} {a : Nat} {h : Half} (hs : StandsAt bs a (be16 h)) (m : Memory) :
    jobHalf (Memory.put m 0 bs) a = h := by
  rw [jobHalf, ← be16_length h, bytes_put hs, beNat_be16, BitVec.ofNat_toNat, BitVec.setWidth_eq]

/-! ### The fields of a volume pair and of a descriptor (R120) -/

theorem Volume.bytes_length (v : Volume) : v.bytes.length = 4 := rfl

theorem Desc.bytes_length (d : Desc) : d.bytes.length = 24 := rfl

theorem jobVolume_put {bs : List Byte} {c : Nat} {v : Volume} (h : StandsAt bs (0x10 + 4 * c) v.bytes) (m : Memory) :
    jobVolume (Memory.put m 0 bs) c = v := by
  have hl : StandsAt v.bytes 0 (be16 v.l) := standsAt_head _ _
  have hr : StandsAt v.bytes 2 (be16 v.r) := (standsAt_self _).append_left (be16 v.l)
  have hr' := h.trans hr
  rw [show 0x10 + 4 * c + 2 = 0x12 + 4 * c by omega] at hr'
  rw [jobVolume, jobHalf_put (a := 0x10 + 4 * c) (h.trans hl), jobHalf_put hr']

theorem jobDesc_put {bs : List Byte} {c : Nat} {d : Desc} (h : StandsAt bs (jobDescAt c) d.bytes) (m : Memory) :
    jobDesc (Memory.put m 0 bs) c = d := by
  have hpos : StandsAt d.bytes 0 (be32 d.pos) := ⟨[], _, rfl, rfl⟩
  have hstep : StandsAt d.bytes 4 (be32 d.step) := ⟨be32 d.pos, _, rfl, rfl⟩
  have hlen : StandsAt d.bytes 8 (be32 d.len) := ⟨be32 d.pos ++ be32 d.step, _, rfl, rfl⟩
  have hloop : StandsAt d.bytes 12 (be32 d.loopLen) := ⟨be32 d.pos ++ be32 d.step ++ be32 d.len, _, rfl, rfl⟩
  have hptr : StandsAt d.bytes 16 (be32 d.ptr) := ⟨be32 d.pos ++ be32 d.step ++ be32 d.len ++ be32 d.loopLen, _, rfl, rfl⟩
  have hflags : StandsAt d.bytes 20 (be32 d.flags) := (standsAt_self _).append_left _
  simp only [jobDesc, jobWord_put (a := jobDescAt c) (h.trans hpos), jobWord_put (h.trans hstep), jobWord_put (h.trans hlen), jobWord_put (h.trans hloop),
    jobWord_put (h.trans hptr), jobWord_put (h.trans hflags)]

/-! ### The fields of the job block (R124) -/

section
variable (s : State) (out n : Nat)

/-- The block's first 16 bytes: frame count, output address, master volume and channel count. -/
def State.jobHeader : List Byte :=
  be32 (w32 n) ++ be32 (w32 out) ++ be16 s.mx.master ++ be16 0 ++ be32 (s.mx.nch.setWidth 32)

/-- The volumes of the 32 channels. -/
def State.jobVolumes : List Byte := (List.range tableSize).flatMap fun c => (s.uploadedVolume c).bytes

/-- The descriptors of the 32 channels. -/
def State.jobDescs : List Byte := (List.range tableSize).flatMap fun c => (s.uploadedDesc c).bytes

theorem jobBlock_eq : s.jobBlock out n = s.jobHeader out n ++ s.jobVolumes ++ s.jobDescs := rfl

theorem jobVolumes_length : s.jobVolumes.length = 128 := flatMap_range_length (fun c => (s.uploadedVolume c).bytes_length) tableSize

theorem jobHeader_field {field : List Byte} {a : Nat} (h : StandsAt (s.jobHeader out n) a field) :
    StandsAt (s.jobBlock out n) a field := (h.append_right _).append_right _

theorem jobBlock_volume {c : Nat} (hc : c < 32) : StandsAt (s.jobBlock out n) (0x10 + 4 * c) (s.uploadedVolume c).bytes := by
  have hvol : StandsAt s.jobVolumes (4 * c) (s.uploadedVolume c).bytes :=
    standsAt_flatMap (f := fun c => (s.uploadedVolume c).bytes) (fun c => (s.uploadedVolume c).bytes_length) hc
  exact (hvol.append_left (s.jobHeader out n)).append_right _

theorem jobBlock_desc {c : Nat} (hc : c < 32) : StandsAt (s.jobBlock out n) (jobDescAt c) (s.uploadedDesc c).bytes := by
  have hdesc : StandsAt s.jobDescs (24 * c) (s.uploadedDesc c).bytes :=
    standsAt_flatMap (f := fun c => (s.uploadedDesc c).bytes) (fun c => (s.uploadedDesc c).bytes_length) hc
  have hlen : (s.jobHeader out n ++ s.jobVolumes).length = 0x90 := by rw [List.length_append, jobVolumes_length]; rfl
  rw [jobDescAt, ← hlen]
  exact hdesc.append_left _

theorem jobFrames_upload (hn : n < 2 ^ 32) : jobFrames (s.upload out n).coproc.mem = n := by
  have h : StandsAt (s.jobHeader out n) 0 (be32 (w32 n)) := ⟨[], _, rfl, rfl⟩
  exact (congrArg BitVec.toNat (jobWord_put (jobHeader_field s out n h) _)).trans (w32_toNat_of_lt hn)

theorem jobOut_upload (hout : out < 2 ^ 32) : jobOut (s.upload out n).coproc.mem = out := by
  have h : StandsAt (s.jobHeader out n) 4 (be32 (w32 out)) := ⟨be32 (w32 n), _, rfl, rfl⟩
  exact (congrArg BitVec.toNat (jobWord_put (jobHeader_field s out n h) _)).trans (w32_toNat_of_lt hout)

theorem jobMaster_upload : jobMaster (s.upload out n).coproc.mem = s.mx.master := by
  have h : StandsAt (s.jobHeader out n) 8 (be16 s.mx.master) := ⟨be32 (w32 n) ++ be32 (w32 out), _, rfl, rfl⟩
  exact jobHalf_put (jobHeader_field s out n h) _

theorem jobChannels_upload : jobChannels (s.upload out n).coproc.mem = s.mx.nch.toNat := by
  have h : StandsAt (s.jobHeader out n) 12 (be32 (s.mx.nch.setWidth 32)) :=
    (standsAt_self _).append_left (be32 (w32 n) ++ be32 (w32 out) ++ be16 s.mx.master ++ be16 0)
  exact (congrArg BitVec.toNat (jobWord_put (jobHeader_field s out n h) _)).trans (BitVec.toNat_setWidth_of_le (by decide))

theorem jobDesc_upload {c : Nat} (hc : c < 32) : jobDesc (s.upload out n).coproc.mem c = s.uploadedDesc c :=
  jobDesc_put (jobBlock_desc s out n hc) _

theorem jobVolume_upload {c : Nat} (hc : c < 32) : jobVolume (s.upload out n).coproc.mem c = s.uploadedVolume c :=
  jobVolume_put (jobBlock_volume s out n hc) _

end

/-- Settles O45: each field stands at the offset it is read from. -/
theorem jobBlockReadsBack : Obligations.JobBlockReadsBack := by
  intro s out n hout hn m
  exact ⟨jobFrames_upload s out n hn, jobOut_upload s out n hout, jobMaster_upload s out n, jobChannels_upload s out n,
    fun c hc => ⟨jobDesc_upload s out n hc, jobVolume_upload s out n hc⟩⟩

end Sys2Proof.Machine
end

section
/-!
SUPPORT. The internal `MX_EXEC` in an environment that does nothing meanwhile (spec/44_mixer_exec.md R250 to R267): one channel's window taken
from what its buffer holds, the windows of all channels, and the hand-off to a coprocessor that is free or not.
-/

namespace Sys2Proof.Machine

set_option Elab.async false

/-! ### One channel and its buffer -/

/-- The state with channel `c` and its buffer replaced. -/
def State.withChannel (s : State) (c : Nat) (x : Channel) (b : SampleBuf) : State :=
  { s with sbs := Table.put s.sbs c b, chans := Table.put s.chans c x }

theorem Table.put_at {α : Type} [Inhabited α] (t : Table α) (k : Nat) : Table.put t k (Table.at t k) = t := by
  apply Vector.ext
  intro j hj
  rw [Table.put, Vector.getElem_setIfInBounds]
  split
  · next h =>
    subst h
    rw [Table.at, dif_pos hj]
  · rfl

theorem withChannel_self (s : State) (c : Nat) : s.withChannel c (s.chan c) (s.sb c) = s := by
  rw [State.withChannel, State.chan, State.sb, Table.put_at, Table.put_at]

section
variable {s : State} {c : Nat} (x : Channel) (b : SampleBuf)

theorem withChannel_quiet (h : s.quiet) : (s.withChannel c x b).quiet := h

variable (hc : c < 32)
include hc

theorem withChannel_chan : (s.withChannel c x b).chan c = x := Table.at_put_same _ x hc

theorem withChannel_desc : (s.withChannel c x b).desc c = x.desc := congrArg Channel.desc (withChannel_chan x b hc)

theorem withChannel_sb : (s.withChannel c x b).sb c = b := Table.at_put_same _ b hc

theorem withChannel_strategy : (s.withChannel c x b).strategy c = strategyOf x.wave.loop.toNat b.size := by
  rw [State.strategy, withChannel_chan x b hc, withChannel_sb x b hc]

theorem withChannel_modDesc (f : Desc → Desc) :
    (s.withChannel c x b).modDesc c f = s.withChannel c { x with desc := f x.desc } b := by
  rw [State.modDesc, State.modChan, withChannel_chan x b hc]
  show ({ s with sbs := _, chans := Table.put (Table.put s.chans c x) c _ } : State) = _
  rw [Table.put_put]
  rfl

theorem withChannel_modSb (f : SampleBuf → SampleBuf) : (s.withChannel c x b).modSb c f = s.withChannel c x (f b) := by
  rw [State.modSb, withChannel_sb x b hc]
  show ({ s with sbs := Table.put (Table.put s.sbs c b) c _, chans := _ } : State) = _
  rw [Table.put_put]
  rfl

end

/-! ### Strategies (R280) -/

section
variable {w : Wave} {size : Nat}

theorem loop_toNat_ne (h : w.loop ≠ 0) : w.loop.toNat ≠ 0 := fun h0 => h (BitVec.eq_of_toNat_eq h0)

theorem strategyOf_noLoop (h : w.loop = 0) : strategyOf w.loop.toNat size = .noLoop := by rw [h]; rfl

theorem strategyOf_looping (h : w.loop ≠ 0) :
    strategyOf w.loop.toNat size = if w.loop.toNat + 80 ≤ size then .resident else .unrolled := by
  rw [strategyOf, if_neg (loop_toNat_ne h)]
  rfl

theorem strategyOf_resident (h : w.loop ≠ 0) (hs : w.loop.toNat + 80 ≤ size) : strategyOf w.loop.toNat size = .resident := by
  rw [strategyOf_looping h, if_pos hs]

theorem strategyOf_unrolled (h : w.loop ≠ 0) (hs : size < w.loop.toNat + 80) : strategyOf w.loop.toNat size = .unrolled := by
  rw [strategyOf_looping h, if_neg (Nat.not_le.mpr hs)]

theorem strategyOf_eq_unrolled (h : strategyOf w.loop.toNat size = .unrolled) : w.loop ≠ 0 ∧ size < w.loop.toNat + 80 := by
  have hloop : w.loop ≠ 0 := fun h0 => by
    rw [strategyOf_noLoop h0] at h
    cases h
  refine ⟨hloop, ?_⟩
  by_contra hs
  rw [strategyOf_resident hloop (Nat.not_lt.mp hs)] at h
  cases h

end

/-! ### The move back by a loop (R257) -/

/-- An unrolled channel that is past the end of its waveform, and its buffer too. -/
def State.goesBack (s : State) (c : Nat) : Prop :=
  (s.chan c).wave.loop ≠ 0 ∧ (s.sb c).size < (s.chan c).wave.loop.toNat + 80 ∧
    (s.chan c).wave.len.toNat ≤ (s.desc c).pos.toNat / (s.desc c).scale ∧ (s.chan c).wave.len.toNat ≤ (s.sb c).wpos.toNat

theorem rolledBack_of_goesBack {s : State} {c : Nat} (h : s.goesBack c) : s.rolledBack c =
    ({ s.desc c with pos := (s.desc c).pos - w32 ((s.chan c).wave.loop.toNat * (s.desc c).scale) },
      { s.sb c with wpos := (s.sb c).wpos - (s.chan c).wave.loop }) := if_pos h

theorem rolledBack_of_stays {s : State} {c : Nat} (h : ¬ s.goesBack c) : s.rolledBack c = (s.desc c, s.sb c) := if_neg h

theorem rolledBack_size (s : State) (c : Nat) : (s.rolledBack c).2.size = (s.sb c).size := by
  by_cases h : s.goesBack c
  · rw [rolledBack_of_goesBack h]; rfl
  · rw [rolledBack_of_stays h]

/-- Channel `c` moved back by one loop if it is past the end. -/
def State.rolledChan (s : State) (c : Nat) : Channel := { s.chan c with desc := (s.rolledBack c).1 }

/-- Channel `c` and its buffer moved back by one loop if both are past the end. -/
def State.rolled (s : State) (c : Nat) : State := s.withChannel c (s.rolledChan c) (s.rolledBack c).2

theorem rewrapped_withChannel (s : State) {c : Nat} (hc : c < 32) : s.rewrapped c = s.withChannel c
    { s.chan c with desc := { s.desc c with pos := (s.desc c).pos - w32 ((s.chan c).wave.loop.toNat * (s.desc c).scale) } }
    { s.sb c with wpos := (s.sb c).wpos - (s.chan c).wave.loop } := by
  have h := withChannel_self s c
  rw [State.rewrapped]
  conv_lhs => rw [← h]
  rw [withChannel_chan _ _ hc, withChannel_modDesc _ _ hc, withChannel_modSb _ _ hc]
  rfl

theorem rewrap_rolled (s : State) {c : Nat} (hc : c < 32) :
    (if s.strategy c = .unrolled then rewrap c else pure ()) s = .ok () (s.rolled c) := by
  rw [State.rolled, State.rolledChan, act_ite, rewrap, act_get_bind, act_ite]
  by_cases h : s.goesBack c
  · rw [rolledBack_of_goesBack h]
    obtain ⟨hloop, hsize, hpos, hwpos⟩ := h
    have hst : s.strategy c = .unrolled := strategyOf_unrolled hloop hsize
    rw [if_pos hst, if_pos ⟨hpos, hwpos⟩, act_modify, rewrapped_withChannel s hc]
  · have hself : s.withChannel c { s.chan c with desc := s.desc c } (s.sb c) = s := withChannel_self s c
    rw [rolledBack_of_stays h, hself]
    split
    · next hst =>
      obtain ⟨hloop, hsize⟩ := strategyOf_eq_unrolled hst
      rw [if_neg fun hpast => h ⟨hloop, hsize, hpast⟩, act_pure]
    · rfl

/-! ### A window that the buffer holds (R251, R258 to R260) -/

/-- The buffer with its read cursor at position `start`. -/
def SampleBuf.readAt (b : SampleBuf) (start : Nat) : SampleBuf := { b with ridx := w32 (start - b.wpos.toNat) }

theorem SampleBuf.readAt_wpos (b : SampleBuf) (start : Nat) : (b.readAt start).wpos = b.wpos := rfl

theorem SampleBuf.readAt_size (b : SampleBuf) (start : Nat) : (b.readAt start).size = b.size := rfl

/-- The samples `start` to `last` can be handed to the coprocessor as they stand in the buffer: they are in its window and within its size, the
pointer is not 0, and the lengths of a resident loop fit. -/
structure Channel.Holds (x : Channel) (b : SampleBuf) (start last : Nat) : Prop where
  filled : 0 < b.widx.toNat
  first : b.wpos.toNat ≤ start
  order : start ≤ last
  held : last < b.wpos.toNat + b.widx.toNat
  room : last < b.wpos.toNat + b.size
  pointer : b.preAdjusted x.desc.bps ≠ 0
  lengths : x.wave.loop ≠ 0 → x.wave.loop.toNat + 80 ≤ b.size → x.wave.len.toNat * x.desc.scale < 2 ^ 32

/-- The descriptor's lengths for the channel's strategy, in a buffer of this size (R220). -/
def Channel.withLengths (x : Channel) (size : Nat) : Channel :=
  { x with desc := { x.desc with
      len :=
        if x.wave.loop = 0 then w32 (min (x.wave.len.toNat * x.desc.scale) 0xFFFFFFFF)
        else if x.wave.loop ≠ 0 ∧ x.wave.loop.toNat + 80 ≤ size then w32 (x.wave.len.toNat * x.desc.scale) else 0xFFFFFFFF
      loopLen := if x.wave.loop ≠ 0 ∧ x.wave.loop.toNat + 80 ≤ size then w32 (x.wave.loop.toNat * x.desc.scale) else 0 } }

section
variable {s : State} {c : Nat} {x : Channel} {b : SampleBuf} {start last : Nat} (hc : c < 32) (h : x.Holds b start last)
include hc h

theorem descLengths_held : descLengths c (s.withChannel c x b) = .ok () (s.withChannel c (x.withLengths b.size) b) := by
  rw [descLengths, act_get_bind, withChannel_strategy x b hc, withChannel_chan x b hc, withChannel_desc x b hc]
  by_cases hloop : x.wave.loop = 0
  · rw [strategyOf_noLoop hloop]
    simp only [act_modify, withChannel_modDesc x b hc, Channel.withLengths, hloop]
    rfl
  by_cases hsize : x.wave.loop.toNat + 80 ≤ b.size
  · have hfit : x.wave.len.toNat * x.desc.scale ≤ descLenMax.toNat := Nat.le_of_lt_succ (h.lengths hloop hsize)
    rw [strategyOf_resident hloop hsize]
    simp only [ensure_bind, if_pos hfit, act_modify, withChannel_modDesc x b hc, Channel.withLengths, if_neg hloop,
      if_pos (And.intro hloop hsize)]
  · rw [strategyOf_unrolled hloop (Nat.not_le.mp hsize)]
    simp only [act_modify, withChannel_modDesc x b hc, Channel.withLengths, if_neg hloop, if_neg fun hres => hsize (And.right hres)]
    rfl

theorem sbGetProc_held : sbGetProc c start (last - start + 1) (s.withChannel c x b) =
    .ok (b.idxPtr (start - b.wpos.toNat), last - start + 1) (s.withChannel c x (b.readAt start)) := by
  obtain ⟨hfilled, hfirst, horder, hheld, -, -, -⟩ := h
  have hhit : b.hit start := ⟨hfilled, hfirst, by omega⟩
  have hfull : ¬ b.widx.toNat < start - b.wpos.toNat + (last - start + 1) := by omega
  have hcount : min (last - start + 1) (b.widx.toNat - (start - b.wpos.toNat)) = last - start + 1 := by omega
  have hhits : sbHit c start (last - start + 1) (s.withChannel c x b) =
      .ok () (s.withChannel c x (b.readAt start)) := by
    rw [sbHit, act_get_bind, act_modify_bind, withChannel_sb x b hc, withChannel_modSb x b hc, if_neg hfull, act_pure, SampleBuf.readAt]
  rw [sbGetProc_eq, withChannel_sb x b hc, if_pos hhit, act_bind_ok hhits, readWindow, act_get_bind, act_modify_bind,
    withChannel_sb _ _ hc, withChannel_modSb _ _ hc, act_pure]
  exact congrArg (fun k => EStateM.Result.ok (b.idxPtr (start - b.wpos.toNat), k) _) hcount

theorem getWindow_held : getWindow c start (last - start + 1) (s.withChannel c x b) =
    .ok () (s.withChannel c x (b.readAt start)) := by
  have hget := sbGetProc_held (s := s) hc h
  obtain ⟨-, hfirst, horder, -, hroom, -, -⟩ := h
  have hsize : start - b.wpos.toNat + (last - start + 1) ≤ b.size := by omega
  rw [getWindow, act_bind_ok hget, act_get_bind, withChannel_sb _ _ hc, SampleBuf.readAt_wpos, SampleBuf.readAt_size, ensure_bind, if_pos hsize,
    if_neg (lt_irrefl _), act_pure]

theorem setPtr_held : setPtr c (s.withChannel c x b) =
    .ok () (s.withChannel c { x with desc := { x.desc with ptr := b.preAdjusted x.desc.bps } } b) := by
  rw [setPtr, act_get_bind, withChannel_sb x b hc, withChannel_desc x b hc, ensure_bind, if_pos h.pointer, act_modify,
    withChannel_modDesc x b hc]

end

/-- Channel `x` with its window handed over: its lengths, and the pointer to its buffer. -/
def Channel.fetched (x : Channel) (b : SampleBuf) : Channel :=
  let y := x.withLengths b.size
  { y with desc := { y.desc with ptr := b.preAdjusted x.desc.bps } }

/-- All a window that the buffer holds takes (R251): lengths, read cursor and pointer. -/
theorem fetchWindow_held {s : State} {c : Nat} {x : Channel} {b : SampleBuf} {start last : Nat} (hc : c < 32) (h : x.Holds b start last) :
    fetchWindow c start last (s.withChannel c x b) =
      .ok () (s.withChannel c (x.fetched b) (b.readAt start)) := by
  have hlengths : (x.withLengths b.size).Holds b start last :=
    ⟨h.filled, h.first, h.order, h.held, h.room, h.pointer, h.lengths⟩
  have hmoved : (x.withLengths b.size).Holds (b.readAt start) start last :=
    ⟨h.filled, h.first, h.order, h.held, h.room, h.pointer, h.lengths⟩
  rw [fetchWindow, act_bind_ok (descLengths_held hc h), act_bind_ok (getWindow_held hc hlengths), setPtr_held hc hmoved]
  rfl

/-! ### The window of each strategy (R253, R254, R256) -/

section
variable {s : State} {c n : Nat}

theorem Desc.window_order (d : Desc) (n : Nat) : (d.window n).1 ≤ (d.window n).2 := Nat.div_le_div_right (Nat.le_add_right _ _)

theorem windowOf_noLoop (h : (s.chan c).wave.loop = 0) : s.windowOf c n =
    (((s.rolledBack c).1.window n).1, min ((s.rolledBack c).1.window n).2 ((s.chan c).wave.len.toNat - 1)) := if_pos h

theorem windowOf_loop (h : (s.chan c).wave.loop ≠ 0) (hs : (s.chan c).wave.loop.toNat + 80 ≤ (s.sb c).size)
    (hp : (s.chan c).wave.loopStart ≤ ((s.rolledBack c).1.window n).1) :
    s.windowOf c n = ((s.chan c).wave.loopStart, (s.chan c).wave.len.toNat - 1 + loopOverread) :=
  (if_neg h).trans ((if_pos hs).trans (if_pos hp))

theorem windowOf_beforeLoop (h : (s.chan c).wave.loop ≠ 0) (hs : (s.chan c).wave.loop.toNat + 80 ≤ (s.sb c).size)
    (hp : ¬ (s.chan c).wave.loopStart ≤ ((s.rolledBack c).1.window n).1) : s.windowOf c n =
      (((s.rolledBack c).1.window n).1, min ((s.rolledBack c).1.window n).2 ((s.chan c).wave.len.toNat - 1) + loopOverread) :=
  (if_neg h).trans ((if_pos hs).trans (if_neg hp))

theorem windowOf_unrolled (h : (s.chan c).wave.loop ≠ 0) (hs : ¬ (s.chan c).wave.loop.toNat + 80 ≤ (s.sb c).size) :
    s.windowOf c n = (s.rolledBack c).1.window n := (if_neg h).trans (if_neg hs)

/-- What is due before a channel's window is taken, without the buffer: no fault, and not at the end of a waveform without a loop. -/
structure State.NoFaultDue (s : State) (c n : Nat) : Prop where
  position : ¬ ((s.chan c).wave.loop ≠ 0 ∧ (s.chan c).wave.loop.toNat + 80 ≤ (s.sb c).size) →
    (s.rolledBack c).1.pos.toNat + (s.rolledBack c).1.step.toNat * n < 2 ^ 32
  playing : (s.chan c).wave.loop = 0 → ((s.rolledBack c).1.window n).1 < (s.chan c).wave.len.toNat
  lengths : (s.chan c).wave.loop ≠ 0 ∧ (s.chan c).wave.loop.toNat + 80 ≤ (s.sb c).size →
    (s.chan c).wave.len.toNat * (s.rolledBack c).1.scale < 2 ^ 32
  kept : (s.chan c).wave.loop ≠ 0 ∧ (s.chan c).wave.loop.toNat + 80 ≤ (s.sb c).size →
    (s.chan c).wave.loopStart ≤ ((s.rolledBack c).1.window n).1 → (s.chan c).wave.loopStart < (s.rolledBack c).2.wpos.toNat + 8

theorem windowHeld_noFaultDue (h : s.windowHeld c n) : s.NoFaultDue c n := by
  obtain ⟨hpos, hend, hres, -⟩ := h
  exact ⟨hpos, hend, fun hr => (hres hr).1, fun hr => (hres hr).2⟩

theorem windowOf_order (h : s.NoFaultDue c n) : (s.windowOf c n).1 ≤ (s.windowOf c n).2 := by
  have hpq := (s.rolledBack c).1.window_order n
  by_cases hloop : (s.chan c).wave.loop = 0
  · have hp := h.playing hloop
    rw [windowOf_noLoop hloop]
    simp only
    omega
  by_cases hs : (s.chan c).wave.loop.toNat + 80 ≤ (s.sb c).size
  · by_cases hp : (s.chan c).wave.loopStart ≤ ((s.rolledBack c).1.window n).1
    · rw [windowOf_loop hloop hs hp, Wave.loopStart, loopOverread]
      simp only
      omega
    · rw [windowOf_beforeLoop hloop hs hp]
      rw [Wave.loopStart] at hp
      simp only
      omega
  · rw [windowOf_unrolled hloop hs]
    exact hpq

theorem windowHeld_holds (h : s.windowHeld c n) :
    (s.rolledChan c).Holds (s.rolledBack c).2 (s.windowOf c n).1 (s.windowOf c n).2 := by
  have hdue := windowHeld_noFaultDue h
  obtain ⟨-, -, -, hfilled, hfirst, hheld, hroom, hptr⟩ := h
  exact ⟨hfilled, hfirst, windowOf_order hdue, hheld, hroom, hptr, fun hloop hs => hdue.lengths ⟨hloop, rolledBack_size s c ▸ hs⟩⟩

/-! ### `ExecChannel` of a held window (R251) -/

/-- What `ExecChannel` runs behind the move back and the range check. -/
def strategyWindow (st : Strategy) (c n : Nat) (d : Desc) (w : Wave) : Act Unit :=
  match st with
  | .noLoop => windowNoLoop c (d.window n).1 (d.window n).2 w.len.toNat
  | .resident => windowResident c (d.window n).1 (d.window n).2 w
  | .unrolled => fetchWindow c (d.window n).1 (d.window n).2

/-- `ExecChannel` behind the move back. -/
def execRolled (st : Strategy) (c n : Nat) : Act Unit := do
  let t ← get
  ensure (st = .resident ∨ (t.desc c).pos.toNat + (t.desc c).step.toNat * n ≤ 0xFFFFFFFF) .posOverflow (w32 c)
  strategyWindow st c n (t.desc c) (t.chan c).wave

theorem execChannel_eq (c n : Nat) (s : State) : execChannel c n s =
    ((if s.strategy c = .unrolled then rewrap c else pure ()) >>= fun _ => execRolled (s.strategy c) c n) s := by
  rw [execChannel, act_get_bind]
  split
  · rfl
  · rfl

theorem rolled_desc (hc : c < 32) : (s.rolled c).desc c = (s.rolledBack c).1 := withChannel_desc _ _ hc

theorem rolled_wave (hc : c < 32) : ((s.rolled c).chan c).wave = (s.chan c).wave :=
  (congrArg Channel.wave (withChannel_chan (s.rolledChan c) (s.rolledBack c).2 hc)).trans rfl

theorem rolled_sb (hc : c < 32) : (s.rolled c).sb c = (s.rolledBack c).2 := withChannel_sb _ _ hc

theorem execChannel_rolled (hc : c < 32) (h : s.NoFaultDue c n) :
    execChannel c n s = strategyWindow (s.strategy c) c n (s.rolledBack c).1 (s.chan c).wave (s.rolled c) := by
  have hrange : s.strategy c = .resident ∨ (s.rolledBack c).1.pos.toNat + (s.rolledBack c).1.step.toNat * n ≤ 0xFFFFFFFF := by
    by_cases hres : (s.chan c).wave.loop ≠ 0 ∧ (s.chan c).wave.loop.toNat + 80 ≤ (s.sb c).size
    · exact .inl (strategyOf_resident hres.1 hres.2)
    · exact .inr (Nat.le_of_lt_succ (h.position hres))
  rw [execChannel_eq, act_bind_ok (rewrap_rolled s hc), execRolled, act_get_bind, rolled_desc hc, rolled_wave hc, ensure_bind,
    if_pos hrange]

/-- Less than 8 samples in front of a loop stay in the buffer (R255). -/
theorem dropBeforeLoop_near {t : State} {ls : Nat} (h : ls < (t.sb c).wpos.toNat + 8) : dropBeforeLoop c ls t = .ok () t := by
  rw [dropBeforeLoop, act_get_bind]
  split
  · have hnone : roundDown8 (ls - (t.sb c).wpos.toNat) = 0 := by
      rw [roundDown8]
      omega
    rw [hnone, Nat.add_zero, sbDiscardProc_before le_rfl]
  · rfl

/-- The strategy's window is the one of the statements. -/
theorem strategyWindow_eq (hc : c < 32) (h : s.NoFaultDue c n) :
    strategyWindow (s.strategy c) c n (s.rolledBack c).1 (s.chan c).wave (s.rolled c) =
      fetchWindow c (s.windowOf c n).1 (s.windowOf c n).2 (s.rolled c) := by
  by_cases hloop : (s.chan c).wave.loop = 0
  · have hst : s.strategy c = .noLoop := strategyOf_noLoop hloop
    rw [hst, strategyWindow, windowNoLoop, if_neg (Nat.not_le.mpr (h.playing hloop)), windowOf_noLoop hloop]
  by_cases hs : (s.chan c).wave.loop.toNat + 80 ≤ (s.sb c).size
  · have hst : s.strategy c = .resident := strategyOf_resident hloop hs
    rw [hst, strategyWindow, windowResident]
    by_cases hp : (s.chan c).wave.loopStart ≤ ((s.rolledBack c).1.window n).1
    · have hnear := h.kept ⟨hloop, hs⟩ hp
      rw [← rolled_sb hc] at hnear
      rw [if_pos hp, act_bind_ok (dropBeforeLoop_near hnear), windowOf_loop hloop hs hp]
    · rw [if_neg hp, windowOf_beforeLoop hloop hs hp]
  · have hst : s.strategy c = .unrolled := strategyOf_unrolled hloop (Nat.not_le.mp hs)
    rw [hst, strategyWindow, windowOf_unrolled hloop hs]

/-- All `ExecChannel` does to a channel whose window its buffer holds. -/
theorem execChannel_held (hc : c < 32) (h : s.windowHeld c n) : execChannel c n s =
    .ok () (s.withChannel c ((s.rolledChan c).fetched (s.rolledBack c).2) ((s.rolledBack c).2.readAt (s.windowOf c n).1)) := by
  have hdue := windowHeld_noFaultDue h
  rw [execChannel_rolled hc hdue, strategyWindow_eq hc hdue]
  exact fetchWindow_held hc (windowHeld_holds h)

end

/-! ### The windows of all channels (R250) -/

/-- Channel `c` after `ExecActive`: its window handed over if it is Playing. -/
def State.execChan (s : State) (c : Nat) : Channel :=
  if s.playing c then (s.rolledChan c).fetched (s.rolledBack c).2 else s.chan c

/-- The buffer of channel `c` after `ExecActive`: its read cursor at the window's start if the channel is Playing. -/
def State.execBuf (s : State) (n c : Nat) : SampleBuf :=
  if s.playing c then (s.rolledBack c).2.readAt (s.windowOf c n).1 else s.sb c

/-- The state with the windows of the first `m` channels taken. -/
def State.windowsUpTo (s : State) (n m : Nat) : State :=
  { s with
    sbs := Table.mapBelow s.sbs m fun c _ => s.execBuf n c
    chans := Table.mapBelow s.chans m fun c _ => s.execChan c }

theorem Table.mapBelow_zero {α : Type} (t : Table α) (f : Nat → α → α) : Table.mapBelow t 0 f = t := by
  apply Vector.ext
  intro j hj
  simp [Table.mapBelow]

theorem Table.mapBelow_succ {α : Type} [Inhabited α] (t : Table α) (m : Nat) (g : Nat → α) :
    Table.mapBelow t (m + 1) (fun c _ => g c) = Table.put (Table.mapBelow t m fun c _ => g c) m (g m) := by
  apply Vector.ext
  intro j hj
  simp only [Table.mapBelow, Table.put, Vector.getElem_ofFn, Vector.getElem_setIfInBounds]
  by_cases hjm : m = j
  · subst hjm
    simp
  · simp only [if_neg hjm]
    exact if_congr (by omega) rfl rfl

section
variable (s : State) (n m : Nat)

theorem windowsUpTo_sbs : (s.windowsUpTo n m).sbs = Table.mapBelow s.sbs m fun c _ => s.execBuf n c := rfl

theorem windowsUpTo_chans : (s.windowsUpTo n m).chans = Table.mapBelow s.chans m fun c _ => s.execChan c := rfl

theorem windowsUpTo_zero : s.windowsUpTo n 0 = s := by
  rw [State.windowsUpTo, Table.mapBelow_zero, Table.mapBelow_zero]

theorem windowsUpTo_succ : s.windowsUpTo n (m + 1) = (s.windowsUpTo n m).withChannel m (s.execChan m) (s.execBuf n m) := by
  rw [State.windowsUpTo, Table.mapBelow_succ, Table.mapBelow_succ, State.withChannel, windowsUpTo_sbs, windowsUpTo_chans,
    State.windowsUpTo]

theorem windowsUpTo_chan {c : Nat} (hc : c < 32) :
    (s.windowsUpTo n m).chan c = if c < m then s.execChan c else s.chan c := by
  rw [State.chan, windowsUpTo_chans, Table.at_mapBelow _ _ _ hc, State.chan]

theorem windowsUpTo_sb {c : Nat} (hc : c < 32) :
    (s.windowsUpTo n m).sb c = if c < m then s.execBuf n c else s.sb c := by
  rw [State.sb, windowsUpTo_sbs, Table.at_mapBelow _ _ _ hc, State.sb]

end

/-- There is no channel behind the table, and none Playing. -/
theorem not_playing_outside (s : State) {c : Nat} (hc : 32 ≤ c) : ¬ s.playing c := by
  have hdefault : s.chan c = default := dif_neg (Nat.not_lt.mpr hc)
  rw [State.playing, State.desc, hdefault]
  exact fun h => h rfl

theorem withChannel_outside (s : State) {c : Nat} (hc : 32 ≤ c) (x : Channel) (b : SampleBuf) : s.withChannel c x b = s := by
  rw [State.withChannel, Table.put, Table.put, Vector.setIfInBounds_eq_of_size_le hc, Vector.setIfInBounds_eq_of_size_le hc]

section
variable {s t : State} {c : Nat} (hchan : t.chan c = s.chan c) (hsb : t.sb c = s.sb c)
include hchan hsb

theorem rolledBack_congr : t.rolledBack c = s.rolledBack c := by
  rw [State.rolledBack, State.rolledBack, State.desc, State.desc, hchan, hsb]

theorem windowOf_congr (n : Nat) : t.windowOf c n = s.windowOf c n := by
  simp only [State.windowOf, rolledBack_congr hchan hsb, hchan, hsb]

theorem windowHeld_congr {n : Nat} (h : s.windowHeld c n) : t.windowHeld c n := by
  simp only [State.windowHeld, rolledBack_congr hchan hsb, windowOf_congr hchan hsb, hchan, hsb] at h ⊢
  exact h

/-- What `ExecActive` does to a channel of the table depends on the channel and its buffer alone. -/
theorem execActive_inside {n : Nat} (hc : c < 32) (h : s.playing c → s.windowHeld c n) :
    execActive n c t = .ok () (t.withChannel c (s.execChan c) (s.execBuf n c)) := by
  have hplaying : t.playing c ↔ s.playing c := by rw [State.playing, State.playing, State.desc, State.desc, hchan]
  rw [execActive, act_get_bind, State.execChan, State.execBuf]
  by_cases hp : s.playing c
  · rw [if_pos (hplaying.mpr hp), if_pos hp, if_pos hp, execChannel_held hc (windowHeld_congr hchan hsb (h hp)), State.rolledChan,
      State.rolledChan, rolledBack_congr hchan hsb, windowOf_congr hchan hsb, hchan]
  · rw [if_neg fun ht => hp (hplaying.mp ht), if_neg hp, if_neg hp, ← hchan, ← hsb, withChannel_self, act_pure]

end

/-- All `ExecActive` does to a channel that no earlier pass has touched. -/
theorem execActive_held {s t : State} {n c : Nat} (hchan : c < 32 → t.chan c = s.chan c) (hsb : c < 32 → t.sb c = s.sb c)
    (h : s.playing c → s.windowHeld c n) : execActive n c t = .ok () (t.withChannel c (s.execChan c) (s.execBuf n c)) := by
  by_cases hc : c < 32
  · exact execActive_inside (hchan hc) (hsb hc) hc h
  · rw [withChannel_outside t (Nat.not_lt.mp hc), execActive, act_get_bind, if_neg (not_playing_outside t (Nat.not_lt.mp hc)), act_pure]

/-- The loop over the channels takes the windows of all of them. -/
theorem execActive_loop {s : State} {n : Nat} (m k : Nat) (h : ∀ c < k + m, s.playing c → s.windowHeld c n) :
    forRange k (execActive n) m (s.windowsUpTo n k) = .ok () (s.windowsUpTo n (k + m)) := by
  induction m generalizing k with
  | zero => rfl
  | succ m ih =>
    have hstep : execActive n k (s.windowsUpTo n k) = .ok () (s.windowsUpTo n (k + 1)) := by
      rw [windowsUpTo_succ]
      refine execActive_held (fun hk => ?_) (fun hk => ?_) (h k (by omega))
      · rw [windowsUpTo_chan s n k hk, if_neg (lt_irrefl k)]
      · rw [windowsUpTo_sb s n k hk, if_neg (lt_irrefl k)]
    have hrest := ih (k + 1) fun c hc => h c (by omega)
    rw [Nat.add_right_comm] at hrest
    rw [forRange, act_bind_ok hstep, hrest]
    rfl

/-- The windows of all the engine's channels, as the statements have them. -/
theorem windowsUpTo_windowsTaken (s : State) (n : Nat) : s.windowsTaken (s.windowsUpTo n s.mx.nch.toNat) n := by
  refine ⟨rfl, fun c hc => ?_⟩
  rw [windowsUpTo_chan s n _ hc, windowsUpTo_sb s n _ hc, State.execChan, State.execBuf]
  by_cases hnch : c < s.mx.nch.toNat
  · by_cases hp : (s.chan c).desc.ptr ≠ 0
    · have hplaying : s.playing c := hp
      simp only [if_pos hnch, if_pos hplaying, if_pos (And.intro hnch hp)]
      refine ⟨?_, rfl⟩
      rw [Channel.fetched, rolledBack_size]
      rfl
    · have hidle : ¬ s.playing c := hp
      simp only [if_pos hnch, if_neg hidle, if_neg fun hboth => hp (And.right hboth), and_self]
  · simp only [if_neg hnch, if_neg fun hboth => hnch (And.left hboth), and_self]

/-! ### The hand-off (R263, R264) -/

theorem tryHandoff_busy {s : State} (hq : s.quiet) (h : s.coproc.jobBusy = true) (out n : Nat) :
    tryHandoff out n s = .ok .acquiring s := by
  rw [tryHandoff, act_bind_ok (boundary_quiet hq), act_get_bind, if_pos h, act_pure]

/-- The engine's own job, once started, has ended at the first look at it. -/
theorem awaitJob_quiet {s : State} (hq : s.quiet) (h : s.coproc.engineJob = true) : awaitJob s = .ok true s.runJob.readBack.postCheck := by
  have hended : ¬ s.runJob.coproc.engineJob = true := Bool.false_ne_true
  have hmove : coprocMove s = s.runJob := if_pos h
  rw [awaitJob, act_bind_ok (jobBoundary_quiet hq), hmove, act_get_bind, if_neg hended, act_set_bind, act_pure]

theorem tryHandoff_free {s : State} (hq : s.quiet) (h : s.coproc.jobBusy = false) (out n : Nat) :
    tryHandoff out n s = .ok .over (s.mixed out n) := by
  have hjob : awaitJob (s.acquired.upload out n) = .ok true (s.mixed out n) := awaitJob_quiet (s := s.acquired.upload out n) hq rfl
  rw [tryHandoff, act_bind_ok (boundary_quiet hq), act_get_bind, if_neg (by simp [h]), act_set_bind, act_bind_ok hjob]
  rfl

/-! ### `MX_EXEC` (R104, R250) -/

theorem mxExec_word0 (out n : Word) : (Instr.mxExec out n).word0 = 0x25000000 := by
  show headerWord 0x25 0 0 = 0x25000000
  decide

theorem windowsUpTo_begin (s : State) (i : Instr) (n m : Nat) : (s.begin i).windowsUpTo n m = (s.windowsUpTo n m).begin i := rfl

/-- `MX_EXEC` as a sub-run invokes it, with every window held: the windows, then one try to hand off. -/
theorem mxExecRun_held {s : State} {n : Nat} (h : ∀ c < s.mx.nch.toNat, s.playing c → s.windowHeld c n) (out : Nat) :
    mxExecRun out n s = tryHandoff out n (s.windowsUpTo n s.mx.nch.toNat) := by
  have hloop := execActive_loop (s := s) (n := n) s.mx.nch.toNat 0 (by rw [Nat.zero_add]; exact h)
  rw [windowsUpTo_zero, Nat.zero_add] at hloop
  rw [mxExecRun, act_get_bind, act_bind_ok hloop]

/-- Settles O47: in a sub-run the windows are taken channel by channel and the hand-off follows; outside one the first test refuses. -/
theorem mxExecEffect : Obligations.MxExecEffect := by
  intro s out n hf
  refine ⟨fun hsub hq hheld => ?_, fun hsub => ?_⟩
  · refine ⟨s.windowsUpTo n.toNat s.mx.nch.toNat, windowsUpTo_windowsTaken s n.toNat, ?_⟩
    have hrun : mxExecRun out.toNat n.toNat (s.begin (.mxExec out n)) =
        tryHandoff out.toNat n.toNat ((s.windowsUpTo n.toNat s.mx.nch.toNat).begin (.mxExec out n)) := by
      rw [mxExecRun_held (s := s.begin (.mxExec out n)) hheld, windowsUpTo_begin, State.begin_mx]
    have hsubBegun : (s.begin (.mxExec out n)).mx.subRun = true := hsub
    have hqTaken : ((s.windowsUpTo n.toNat s.mx.nch.toNat).begin (.mxExec out n)).quiet := hq
    rw [exec_eq_command, command_running hf, commandBody, mxExec, act_get_bind, if_pos hsubBegun]
    by_cases hbusy : s.coproc.jobBusy = true
    · rw [if_pos hbusy, act_bind_ok (hrun.trans (tryHandoff_busy hqTaken hbusy _ _))]
      rfl
    · rw [if_neg hbusy, act_bind_ok (hrun.trans (tryHandoff_free hqTaken (Bool.eq_false_of_not_eq_true hbusy) _ _))]
      rfl
  · have hsubBegun : ¬ (s.begin (.mxExec out n)).mx.subRun = true := by
      rw [State.begin_mx, hsub]
      exact Bool.false_ne_true
    refine exec_fatal hf ?_
    rw [commandBody, mxExec, act_get_bind, if_neg hsubBegun, mxExec_word0]
    rfl

end Sys2Proof.Machine
end

section
/-!
SUPPORT. The driver's commands that dispatch (spec/41_ai_driver.md R148, R149, R152): what the dispatch of the statements says of single
regions, the interrupt handler, `AI_SET_FILL_CALLBACK` and `AI_WRITE_END`.
-/

namespace Sys2Proof.Machine

set_option Elab.async false

/-! ### Regions behind a dispatch (R145 to R147) -/

/-- The clauses of a dispatch that say what has become of single regions, with `r` regions filled and `m` queued. -/
structure State.Dispatched (s t : State) (r m : Nat) : Prop where
  filled : r ≤ s.drv.n.toNat
  fills : if s.drv.fillCb = 0 ∨ s.drv.begun = true ∨ s.drv.pushOff ≠ 0 then r = 0
    else r = s.drv.n.toNat ∨ ¬ (s.drv.wrAt r ∈ s.gone ∨ s.drv.state (s.drv.wrAt r) = .free)
  wr : t.drv.wr.toNat = s.drv.wrAt r
  rd : t.drv.rd.toNat = s.drv.rdAt m
  fifo : t.ai.fifo = s.ai.fifo ++ (List.range m).map fun j => s.drv.xfer (s.drv.rdAt j)
  states : ∀ k < 32, t.drv.state k =
    if ∃ j < m, k = s.drv.rdAt j then .queued else if ∃ j < r, k = s.drv.wrAt j then .full
    else if k ∈ s.gone then .free else s.drv.state k
  ends : if s.drv.closing = true then m = 0 else t.ai.fifo.length = 2 ∨ t.drv.state t.drv.rd.toNat ≠ .full

theorem dispatchesTo_dispatched {s t : State} (h : s.dispatchesTo t) : ∃ r m, s.Dispatched t r m := by
  obtain ⟨r, m, hr, -, -, -, hfills, hwr, -, -, -, hrd, -, hfifo, -, hstates, -, -, hends⟩ := h
  exact ⟨r, m, hr, hfills, hwr, hrd, hfifo, hstates, hends⟩

section
variable {s t : State} {r m k : Nat}

/-- A region that is not retired is freed by no dispatch. -/
theorem State.Dispatched.busy (h : s.Dispatched t r m) (hk : k < 32) (hgone : k ∉ s.gone) (hstate : s.drv.state k ≠ .free) :
    t.drv.state k ≠ .free := by
  rw [h.states k hk, if_neg hgone]
  split
  · exact nofun
  · split
    · exact nofun
    · exact hstate

/-- A full region that is not retired is full or queued behind a dispatch. -/
theorem State.Dispatched.full (h : s.Dispatched t r m) (hk : k < 32) (hgone : k ∉ s.gone) (hstate : s.drv.state k = .full) :
    t.drv.state k = .full ∨ t.drv.state k = .queued := by
  rw [h.states k hk, if_neg hgone, hstate, ite_self]
  split
  · exact .inr rfl
  · exact .inl rfl

/-- A region that the dispatch filled is not free behind it. -/
theorem State.Dispatched.refilled (h : s.Dispatched t r m) (hk : k < 32) (hfilled : ∃ j < r, k = s.drv.wrAt j) :
    t.drv.state k ≠ .free := by
  rw [h.states k hk, if_pos hfilled]
  split
  · exact nofun
  · exact nofun

/-- With a callback, and no region half written, a dispatch leaves no free region at the writer's index. -/
theorem State.Dispatched.writer_busy (h : s.Dispatched t r m) (hrange : s.drv.inRange) (hcb : s.drv.fillCb ≠ 0)
    (hbegun : s.drv.begun = false) (hoff : s.drv.pushOff = 0) : t.drv.state t.drv.wr.toNat ≠ .free := by
  have hgo : ¬ (s.drv.fillCb = 0 ∨ s.drv.begun = true ∨ s.drv.pushOff ≠ 0) := by
    rw [hbegun, hoff]
    rintro (h | h | h)
    · exact hcb h
    · cases h
    · exact h rfl
  have hfills := h.fills
  rw [if_neg hgo] at hfills
  have hlt := Driver.wrAt_lt_table hrange r
  rw [h.wr]
  rcases hfills with hround | hstop
  · refine h.refilled hlt ⟨0, hround ▸ hrange.1, ?_⟩
    rw [Driver.wrAt, Driver.wrAt, hround, Nat.add_mod_right, Nat.add_zero]
  · obtain ⟨hgone, hstate⟩ := not_or.mp hstop
    exact h.busy hlt hgone hstate

/-- An idle device takes the full region at the dispatcher's index, unless the driver is being closed. -/
theorem State.Dispatched.queues_head (h : s.Dispatched t r m) (hrange : s.drv.inRange) (hidle : s.ai.fifo = [])
    (hnone : s.drv.inflight = []) (hopen : s.drv.closing = false) (hfull : s.drv.state s.drv.rd.toNat = .full) :
    t.drv.state s.drv.rd.toNat = .queued ∧ t.ai.fifo.head? = some (s.drv.xfer s.drv.rd.toNat) := by
  have hfirst : s.drv.rdAt 0 = s.drv.rd.toNat := Nat.mod_eq_of_lt hrange.2.2.2
  have hlt : s.drv.rd.toNat < 32 := hrange.2.2.2.trans_le hrange.2.1
  have hgone : s.drv.rd.toNat ∉ s.gone := by
    rw [State.gone, hnone, List.take_nil]
    exact List.not_mem_nil
  have hpos : m ≠ 0 := by
    rintro rfl
    have hends := h.ends
    have hstate := h.states _ hlt
    rw [if_neg fun ⟨_, hj, _⟩ => Nat.not_lt_zero _ hj, if_neg hgone, hfull, ite_self] at hstate
    rw [if_neg (by simp [hopen]), h.fifo, hidle, h.rd, hfirst, hstate] at hends
    rcases hends with hlength | hne
    · cases hlength
    · exact hne rfl
  obtain ⟨m, rfl⟩ := Nat.exists_eq_succ_of_ne_zero hpos
  refine ⟨?_, ?_⟩
  · rw [h.states _ hlt, if_pos ⟨0, Nat.succ_pos m, hfirst.symm⟩]
  · rw [h.fifo, hidle, List.range_succ_eq_map, List.nil_append, List.map_cons, List.head?_cons, hfirst]

end

/-! ### The interrupt handler (R148, R343, R344) -/

/-- The dispatch of the statements does not speak of the context, the executing command's name or the depth. -/
theorem dispatchesTo_inContext {s t : State} (h : s.dispatchesTo t) (d : Word) (x : Ctx) (c : CmdId) :
    ({ s with irqDepth := d, ctx := x, cmd := c }).dispatchesTo { t with irqDepth := d, ctx := x, cmd := c } := by
  obtain ⟨r, m, hr, hm, hframe, hrest⟩ := h
  exact ⟨r, m, hr, hm, by rw [hframe], hrest⟩

/-- The device's interrupt is acknowledged. -/
def State.acked (s : State) : State := { s with ai := { s.ai with irq := false } }

/-- The handler of the driver: it acknowledges the device, dispatches one level deeper, and returns to the preempted context. -/
theorem takeAiIrq_driver {s : State} (hq : s.quiet) (hrange : s.drv.inRange) (hd : s.dispatchable)
    (hback : s.drv.fillCb = silenceCb → s.regionsBacked) (he : s.irqEligible) (ho : s.owner = .driver) (hon : s.drv.on = true) :
    ∃ t, takeAiIrq s = .ok () t ∧ s.acked.dispatchesTo t := by
  let entered : State := s.acked.irqEntry
  have hdepth : entered.irqDepth = 0 + 1 := congrArg (· + 1) he.2.1
  obtain ⟨u, hrun, hu⟩ := drvDispatch_quiet (s := entered) hq hrange ⟨hd.1, by rw [hdepth]; decide⟩ hback
  have hack : aiWrite .status 0 s.irqEntry = .ok () entered := rfl
  have hhandler : drvIrq s.irqEntry = .ok () u := by
    rw [drvIrq, act_bind_ok hack, act_get_bind, if_pos (show entered.drv.on = true from hon), hrun]
  have hreturn : u.irqDepth - 1 = s.irqDepth := by
    rw [(dispatchesTo_alike hu).depth, hdepth, he.2.1]
    rfl
  refine ⟨u.irqReturn s.ctx s.cmd, ?_, ?_⟩
  · rw [takeAiIrq, act_get_bind, if_pos he, if_pos ho, interrupt, act_get_bind, act_set_bind, act_bind_ok hhandler, act_modify]
  · rw [State.irqReturn, hreturn]
    exact dispatchesTo_inContext hu s.irqDepth s.ctx s.cmd

/-- Settles O17: the loops of the dispatch one after another, and the handler that runs them. -/
theorem driverDispatch : Obligations.DriverDispatch := fun _ hq hrange hd hback =>
  ⟨drvDispatch_quiet hq hrange hd hback, takeAiIrq_driver hq hrange hd hback⟩

/-! ### A dispatch inside a command -/

/-- What a dispatch inside a command does, seen from outside the command. -/
theorem drvDispatch_begin {s : State} (i : Instr) (hq : s.quiet) (hrange : s.drv.inRange) (hd : s.dispatchable)
    (hback : s.drv.fillCb = silenceCb → s.regionsBacked) :
    ∃ u, drvDispatch (s.begin i) = .ok () (u.begin i) ∧ s.dispatchesTo u := by
  obtain ⟨t, hrun, ht⟩ := drvDispatch_quiet (s := s.begin i) hq hrange hd hback
  obtain ⟨hcmd, hres, hpending⟩ := (dispatchesTo_alike ht).command
  have hbegin : (t.outside s).begin i = t := by
    show ({ t with cmd := (s.begin i).cmd, res := (s.begin i).res, pending := (s.begin i).pending } : State) = t
    rw [← hcmd, ← hres, ← hpending]
  exact ⟨t.outside s, by rw [hbegin, hrun], dispatchesTo_inCommand ht s.cmd s.res s.pending⟩

/-- A critical section around a statement about the driver, the boundary behind it, and a dispatch. -/
theorem modDrv_then_dispatch {s x : State} {i : Instr} {g : Driver → Driver} (hx : { s with drv := g s.drv } = x) (hq : s.quiet)
    (hd : s.dispatchable) (hrange : x.drv.inRange) (hback : x.drv.fillCb = silenceCb → x.regionsBacked) :
    ∃ u, (do critical (modify fun s => s.modDrv g); boundary; drvDispatch : Act Unit) (s.begin i) = .ok () (u.begin i) ∧
      x.dispatchesTo u := by
  subst hx
  obtain ⟨u, hrun, hu⟩ := drvDispatch_begin (s := { s with drv := g s.drv }) i hq hrange hd hback
  have hsection : critical (modify fun s => s.modDrv g) (s.begin i) = .ok () (({ s with drv := g s.drv } : State).begin i) :=
    critical_modify (s := s.begin i) hd.2 rfl
  have hboundary : boundary (({ s with drv := g s.drv } : State).begin i) = .ok () _ := boundary_quiet hq
  exact ⟨u, by rw [act_bind_ok hsection, act_bind_ok hboundary, hrun], hu⟩

/-! ### `AI_SET_FILL_CALLBACK` (R149) -/

/-- The callback is registered, or saved while the driver is paused. -/
def Driver.withCallback (d : Driver) (cb : Word) : Driver :=
  if d.paused then { d with savedCb := cb } else { d with fillCb := cb }

theorem Driver.withCallback_eq (d : Driver) (cb : Word) : d.withCallback cb = { d with
    fillCb := if d.paused = true then d.fillCb else cb, savedCb := if d.paused = true then cb else d.savedCb } := by
  unfold Driver.withCallback
  split
  · rfl
  · rfl

/-- Settles O20: behind its checks the command is one critical section and a dispatch. -/
theorem aiSetFillCallbackEffect : Obligations.AiSetFillCallbackEffect := by
  intro s cb set_ hrun hon hcb hq hd hrange hback
  obtain ⟨u, hbody, hu⟩ := modDrv_then_dispatch (i := .aiSetFillCallback cb) (x := set_)
    (g := fun d => d.withCallback cb) (by rw [Driver.withCallback_eq]) hq hd hrange hback
  refine ⟨u, ?_, hu, fun hne hpaused hbegun hoff => ?_⟩
  · refine command_replyNone (t := u.begin (.aiSetFillCallback cb)) hrun.1 ?_
    rw [aiSetFillCallback, act_bind_ok (drvOn_begin hrun hon), ensure_bind, if_pos hcb]
    exact hbody
  · obtain ⟨r, m, hdispatched⟩ := dispatchesTo_dispatched hu
    refine hdispatched.writer_busy hrange ?_ hbegun hoff
    show (if s.drv.paused = true then s.drv.fillCb else cb) ≠ 0
    rw [hpaused]
    exact hne

/-! ### `AI_WRITE_END` (R152) -/

theorem regionDone_inRange {d : Driver} (h : d.inRange) : d.regionDone.inRange := by
  have hnext : (d.wr.toNat + 1) % d.n.toNat < d.n.toNat := Nat.mod_lt _ h.1
  exact ⟨h.1, h.2.1, (w32_toNat_of_lt (hnext.trans d.n.isLt)).trans_lt hnext, h.2.2.2⟩

/-- Settles O22: behind its check the command is one critical section and a dispatch, and the region it gives away is full before it. -/
theorem aiWriteEndEffect : Obligations.AiWriteEndEffect := by
  intro s hrun hon hbegun hq hd hrange hback
  let done : State := { s with drv := { s.drv.regionDone with pushOff := s.drv.pushOff } }
  have hrange' : done.drv.inRange := regionDone_inRange hrange
  have hwr : s.drv.wr.toNat < 32 := hrange.2.2.1.trans_le hrange.2.1
  have hfull : done.drv.state s.drv.wr.toNat = .full := Table.at_put_same _ _ hwr
  obtain ⟨u, hbody, hu⟩ := modDrv_then_dispatch (i := .aiWriteEnd) (s := s) (x := done)
    (g := fun d => { d.fillDone d.wr.toNat with begun := false }) rfl hq hd hrange' hback
  obtain ⟨r, m, h⟩ := dispatchesTo_dispatched hu
  refine ⟨u, ?_, hu, fun hout => ?_, fun hnocb => ?_, fun hidle hnone hrd hopen => ?_⟩
  · refine command_replyNone (t := u.begin .aiWriteEnd) hrun.1 ?_
    rw [aiWriteEnd, act_bind_ok (checkIssuer_begin hrun), act_get_bind, ensureState_bind, if_pos ⟨hon, hbegun⟩]
    exact hbody
  · exact h.full hwr (fun hgone => hout (List.mem_of_mem_take hgone)) hfull
  · have hnofill : r = 0 := (if_pos (.inl hnocb)).mp h.fills
    rw [h.wr, hnofill, Driver.wrAt, Nat.add_zero, Nat.mod_eq_of_lt hrange'.2.2.1]
    exact w32_toNat_of_lt ((Nat.mod_lt _ hrange.1).trans s.drv.n.isLt)
  · rw [← hrd] at hfull ⊢
    exact h.queues_head hrange' hidle hnone hopen hfull

end Sys2Proof.Machine
end

section
/-!
SUPPORT. The writer's commands, and the driver's two settings, in an environment that does nothing meanwhile (spec/41_ai_driver.md R151 to
R157): a free region, a taken one, silence, the flush, pause and frequency.
-/

namespace Sys2Proof.Machine

set_option Elab.async false

/-! ### `AI_WRITE_BEGIN` on a free region (R151) -/

/-- Behind its checks the command is one pass of its spin. -/
theorem exec_aiWriteBegin {s : State} (hrun : s.mayRun .aiWriteBegin) (hon : s.drv.on = true) (hbegun : s.drv.begun = false)
    (hoff : s.drv.pushOff = 0) : exec .aiWriteBegin s = settle (aiWriteBeginSpin (s.begin .aiWriteBegin)) := by
  refine (command_running hrun.1).trans (congrArg settle ?_)
  rw [aiWriteBegin, act_bind_ok (checkIssuer_begin hrun), act_get_bind, ensureState_bind, if_pos ⟨hon, hbegun, hoff⟩]

theorem handOut_quiet {s : State} (hq : s.quiet) (hfree : s.drv.writable) :
    handOut s = .ok (.done [s.drv.addr s.drv.wr.toNat]) (s.modDrv Driver.handedOut) := by
  rw [handOut, act_bind_ok (boundary_quiet hq), act_get_bind, if_pos hfree, act_modify_bind, act_pure]

/-- Settles O21: the spin finds the region free at its first look. -/
theorem aiWriteBeginEffect : Obligations.AiWriteBeginEffect := by
  intro s hrun hon hbegun hoff hq hfree
  have hwritable : (s.begin .aiWriteBegin).drv.writable := hfree
  rw [exec_aiWriteBegin hrun hon hbegun hoff, aiWriteBeginSpin, act_get_bind, if_pos hwritable,
    handOut_quiet (begin_quiet hq _) hwritable]
  rfl

/-! ### A writer that finds the device full and the region taken (R151, R153) -/

/-- With the device full, a dispatch that finds the writer's region taken does nothing. -/
theorem drvDispatch_full {s : State} (hq : s.quiet) (hdepth : s.irqDepth ≠ 0xFFFFFFFF) (hfull : s.ai.fifo.length = 2)
    (hinflight : s.drv.inflight.length ≤ 2) (hbusy : ¬ s.drv.writable) : drvDispatch s = .ok () s := by
  have hstatus : s.ai.full = true := by rw [AiDevice.full, hfull]; rfl
  refine drvDispatch_idle hq ⟨hfull.le, hdepth⟩ (hfull ▸ hinflight) (fun hfill => hbusy hfill.2.1) fun ⟨hroom, _⟩ => ?_
  rw [hstatus] at hroom
  cases hroom

/-- One pass of the spin whose dispatch does not free the region. -/
theorem aiWriteBeginSpin_busy {s : State} (hq : s.quiet) (hbusy : ¬ s.drv.writable) (hidle : drvDispatch s = .ok () s) :
    aiWriteBeginSpin s = .ok (.wait .writeBegin) s := by
  rw [aiWriteBeginSpin, act_get_bind, if_neg hbusy, act_bind_ok hidle, act_bind_ok (boundary_quiet hq), act_get_bind, if_neg hbusy,
    act_pure]

/-- Settles O25: each of the three dispatches once, in vain. -/
theorem busyRegionBlocksWriter : Obligations.BusyRegionBlocksWriter := by
  intro s src n hf hctx hon hbegun hoff hq hdepth hfull hinflight hn hbusy
  have hmay : ∀ i : Instr, i.opcode.toNat < 0x10 → s.mayRun i := fun _ hop => ⟨hf, issuerAllows_host hctx (.inl hop)⟩
  have hidle : ∀ i, drvDispatch (s.begin i) = .ok () (s.begin i) := fun i =>
    drvDispatch_full (begin_quiet hq i) hdepth hfull hinflight hbusy
  have hpos : 0 < n.toNat := Nat.pos_of_ne_zero fun h0 => hn (BitVec.eq_of_toNat_eq h0)
  have hpush : ∀ blocking, exec (.aiPush blocking src n) s = .next (if blocking = true then
      (s.begin (.aiPush true src n)).waiting (.push true src.toNat n.toNat 0) else s.finish [0]) := fun blocking => by
    rw [exec_aiPush (hmay _ (show 0x06 < 0x10 by decide)) hon hbegun hn, show stepPasses = 255 + 1 from rfl,
      pushLoop_busy hpos (begin_quiet hq _) hoff hbusy (hidle _)]
    cases blocking with
    | true => rfl
    | false => rfl
  refine ⟨hpush false, hpush true, ?_⟩
  rw [exec_aiWriteBegin (hmay _ (show 0x04 < 0x10 by decide)) hon hbegun hoff,
    aiWriteBeginSpin_busy (begin_quiet hq _) hbusy (hidle _), settle_wait]

/-! ### `AI_PUSH` of silence (R153, R154) -/

/-- The flush form, behind its checks. -/
theorem exec_flush {s t : State} {blocking : Bool} (hrun : s.mayRun (.aiPush blocking 0 0)) (hon : s.drv.on = true)
    (hbegun : s.drv.begun = false) (h : drvFlush (s.begin (.aiPush blocking 0 0)) = .ok () t) :
    exec (.aiPush blocking 0 0) s = .next (t.finish [0]) := by
  refine (command_running hrun.1).trans ?_
  rw [aiPush, act_bind_ok (checkIssuer_begin hrun), act_get_bind, ensureState_bind, if_pos ⟨hon, hbegun⟩, if_pos ⟨rfl, rfl⟩,
    act_bind_ok h, act_pure, settle_done]

/-- A flush with no leftover. -/
theorem drvFlush_empty {s : State} (hoff : s.drv.pushOff = 0) : drvFlush s = .ok () s := by
  rw [drvFlush, act_get_bind, if_pos hoff, act_pure]

/-- What a flush zeroes: the frames of the writer's region behind the leftover. -/
def Driver.restBytes (d : Driver) : Nat := 4 * (d.q.toNat - d.pushOff.toNat)

/-- A flush with a leftover zeroes the rest of the region and gives the region to the dispatcher. -/
theorem drvFlush_leftover {s : State} (hq : s.quiet) (hoff : s.drv.pushOff ≠ 0) (hd : s.dispatchable) (hrange : s.drv.inRange)
    (hback : s.regionsBacked) (hfits : s.drv.pushOff.toNat ≤ s.drv.q.toNat) :
    ∃ w u, s.storedAs w s.drv.pushTarget s.drv.restBytes (fun _ => 0) ∧
      ({ w with drv := { s.drv.fillDone s.drv.wr.toNat with pushOff := 0 } }).dispatchesTo u ∧ drvFlush s = .ok () u := by
  have hregion := hback _ (List.mem_range.mpr hrange.2.2.1)
  have hbytes : 4 * s.drv.q.toNat - 4 * s.drv.pushOff.toNat = s.drv.restBytes := (Nat.mul_sub 4 _ _).symm
  obtain ⟨w, hzero, hframe, hread⟩ := zeroBytes_quiet (dst := s.drv.pushTarget) (n := s.drv.restBytes) hq
    (by unfold Driver.restBytes Driver.pushTarget; omega)
  have hdrv : w.drv = s.drv := by rw [hframe]
  have hqw : w.quiet := by rw [hframe]; exact hq
  have hdw : w.dispatchable := by rw [hframe]; exact hd
  have hbackw : w.regionsBacked := by rw [hframe]; exact hback
  obtain ⟨u, hcommit, hu⟩ := pushCommit_quiet (k := s.drv.wr.toNat) hqw (hdrv ▸ hrange) hdw hbackw
  refine ⟨w, u, ⟨hframe, hread⟩, hdrv ▸ hu, ?_⟩
  rw [drvFlush, act_get_bind, if_neg hoff, act_bind_ok (boundary_quiet hq)]
  show (zeroBytes s.drv.pushTarget (4 * s.drv.q.toNat - 4 * s.drv.pushOff.toNat) >>= fun _ => pushCommit s.drv.wr.toNat) s = _
  rw [hbytes, act_bind_ok hzero, hcommit]

/-- A store inside a command, seen from outside the command. -/
theorem storedAs_outside {s w : State} {i : Instr} {dst n : Nat} {f : Nat → Byte} (h : (s.begin i).storedAs w dst n f) :
    s.storedAs (w.outside s) dst n f := by
  obtain ⟨hframe, hread⟩ := h
  exact ⟨by rw [hframe]; rfl, hread⟩

/-- Settles O23: silence is a source that no pass overwrites, and the flush is one pass to the region's end. -/
theorem aiPushSilence : Obligations.AiPushSilence := by
  intro s blocking n hrun
  refine ⟨fun hready hn hdst => ?_, fun hn hon hbegun hoff => ?_, fun hn hready hoff hd hrange hback => ?_⟩
  · obtain ⟨w, hpass, hstored⟩ := firstPass_quiet hrun hready hn hdst (absurd rfl) (absurd rfl)
    exact hpass.pushesTo hstored (absurd rfl)
  · subst hn
    exact exec_flush (t := s.begin (.aiPush blocking 0 0)) hrun hon hbegun (drvFlush_empty hoff)
  · subst hn
    obtain ⟨hon, hbegun, -, hq, hfits⟩ := hready
    obtain ⟨w, u, hstored, hu, hflush⟩ := drvFlush_leftover (s := s.begin (.aiPush blocking 0 0)) hq hoff hd hrange hback hfits.le
    have hdone : ({ s.drv.fillDone s.drv.wr.toNat with pushOff := 0 } : Driver) = s.drv.regionDone := by
      show _ = ({ s.drv with st := _, wr := _, begun := false, pushOff := 0 } : Driver)
      rw [← hbegun]
      rfl
    refine ⟨w.outside s, u.outside s, storedAs_outside hstored, ?_, exec_flush (t := u) hrun hon hbegun hflush⟩
    rw [← hdone]
    exact dispatchesTo_inCommand hu s.cmd s.res s.pending

/-! ### `AI_PAUSE` and `AI_GET_FREQUENCY` (R155, R157) -/

/-- What the swap does, in the order of the statement's cases. -/
theorem Driver.pauseSwap_eq (d : Driver) (pause : Bool) : d.pauseSwap pause =
    if pause = d.paused then d
    else if pause = true then { d with savedCb := d.fillCb, fillCb := 0xFFFFFFFF, paused := true }
    else { d with fillCb := d.savedCb, savedCb := 0, paused := false } := by
  unfold Driver.pauseSwap
  cases pause with
  | true => cases h : d.paused <;> simp [silenceCb]
  | false => cases h : d.paused <;> simp

theorem aiPause_ok {s : State} {pause : Bool} (hrun : s.mayRun (.aiPause pause)) (hon : s.drv.on = true)
    (hdepth : s.irqDepth ≠ 0xFFFFFFFF) :
    exec (.aiPause pause) s = .next (({ s with drv := s.drv.pauseSwap pause }).finish []) := by
  refine command_replyNone (t := ({ s with drv := s.drv.pauseSwap pause }).begin (.aiPause pause)) hrun.1 ?_
  rw [aiPause, act_bind_ok (drvOn_begin hrun hon)]
  exact critical_modify (s := s.begin (.aiPause pause)) hdepth rfl

theorem aiPause_deepest {s : State} {pause : Bool} (hrun : s.mayRun (.aiPause pause)) (hon : s.drv.on = true)
    (hdepth : s.irqDepth = 0xFFFFFFFF) :
    exec (.aiPause pause) s = .next ((s.begin (.aiPause pause)).enterFaulted .irqUnbalanced 0) := by
  refine command_replyNone_fatal hrun.1 ?_
  rw [aiPause, act_bind_ok (drvOn_begin hrun hon)]
  exact critical_deepest (s := s.begin (.aiPause pause)) hdepth

theorem aiGetFrequency_ok {s : State} (hrun : s.mayRun .aiGetFrequency) (hon : s.drv.on = true) :
    exec .aiGetFrequency s = .next (s.finish [s.drv.freq]) := by
  refine command_reply (t := s.begin .aiGetFrequency) hrun.1 ?_
  rw [aiGetFrequency, act_bind_ok (drvOn_begin hrun hon), act_get_bind, act_pure]
  rfl

/-- A driver command of a driver that is off (R159). -/
theorem exec_driver_off {i : Instr} {s : State} (hrun : s.mayRun i) (hop : 0x02 ≤ i.opcode.toNat ∧ i.opcode.toNat ≤ 0x08)
    (hoff : s.drv.on = false) : exec i s = .next (badState i s) := exec_fatal hrun.1 (driver_off hrun hop hoff)

/-- Settles O26: the driver's check, the entry of the critical section, and the swap decide the outcome in turn. -/
theorem aiPauseAndFrequency : Obligations.AiPauseAndFrequency := by
  refine fun s => ⟨fun pause hrun => ?_, fun hrun => ?_⟩
  · cases hon : s.drv.on with
    | false => exact exec_driver_off hrun (show 0x02 ≤ 0x07 ∧ 0x07 ≤ 0x08 by decide) hon
    | true =>
      rw [if_neg nofun]
      by_cases hdepth : s.irqDepth = 0xFFFFFFFF
      · rw [if_pos hdepth, aiPause_deepest hrun hon hdepth]
      · rw [if_neg hdepth, aiPause_ok hrun hon hdepth, Driver.pauseSwap_eq]
        split
        · rfl
        · split
          · rfl
          · rfl
  · cases hon : s.drv.on with
    | false => exact exec_driver_off hrun (show 0x02 ≤ 0x08 ∧ 0x08 ≤ 0x08 by decide) hon
    | true =>
      rw [if_neg nofun]
      exact aiGetFrequency_ok hrun hon

end Sys2Proof.Machine
end

section
/-!
SUPPORT. `AI_CLOSE` (spec/41_ai_driver.md R158): its end once the device has drained, and, in any environment, that a dispatch under way
meanwhile queues nothing.
-/

namespace Sys2Proof.Machine

set_option Elab.async false

/-! ### Properties that need no more than the driver and the device -/

/-- A property that raising, the depth of the critical section and the environment's choices do not disturb. -/
structure Steady (I : State → Prop) : Prop where
  fault : ∀ s c v, I s → I (s.enterFaulted c v)
  depth : ∀ s d, I s → I { s with irqDepth := d }
  choice : ∀ s o, I s → I { s with oracle := o }

section
variable {I : State → Prop} {α : Type}

/-- A computation that reads the state and keeps the property whatever it read. -/
theorem keeps_read {f : State → Act α} (h : ∀ s, Keeps I (f s)) : Keeps I ((get : Act State) >>= f) :=
  keeps_get_bind fun s hs => h s s hs

/-- A computation that begins with an update of the state it reads. -/
theorem keeps_read_set {g : State → State} {f : State → PUnit → Act α} (hg : ∀ s, I s → I (g s))
    (hf : ∀ s a, Keeps I (f s a)) : Keeps I ((get : Act State) >>= fun s => (set (g s) : Act PUnit) >>= f s) :=
  fun s hs => hf s ⟨⟩ (g s) (hg s hs)

theorem keeps_disableIrq (hI : Steady I) : Keeps I disableIrq :=
  keeps_read fun _ => keeps_bind (keeps_ensure hI.fault _ _ _) fun _ => keeps_modify fun s hs => hI.depth s _ hs

theorem keeps_enableIrq (hI : Steady I) : Keeps I enableIrq :=
  keeps_read fun _ => keeps_bind (keeps_ensure hI.fault _ _ _) fun _ => keeps_modify fun s hs => hI.depth s _ hs

theorem keeps_critical (hI : Steady I) {body : Act Unit} (h : Keeps I body) : Keeps I (critical body) :=
  keeps_bind (keeps_disableIrq hI) fun _ => keeps_bind h fun _ => keeps_enableIrq hI

end

/-! ### The end of `AI_CLOSE` (R158) -/

theorem hwCount_eq_zero {d : AiDevice} : d.hwCount = 0 ↔ d.fifo = [] := by
  unfold AiDevice.hwCount
  constructor
  · intro h
    by_contra hne
    have hbusy : d.busy = true := decide_eq_true (List.length_pos_iff.mpr hne)
    rw [hbusy, if_pos rfl] at h
    split at h
    · cases h
    · cases h
  · intro h
    rw [AiDevice.full, AiDevice.busy, h]
    rfl

/-- The regions from `start` on return to the allocator, in order. -/
theorem freeRegions_apply (n start : Nat) (s : State) :
    forRange start (fun k => do let s ← get; freeRegion (s.drv.addr k)) n s = .ok () { s with
      allocs := (List.range' start n).foldl (fun r k => r.eraseP fun c => c.1 == (s.drv.addr k).toNat) s.allocs } := by
  induction n generalizing start s with
  | zero => rfl
  | succ n ih =>
    have hfirst : (do let s ← get; freeRegion (s.drv.addr start) : Act Unit) s =
        .ok () { s with allocs := s.allocs.eraseP fun c => c.1 == (s.drv.addr start).toNat } := rfl
    rw [forRange, act_bind_ok hfirst, ih, List.range'_succ, List.foldl_cons]

/-- The driver is off, its regions are the allocator's again, the device is stopped and has no owner. -/
def State.aiClosed (s : State) : State := { s with
  owner := .none, drv := { s.drv with on := false, closing := false }, ai := { s.ai with dmaEn := false }
  allocs := (List.range s.drv.n.toNat).foldl (fun r k => r.eraseP fun c => c.1 == (s.drv.addr k).toNat) s.allocs }

theorem aiCloseWait_drained {s : State} (h : s.ai.fifo = []) : aiCloseWait s = .ok (.done []) s.aiClosed := by
  have hstop : aiWrite .control 0 s = .ok () { s with ai := { s.ai with dmaEn := false } } := rfl
  rw [aiCloseWait, act_get_bind, if_pos (hwCount_eq_zero.mpr h), act_bind_ok hstop, act_bind_ok (freeRegions_apply _ _ _), act_modify_bind,
    act_pure, State.aiClosed, List.range_eq_range']
  rfl

theorem aiCloseWait_busy {s : State} (h : s.ai.fifo ≠ []) : aiCloseWait s = .ok (.wait .aiClose) s := by
  rw [aiCloseWait, act_get_bind, if_neg fun h0 => h (hwCount_eq_zero.mp h0), act_pure]

/-- The callbacks are dropped, and nothing more is committed. -/
def State.closeBegun (s : State) : State := { s with drv := { s.drv with fillCb := 0, savedCb := 0, closing := true } }

/-- Behind its check the command drops the callbacks and looks at the device once. -/
theorem exec_aiClose {s : State} (hrun : s.mayRun .aiClose) (hon : s.drv.on = true) (hq : s.quiet) (hdepth : s.irqDepth ≠ 0xFFFFFFFF) :
    exec .aiClose s = settle (aiCloseWait (s.closeBegun.begin .aiClose)) := by
  have hsection : critical (modify fun s => s.modDrv fun d => { d with fillCb := 0, savedCb := 0, closing := true })
      (s.begin .aiClose) = .ok () (s.closeBegun.begin .aiClose) := critical_modify (s := s.begin .aiClose) hdepth rfl
  have hboundary : boundary (s.closeBegun.begin .aiClose) = .ok () (s.closeBegun.begin .aiClose) := boundary_quiet hq
  refine (command_running hrun.1).trans (congrArg settle ?_)
  rw [aiClose, act_bind_ok (drvOn_begin hrun hon), act_bind_ok hsection, act_bind_ok hboundary]

/-! ### A dispatch while `AI_CLOSE` is under way -/

/-- `AI_CLOSE` is under way, and of the queue `f` the device has lost no transfer but the first ones, and gained none. -/
def State.drainsFrom (f : List Xfer) (s : State) : Prop := s.drv.closing = true ∧ ∃ k, s.ai.fifo = f.drop k

section
variable {f : List Xfer}

theorem steady_drainsFrom : Steady (State.drainsFrom f) where
  fault _ _ _ h := h
  depth _ _ h := h
  choice _ _ h := h

theorem drainsFrom_foldl {α : Type} {g : State → α → State} (hg : ∀ s a, s.drainsFrom f → (g s a).drainsFrom f) (xs : List α)
    {s : State} (h : s.drainsFrom f) : (xs.foldl g s).drainsFrom f :=
  List.foldlRecOn xs g h fun t ht a _ => hg t a ht

/-- A drain takes the head of the queue. -/
theorem drainsFrom_aiDmaMove {s : State} (h : s.drainsFrom f) : (aiDmaMove s).drainsFrom f := by
  unfold aiDmaMove
  split
  · split
    · exact h
    · next x rest hfifo =>
      obtain ⟨hclosing, k, hk⟩ := h
      refine ⟨hclosing, k + 1, ?_⟩
      rw [← List.tail_drop, ← hk, hfifo]
      rfl
  · exact h

theorem drainsFrom_deviceMove (a : Agent) {s : State} (h : s.drainsFrom f) : (deviceMove a s).drainsFrom f := by
  cases a with
  | host => exact h
  | irq => exact h
  | aiDma => exact drainsFrom_aiDmaMove h
  | coproc =>
    show (if _ then _ else _ : State).drainsFrom f
    split
    · exact h
    · exact h
  | clientStart =>
    show (clientStart s).drainsFrom f
    rcases clientStart_cases s with hsame | ⟨-, o, hheld⟩
    · rw [hsame]
      exact h
    · rw [hheld]
      exact h
  | clientDone ws =>
    show (if _ then _ else _ : State).drainsFrom f
    split
    · refine drainsFrom_foldl (fun s c hs => ?_) ws h
      unfold clientWrite
      split
      · exact hs
      · exact hs
    · exact h

theorem deviceBoundary_drainsFrom : Keeps (State.drainsFrom f) deviceBoundary := by
  obtain ⟨-, hmoves, -⟩ := keeps_draws (I := State.drainsFrom f) steady_drainsFrom.choice
  exact keeps_bind hmoves fun _ => keeps_forList fun a => keeps_modify fun _ h => drainsFrom_deviceMove a h

/-! Host code in a fill callback writes memory and issues no command. -/

theorem hostAccess_drainsFrom (a : HostAct) : Keeps (State.drainsFrom f) (hostAccess a) := by
  intro s h
  cases a with
  | issue p => exact h
  | write cached w a v =>
    show Ends _ (if _ then _ else _)
    split
    · cases cached with
      | true => exact h
      | false => exact h
    · exact h
  | read cached w a =>
    show Ends _ (if _ then _ else _)
    split
    · exact h
    · exact h
  | writeback a n => exact drainsFrom_foldl (g := fun t (c : Host.Cell) => t.cpuPut c.1 [c.2]) (fun _ _ hs => hs) _ h
  | invalidate a n => exact h

theorem refusePacket_drainsFrom (p : Packet) : Keeps (State.drainsFrom f) (refusePacket p) := by
  have hbadState : Keeps (State.drainsFrom f) (raiseBadState : Act Unit) := fun s => steady_drainsFrom.fault s _ _
  have hraise : ∀ c v, Keeps (State.drainsFrom f) (raise c v : Act Unit) := keeps_raise steady_drainsFrom.fault
  refine keeps_read_set (fun _ h => h) fun s _ => ?_
  split
  · exact keeps_ite (hraise _ _) hbadState
  · exact hraise _ _
  · exact hbadState
  · exact hraise _ _
  · exact hraise _ _

theorem fillActs_drainsFrom (acts : List HostAct) : Keeps (State.drainsFrom f) (runActs refusePacket deviceBoundary acts) := by
  induction acts with
  | nil => exact keeps_pure ()
  | cons a acts ih =>
    have rest : Keeps (State.drainsFrom f) (do deviceBoundary; runActs refusePacket deviceBoundary acts) :=
      keeps_bind deviceBoundary_drainsFrom fun _ => ih
    cases a with
    | issue p => exact keeps_bind (refusePacket_drainsFrom p) fun _ => rest
    | write cached w a v => exact keeps_bind (hostAccess_drainsFrom _) fun _ => rest
    | read cached w a => exact keeps_bind (hostAccess_drainsFrom _) fun _ => rest
    | writeback a n => exact keeps_bind (hostAccess_drainsFrom _) fun _ => rest
    | invalidate a n => exact keeps_bind (hostAccess_drainsFrom _) fun _ => rest

theorem fillCall_drainsFrom (fn : Word) (args : List Nat) :
    Keeps (State.drainsFrom f) (callHost refusePacket deviceBoundary .fill fn args) := by
  obtain ⟨-, -, hrun, -⟩ := keeps_draws (I := State.drainsFrom f) steady_drainsFrom.choice
  refine keeps_read_set (fun _ h => h) fun s _ => keeps_bind hrun fun run => keeps_bind (fillActs_drainsFrom run.acts) fun _ => ?_
  cases run.ret with
  | none => exact keeps_stick
  | some r =>
    exact keeps_read fun _ => keeps_bind (keeps_ensure steady_drainsFrom.fault _ _ _) fun _ =>
      keeps_bind (keeps_modify fun _ ht => ht) fun _ => keeps_pure r

theorem fillRegion_drainsFrom : Keeps (State.drainsFrom f) fillRegion := by
  refine keeps_read fun s => keeps_ite (fun t ht => ?_) (keeps_bind (fillCall_drainsFrom _ _) fun _ => keeps_pure ())
  unfold blockZero
  split
  · exact ht
  · exact ht

/-! The dispatch's three loops: the first two touch neither the queue nor the field that says that `AI_CLOSE` is under way, and the third
does nothing because of that field. -/

theorem drvRetireLoop_drainsFrom (fuel : Nat) : Keeps (State.drainsFrom f) (drvRetireLoop fuel) := by
  induction fuel with
  | zero => exact keeps_pure ()
  | succ fuel ih =>
    refine keeps_bind deviceBoundary_drainsFrom fun _ => keeps_read fun s =>
      keeps_ite (keeps_bind (keeps_modify fun t ht => ?_) fun _ => ih) (keeps_pure ())
    have hclosing : t.drv.retireHead.closing = t.drv.closing := by
      unfold Driver.retireHead
      split
      · rfl
      · rfl
    exact ⟨hclosing.trans ht.1, ht.2⟩

theorem drvRefillLoop_drainsFrom (fuel : Nat) : Keeps (State.drainsFrom f) (drvRefillLoop fuel) := by
  induction fuel with
  | zero => exact keeps_pure ()
  | succ fuel ih =>
    exact keeps_read fun s => keeps_ite
      (keeps_bind fillRegion_drainsFrom fun _ => keeps_bind (keeps_modify fun _ ht => ht) fun _ => ih) (keeps_pure ())

theorem drvCommitLoop_drainsFrom (fuel : Nat) : Keeps (State.drainsFrom f) (drvCommitLoop fuel) := by
  cases fuel with
  | zero => exact keeps_pure ()
  | succ fuel =>
    refine keeps_bind deviceBoundary_drainsFrom fun _ => keeps_get_bind fun s hs => ?_
    have hstays : ¬ s.mayCommit := fun ⟨_, _, _, hopen⟩ => by
      rw [hs.1] at hopen
      cases hopen
    rw [if_neg hstays]
    exact hs

theorem drvDispatch_drainsFrom : Keeps (State.drainsFrom f) drvDispatch :=
  keeps_critical steady_drainsFrom (keeps_bind (keeps_read fun _ => drvRetireLoop_drainsFrom _) fun _ =>
    keeps_bind (drvRefillLoop_drainsFrom _) fun _ => drvCommitLoop_drainsFrom _)

end

/-- Settles O19: the callbacks are dropped, the command ends or waits by the device's queue, and no dispatch adds to that queue. -/
theorem aiCloseEffect : Obligations.AiCloseEffect := by
  intro s hrun hon hq hdepth closed dropped
  refine ⟨fun hidle => ?_, fun hbusy => ?_, fun u => ⟨aiCloseWait_drained, aiCloseWait_busy⟩, fun u t hclosing hrun => ?_⟩
  · rw [exec_aiClose hrun hon hq hdepth, aiCloseWait_drained (s := s.closeBegun.begin .aiClose) hidle]
    rfl
  · rw [exec_aiClose hrun hon hq hdepth, aiCloseWait_busy (s := s.closeBegun.begin .aiClose) hbusy]
    rfl
  · have hends := drvDispatch_drainsFrom (f := u.ai.fifo) u ⟨hclosing, 0, rfl⟩
    rw [hrun] at hends
    exact hends.2

end Sys2Proof.Machine
end

section
/-!
SUPPORT. The commands that only set or read (spec/41_ai_driver.md R155, R157, 42_sample_buffer.md R181 to R184, 43_mixer_channel.md R213 to
R229, 45_event_scheduler.md R290, R291, 46_videosync.md R310 to R314, 60_exceptions.md R341, R342): what they leave alone in any
environment.
-/

namespace Sys2Proof.Machine

set_option Elab.async false

/-! ### What a setting leaves alone -/

/-- Memory, the device and what the driver and the engine have queued on it, the output, the coprocessor, the owner and the context. -/
structure Untouched where
  mem : Memory
  ai : AiDevice
  region : Table Word
  st : Table RegionState
  ring : Ring
  output : List OutItem
  coproc : Coproc
  owner : Owner
  ctx : Ctx

/-- Those parts of a state. -/
def State.untouched (s : State) : Untouched :=
  ⟨s.mem, s.ai, s.drv.region, s.drv.st, s.ring, s.output, s.coproc, s.owner, s.ctx⟩

/-- Those parts of the state are `p`. -/
def Untouched.Are (p : Untouched) (s : State) : Prop := s.untouched = p

variable {p : Untouched}

theorem steady_untouched : Steady p.Are where
  fault _ _ _ h := h
  depth _ _ h := h
  choice _ _ h := h

theorem keeps_setting {g : State → State} (h : ∀ s, (g s).untouched = s.untouched := by exact fun _ => rfl) :
    Keeps p.Are (modify g : Act PUnit) := keeps_modify fun s hs => (h s).trans hs

theorem ensure_untouched (q : Prop) [Decidable q] (c : FaultCode) (v : Word) : Keeps p.Are (ensure q c v) :=
  keeps_ensure steady_untouched.fault q c v

theorem ensureState_untouched (q : Prop) [Decidable q] : Keeps p.Are (ensureState q) := keeps_ensureState steady_untouched.fault q

theorem resultWord_untouched (v : Nat) : Keeps p.Are (resultWord v) := keeps_resultWord steady_untouched.choice v

/-! ### The checks that the families begin with -/

theorem issuerThenState_untouched {q : State → Prop} [∀ s, Decidable (q s)] :
    Keeps p.Are (checkIssuer >>= fun _ => (get : Act State) >>= fun s => ensureState (q s)) :=
  keeps_bind (keeps_checkIssuer steady_untouched.fault) fun _ => keeps_read fun _ => ensureState_untouched _

theorem drvOn_untouched : Keeps p.Are drvOn := issuerThenState_untouched

theorem mxOn_untouched : Keeps p.Are mxOn := issuerThenState_untouched

theorem vsOn_untouched : Keeps p.Are vsOn := issuerThenState_untouched

theorem chanChecks_untouched (ch : Byte) : Keeps p.Are (chanChecks ch) :=
  keeps_bind mxOn_untouched fun _ => keeps_read fun _ => ensure_untouched _ _ _

theorem sbIndex_untouched (ch : Byte) : Keeps p.Are (sbIndex ch) :=
  keeps_bind (keeps_checkIssuer steady_untouched.fault) fun _ => ensure_untouched _ _ _

theorem sbOn_untouched (ch : Byte) : Keeps p.Are (sbOn ch) :=
  keeps_bind (sbIndex_untouched ch) fun _ => keeps_read fun _ => ensureState_untouched _

/-! ### The driver's settings (R155, R157) -/

theorem pauseSwap_regions (d : Driver) (pause : Bool) : (d.pauseSwap pause).region = d.region ∧ (d.pauseSwap pause).st = d.st := by
  unfold Driver.pauseSwap
  split
  · exact ⟨rfl, rfl⟩
  · split
    · exact ⟨rfl, rfl⟩
    · exact ⟨rfl, rfl⟩

theorem pauseSwap_untouched (s : State) (pause : Bool) : (s.modDrv fun d => d.pauseSwap pause).untouched = s.untouched := by
  obtain ⟨hregion, hst⟩ := pauseSwap_regions s.drv pause
  show Untouched.mk _ _ (s.drv.pauseSwap pause).region (s.drv.pauseSwap pause).st _ _ _ _ _ = _
  rw [hregion, hst]
  rfl

theorem aiPause_untouched (pause : Bool) : Keeps p.Are (aiPause pause) :=
  keeps_bind drvOn_untouched fun _ => keeps_critical steady_untouched (keeps_setting fun s => pauseSwap_untouched s pause)

theorem aiGetFrequency_untouched : Keeps p.Are aiGetFrequency :=
  keeps_bind drvOn_untouched fun _ => keeps_read fun _ => keeps_pure _

/-! ### The sample buffers' settings (R181 to R184) -/

theorem sbInit_untouched (ch : Byte) (base bytes : Word) : Keeps p.Are (sbInit ch base bytes) :=
  keeps_bind (sbIndex_untouched ch) fun _ => keeps_read fun _ => keeps_bind (ensure_untouched _ _ _) fun _ =>
    keeps_bind (ensure_untouched _ _ _) fun _ => keeps_setting

theorem sbSetBitWidth_untouched (ch : Byte) (bits : Half) : Keeps p.Are (sbSetBitWidth ch bits) :=
  keeps_bind (sbOn_untouched ch) fun _ => keeps_read fun _ => keeps_bind (ensure_untouched _ _ _) fun _ =>
    keeps_bind (ensureState_untouched _) fun _ => keeps_setting

theorem sbSetDecoder_untouched (ch : Byte) (fn ctx : Word) : Keeps p.Are (sbSetDecoder ch fn ctx) :=
  keeps_bind (sbOn_untouched ch) fun _ => keeps_bind (ensure_untouched _ _ _) fun _ => keeps_setting

theorem sbFlush_untouched (ch : Byte) : Keeps p.Are (sbFlush ch) := keeps_bind (sbOn_untouched ch) fun _ => keeps_setting

/-! ### The engine's rate and master volume (R213, R214) -/

theorem volQ15_untouched (v : Word) : Keeps p.Are (volQ15 v) := keeps_bind (ensure_untouched _ _ _) fun _ => keeps_pure _

theorem mxSampleRate_untouched : Keeps p.Are mxSampleRate := keeps_bind mxOn_untouched fun _ => keeps_read fun _ => keeps_pure _

theorem mxSetMasterVolume_untouched (vol : Word) : Keeps p.Are (mxSetMasterVolume vol) :=
  keeps_bind mxOn_untouched fun _ => keeps_bind (volQ15_untouched vol) fun _ => keeps_setting

/-! ### `CH_PLAY` (R217 to R220, R260) -/

theorem alloc_untouched (n : Nat) : Keeps p.Are (alloc n) := by
  obtain ⟨-, -, -, hdraw, -⟩ := keeps_draws (I := p.Are) steady_untouched.choice
  refine keeps_bind hdraw fun proposal => ?_
  cases proposal with
  | none => exact keeps_pure _
  | some a =>
    intro s hs
    show Ends _ (if _ then _ else _)
    split
    · exact hs
    · exact hs

theorem bindBuffers_untouched (n c a : Nat) : Keeps p.Are (bindBuffers c a n) := by
  induction n generalizing c a with
  | zero => exact keeps_pure ()
  | succ n ih =>
    exact keeps_read fun _ => keeps_bind keeps_setting fun _ => keeps_bind keeps_setting fun _ => ih _ _

theorem ensureBuffers_untouched : Keeps p.Are ensureBuffers := by
  refine keeps_read fun s => keeps_ite (keeps_pure ()) (keeps_bind (alloc_untouched _) fun a => ?_)
  cases a with
  | none => exact keeps_bind (resultWord_untouched _) fun _ => keeps_raise steady_untouched.fault _ _
  | some a => exact keeps_bind keeps_setting fun _ => bindBuffers_untouched _ _ _

theorem descLengths_untouched (c : Nat) : Keeps p.Are (descLengths c) := by
  refine keeps_read fun s => ?_
  cases s.strategy c with
  | noLoop => exact keeps_setting
  | resident => exact keeps_bind (ensure_untouched _ _ _) fun _ => keeps_setting
  | unrolled => exact keeps_setting

theorem setPtr_untouched (c : Nat) : Keeps p.Are (setPtr c) :=
  keeps_read fun _ => keeps_bind (ensure_untouched _ _ _) fun _ => keeps_setting

theorem rebind_untouched (c b : Nat) (wave : Word) : Keeps p.Are (rebind c b wave) :=
  keeps_bind keeps_setting fun _ => keeps_bind keeps_setting fun _ => keeps_setting

/-- The end of a play, behind the binding. -/
theorem startPlay_untouched (c : Nat) {g : State → State} (h : ∀ s, (g s).untouched = s.untouched := by exact fun _ => rfl) :
    Keeps p.Are (do modify g; descLengths c; setPtr c) :=
  keeps_bind (keeps_setting h) fun _ => keeps_bind (descLengths_untouched c) fun _ => setPtr_untouched c

theorem chPlay_untouched (ch : Byte) (wave : Word) : Keeps p.Are (chPlay ch wave) :=
  keeps_bind (chanChecks_untouched ch) fun _ => keeps_bind (ensure_untouched _ _ _) fun _ => keeps_read fun _ =>
    keeps_bind (ensure_untouched _ _ _) fun _ => keeps_bind (ensure_untouched _ _ _) fun _ =>
    keeps_bind (ensure_untouched _ _ _) fun _ => keeps_bind ensureBuffers_untouched fun _ => keeps_bind keeps_setting fun _ =>
    keeps_ite (startPlay_untouched _) (keeps_bind (rebind_untouched _ _ _) fun _ => startPlay_untouched _)

/-! ### The other channel commands (R216, R221 to R228) -/

/-- A channel command that reads. -/
theorem chanRead_untouched (ch : Byte) {f : State → List Word} :
    Keeps p.Are (chanChecks ch >>= fun _ => (get : Act State) >>= fun s => pure (f s)) :=
  keeps_bind (chanChecks_untouched ch) fun _ => keeps_read fun _ => keeps_pure _

theorem chStop_untouched (ch : Byte) : Keeps p.Are (chStop ch) := keeps_bind (chanChecks_untouched ch) fun _ => keeps_setting

theorem chSetFrequency_untouched (ch : Byte) (freq : Word) : Keeps p.Are (chSetFrequency ch freq) :=
  keeps_bind (chanChecks_untouched ch) fun _ => keeps_read fun _ => keeps_bind (ensure_untouched _ _ _) fun _ => keeps_setting

theorem chSetPosition_untouched (ch : Byte) (pos : Word) : Keeps p.Are (chSetPosition ch pos) :=
  keeps_bind (chanChecks_untouched ch) fun _ => keeps_read fun _ => keeps_bind (ensure_untouched _ _ _) fun _ => keeps_setting

theorem setVolume_untouched (c : Nat) (l r : Word) : Keeps p.Are (setVolume c l r) :=
  keeps_bind (volQ15_untouched l) fun _ => keeps_bind (volQ15_untouched r) fun _ => keeps_setting

theorem chSetVolume_untouched (ch : Byte) (l r : Word) : Keeps p.Are (chSetVolume ch l r) :=
  keeps_bind (chanChecks_untouched ch) fun _ => setVolume_untouched _ _ _

theorem chSetPan_untouched (ch : Byte) (vol pan : Word) : Keeps p.Are (chSetPan ch vol pan) :=
  keeps_bind (chanChecks_untouched ch) fun _ => keeps_bind (ensure_untouched _ _ _) fun _ =>
    keeps_bind (ensure_untouched _ _ _) fun _ => keeps_read fun _ => setVolume_untouched _ _ _

theorem chSetDolby_untouched (ch : Byte) (fl fr c sl sr : Word) : Keeps p.Are (chSetDolby ch fl fr c sl sr) :=
  keeps_bind (chanChecks_untouched ch) fun _ => keeps_bind (keeps_forList fun _ => ensure_untouched _ _ _) fun _ =>
    setVolume_untouched _ _ _

theorem freeRegion_untouched (a : Word) : Keeps p.Are (freeRegion a) := keeps_setting

theorem freeBufMem_untouched : Keeps p.Are freeBufMem :=
  keeps_read fun _ => keeps_ite (keeps_pure ()) (freeRegion_untouched _)

theorem unbindAll_untouched (s : State) : s.unbindAll.untouched = s.untouched := by
  simp only [State.unbindAll, State.untouched]

theorem chSetLimits_untouched (ch : Byte) (maxBits maxFreq maxBuf : Word) :
    Keeps p.Are (chSetLimits ch maxBits maxFreq maxBuf) :=
  keeps_bind (chanChecks_untouched ch) fun _ => keeps_bind (ensure_untouched _ _ _) fun _ =>
    keeps_bind (ensure_untouched _ _ _) fun _ => keeps_bind (ensure_untouched _ _ _) fun _ => keeps_read fun _ =>
    keeps_bind (ensureState_untouched _) fun _ => keeps_bind keeps_setting fun _ =>
    keeps_bind freeBufMem_untouched fun _ => keeps_setting fun _ => unbindAll_untouched _

/-! ### Events, VideoSync and the critical section (R290, R291, R310 to R314, R341, R342) -/

theorem evAdd_untouched (delay cb ctx : Word) : Keeps p.Are (evAdd delay cb ctx) :=
  keeps_bind mxOn_untouched fun _ => keeps_bind (ensure_untouched _ _ _) fun _ => keeps_read fun _ =>
    keeps_bind (ensure_untouched _ _ _) fun _ => keeps_bind (keeps_laterTick steady_untouched.choice _ _) fun _ => keeps_setting

theorem evRemove_untouched (cb : Word) : Keeps p.Are (evRemove cb) :=
  keeps_bind mxOn_untouched fun _ => keeps_read fun _ => keeps_bind (ensure_untouched _ _ _) fun _ => keeps_setting

theorem vsInit_untouched (fps rate : Word) : Keeps p.Are (vsInit fps rate) :=
  keeps_bind (keeps_checkIssuer steady_untouched.fault) fun _ => keeps_bind (ensure_untouched _ _ _) fun _ => keeps_read fun _ =>
    keeps_bind (ensureState_untouched _) fun _ => keeps_bind (ensure_untouched _ _ _) fun _ => keeps_setting

/-- A VideoSync command that reads. -/
theorem vsRead_untouched {f : State → List Word} : Keeps p.Are (vsOn >>= fun _ => (get : Act State) >>= fun s => pure (f s)) :=
  keeps_bind vsOn_untouched fun _ => keeps_read fun _ => keeps_pure _

theorem vsNextFrame_untouched : Keeps p.Are vsNextFrame := keeps_bind vsOn_untouched fun _ => keeps_setting

theorem irqDisable_untouched : Keeps p.Are irqDisable :=
  keeps_bind (keeps_checkIssuer steady_untouched.fault) fun _ => keeps_disableIrq steady_untouched

theorem irqEnable_untouched : Keeps p.Are irqEnable :=
  keeps_bind (keeps_checkIssuer steady_untouched.fault) fun _ => keeps_enableIrq steady_untouched

/-! ### Every setting command -/

/-- The opcodes of the commands that only set or read. -/
def settingOpcode (op : Byte) : Prop :=
  op = 0x07 ∨ op = 0x08 ∨ op = 0x10 ∨ op = 0x11 ∨ op = 0x12 ∨ op = 0x16 ∨ op = 0x22 ∨ op = 0x23 ∨ 0x28 ≤ op.toNat

theorem commandBody_untouched {i : Instr} (h : settingOpcode i.opcode) : Keeps p.Are (commandBody i) := by
  have done {body : Act Unit} (hb : Keeps p.Are body) : Keeps p.Are (replyNone body) := keeps_bind hb fun _ => keeps_pure _
  have answered {body : Act (List Word)} (hb : Keeps p.Are body) : Keeps p.Are (reply body) := keeps_bind hb fun _ => keeps_pure _
  cases i with
  | aiPause pause => exact done (aiPause_untouched pause)
  | aiGetFrequency => exact answered aiGetFrequency_untouched
  | sbInit ch base bytes => exact done (sbInit_untouched ch base bytes)
  | sbSetBitWidth ch bits => exact done (sbSetBitWidth_untouched ch bits)
  | sbSetDecoder ch fn ctx => exact done (sbSetDecoder_untouched ch fn ctx)
  | sbFlush ch => exact done (sbFlush_untouched ch)
  | mxSampleRate => exact answered mxSampleRate_untouched
  | mxSetMasterVolume vol => exact done (mxSetMasterVolume_untouched vol)
  | chPlay ch wave => exact done (chPlay_untouched ch wave)
  | chStop ch => exact done (chStop_untouched ch)
  | chPlaying ch => exact answered (chanRead_untouched ch)
  | chSetFrequency ch freq => exact done (chSetFrequency_untouched ch freq)
  | chSetPosition ch pos => exact done (chSetPosition_untouched ch pos)
  | chGetPosition ch => exact answered (chanRead_untouched ch)
  | chSetVolume ch l r => exact done (chSetVolume_untouched ch l r)
  | chSetPan ch vol pan => exact done (chSetPan_untouched ch vol pan)
  | chSetDolby ch fl fr c sl sr => exact done (chSetDolby_untouched ch fl fr c sl sr)
  | chSetLimits ch maxBits maxFreq maxBuf => exact done (chSetLimits_untouched ch maxBits maxFreq maxBuf)
  | evAdd delay cb ctx => exact done (evAdd_untouched delay cb ctx)
  | evRemove cb => exact done (evRemove_untouched cb)
  | vsInit fps rate => exact done (vsInit_untouched fps rate)
  | vsSuggestedBufferSize => exact answered vsRead_untouched
  | vsCurrentFrameSamples => exact answered vsRead_untouched
  | vsNextFrame => exact done vsNextFrame_untouched
  | irqDisable => exact done irqDisable_untouched
  | irqEnable => exact done irqEnable_untouched
  | _ => simp [settingOpcode, Instr.opcode] at h

theorem exec_untouched {i : Instr} {s t : State} (hset : settingOpcode i.opcode) (h : exec i s = .next t) : t.untouched = s.untouched := by
  rw [exec_eq_command, command] at h
  split at h
  · cases h
  · exact keeps_settle (commandBody_untouched hset) (fun _ _ hu => hu) (fun _ _ hu => hu)
      (show Untouched.Are s.untouched (s.begin i) from rfl) h

/-- Settles O57: no elementary update of a setting command touches those parts of the state, and none of them has a boundary. -/
theorem settingCommandsKeepMemory : Obligations.SettingCommandsKeepMemory := by
  intro i s t hset h
  have hsame := exec_untouched hset h
  exact ⟨fun x => congrArg (Memory.read · x) (congrArg Untouched.mem hsame), congrArg Untouched.ai hsame,
    congrArg Untouched.region hsame, congrArg Untouched.st hsame, congrArg Untouched.ring hsame, congrArg Untouched.output hsame,
    congrArg Untouched.coproc hsame, congrArg Untouched.owner hsame, congrArg Untouched.ctx hsame⟩

end Sys2Proof.Machine
end

section
/-!
SUPPORT. `AI_INIT` with an allocator that answers (spec/41_ai_driver.md R140 to R143): one region, all regions in turn, and the command.
-/

namespace Sys2Proof.Machine

set_option Elab.async false

/-! ### The device's rate (R141) -/

/-- The actual rate is below the one asked for, so it fits a u32. -/
theorem actualRate_lt {clk f : Nat} (hf : 0 < f) : actualRate clk f < f := by
  have hdiv : 2 * clk < f * (2 * clk / f + 1) := Nat.lt_mul_div_succ (2 * clk) hf
  exact Nat.div_lt_of_lt_mul (hdiv.trans_eq (Nat.mul_comm _ _))

theorem aiQuantum_le (rate : Nat) : aiQuantum rate ≤ rate := (roundDown8_le _).trans (Nat.div_le_self _ _)

theorem dacrate_field (n : Nat) : (w32 n).extractLsb' 0 14 = BitVec.ofNat 14 n := by
  apply BitVec.eq_of_toNat_eq
  rw [BitVec.extractLsb'_toNat, BitVec.toNat_ofNat, BitVec.toNat_ofNat, Nat.shiftRight_zero]
  exact Nat.mod_mod_of_dvd n (by decide)

theorem regionCount_le (n : Nat) : regionCount n ≤ 32 := by
  unfold regionCount
  split
  · decide
  · exact Nat.min_le_right _ _

/-! ### One region (R140) -/

/-- Region `k` is at `a`: allocated, zeroed and free. -/
def State.regionMade (s : State) (k : Nat) (a : Word) (more : List (Option Word)) : State :=
  ({ s with
    oracle := { s.oracle with allocs := more }, allocs := (a.toNat, 4 * s.drv.q.toNat) :: s.allocs
    drv := { s.drv with region := Table.put s.drv.region k a, st := Table.put s.drv.st k .free } } : State).cpuClear
      a.toNat (4 * s.drv.q.toNat)

theorem initRegion_ok {s : State} {k : Nat} {a : Word} {more : List (Option Word)} (h : s.oracle.allocs = some a :: more)
    (ha : s.mayAlloc a (4 * s.drv.q.toNat)) : initRegion k s = .ok () (s.regionMade k a more) := by
  obtain ⟨-, -, hend, -⟩ := id ha
  let placed : State := { s with
    oracle := { s.oracle with allocs := more }, allocs := (a.toNat, 4 * s.drv.q.toNat) :: s.allocs
    drv := { s.drv with region := Table.put s.drv.region k a } }
  have hzero : blockZero a.toNat (4 * s.drv.q.toNat) placed = .ok () (placed.cpuClear a.toNat (4 * s.drv.q.toNat)) :=
    blockZero_ok hend
  rw [initRegion, act_get_bind, act_bind_ok (alloc_ok h ha)]
  exact act_bind_ok hzero

/-- What is left to allocate may still be, beside the region just made. -/
theorem mayAlloc_regionMade {s : State} {k n : Nat} {a b : Word} {more : List (Option Word)} (hq : n = 4 * s.drv.q.toNat)
    (hb : s.mayAlloc b n) (hab : a.toNat + n ≤ b.toNat ∨ b.toNat + n ≤ a.toNat) : (s.regionMade k a more).mayAlloc b n := by
  obtain ⟨hne, halign, hend, hapart⟩ := hb
  refine ⟨hne, halign, hend, fun r hr => ?_⟩
  rcases List.mem_cons.mp hr with rfl | hr
  · rw [← hq]
    exact hab.symm
  · exact hapart r hr

/-! ### All regions -/

/-- From region `k` on the regions are at `as`: allocated, zeroed and free. -/
structure State.RegionsMade (s : State) (k : Nat) (as : List Word) (more : List (Option Word)) (t : State) : Prop where
  frame : t = { s with
    drv := { s.drv with region := t.drv.region, st := t.drv.st }
    mem := t.mem, cache := t.cache, race := t.race
    allocs := as.reverse.map (fun a => (a.toNat, 4 * s.drv.q.toNat)) ++ s.allocs, oracle := { s.oracle with allocs := more } }
  made : ∀ j a, as[j]? = some a → t.drv.addr (k + j) = a ∧ t.drv.state (k + j) = .free
  before : ∀ j < k, t.drv.addr j = s.drv.addr j ∧ t.drv.state j = s.drv.state j
  zeroed : ∀ x, t.mem.read x = if ∃ a ∈ as, a.toNat ≤ x ∧ x < a.toNat + 4 * s.drv.q.toNat then 0 else s.mem.read x

theorem regionsMade_none (s : State) (k : Nat) {more : List (Option Word)} (h : s.oracle.allocs = more) :
    s.RegionsMade k [] more s where
  frame := by rw [← h]; rfl
  made _ _ h := by cases h
  before _ _ := ⟨rfl, rfl⟩
  zeroed x := by rw [if_neg fun ⟨_, ha, _⟩ => List.not_mem_nil ha]

/-- The first region made, and then the rest. -/
theorem State.RegionsMade.cons {s t : State} {k : Nat} {a : Word} {as : List Word} {more : List (Option Word)} (hk : k < 32)
    (h : (s.regionMade k a (as.map some ++ more)).RegionsMade (k + 1) as more t) : s.RegionsMade k (a :: as) more t where
  frame := by
    rw [List.reverse_cons, List.map_append, List.append_assoc]
    exact h.frame
  made j b hj := by
    cases j with
    | zero =>
      cases hj
      obtain ⟨haddr, hstate⟩ := h.before k (Nat.lt_succ_self k)
      exact ⟨haddr.trans (Table.at_put_same _ _ hk), hstate.trans (Table.at_put_same _ _ hk)⟩
    | succ j =>
      rw [show k + (j + 1) = k + 1 + j by omega]
      exact h.made j b hj
  before j hj := by
    obtain ⟨haddr, hstate⟩ := h.before j (Nat.lt_succ_of_lt hj)
    exact ⟨haddr.trans (Table.at_put_other _ _ hj.ne), hstate.trans (Table.at_put_other _ _ hj.ne)⟩
  zeroed x := by
    refine (h.zeroed x).trans ?_
    rw [show (s.regionMade k a _).mem.read x = _ from cpuClear_read _ _ _ _]
    show (if ∃ b ∈ as, b.toNat ≤ x ∧ x < b.toNat + 4 * s.drv.q.toNat then (0 : Byte) else _) = _
    simp only [List.mem_cons, exists_eq_or_imp]
    by_cases hrest : ∃ b ∈ as, b.toNat ≤ x ∧ x < b.toNat + 4 * s.drv.q.toNat
    · rw [if_pos hrest, if_pos (.inr hrest)]
    · rw [if_neg hrest]
      exact if_congr (or_iff_left hrest).symm rfl rfl

/-- The loop of `AI_INIT` makes every region, where the allocator answers addresses that are apart. -/
theorem initRegions_ok {as : List Word} {more : List (Option Word)} {k : Nat} {s : State} (h : s.oracle.allocs = as.map some ++ more)
    (ha : ∀ a ∈ as, s.mayAlloc a (4 * s.drv.q.toNat))
    (hapart : as.Pairwise fun a b => a.toNat + 4 * s.drv.q.toNat ≤ b.toNat ∨ b.toNat + 4 * s.drv.q.toNat ≤ a.toNat)
    (hk : k + as.length ≤ 32) : ∃ t, forRange k initRegion as.length s = .ok () t ∧ s.RegionsMade k as more t := by
  induction as generalizing k s with
  | nil => exact ⟨s, rfl, regionsMade_none s k h⟩
  | cons a as ih =>
    obtain ⟨hfirst, hrest⟩ := List.pairwise_cons.mp hapart
    rw [List.length_cons] at hk
    obtain ⟨t, hrun, ht⟩ := ih (k := k + 1) (s := s.regionMade k a (as.map some ++ more)) rfl
      (fun b hb => mayAlloc_regionMade rfl (ha b (List.mem_cons_of_mem a hb)) (hfirst b hb)) hrest (by omega)
    refine ⟨t, ?_, ht.cons (by omega)⟩
    have hmade : initRegion k s = .ok () (s.regionMade k a (as.map some ++ more)) := initRegion_ok h (ha a List.mem_cons_self)
    rw [List.length_cons, forRange, act_bind_ok hmade, hrun]

/-! ### The command (R140 to R143) -/

/-- The driver owns the device, which plays at the rate's divisor. -/
def State.aiStarted (s : State) (dacrate : Nat) : State := { s with
  owner := .driver, drv := { s.drv.cleared with on := true }
  ai := { s.ai with dacrate := BitVec.ofNat 14 dacrate, bitrate := 15, dmaEn := true } }

theorem startDriver_apply (n : Nat) (s : State) :
    (do modify fun s => s.modDrv Driver.cleared
        startDevice n
        modify fun s => { s.modDrv (fun d => { d with on := true }) with owner := .driver } : Act Unit) s = .ok () (s.aiStarted n) := by
  rw [act_modify_bind, act_bind_ok (startDevice_apply n _), act_modify, State.aiStarted, dacrate_field]
  rfl

/-- Behind its checks the command sizes the driver, makes the regions and starts the device. -/
theorem aiInit_begin {s t : State} {nb : Half} {freq : Word} (hrun : s.mayRun (.aiInit nb freq)) (howner : s.owner = .none)
    (hrate : rateValid s.params.videoClockHz freq.toNat)
    (h : forRange 0 initRegion (regionCount nb.toNat)
      ((s.begin (.aiInit nb freq)).modDrv fun d => d.sized s.params.videoClockHz freq.toNat nb.toNat) = .ok () t) :
    exec (.aiInit nb freq) s = .next ((t.aiStarted (dacrateReg s.params.videoClockHz freq.toNat)).finish []) := by
  refine command_replyNone (t := t.aiStarted _) hrun.1 ?_
  rw [aiInit, act_bind_ok (checkIssuer_begin hrun), act_get_bind, ensure_bind, State.begin_owner, if_pos howner, ensure_bind,
    State.begin_params, if_pos hrate, act_modify_bind]
  exact (act_bind_ok h).trans (startDriver_apply _ t)

/-- Settles O18: the regions are made one by one at the addresses proposed, and the device is started. -/
theorem aiInitEffect : Obligations.AiInitEffect := by
  intro s nb freq as more clk q hrun howner hrate hlength hallocs hmay hapart
  have hquantum : (w32 q).toNat = q := w32_toNat_of_lt
    (((aiQuantum_le _).trans_lt (actualRate_lt hrate.1)).trans freq.isLt)
  let sized : State := (s.begin (.aiInit nb freq)).modDrv fun d => d.sized clk freq.toNat nb.toNat
  have hq : sized.drv.q.toNat = q := hquantum
  obtain ⟨t, hloop, ht⟩ := initRegions_ok (s := sized) (k := 0) (as := as) (more := more) hallocs
    (by rw [hq]; exact hmay) (by rw [hq]; exact hapart) (by rw [hlength, Nat.zero_add]; exact regionCount_le _)
  rw [hlength] at hloop
  have hframe := ht.frame
  have hzeroed := ht.zeroed
  rw [hq] at hframe hzeroed
  refine ⟨_, aiInit_begin hrun howner hrate hloop, ?_, ?_, fun k a hk => ?_, ?_, hzeroed⟩
  · rw [hframe]
    rfl
  · rw [hframe]
    rfl
  · have hmade := ht.made k a hk
    rw [Nat.zero_add] at hmade
    exact hmade
  · rw [hframe]
    rfl

end Sys2Proof.Machine
end

section
/-!
SUPPORT. The sample-buffer commands but the windowed reads and writes (spec/42_sample_buffer.md R180 to R184): the index checks, which the
channel commands share (spec/43_mixer_channel.md R215); what an invalidation leaves of the CPU's views, and `SB_INIT`; and the three settings.
-/

namespace Sys2Proof.Machine

set_option Elab.async false

/-! ### The index checks (R180, R215) -/

/-- The fault of a command on an index out of range: BAD_ARG with the index. -/
abbrev badIndex (i : Instr) (s : State) : State := (s.begin i).enterFaulted .badArg (i.chField.setWidth 32)

theorem buffer_outOfRange {i : Instr} {s : State} (h : s.mayRun i) (hop : 0x10 ≤ i.opcode.toNat ∧ i.opcode.toNat ≤ 0x16)
    (hch : 32 ≤ i.chField.toNat) : commandBody i (s.begin i) = .error .fatal (badIndex i s) := by
  have index : ∀ {α : Type} (f : Unit → Act α), (sbIndex i.chField >>= f) (s.begin i) = .error .fatal (badIndex i s) :=
    fun f => act_bind_error (sbIndex_begin_range h hch)
  have buffer : ∀ {α : Type} (f : Unit → Act α), (sbOn i.chField >>= f) (s.begin i) = .error .fatal (badIndex i s) :=
    fun f => act_bind_error (index _)
  cases i with
  | sbInit ch base bytes => exact replyNone_error (index _)
  | sbSetBitWidth ch bits => exact replyNone_error (buffer _)
  | sbSetDecoder ch fn ctx => exact replyNone_error (buffer _)
  | sbGet ch wpos wlen => exact reply_error (buffer _)
  | sbAppend ch wlen => exact reply_error (buffer _)
  | sbDiscard ch wpos => exact replyNone_error (buffer _)
  | sbFlush ch => exact replyNone_error (buffer _)
  | _ => simp [Instr.opcode] at hop

theorem channel_outOfRange {i : Instr} {s : State} (h : s.mayRun i) (hop : 0x28 ≤ i.opcode.toNat ∧ i.opcode.toNat ≤ 0x31)
    (hon : s.mx.on = true) (hch : s.mx.nch.toNat ≤ i.chField.toNat) :
    commandBody i (s.begin i) = .error .fatal (badIndex i s) := by
  have channel : ∀ {α : Type} (f : Unit → Act α), (chanChecks i.chField >>= f) (s.begin i) = .error .fatal (badIndex i s) :=
    fun f => act_bind_error (chanChecks_begin_range h hon hch)
  cases i with
  | chPlay ch wave => exact replyNone_error (channel _)
  | chStop ch => exact replyNone_error (channel _)
  | chPlaying ch => exact reply_error (channel _)
  | chSetFrequency ch freq => exact replyNone_error (channel _)
  | chSetPosition ch pos => exact replyNone_error (channel _)
  | chGetPosition ch => exact reply_error (channel _)
  | chSetVolume ch l r => exact replyNone_error (channel _)
  | chSetPan ch vol pan => exact replyNone_error (channel _)
  | chSetDolby ch fl fr c sl sr => exact replyNone_error (channel _)
  | chSetLimits ch maxBits maxFreq maxBuf => exact replyNone_error (channel _)
  | _ => simp [Instr.opcode] at hop

/-- Settles O33: in both families the index is checked before anything else of the command runs. -/
theorem indexOutOfRangeFaults : Obligations.IndexOutOfRangeFaults := by
  intro i s h hindex
  refine exec_fatal h.1 ?_
  rcases hindex with ⟨hlo, hhi, hch⟩ | ⟨hlo, hhi, hon, hch⟩
  · exact buffer_outOfRange h ⟨hlo, hhi⟩ hch
  · exact channel_outOfRange h ⟨hlo, hhi⟩ hon hch

/-! ### An invalidation (R79 to R81) -/

/-- Cutting a range out of some takes its addresses and no other. -/
theorem inRanges_rangesOutside (rs : List (Nat × Nat)) (lo hi x : Nat) :
    inRanges (rangesOutside rs lo hi) x = true ↔ inRanges rs x = true ∧ (x < lo ∨ hi ≤ x) := by
  simp only [inRanges, rangesOutside, List.any_eq_true, List.mem_filter, List.mem_flatMap, List.mem_cons, List.not_mem_nil, or_false,
    decide_eq_true_eq]
  constructor
  · rintro ⟨c, ⟨⟨r, hr, rfl | rfl⟩, -⟩, hx⟩
    · exact ⟨⟨r, hr, by omega⟩, .inl (by omega)⟩
    · exact ⟨⟨r, hr, by omega⟩, .inr (by omega)⟩
  · rintro ⟨⟨r, hr, hx⟩, hlo | hhi⟩
    · exact ⟨_, ⟨⟨r, hr, .inl rfl⟩, by omega⟩, by omega⟩
    · exact ⟨_, ⟨⟨r, hr, .inr rfl⟩, by omega⟩, by omega⟩

theorem inRanges_rangesOutside_inside (rs : List (Nat × Nat)) {lo hi x : Nat} (h : ¬ (x < lo ∨ hi ≤ x)) :
    inRanges (rangesOutside rs lo hi) x = false :=
  Bool.eq_false_iff.mpr fun hx => h ((inRanges_rangesOutside rs lo hi x).mp hx).2

theorem inRanges_rangesOutside_outside (rs : List (Nat × Nat)) {lo hi x : Nat} (h : x < lo ∨ hi ≤ x) :
    inRanges (rangesOutside rs lo hi) x = inRanges rs x :=
  Bool.eq_iff_iff.mpr ((inRanges_rangesOutside rs lo hi x).trans (and_iff_left h))

theorem invalidate_dirtyByte (s : State) (a n x : Nat) :
    (s.invalidate a n).dirtyByte x = if x < a ∨ a + n ≤ x then s.dirtyByte x else none := by
  show ((dirtyOutside s.cache.dirty a n).find? _).map _ = _
  rw [dirtyOutside_find, apply_ite (Option.map Prod.snd)]
  rfl

/-- Inside the range the CPU's dirty data is gone, and both views show memory. -/
theorem invalidate_inside (s : State) {a n x : Nat} (hlo : a ≤ x) (hhi : x < a + n) :
    (s.invalidate a n).cachedByte x = s.mem.read x ∧ (s.invalidate a n).cpuByte x = s.mem.read x := by
  have hin : ¬ (x < a ∨ a + n ≤ x) := by omega
  have hcpu : (s.invalidate a n).cpuByte x = s.mem.read x :=
    cpuByte_of_clean ((invalidate_dirtyByte s a n x).trans (if_neg hin))
  have hstale : inRanges (s.invalidate a n).cache.stale x = false := inRanges_rangesOutside_inside s.cache.stale hin
  exact ⟨by rw [State.cachedByte, hstale, if_neg Bool.false_ne_true, hcpu], hcpu⟩

/-- Beside the range both views are as before. -/
theorem invalidate_outside (s : State) {a n x : Nat} (h : x < a ∨ a + n ≤ x) :
    (s.invalidate a n).cachedByte x = s.cachedByte x ∧ (s.invalidate a n).cpuByte x = s.cpuByte x := by
  have hnewer : inRanges (s.invalidate a n).cache.newer x = inRanges s.cache.newer x := inRanges_rangesOutside_outside s.cache.newer h
  have hstale : inRanges (s.invalidate a n).cache.stale x = inRanges s.cache.stale x := inRanges_rangesOutside_outside s.cache.stale h
  have hcpu : (s.invalidate a n).cpuByte x = s.cpuByte x := by
    rw [State.cpuByte, State.cpuByte, hnewer, invalidate_dirtyByte, if_pos h]
    rfl
  exact ⟨by rw [State.cachedByte, State.cachedByte, hstale, hcpu]; rfl, hcpu⟩

/-! ### `SB_INIT` (R181) -/

theorem sbInit_begin {s : State} {ch : Byte} {base bytes : Word} (hrun : s.mayRun (.sbInit ch base bytes)) (hch : ch.toNat < 32)
    (halign : base.toNat % 8 = 0) (hbytes : bytes ≠ 0) (hmem : base.toNat + bytes.toNat ≤ s.memBytes) :
    sbInit ch base bytes (s.begin (.sbInit ch base bytes)) =
      .ok () (((s.begin (.sbInit ch base bytes)).invalidate base.toNat bytes.toNat).modSb ch.toNat
        fun _ => SampleBuf.bound base bytes) := by
  have hindex : sbIndex ch (s.begin (.sbInit ch base bytes)) = .ok () (s.begin (.sbInit ch base bytes)) := sbIndex_begin hrun hch
  rw [sbInit, act_bind_ok hindex, act_get_bind, ensure_bind, if_pos ⟨halign, hbytes⟩, ensure_bind, begin_memBytes, if_pos hmem,
    sbInitProc_apply]

/-- Settles O27: behind its checks the command invalidates the region and binds the buffer to it. -/
theorem sbInitEffect : Obligations.SbInitEffect := by
  intro s ch base bytes hrun hch halign hbytes hmem
  refine ⟨_, command_replyNone hrun.1 (sbInit_begin hrun hch halign hbytes hmem), rfl, ?_, fun i hi => ?_, fun x hlo hhi => ?_,
    fun x hx => ?_⟩
  · exact modSb_sb_same _ (fun _ => SampleBuf.bound base bytes) hch
  · exact modSb_sb_other _ (fun _ => SampleBuf.bound base bytes) hi
  · exact invalidate_inside s hlo hhi
  · exact invalidate_outside s hx

/-! ### The settings (R182 to R184) -/

/-- The bit-width shift of the two legal widths. -/
theorem ofNat_bpsOf (bits : Half) : BitVec.ofNat 2 (bpsOf bits.toNat) = if bits = 16 then 1 else 0 := by
  have hbits : bits.toNat = 16 ↔ bits = 16 := BitVec.toNat_inj (y := 16)
  rw [bpsOf, apply_ite (BitVec.ofNat 2)]
  exact if_congr hbits rfl rfl

section
variable {s : State} {ch : Byte} (hch : ch.toNat < 32) (hon : (s.sb ch.toNat).on = true)
include hch hon

theorem sbSetBitWidth_begin {bits : Half} (hrun : s.mayRun (.sbSetBitWidth ch bits)) (hbits : bits = 8 ∨ bits = 16)
    (hempty : (s.sb ch.toNat).widx = 0) :
    sbSetBitWidth ch bits (s.begin (.sbSetBitWidth ch bits)) =
      .ok () ((s.begin (.sbSetBitWidth ch bits)).modSb ch.toNat fun b => { b with bps := if bits = 16 then 1 else 0 }) := by
  rw [sbSetBitWidth, act_bind_ok (sbOn_ready (ch := ch) hrun rfl hch hon), act_get_bind, ensure_bind, if_pos hbits, ensureState_bind,
    begin_sb, if_pos hempty, act_modify, ofNat_bpsOf]

theorem sbSetDecoder_begin {fn ctx : Word} (hrun : s.mayRun (.sbSetDecoder ch fn ctx)) (hfn : ¬ reservedHandle fn) :
    sbSetDecoder ch fn ctx (s.begin (.sbSetDecoder ch fn ctx)) =
      .ok () ((s.begin (.sbSetDecoder ch fn ctx)).modSb ch.toNat fun b => { b with decFn := fn, decCtx := ctx }) := by
  rw [sbSetDecoder, act_bind_ok (sbOn_ready (ch := ch) hrun rfl hch hon), ensure_bind, if_pos hfn, act_modify]

theorem sbFlush_begin (hrun : s.mayRun (.sbFlush ch)) :
    sbFlush ch (s.begin (.sbFlush ch)) = .ok () ((s.begin (.sbFlush ch)).modSb ch.toNat fun b => b.emptyAt 0) := by
  rw [sbFlush, act_bind_ok (sbOn_ready (ch := ch) hrun rfl hch hon), sbFlushProc_apply]

end

/-- Settles O28: behind their checks the commands are one update of the buffer each. -/
theorem sbSettingsEffect : Obligations.SbSettingsEffect := by
  refine fun s ch hch hon => ⟨fun bits hrun hbits hempty => ?_, fun fn ctx hrun hfn => ?_, fun hrun => ?_⟩
  · exact (command_replyNone hrun.1 (sbSetBitWidth_begin hch hon hrun hbits hempty)).trans rfl
  · exact (command_replyNone hrun.1 (sbSetDecoder_begin hch hon hrun hfn)).trans rfl
  · exact (command_replyNone hrun.1 (sbFlush_begin hch hon hrun)).trans rfl

end Sys2Proof.Machine
end

section
/-!
SUPPORT. Windowed reads of a sample buffer (spec/42_sample_buffer.md R185 to R191, R199 to R201): what one decoder call does when the decoder
does nothing, and when it appends samples that fit; what a read at a held position and one outside the window ask of the decoder; and from them
`SB_GET`.
-/

namespace Sys2Proof.Machine

set_option Elab.async false

/-! ### What a windowed read writes -/

/-- `s` with buffer `i` as `b`, the trace of calls `calls`, the environment's choices `o` left, and the response words `res`. -/
def State.withBuffer (s : State) (i : Nat) (b : SampleBuf) (calls : List Call) (o : Oracle) (res : List Word) : State :=
  { s with sbs := Table.put s.sbs i b, calls := calls, oracle := o, res := res }

theorem modSb_eq_withBuffer (s : State) (i : Nat) (f : SampleBuf → SampleBuf) :
    s.modSb i f = s.withBuffer i (f (s.sb i)) s.calls s.oracle s.res := rfl

section
variable (s : State) {i : Nat} (b : SampleBuf) (calls : List Call) (o : Oracle) (res : List Word)

theorem withBuffer_sb (hi : i < 32) : (s.withBuffer i b calls o res).sb i = b := Table.at_put_same _ _ hi

theorem withBuffer_withBuffer (b' : SampleBuf) (calls' : List Call) (o' : Oracle) (res' : List Word) :
    (s.withBuffer i b calls o res).withBuffer i b' calls' o' res' = s.withBuffer i b' calls' o' res' := by
  show { s with sbs := Table.put (Table.put s.sbs i b) i b', calls := calls', oracle := o', res := res' } = _
  rw [Table.put_put]
  rfl

end

/-! ### The window and the read cursor (R186, R188, R191) -/

theorem SampleBuf.idxPtr_zero (b : SampleBuf) : b.idxPtr 0 = b.base.toNat := by rw [SampleBuf.idxPtr, Nat.zero_mul, Nat.add_zero]

theorem SampleBuf.readAt_eq_sub {b : SampleBuf} {p : Word} (h : b.wpos.toNat ≤ p.toNat) :
    b.readAt p.toNat = { b with ridx := p - b.wpos } := by
  have hdiff : w32 (p.toNat - b.wpos.toNat) = p - b.wpos := by bv_omega
  rw [SampleBuf.readAt, hdiff]

/-- Appending leaves a read cursor where it is. -/
theorem SampleBuf.grown_readAt {b : SampleBuf} {p : Nat} (h : b.readAt p = b) (k : Nat) : (b.grown k).readAt p = b.grown k :=
  congrArg (fun b => SampleBuf.grown b k) h

theorem SampleBuf.grown_widx {b : SampleBuf} {k : Nat} (h : b.widx.toNat + k ≤ b.size) : (b.grown k).widx.toNat = b.widx.toNat + k :=
  w32_toNat_of_lt (h.trans_lt b.size_lt)

theorem le_roundUp8 (n : Nat) : n ≤ roundUp8 n := by
  rw [roundUp8]
  omega

/-! ### A decoder that appends (R191, R199) -/

/-- An append of `k` samples to buffer `ch` fits as the buffer stands, and the pointer it answers fits a u32. -/
structure State.Accepts (s : State) (ch : Byte) (k : Word) : Prop where
  index : ch.toNat < 32
  on : (s.sb ch.toNat).on = true
  room : (s.sb ch.toNat).widx.toNat + k.toNat ≤ (s.sb ch.toNat).size
  pointer : (s.sb ch.toNat).idxPtr (s.sb ch.toNat).widx.toNat < 2 ^ 32

/-- `s` after the append: the window has grown, and the append has answered. -/
def State.appended (s : State) (ch : Byte) (k : Word) : State :=
  s.withBuffer ch.toNat ((s.sb ch.toNat).grown k.toNat) s.calls s.oracle [w32 ((s.sb ch.toNat).idxPtr (s.sb ch.toNat).widx.toNat)]

theorem sbOn_ok {s : State} {ch : Byte} (hissuer : s.issuerAllows s.cmd.op s.cmd.ch = true) (hch : ch.toNat < 32)
    (hon : (s.sb ch.toNat).on = true) : sbOn ch s = .ok () s := by
  have hindex : sbIndex ch s = .ok () s := by rw [sbIndex, checkIssuer_bind, if_pos hissuer, ensure_apply, if_pos hch]
  rw [sbOn, act_bind_ok hindex, act_get_bind, ensureState_apply, if_pos hon]

/-- The one command the decoder of buffer `ch` may issue, an append to it, is run (R105, R199). -/
theorem decoderIssue_append {s : State} {q : Packet} {rest : List Word} {ch : Byte} {k : Word}
    (hq : decode q.words = .instr (.sbAppend ch k) rest) (hctx : s.ctx = .decoder ch.toNat) (h : s.Accepts ch k) :
    decoderIssue q s = .ok () (s.appended ch k) := by
  let t : State := { s with cmd := ⟨0x14, ch⟩ }
  have hissuer : t.issuerAllows t.cmd.op t.cmd.ch = true := by simp [State.issuerAllows, t, hctx]
  have hbody : sbAppend ch k t = .ok [w32 ((s.sb ch.toNat).idxPtr (s.sb ch.toNat).widx.toNat)] (t.modSb ch.toNat fun b => b.grown k.toNat) := by
    rw [sbAppend, act_bind_ok (sbOn_ok hissuer h.index h.on), act_bind_ok (sbAppendProc_fits (s := t) h.room h.pointer)]
    rfl
  have hissue : decoderIssue q = subCommand (.sbAppend ch k) (sbAppend ch k) := by rw [decoderIssue, hq]
  rw [hissue, subCommand, act_get_bind, act_set_bind]
  exact act_bind_ok hbody

theorem drawRun_appends {s : State} {ch : Byte} {q : Packet} {rest : List Word} {k r : Word} (h : s.appends ch q rest k r) :
    drawRun s = .ok ⟨[.issue q], some r⟩ { s with oracle := { s.oracle with runs := [] } } := by
  obtain ⟨-, -, hruns, -⟩ := h
  rw [drawRun, hruns]

/-- All a call of a decoder that appends `k` samples does. -/
theorem rawRead_appends {s : State} {ch : Byte} {q : Packet} {rest : List Word} {k r : Word} (h : s.appends ch q rest k r)
    (hfit : s.Accepts ch k) (fn ctx : Word) (p n : Nat) (seeking : Bool) :
    rawRead ch.toNat fn ctx p n seeking s =
      .ok () (s.withBuffer ch.toNat ((s.sb ch.toNat).grown k.toNat)
        (s.calls ++ [⟨fn, [ctx.toNat, ch.toNat, p, n, boolArg seeking]⟩]) { s.oracle with runs := [] }
        [w32 ((s.sb ch.toNat).idxPtr (s.sb ch.toNat).widx.toNat)]) := by
  let called : State := { s with ctx := .decoder ch.toNat, calls := s.calls ++ [⟨fn, [ctx.toNat, ch.toNat, p, n, boolArg seeking]⟩] }
  let drawn : State := { called with oracle := { s.oracle with runs := [] } }
  have ⟨hfree, hmoves, _, hdecode⟩ := h
  have hdraw : drawRun called = .ok ⟨[.issue q], some r⟩ drawn := drawRun_appends (s := called) h
  have hfit' : drawn.Accepts ch k := ⟨hfit.index, hfit.on, hfit.room, hfit.pointer⟩
  have hquiet : (drawn.appended ch k).quiet := ⟨hfree, hmoves, rfl⟩
  have hacts : runActs decoderIssue boundary [.issue q] drawn = .ok () (drawn.appended ch k) := by
    show (decoderIssue q >>= fun _ => boundary >>= fun _ => runActs decoderIssue boundary []) drawn = _
    rw [act_bind_ok (decoderIssue_append hdecode rfl hfit'), act_bind_ok (boundary_quiet hquiet)]
    rfl
  have hcall : callHost decoderIssue boundary (.decoder ch.toNat) fn [ctx.toNat, ch.toNat, p, n, boolArg seeking] s =
      .ok r { drawn.appended ch k with ctx := s.ctx } := by
    rw [callHost, act_get_bind, act_set_bind, act_bind_ok hdraw, act_bind_ok hacts]
    show (ensure ((drawn.appended ch k).irqDepth = s.irqDepth) .irqUnbalanced _ >>= fun _ => _) _ = _
    rw [ensure_bind, if_pos (show (drawn.appended ch k).irqDepth = s.irqDepth from rfl)]
    rfl
  rw [rawRead, act_bind_ok hcall]
  rfl

/-! ### What a windowed read asks of the decoder (R185, R188, R189, R200) -/

/-- A request to a decoder: `count` samples at position `first`. -/
structure Ask where
  first : Nat
  count : Nat
  seeking : Bool

/-- The buffer as a read at `p` leaves it before any decoder call: on a hit with its read cursor moved, on a miss emptied there. -/
def SampleBuf.opened (b : SampleBuf) (p : Nat) : SampleBuf := if b.hit p then b.readAt p else b.emptyAt p

/-- What a read of `n` samples at `p` asks for: on a hit what is missing behind the window, on a miss all of it, in groups of 8 samples. -/
def SampleBuf.ask (b : SampleBuf) (p n : Nat) : Ask :=
  if b.hit p then
    ⟨b.wpos.toNat + b.widx.toNat,
      if b.widx.toNat < p - b.wpos.toNat + n then roundUp8 (p - b.wpos.toNat + n) - b.widx.toNat else 0, false⟩
  else ⟨p, roundUp8 n, true⟩

theorem SampleBuf.opened_hit {b : SampleBuf} {p : Nat} (h : b.hit p) : b.opened p = b.readAt p := if_pos h

theorem SampleBuf.opened_miss {b : SampleBuf} {p : Nat} (h : ¬ b.hit p) : b.opened p = b.emptyAt p := if_neg h

/-- What a read at a held position asks for, where the request goes beyond the window. -/
theorem SampleBuf.ask_short {b : SampleBuf} {p n : Nat} (h : b.hit p) (hshort : b.widx.toNat < p - b.wpos.toNat + n) :
    b.ask p n = ⟨b.wpos.toNat + b.widx.toNat, roundUp8 (p - b.wpos.toNat + n) - b.widx.toNat, false⟩ := by
  rw [SampleBuf.ask, if_pos h, if_pos hshort]

theorem SampleBuf.ask_held {b : SampleBuf} {p n : Nat} (h : b.hit p) (hheld : p - b.wpos.toNat + n ≤ b.widx.toNat) :
    b.ask p n = ⟨b.wpos.toNat + b.widx.toNat, 0, false⟩ := by
  rw [SampleBuf.ask, if_pos h, if_neg (Nat.not_lt.mpr hheld)]

theorem SampleBuf.ask_miss {b : SampleBuf} {p : Nat} (h : ¬ b.hit p) (n : Nat) : b.ask p n = ⟨p, roundUp8 n, true⟩ := if_neg h

/-- Opening a buffer leaves its decoder, and whether it is on. -/
theorem SampleBuf.opened_decoder (b : SampleBuf) (p : Nat) :
    (b.opened p).on = b.on ∧ (b.opened p).decFn = b.decFn ∧ (b.opened p).decCtx = b.decCtx := by
  rw [SampleBuf.opened]
  split
  · exact ⟨rfl, rfl, rfl⟩
  · exact ⟨rfl, rfl, rfl⟩

/-- An opened buffer has its read cursor at the position it was opened at. -/
theorem SampleBuf.opened_readAt (b : SampleBuf) {p : Nat} (hp : p < 2 ^ 32) : (b.opened p).readAt p = b.opened p := by
  rw [SampleBuf.opened]
  split
  · rfl
  · rw [SampleBuf.readAt, SampleBuf.emptyAt, w32_toNat_of_lt hp, Nat.sub_self]
    rfl

/-- The first half of `SbGet`, which leaves in the window what there is of the request. -/
def sbFill (i p n : Nat) : Act Unit := fun s => (if (s.sb i).hit p then sbHit i p n else sbMiss i p n) s

theorem sbGetProc_of_fill {i p n : Nat} {s t : State} (h : sbFill i p n s = .ok () t) : sbGetProc i p n s = readWindow i p n t := by
  rw [sbGetProc_eq]
  exact act_bind_ok h

theorem callDecoder_nothing (i p : Nat) (seeking : Bool) (s : State) : callDecoder i p 0 seeking s = .ok () s := by
  rw [callDecoder, act_get_bind, if_pos (.inl rfl), act_pure]

/-- The first half of `SbGet` opens the buffer and asks the decoder. -/
theorem sbFill_eq {s : State} {i : Nat} (hi : i < 32) (p n : Nat) :
    sbFill i p n s = callDecoder i ((s.sb i).ask p n).first ((s.sb i).ask p n).count ((s.sb i).ask p n).seeking
      (s.modSb i fun b => b.opened p) := by
  rw [modSb_eq_withBuffer, sbFill, SampleBuf.opened, SampleBuf.ask]
  split
  · rw [sbHit, act_get_bind, act_modify_bind]
    split
    · rfl
    · exact (callDecoder_nothing _ _ _ _).symm
  · rw [sbMiss, act_bind_ok (sbFlushProc_apply i s), act_modify_bind, modSb_modSb s _ _ hi]
    rfl

/-! ### A decoder call (R200) -/

/-- The call of the decoder of buffer `i` with a request. -/
def SampleBuf.decoderCall (b : SampleBuf) (i : Nat) (a : Ask) : Call :=
  ⟨b.decFn, [b.decCtx.toNat, i, a.first, a.count, boolArg a.seeking]⟩

/-- What a request adds to the trace of calls: nothing where nothing is asked for or there is no decoder. -/
def SampleBuf.decoderCalls (b : SampleBuf) (i : Nat) (a : Ask) : List Call :=
  if a.count = 0 ∨ b.decFn = 0 then [] else [b.decoderCall i a]

theorem SampleBuf.decoderCalls_none (b : SampleBuf) (i : Nat) {a : Ask} (ha : a.count = 0) : b.decoderCalls i a = [] :=
  if_pos (.inl ha)

theorem SampleBuf.decoderCalls_some (b : SampleBuf) (i : Nat) {a : Ask} (ha : a.count ≠ 0) :
    b.decoderCalls i a = if b.decFn = 0 then [] else [b.decoderCall i a] := if_congr (or_iff_right ha) rfl rfl

theorem callDecoder_calls {s : State} {i p n : Nat} {seeking : Bool} (hn : n ≠ 0) (hfn : (s.sb i).decFn ≠ 0)
    (hwrap : (s.sb i).decFn ≠ wrapCb) :
    callDecoder i p n seeking s = rawRead i (s.sb i).decFn (s.sb i).decCtx p n seeking s := by
  have hasks : ¬ (n = 0 ∨ (s.sb i).decFn = 0) := not_or.mpr ⟨hn, hfn⟩
  rw [callDecoder, act_get_bind, if_neg hasks, if_neg hwrap]

/-- A decoder that does nothing, or is not asked, is at most one more entry in the trace of calls. -/
theorem callDecoder_quiet {s : State} {i : Nat} {a : Ask} (h : a.count = 0 ∨ s.quiet ∧ (s.sb i).decFn ≠ wrapCb) :
    callDecoder i a.first a.count a.seeking s = .ok () { s with calls := s.calls ++ (s.sb i).decoderCalls i a } := by
  rw [SampleBuf.decoderCalls]
  split
  · next hnone =>
    rw [callDecoder, act_get_bind, if_pos hnone, List.append_nil]
    rfl
  · next hasks =>
    obtain ⟨hn, hfn⟩ := not_or.mp hasks
    obtain ⟨hq, hwrap⟩ := h.resolve_left hn
    rw [callDecoder_calls hn hfn hwrap, rawRead, act_bind_ok (callHost_quiet hq _ _ _ _ _)]
    rfl

/-! ### `SB_GET` (R187, R188) -/

section
variable {s : State} {ch : Byte} {p n : Word} {b : SampleBuf} {a : Ask} {x m : Nat} (hrun : s.mayRun (.sbGet ch p n))
  (hch : ch.toNat < 32) (hon : (s.sb ch.toNat).on = true) (hsum : p.toNat + n.toNat < 2 ^ 32)
include hrun hch hon hsum

/-- Behind its checks the command answers `x`, where the position stands in the window as it has been filled, and `m`, how much of the request
is there. -/
theorem sbGet_answers {calls : List Call} {o : Oracle} {res : List Word}
    (hfill : sbFill ch.toNat p.toNat n.toNat (s.begin (.sbGet ch p n)) =
      .ok () ((s.begin (.sbGet ch p n)).withBuffer ch.toNat b calls o res))
    (hcursor : b.readAt p.toNat = b) (hptr : b.idxPtr (p.toNat - b.wpos.toNat) = x) (hx : x < 2 ^ 32)
    (hcount : min n.toNat (b.widx.toNat - (p.toNat - b.wpos.toNat)) = m) :
    exec (.sbGet ch p n) s =
      .next (({ s with sbs := Table.put s.sbs ch.toNat b, calls := calls, oracle := o }).finish [w32 x, w32 m]) := by
  have hproc : sbGetProc ch.toNat p.toNat n.toNat (s.begin (.sbGet ch p n)) =
      .ok (x, m) ((s.begin (.sbGet ch p n)).withBuffer ch.toNat b calls o res) := by
    rw [sbGetProc_of_fill hfill, readWindow, act_get_bind, act_modify_bind, modSb_eq_withBuffer, withBuffer_withBuffer,
      withBuffer_sb _ _ _ _ _ hch, act_pure, hptr, hcount]
    exact congrArg (fun c => EStateM.Result.ok (x, m) ((s.begin (.sbGet ch p n)).withBuffer ch.toNat c calls o res)) hcursor
  have hargs : p.toNat + n.toNat ≤ 0xFFFFFFFF := Nat.le_of_lt_succ hsum
  have hbody : sbGet ch p n (s.begin (.sbGet ch p n)) =
      .ok [w32 x, w32 m] ((s.begin (.sbGet ch p n)).withBuffer ch.toNat b calls o res) := by
    rw [sbGet, act_bind_ok (sbOn_ready (ch := ch) hrun rfl hch hon), ensure_bind, if_pos hargs, act_bind_ok hproc,
      act_bind_ok (resultWord_fits hx _), act_pure]
  exact (command_reply hrun.1 hbody).trans rfl

variable (hopened : (s.sb ch.toNat).opened p.toNat = b) (hask : (s.sb ch.toNat).ask p.toNat n.toNat = a)
  (hptr : b.idxPtr (p.toNat - b.wpos.toNat) = x) (hx : x < 2 ^ 32)
include hopened hask hptr hx

/-- A read whose decoder supplies nothing: the request is in the trace of calls, and the answer is what the opened buffer holds. -/
theorem sbGet_quiet (hquiet : a.count = 0 ∨ s.quiet ∧ (s.sb ch.toNat).decFn ≠ wrapCb)
    (hcount : min n.toNat (b.widx.toNat - (p.toNat - b.wpos.toNat)) = m) :
    exec (.sbGet ch p n) s =
      .next (({ s with sbs := Table.put s.sbs ch.toNat b, calls := s.calls ++ (s.sb ch.toNat).decoderCalls ch.toNat a }).finish
        [w32 x, w32 m]) := by
  obtain ⟨-, hfn, hctx⟩ := (s.sb ch.toNat).opened_decoder p.toNat
  let t : State := (s.begin (.sbGet ch p n)).modSb ch.toNat fun b => b.opened p.toNat
  have hsb : t.sb ch.toNat = b := (modSb_sb_same _ (fun b => b.opened p.toNat) hch).trans hopened
  rw [hopened] at hfn hctx
  have hcalls : (t.sb ch.toNat).decoderCalls ch.toNat a = (s.sb ch.toNat).decoderCalls ch.toNat a := by
    rw [SampleBuf.decoderCalls, SampleBuf.decoderCall, hsb, hfn, hctx]
    rfl
  have hfill : sbFill ch.toNat p.toNat n.toNat (s.begin (.sbGet ch p n)) =
      .ok () ((s.begin (.sbGet ch p n)).withBuffer ch.toNat b (s.calls ++ (s.sb ch.toNat).decoderCalls ch.toNat a) s.oracle []) := by
    rw [sbFill_eq hch, begin_sb, hask, callDecoder_quiet (s := t) (by rw [hsb, hfn]; exact hquiet), hcalls, ← hopened]
    rfl
  exact sbGet_answers hrun hch hon hsum hfill (hopened ▸ SampleBuf.opened_readAt _ p.isLt) hptr hx hcount

/-- A read whose decoder appends `k` samples that fit behind what the opened buffer holds. -/
theorem sbGet_appends {b' : SampleBuf} {q : Packet} {rest : List Word} {k r : Word} (happ : s.appends ch q rest k r)
    (hsome : (s.sb ch.toNat).decFn ≠ 0) (hwrap : (s.sb ch.toNat).decFn ≠ wrapCb) (ha : a.count ≠ 0)
    (hroom : b.widx.toNat + k.toNat ≤ b.size) (hend : b.idxPtr b.widx.toNat < 2 ^ 32) (hgrown : b.grown k.toNat = b')
    (hcount : min n.toNat (b.widx.toNat + k.toNat - (p.toNat - b.wpos.toNat)) = m) :
    exec (.sbGet ch p n) s =
      .next (({ s with
        sbs := Table.put s.sbs ch.toNat b'
        calls := s.calls ++ [(s.sb ch.toNat).decoderCall ch.toNat a]
        oracle := { s.oracle with runs := [] } }).finish [w32 x, w32 m]) := by
  obtain ⟨hopenOn, hfn, hctx⟩ := (s.sb ch.toNat).opened_decoder p.toNat
  let t : State := (s.begin (.sbGet ch p n)).modSb ch.toNat fun b => b.opened p.toNat
  have hsb : t.sb ch.toNat = b := (modSb_sb_same _ (fun b => b.opened p.toNat) hch).trans hopened
  rw [hopened] at hopenOn hfn hctx
  have hfits : t.Accepts ch k := ⟨hch, by rw [hsb, hopenOn, hon], by rw [hsb]; exact hroom, by rw [hsb]; exact hend⟩
  have hcall := callDecoder_calls (s := t) (p := a.first) (seeking := a.seeking) ha (by rw [hsb, hfn]; exact hsome)
    (by rw [hsb, hfn]; exact hwrap)
  have hfill : sbFill ch.toNat p.toNat n.toNat (s.begin (.sbGet ch p n)) =
      .ok () ((s.begin (.sbGet ch p n)).withBuffer ch.toNat (b.grown k.toNat)
        (s.calls ++ [(s.sb ch.toNat).decoderCall ch.toNat a]) { s.oracle with runs := [] } [w32 (b.idxPtr b.widx.toNat)]) := by
    rw [sbFill_eq hch, begin_sb, hask, hcall, rawRead_appends (s := t) happ hfits, hsb, hfn, hctx]
    exact congrArg (EStateM.Result.ok ()) (withBuffer_withBuffer _ _ _ _ _ _ _ _ _)
  have hcursor : b.readAt p.toNat = b := hopened ▸ SampleBuf.opened_readAt _ p.isLt
  subst hgrown
  exact sbGet_answers hrun hch hon hsum hfill (SampleBuf.grown_readAt hcursor _) hptr hx
    (by rw [SampleBuf.grown_widx hroom]; exact hcount)

end

/-- Settles O29: a request that is held asks for nothing; a longer one asks for what is missing behind the window, and the decoder appends
nothing, or samples that fit. -/
theorem sbGetHeldWindow : Obligations.SbGetHeldWindow := by
  intro s ch p n b j moved hrun hch hon hsum hfilled hlow hptr
  have hit : j ≤ b.widx.toNat → b.hit p.toNat := fun hj => ⟨hfilled, hlow, by omega⟩
  have hopened : b.hit p.toNat → b.opened p.toNat = { b with ridx := p - b.wpos } :=
    fun h => (SampleBuf.opened_hit h).trans (SampleBuf.readAt_eq_sub hlow)
  have hmissing : b.widx.toNat < j + n.toNat → roundUp8 (j + n.toNat) - b.widx.toNat ≠ 0 :=
    fun hshort => Nat.sub_ne_zero_of_lt (hshort.trans_le (le_roundUp8 _))
  refine ⟨fun hheld => ?_, fun hj hshort hq hwrap => ?_, fun q rest k r hj hshort happ hfn hwrap hroom hend => ?_⟩
  · have h := hit (by omega)
    have hcount : min n.toNat (b.widx.toNat - j) = n.toNat := by omega
    have hanswer := sbGet_quiet hrun hch hon hsum (hopened h) (SampleBuf.ask_held h hheld) rfl hptr (.inl rfl) hcount
    rw [SampleBuf.decoderCalls_none _ _ rfl, List.append_nil, w32_toNat] at hanswer
    exact hanswer
  · have h := hit hj
    have hcount : min n.toNat (b.widx.toNat - j) = b.widx.toNat - j := by omega
    have hanswer := sbGet_quiet hrun hch hon hsum (hopened h) (SampleBuf.ask_short h hshort) rfl hptr (.inr ⟨hq, hwrap⟩) hcount
    rw [SampleBuf.decoderCalls_some _ _ (hmissing hshort)] at hanswer
    exact hanswer
  · have h := hit hj
    exact sbGet_appends hrun hch hon hsum (hopened h) (SampleBuf.ask_short h hshort) rfl hptr happ hfn hwrap (hmissing hshort) hroom hend
      (SampleBuf.grown_eq_add _ k) rfl

/-- Settles O30: outside the window the buffer is emptied at the position, and all of the request is asked for. -/
theorem sbGetMiss : Obligations.SbGetMiss := by
  intro s ch p n b hrun hch hon hsum hwrap hout call
  have hmiss : ¬ b.hit p.toNat := by
    rintro ⟨hfilled, hlow, hhigh⟩
    rcases hout with hempty | hout
    · exact hfilled.ne' (congrArg BitVec.toNat hempty)
    · omega
  let e : SampleBuf := { b with wpos := p, widx := 0, ridx := 0 }
  have hopened : b.opened p.toNat = e := by rw [SampleBuf.opened_miss hmiss, SampleBuf.emptyAt, w32_toNat]
  have hptr : e.idxPtr (p.toNat - p.toNat) = b.base.toNat := by rw [Nat.sub_self, SampleBuf.idxPtr_zero]
  have hnone : roundUp8 n.toNat = 0 ↔ n = 0 :=
    ⟨fun h => BitVec.eq_of_toNat_eq (Nat.le_zero.mp (h ▸ le_roundUp8 n.toNat)), fun h => by rw [h]; rfl⟩
  refine ⟨fun hq => ?_, fun q rest k r happ hn hfn hroom => ?_⟩
  · have hanswer := sbGet_quiet (m := 0) hrun hch hon hsum hopened (SampleBuf.ask_miss hmiss _) hptr b.base.isLt (.inr ⟨hq, hwrap⟩)
      (by rw [Nat.sub_self]; exact Nat.min_zero _)
    have hcalls : b.decoderCalls ch.toNat ⟨p.toNat, roundUp8 n.toNat, true⟩ = if n = 0 ∨ b.decFn = 0 then [] else [call] :=
      if_congr (or_congr_left hnone) rfl rfl
    rw [hcalls, w32_toNat] at hanswer
    exact hanswer
  · have hcount : min n.toNat (0 + k.toNat - (p.toNat - p.toNat)) = min n.toNat k.toNat := by omega
    have hgrown : e.grown k.toNat = { b with wpos := p, widx := k, ridx := 0 } := by
      rw [SampleBuf.grown_eq_add, show e.widx + k = k from BitVec.zero_add k]
    have hanswer := sbGet_appends hrun hch hon hsum hopened (SampleBuf.ask_miss hmiss _) hptr b.base.isLt happ hfn hwrap (mt hnone.mp hn)
      ((Nat.zero_add _).trans_le hroom) (e.idxPtr_zero.trans_lt b.base.isLt) hgrown hcount
    rw [w32_toNat] at hanswer
    exact hanswer

end Sys2Proof.Machine
end

section
/-!
SUPPORT. The engine's and the channels' settings (spec/43_mixer_channel.md R213, R214, R216, R223, R224).
-/

namespace Sys2Proof.Machine

set_option Elab.async false

/-! ### `MX_SAMPLE_RATE` and `MX_SET_MASTER_VOLUME` (R213, R214) -/

theorem mxSampleRate_ok {s : State} (h : s.mayRun .mxSampleRate) (hon : s.mx.on = true) :
    mxSampleRate (s.begin .mxSampleRate) = .ok [s.mx.rate] (s.begin .mxSampleRate) := by
  rw [mxSampleRate, act_bind_ok (mxOn_begin h hon), act_get_bind, act_pure]
  rfl

section
variable {s : State} {vol : Word} (h : s.mayRun (.mxSetMasterVolume vol)) (hon : s.mx.on = true)
include h hon

theorem mxSetMasterVolume_ok (hvol : vol.toNat ≤ 0x10000) : mxSetMasterVolume vol (s.begin (.mxSetMasterVolume vol)) =
    .ok () ((s.begin (.mxSetMasterVolume vol)).modMx fun m => { m with master := q15Of vol }) := by
  rw [mxSetMasterVolume, act_bind_ok (mxOn_begin h hon), act_bind_ok (volQ15_ok hvol _), act_modify]

theorem mxSetMasterVolume_over (hvol : 0x10000 < vol.toNat) : mxSetMasterVolume vol (s.begin (.mxSetMasterVolume vol)) =
    .error .fatal ((s.begin (.mxSetMasterVolume vol)).enterFaulted .badArg vol) := by
  rw [mxSetMasterVolume, act_bind_ok (mxOn_begin h hon), act_bind_error (volQ15_over hvol _)]

end

/-- Settles O36: with the engine off both commands fail their check; with it on, the fraction is converted or refused. -/
theorem mxRateAndMasterVolume : Obligations.MxRateAndMasterVolume := by
  refine fun s => ⟨fun h => ?_, fun vol h => ?_⟩
  · split
    · next hoff => exact command_reply_fatal h.1 (act_bind_error (mxOn_begin_off h hoff))
    · next hon => exact (command_reply h.1 (mxSampleRate_ok h (eq_true_of_ne_false hon))).trans rfl
  · split
    · next hoff => exact command_replyNone_fatal h.1 (act_bind_error (mxOn_begin_off h hoff))
    · next hon =>
      have hon : s.mx.on = true := eq_true_of_ne_false hon
      split
      · next hvol => exact (command_replyNone h.1 (mxSetMasterVolume_ok h hon hvol)).trans rfl
      · next hvol => exact command_replyNone_fatal h.1 (mxSetMasterVolume_over h hon (Nat.lt_of_not_le hvol))

/-! ### `CH_SET_FREQUENCY` and `CH_SET_POSITION` (R223, R224, R252) -/

/-- A command without a response whose body is one check and one update. -/
theorem command_replyNone_ite {i : Instr} {body : Act Unit} {s t u : State} {p : Prop} [Decidable p] (hf : s.fault = none)
    (h : body (s.begin i) = if p then .ok () t else .error .fatal u) :
    command i (replyNone body) s = .next (if p then t.finish [] else u) := by
  split at h
  · next hp => rw [command_replyNone hf h, if_pos hp]
  · next hp => rw [command_replyNone_fatal hf h, if_neg hp]

/-- Behind its checks `CH_SET_FREQUENCY` tests the limit. -/
theorem chSetFrequency_ready {s : State} {ch : Byte} {freq : Word} (h : s.channelReady (.chSetFrequency ch freq)) (hrate : s.mx.rate ≠ 0) :
    chSetFrequency ch freq (s.begin (.chSetFrequency ch freq)) =
      if freq.toNat ≤ (s.chan ch.toNat).limits.maxFreq.toNat then
        .ok () ((s.begin (.chSetFrequency ch freq)).modDesc ch.toNat fun d =>
          { d with step := w32 (freq.toNat / (16 * s.mx.rate.toNat) * 2 ^ d.bps) })
      else .error .fatal ((s.begin (.chSetFrequency ch freq)).enterFaulted .limitExceeded (ch.setWidth 32)) := by
  have hstep : ∀ b, stepOf freq s.mx.rate b = w32 (freq.toNat / (16 * s.mx.rate.toNat) * 2 ^ b) := fun _ => if_neg hrate
  rw [chSetFrequency, act_bind_ok (chanChecks_ready (ch := ch) h rfl), act_get_bind, ensure_bind]
  simp only [act_modify, State.begin_mx, hstep]
  rfl

/-- Behind its checks `CH_SET_POSITION` tests that the position fits. -/
theorem chSetPosition_ready {s : State} {ch : Byte} {pos : Word} (h : s.channelReady (.chSetPosition ch pos)) :
    chSetPosition ch pos (s.begin (.chSetPosition ch pos)) =
      if s.positionField ch.toNat pos < 2 ^ 32 then
        .ok () ((s.begin (.chSetPosition ch pos)).modDesc ch.toNat fun d => { d with pos := w32 (s.positionField ch.toNat pos) })
      else .error .fatal ((s.begin (.chSetPosition ch pos)).enterFaulted .posOverflow (ch.setWidth 32)) := by
  rw [chSetPosition, act_bind_ok (chanChecks_ready (ch := ch) h rfl), act_get_bind, ensure_bind]
  exact if_congr Nat.lt_succ_iff.symm rfl rfl

/-- Settles O42: each command is its one check, behind it one update of the descriptor. -/
theorem chFrequencyAndPosition : Obligations.ChFrequencyAndPosition := fun _ _ =>
  ⟨fun _ h hrate => (command_replyNone_ite h.1.1 (chSetFrequency_ready h hrate)).trans rfl,
    fun _ h => (command_replyNone_ite h.1.1 (chSetPosition_ready h)).trans rfl⟩

/-! ### `CH_SET_LIMITS` (R216) -/

/-- The allocated regions without the sample-buffer memory. -/
def State.allocsFreed (s : State) : List (Nat × Nat) :=
  if s.mx.bufMem = 0 then s.allocs else s.allocs.eraseP fun c => c.1 == s.mx.bufMem.toNat

theorem freeBufMem_apply (s : State) : freeBufMem s = .ok () { s with allocs := s.allocsFreed } := by
  rw [freeBufMem, act_get_bind, act_ite, State.allocsFreed]
  split
  · rfl
  · exact freeRegion_apply _ s

theorem unbindAll_sb (s : State) {i : Nat} (hi : i < 32) :
    s.unbindAll.sb i = if i < s.mx.nch.toNat then { s.sb i with on := false } else s.sb i := by
  rw [State.sb, State.unbindAll, Table.at_mapBelow _ _ _ hi, State.sb]

theorem unbindAll_chan (s : State) {c : Nat} (hc : c < 32) : s.unbindAll.chan c = { s.chan c with
    wave := if c < s.mx.nch.toNat then { (s.chan c).wave with id := 0 } else (s.chan c).wave } := by
  rw [State.chan, State.unbindAll, Table.at_mapBelow _ _ _ hc, State.chan]
  split <;> rfl

theorem engineOff_sb (s : State) {i : Nat} (hi : i < 32) :
    s.engineOff.sb i = if i < s.mx.nch.toNat then { s.sb i with on := false } else s.sb i := by
  rw [State.sb, State.engineOff, Table.at_mapBelow _ _ _ hi, State.sb]

/-- `s` with channel `c` at limits `l`. -/
def State.limited (s : State) (c : Nat) (l : Limits) : State := s.modChan c fun x => { x with limits := l }

theorem limited_chan (s : State) (c : Nat) (l : Limits) {k : Nat} (hk : k < 32) :
    (s.limited c l).chan k = { s.chan k with limits := if k = c then l else (s.chan k).limits } := by
  by_cases hkc : k = c
  · subst hkc
    rw [State.limited, modChan_chan_same s _ hk, if_pos rfl]
  · rw [State.limited, modChan_chan_other s _ hkc, if_neg hkc]

/-- `s` with the sample-buffer memory the allocator's again. -/
def State.bufMemFreed (s : State) : State := { s with mx := { s.mx with bufMem := 0 }, allocs := s.allocsFreed }

/-- `s` with channel `c` at limits `l`, the sample-buffer memory freed, and every channel unbound. -/
def State.limitsSet (s : State) (c : Nat) (l : Limits) : State := (s.limited c l).bufMemFreed.unbindAll

theorem limitsSet_sb (s : State) (c : Nat) (l : Limits) {i : Nat} (hi : i < 32) :
    (s.limitsSet c l).sb i = if i < s.mx.nch.toNat then { s.sb i with on := false } else s.sb i :=
  unbindAll_sb (s.limited c l).bufMemFreed hi

theorem limitsSet_chan (s : State) (c : Nat) (l : Limits) {k : Nat} (hk : k < 32) :
    (s.limitsSet c l).chan k = { s.chan k with
      limits := if k = c then l else (s.chan k).limits
      wave := if k < s.mx.nch.toNat then { (s.chan k).wave with id := 0 } else (s.chan k).wave } := by
  have hlimited : (s.limited c l).bufMemFreed.chan k = _ := limited_chan s c l hk
  rw [State.limitsSet, unbindAll_chan _ hk, hlimited]
  rfl

theorem chSetLimits_ready {s : State} {ch : Byte} {maxBits maxFreq maxBuf : Word}
    (h : s.channelReady (.chSetLimits ch maxBits maxFreq maxBuf)) (hbits : maxBits = 8 ∨ maxBits = 16) (hfreq : maxFreq ≠ 0)
    (hbuf : maxBuf.toNat % 8 = 0) (hidle : ∀ c < s.mx.nch.toNat, (s.desc c).ptr = 0) :
    chSetLimits ch maxBits maxFreq maxBuf (s.begin (.chSetLimits ch maxBits maxFreq maxBuf)) =
      .ok () ((s.begin (.chSetLimits ch maxBits maxFreq maxBuf)).limitsSet ch.toNat ⟨maxBits.setWidth 8, maxFreq, maxBuf⟩) := by
  have hnone : ¬ (s.begin (.chSetLimits ch maxBits maxFreq maxBuf)).anyPlaying := fun ⟨c, hc, hplaying⟩ =>
    hplaying (hidle c (List.mem_range.mp hc))
  rw [chSetLimits, act_bind_ok (chanChecks_ready (ch := ch) h rfl), ensure_bind, if_pos hbits, ensure_bind, if_pos hfreq, ensure_bind,
    if_pos hbuf, act_get_bind, ensureState_bind, if_pos hnone, act_modify_bind, act_bind_ok (freeBufMem_apply _), act_modify]
  rfl

/-- Settles O38: the checks pass, and the rest is one update. -/
theorem chSetLimitsEffect : Obligations.ChSetLimitsEffect := by
  intro s ch maxBits maxFreq maxBuf h hnch hbits hfreq hbuf hidle
  refine ⟨_, command_replyNone h.1.1 (chSetLimits_ready h hbits hfreq hbuf hidle), rfl, fun i hi => ?_, fun c hc => ?_⟩
  · exact limitsSet_sb s ch.toNat ⟨maxBits.setWidth 8, maxFreq, maxBuf⟩ hi
  · exact limitsSet_chan s ch.toNat ⟨maxBits.setWidth 8, maxFreq, maxBuf⟩ hc

/-! ### `MX_CLOSE` (R212) -/

/-- The engine closed, and its ring and its sample-buffer memory the allocator's again. -/
def State.mxClosed (s : State) : State :=
  let stopped : State := { s with
    ai := { s.ai with dmaEn := false }, allocs := s.allocs.eraseP fun c => c.1 == s.ring.base.toNat }
  ({ stopped with allocs := stopped.allocsFreed } : State).engineOff

theorem mxClosed_engineClosed (s : State) : s.engineClosed s.mxClosed :=
  ⟨rfl, fun _ hi => engineOff_sb _ hi, rfl⟩

theorem mxCloseWait_drained {s : State} (h : s.ai.fifo = []) : mxCloseWait s = .ok (.done []) s.mxClosed := by
  have hstop : aiWrite .control 0 s = .ok () { s with ai := { s.ai with dmaEn := false } } := rfl
  rw [mxCloseWait, act_get_bind, if_pos (hwCount_eq_zero.mpr h), act_bind_ok hstop, act_bind_ok (freeRegion_apply _ _),
    act_bind_ok (freeBufMem_apply _), act_modify_bind, act_pure]
  rfl

theorem mxCloseWait_busy {s : State} (h : s.ai.fifo ≠ []) : mxCloseWait s = .ok (.wait .mxClose) s := by
  rw [mxCloseWait, act_get_bind, if_neg fun h0 => h (hwCount_eq_zero.mp h0), act_pure]

/-- The pending block is dropped. -/
def State.pendingDropped (s : State) : State := { s with ring := { s.ring with pending := none } }

/-- Behind its check the command drops the pending block and looks at the device once. -/
theorem exec_mxClose {s : State} (hrun : s.mayRun .mxClose) (hon : s.mx.on = true) (hq : s.quiet) (hdepth : s.irqDepth ≠ 0xFFFFFFFF) :
    exec .mxClose s = settle (mxCloseWait (s.pendingDropped.begin .mxClose)) := by
  have hsection : critical (modify fun s => s.modRing fun r => { r with pending := none }) (s.begin .mxClose) =
      .ok () (s.pendingDropped.begin .mxClose) := critical_modify (s := s.begin .mxClose) hdepth rfl
  have hboundary : boundary (s.pendingDropped.begin .mxClose) = .ok () (s.pendingDropped.begin .mxClose) := boundary_quiet hq
  refine (command_running hrun.1).trans (congrArg settle ?_)
  rw [mxClose, act_bind_ok (mxOn_begin hrun hon), act_bind_ok hsection, act_bind_ok hboundary]

/-- Settles O35: the command and each later turn look at the device, and close the engine once it has drained. -/
theorem mxCloseEffect : Obligations.MxCloseEffect := by
  intro s hrun hon hq hdepth dropped
  refine ⟨fun hdrained => ⟨dropped.mxClosed, mxClosed_engineClosed _, ?_⟩, fun hbusy => ?_,
    fun u => ⟨fun hdrained => ⟨_, mxClosed_engineClosed u, mxCloseWait_drained hdrained⟩, mxCloseWait_busy⟩⟩
  · rw [exec_mxClose hrun hon hq hdepth, mxCloseWait_drained (s := s.pendingDropped.begin .mxClose) hdrained]
    rfl
  · rw [exec_mxClose hrun hon hq hdepth, mxCloseWait_busy (s := s.pendingDropped.begin .mxClose) hbusy]
    rfl

end Sys2Proof.Machine
end

section
/-!
SUPPORT. The loop-aware read wrapper in an environment whose decoders do nothing (spec/43_mixer_channel.md R230 to R234): which raw reads it makes.
-/

namespace Sys2Proof.Machine

set_option Elab.async false

/-! ### Raw reads (R199, R231) -/

/-- A request to the raw read of a waveform: `count` samples at `first`. -/
abbrev Wave.call (w : Wave) (c : Nat) (r : Nat × Nat × Nat) : Call := ⟨w.read, [w.ctx.toNat, c, r.1, r.2.1, r.2.2]⟩

/-- `s` after these raw reads of waveform `w`. -/
def State.afterReads (s : State) (c : Nat) (w : Wave) (reads : List (Nat × Nat × Nat)) : State :=
  { s with calls := s.calls ++ reads.map (w.call c) }

theorem afterReads_nil (s : State) (c : Nat) (w : Wave) : s.afterReads c w [] = s := by
  rw [State.afterReads, List.map_nil, List.append_nil]

theorem afterReads_cons (s : State) (c : Nat) (w : Wave) (r : Nat × Nat × Nat) (rs : List (Nat × Nat × Nat)) :
    (s.afterReads c w [r]).afterReads c w rs = s.afterReads c w (r :: rs) := by
  show { s with calls := s.calls ++ [w.call c r] ++ rs.map (w.call c) } = _
  rw [List.append_assoc]
  rfl

theorem rawRead_quiet {s : State} (h : s.quiet) (c : Nat) (w : Wave) (p n : Nat) (seeking : Bool) :
    rawRead c w.read w.ctx p n seeking s = .ok () (s.afterReads c w [(p, n, boolArg seeking)]) := by
  rw [rawRead, act_bind_ok (callHost_quiet h _ _ _ _ _)]
  rfl

/-- A raw read asks for samples of the waveform: one or more, and none behind its end (R234). -/
def Wave.Inside (w : Wave) (r : Nat × Nat × Nat) : Prop := 1 ≤ r.2.1 ∧ r.1 + r.2.1 ≤ w.len.toNat

/-! ### The segments of a request (R231, R232) -/

/-- The raw reads of the loop-body segments. -/
def Wave.segments (w : Wave) : Nat → Nat → List (Nat × Nat × Nat)
  | 0, _ => []
  | fuel + 1, rem =>
    if rem = 0 then [] else (w.loopStart, min w.loop.toNat rem, 1) :: w.segments fuel (rem - min w.loop.toNat rem)

theorem loopSegments_quiet {s : State} (h : s.quiet) (c : Nat) (w : Wave) (fuel rem : Nat) :
    loopSegments c w fuel rem s = .ok () (s.afterReads c w (w.segments fuel rem)) := by
  induction fuel generalizing s rem with
  | zero => rw [Wave.segments, afterReads_nil]; rfl
  | succ fuel ih =>
    rw [loopSegments, Wave.segments]
    split
    · rw [afterReads_nil]; rfl
    · rw [act_bind_ok (rawRead_quiet h _ _ _ _ _), ih (s := s.afterReads c w _) h, afterReads_cons]
      rfl

section
variable {w : Wave} (hloop : 0 < w.loop.toNat) (hle : w.loop.toNat ≤ w.len.toNat)
include hloop

/-- The segments together ask for exactly what is left; each is at least one sample long, so there are enough of them. -/
theorem Wave.segments_sum {fuel rem : Nat} (h : rem ≤ fuel) : ((w.segments fuel rem).map fun r => r.2.1).sum = rem := by
  induction fuel generalizing rem with
  | zero => exact (Nat.le_zero.mp h).symm
  | succ fuel ih =>
    rw [Wave.segments]
    split
    · next h0 => rw [h0]; rfl
    · rw [List.map_cons, List.sum_cons, ih (by omega)]
      exact Nat.add_sub_of_le (Nat.min_le_right _ _)

include hle

theorem Wave.segments_inside (fuel rem : Nat) : ∀ r ∈ w.segments fuel rem, w.Inside r := by
  induction fuel generalizing rem with
  | zero => exact fun r hr => absurd hr List.not_mem_nil
  | succ fuel ih =>
    rw [Wave.segments]
    split
    · exact fun r hr => absurd hr List.not_mem_nil
    · refine List.forall_mem_cons.mpr ⟨?_, ih _⟩
      simp only [Wave.Inside, Wave.loopStart]
      omega

/-- An unrolled position stands for one inside the waveform (R232). -/
theorem Wave.rolled_lt (p : Nat) : w.rolled p < w.len.toNat := by
  rw [Wave.rolled, Wave.loopStart]
  split
  · have hmod := Nat.mod_lt (p - (w.len.toNat - w.loop.toNat)) hloop
    omega
  · omega

end

/-! ### The wrapper (R231, R234) -/

/-- The raw reads of a request on a waveform without a loop: none behind its end. -/
theorem readWrapper_noLoop {s : State} {c p n : Nat} {seeking : Bool} (hq : s.quiet) (h : (s.chan c).wave.loop = 0) :
    readWrapper c p n seeking s = .ok () (s.afterReads c (s.chan c).wave
      (if (s.chan c).wave.len.toNat ≤ p then [] else [(p, min n ((s.chan c).wave.len.toNat - p), boolArg seeking)])) := by
  rw [readWrapper, act_get_bind, if_pos h]
  split
  · rw [afterReads_nil]; rfl
  · exact rawRead_quiet hq _ _ _ _ _

/-- The raw reads of a request on a looping waveform: up to its end, and then loop by loop. -/
theorem readWrapper_loop {s : State} {c p n : Nat} {seeking : Bool} (hq : s.quiet) :
    let w := (s.chan c).wave
    let m := min n (w.len.toNat - w.rolled p)
    w.loop ≠ 0 → n - m ≤ w.maxRemainder → readWrapper c p n seeking s = .ok () (s.afterReads c w
      ((w.rolled p, m, boolArg (seeking || decide (w.len.toNat ≤ p))) :: w.segments (n - m) (n - m))) := by
  intro w m h hrem
  rw [readWrapper, act_get_bind, if_neg h, act_bind_ok (rawRead_quiet hq _ _ _ _ _), if_pos hrem,
    loopSegments_quiet (s := s.afterReads c w _) hq, afterReads_cons]

/-- Settles O44: without a loop there is at most one raw read, cut at the end; with one, the first is cut at the end and the others are in the
loop. -/
theorem rawReadsStayInside : Obligations.RawReadsStayInside := by
  intro s c p n seeking w hq hn hle hrem
  by_cases hloop : w.loop = 0
  · refine ⟨_, readWrapper_noLoop hq hloop, fun r hr => ?_, fun h => absurd hloop h⟩
    split at hr
    · exact absurd hr List.not_mem_nil
    · next hp =>
      rw [List.mem_singleton.mp hr]
      have hlt : p < w.len.toNat := Nat.lt_of_not_le hp
      show 1 ≤ min n (w.len.toNat - p) ∧ p + min n (w.len.toNat - p) ≤ w.len.toNat
      omega
  · have hpos : 0 < w.loop.toNat := Nat.pos_of_ne_zero (loop_toNat_ne hloop)
    have hlt : w.rolled p < w.len.toNat := Wave.rolled_lt hpos hle p
    refine ⟨_, readWrapper_loop hq hloop (hrem hloop), List.forall_mem_cons.mpr ⟨?_, Wave.segments_inside hpos hle _ _⟩, fun _ => ?_⟩
    · show 1 ≤ min n (w.len.toNat - w.rolled p) ∧ w.rolled p + min n (w.len.toNat - w.rolled p) ≤ w.len.toNat
      omega
    · rw [List.map_cons, List.sum_cons, Wave.segments_sum hpos (le_refl _)]
      exact Nat.add_sub_of_le (Nat.min_le_left _ _)

end Sys2Proof.Machine
end

section
/-!
SUPPORT. `MX_INIT` and the first buffer allocation with an allocator that answers (spec/43_mixer_channel.md R210, R211, R217).
-/

namespace Sys2Proof.Machine

set_option Elab.async false

/-! ### `MX_INIT` (R210, R211) -/

/-- The ring for this rate is at `a`: allocated and zeroed. -/
def State.ringMade (s : State) (actual : Nat) (a : Word) (more : List (Option Word)) : State :=
  ({ s with
    mx := { s.mx with rate := w32 actual }, ring := { s.ring with nf := w32 (ringFrames actual) }
    oracle := { s.oracle with allocs := more }, allocs := (a.toNat, 4 * ringFrames actual) :: s.allocs } : State).cpuClear
      a.toNat (4 * ringFrames actual)

/-- The engine is on and owns the device, which plays at the rate's divisor. -/
def State.engineStarted (s : State) (dacrate : Nat) : State := { s with
  owner := .engine, mx := { s.mx with on := true }
  ai := { s.ai with dacrate := BitVec.ofNat 14 dacrate, bitrate := 15, dmaEn := true } }

theorem startEngine_apply (n : Nat) (s : State) :
    (do startDevice n
        modify fun s => { s.modMx (fun m => { m with on := true }) with owner := .engine } : Act Unit) s = .ok () (s.engineStarted n) := by
  rw [act_bind_ok (startDevice_apply n s), act_modify, State.engineStarted, dacrate_field]
  rfl

theorem Table.at_map {α : Type} [Inhabited α] (t : Table α) (f : α → α) {k : Nat} (h : k < tableSize) :
    Table.at (t.map f) k = f (Table.at t k) := by
  simp [Table.at, h]

theorem engineFresh_chan (s : State) (channels : Half) (rate ring : Word) {c : Nat} (hc : c < 32) :
    (s.engineFresh channels rate ring).chan c = (s.chan c).fresh rate := by
  rw [State.chan, State.engineFresh, Table.at_map _ _ hc, State.chan]

theorem engineFresh_sb (s : State) (channels : Half) (rate ring : Word) {i : Nat} (hi : i < 32) :
    (s.engineFresh channels rate ring).sb i = if i < channels.toNat then { s.sb i with on := false } else s.sb i := by
  rw [State.sb, State.engineFresh, Table.at_mapBelow _ _ _ hi, State.sb]

/-- Behind its checks the command makes the ring and starts the engine. -/
theorem mxInit_begin {s : State} {channels : Half} {rate a : Word} {more : List (Option Word)}
    (hrun : s.mayRun (.mxInit channels rate)) (howner : s.owner = .none) (hchannels : 1 ≤ channels.toNat ∧ channels.toNat ≤ 32)
    (hrate : rateValid s.params.videoClockHz rate.toNat ∧ rate.toNat < 65536) (hallocs : s.oracle.allocs = some a :: more)
    (hmay : s.mayAlloc a (4 * ringFrames (actualRate s.params.videoClockHz rate.toNat))) :
    mxInit channels rate (s.begin (.mxInit channels rate)) = .ok ()
      ((((s.begin (.mxInit channels rate)).ringMade (actualRate s.params.videoClockHz rate.toNat) a more).engineFresh channels rate
        a).engineStarted (dacrateReg s.params.videoClockHz rate.toNat)) := by
  obtain ⟨hlow, hhigh⟩ := hchannels
  have hcount : channels ≠ 0 ∧ channels.toNat ≤ tableSize := ⟨fun h => by rw [h] at hlow; exact absurd hlow (by decide), hhigh⟩
  let b := s.begin (.mxInit channels rate)
  let actual := actualRate s.params.videoClockHz rate.toNat
  let sized : State := { b with mx := { b.mx with rate := w32 actual }, ring := { b.ring with nf := w32 (ringFrames actual) } }
  let placed : State := { sized with
    oracle := { s.oracle with allocs := more }, allocs := (a.toNat, 4 * ringFrames actual) :: s.allocs }
  have halloc : alloc (4 * ringFrames actual) sized = .ok (some a) placed := alloc_ok hallocs hmay
  obtain ⟨-, -, hend, -⟩ := hmay
  have hzero : blockZero a.toNat (4 * ringFrames actual) placed = .ok () (b.ringMade actual a more) := blockZero_ok hend
  rw [mxInit, act_bind_ok (checkIssuer_begin hrun), act_get_bind, ensure_bind, State.begin_owner, if_pos howner, ensure_bind, if_pos hcount,
    ensure_bind, State.begin_params, if_pos hrate, act_modify_bind, act_bind_ok halloc]
  refine (act_bind_ok hzero).trans ?_
  rw [act_modify_bind]
  exact startEngine_apply _ _

/-- Settles O34: behind the checks the ring is made at the address proposed, and the fresh engine is started. -/
theorem mxInitEffect : Obligations.MxInitEffect := by
  intro s channels rate a more clk nf hrun howner hlow hhigh hrate hsmall hallocs hmay
  have hbody := mxInit_begin hrun howner ⟨hlow, hhigh⟩ ⟨hrate, hsmall⟩ hallocs hmay
  let r := (s.begin (.mxInit channels rate)).ringMade (actualRate clk rate.toNat) a more
  refine ⟨_, command_replyNone hrun.1 hbody, ?_, rfl, fun c hc => ?_, fun i hi => ?_, fun x => ?_⟩
  · simp only [State.finish, State.engineStarted, State.engineFresh, State.ringMade, State.cpuClear, State.begin]
    rfl
  · have hchan := engineFresh_chan r channels rate a hc
    exact ⟨congrArg Channel.desc hchan, congrArg Channel.vol hchan, congrArg Channel.limits hchan, congrArg (·.wave.id) hchan⟩
  · exact engineFresh_sb r channels rate a hi
  · exact Memory.read_clear s.mem a.toNat (4 * nf) x

/-! ### The first buffer allocation (R217) -/

/-- Where the piece of channel `c` begins in a block at `a`. -/
def State.bufStart (s : State) (a c : Nat) : Nat := a + ((List.range c).map s.bufBytes).sum

theorem bufStart_succ (s : State) (a c : Nat) : s.bufStart a (c + 1) = s.bufStart a c + s.bufBytes c := by
  rw [State.bufStart, List.range_succ, List.map_append, List.sum_append, ← Nat.add_assoc]
  rfl

/-- The buffer of channel `c` bound to its piece of a block at `a`: empty, and at the width of its limits. -/
def State.piece (s : State) (a c : Nat) : SampleBuf :=
  { SampleBuf.bound (w32 (s.bufStart a c)) (w32 (s.bufBytes c)) with bps := BitVec.ofNat 2 (s.chan c).limits.bps }

/-- `s` with the buffer of channel `c` bound to its piece, and the cached view of the piece dropped. -/
def State.pieceBound (s : State) (a c : Nat) : State :=
  (s.invalidate (w32 (s.bufStart a c)).toNat (w32 (s.bufBytes c)).toNat).modSb c fun _ => s.piece a c

/-- One pass of the loop binds one buffer. -/
theorem bindBuffers_succ {s : State} {c : Nat} (hc : c < 32) (a n : Nat) :
    bindBuffers c (s.bufStart a c) (n + 1) s = bindBuffers (c + 1) (s.bufStart a (c + 1)) n (s.pieceBound a c) := by
  rw [bindBuffers, act_get_bind, act_bind_ok (sbInitProc_apply _ _ _ _), act_modify_bind, modSb_modSb _ _ _ hc, bufStart_succ]
  rfl

/-- `t` is `s` with the buffers of `n` channels from `c` on bound to their pieces of a block at `a`. -/
structure State.PiecesBound (s : State) (a c n : Nat) (t : State) : Prop where
  frame : t = { s with sbs := t.sbs, cache := t.cache, race := t.race }
  bound : ∀ i < 32, t.sb i = if c ≤ i ∧ i < c + n then s.piece a i else s.sb i

theorem State.PiecesBound.cons {s t : State} {a c n : Nat} (hc : c < 32) (h : (s.pieceBound a c).PiecesBound a (c + 1) n t) :
    s.PiecesBound a c (n + 1) t where
  frame := h.frame
  bound i hi := by
    have hpiece : (s.pieceBound a c).piece a i = s.piece a i := rfl
    rw [h.bound i hi, hpiece]
    by_cases hic : i = c
    · subst hic
      rw [if_neg (by omega), if_pos (by omega)]
      exact modSb_sb_same _ _ hc
    · rw [show (s.pieceBound a c).sb i = s.sb i from modSb_sb_other _ _ hic]
      exact if_congr (by omega) rfl rfl

theorem bindBuffers_binds {n c : Nat} {s : State} (a : Nat) (h : c + n ≤ 32) :
    ∃ t, bindBuffers c (s.bufStart a c) n s = .ok () t ∧ s.PiecesBound a c n t := by
  induction n generalizing c s with
  | zero => exact ⟨s, rfl, rfl, fun i _ => by rw [if_neg (by omega)]⟩
  | succ n ih =>
    have hc : c < 32 := by omega
    obtain ⟨t, hrun, ht⟩ := ih (s := s.pieceBound a c) (c := c + 1) (by omega)
    exact ⟨t, (bindBuffers_succ hc a n).trans hrun, ht.cons hc⟩

theorem bpsOf_byte (bits : Byte) : bpsOf bits.toNat = if bits = 16 then 1 else 0 :=
  if_congr (BitVec.toNat_inj (y := 16)) rfl rfl

theorem limits_bps (l : Limits) : BitVec.ofNat 2 l.bps = if l.maxBits = 16 then 1 else 0 := by
  rw [Limits.bps, bpsOf_byte, apply_ite (BitVec.ofNat 2)]
  rfl

/-- Settles O39: the block is allocated, and the loop binds every channel's buffer to its piece. -/
theorem ensureBuffersEffect : Obligations.EnsureBuffersEffect := by
  intro s a more start hnone hnch hallocs hmay
  let made : State := { s with
    mx := { s.mx with bufMem := a }, allocs := (a.toNat, s.bufTotal) :: s.allocs, oracle := { s.oracle with allocs := more } }
  obtain ⟨t, hloop, ht⟩ := bindBuffers_binds (c := 0) (n := s.mx.nch.toNat) (s := made) a.toNat (by rwa [Nat.zero_add])
  refine ⟨t, ?_, ht.frame, fun c hc => ?_⟩
  · rw [ensureBuffers, act_get_bind, if_neg (not_not.mpr hnone), act_bind_ok (alloc_ok hallocs hmay)]
    exact hloop
  · rw [ht.bound c hc, ← limits_bps]
    exact if_congr (by omega) rfl rfl

end Sys2Proof.Machine
end

section
/-!
SUPPORT. `CH_PLAY` with the sample-buffer memory there (spec/43_mixer_channel.md R218 to R220, R260): what latching and binding a waveform do to
the channel and its buffer, and the descriptor they start from.
-/

namespace Sys2Proof.Machine

set_option Elab.async false

/-! ### One channel and its buffer -/

theorem modChan_eq_withChannel (s : State) (c : Nat) (f : Channel → Channel) :
    s.modChan c f = s.withChannel c (f (s.chan c)) (s.sb c) := by
  rw [State.withChannel, State.sb, Table.put_at, State.modChan]

theorem withChannel_modChan {s : State} {c : Nat} (x : Channel) (b : SampleBuf) (hc : c < 32) (f : Channel → Channel) :
    (s.withChannel c x b).modChan c f = s.withChannel c (f x) b := by
  rw [modChan_eq_withChannel, withChannel_chan x b hc, withChannel_sb x b hc, State.withChannel, State.withChannel, Table.put_put,
    Table.put_put]
  rfl

/-- What a play of a resident loop needs: lengths that fit the descriptor (R220). -/
def Channel.LengthsFit (x : Channel) (size : Nat) : Prop :=
  x.wave.loop ≠ 0 → x.wave.loop.toNat + 80 ≤ size → x.wave.len.toNat * x.desc.scale < 2 ^ 32

section
variable {s : State} {c : Nat} {x : Channel} {b : SampleBuf} (hc : c < 32)
include hc

theorem descLengths_fits (h : x.LengthsFit b.size) :
    descLengths c (s.withChannel c x b) = .ok () (s.withChannel c (x.withLengths b.size) b) := by
  rw [descLengths, act_get_bind, withChannel_strategy x b hc, withChannel_chan x b hc, withChannel_desc x b hc]
  by_cases hloop : x.wave.loop = 0
  · rw [strategyOf_noLoop hloop]
    simp only [act_modify, withChannel_modDesc x b hc, Channel.withLengths, hloop]
    rfl
  · have hiff : (x.wave.loop ≠ 0 ∧ x.wave.loop.toNat + 80 ≤ b.size) ↔ x.wave.loop.toNat + 80 ≤ b.size := and_iff_right hloop
    rw [strategyOf_looping hloop, Channel.withLengths]
    simp only [if_neg hloop, hiff]
    by_cases hsize : x.wave.loop.toNat + 80 ≤ b.size
    · have hfit : x.wave.len.toNat * x.desc.scale ≤ descLenMax.toNat := Nat.le_of_lt_succ (h hloop hsize)
      simp only [if_pos hsize, ensure_bind, if_pos hfit, act_modify, withChannel_modDesc x b hc]
    · simp only [if_neg hsize, act_modify, withChannel_modDesc x b hc]
      rfl

theorem setPtr_points (h : b.preAdjusted x.desc.bps ≠ 0) : setPtr c (s.withChannel c x b) =
    .ok () (s.withChannel c { x with desc := { x.desc with ptr := b.preAdjusted x.desc.bps } } b) := by
  rw [setPtr, act_get_bind, withChannel_sb x b hc, withChannel_desc x b hc, ensure_bind, if_pos h, act_modify, withChannel_modDesc x b hc]

end

/-! ### Latching and binding (R219) -/

/-- A buffer bound to the loop-aware reader of channel `c`: empty at 0, at bit-width shift `k`. -/
def SampleBuf.rebound (b : SampleBuf) (c k : Nat) : SampleBuf :=
  { b.emptyAt 0 with bps := BitVec.ofNat 2 k, decFn := wrapCb, decCtx := w32 c }

theorem rebind_apply {s : State} {c : Nat} (hc : c < 32) (x : Channel) (b : SampleBuf) (k : Nat) (wave : Word) :
    rebind c k wave (s.withChannel c x b) =
      .ok () (s.withChannel c { x with wave := { x.wave with id := wave } } (b.rebound c k)) := by
  rw [rebind, act_bind_ok (sbFlushProc_apply _ _), act_modify_bind, act_modify, withChannel_modSb _ _ hc, withChannel_modSb _ _ hc,
    withChannel_modChan _ _ hc]
  rfl

/-- The buffer of channel `c` as a play of waveform `w` leaves it: bound anew, unless it is bound to this waveform. -/
def State.playBuf (s : State) (c : Nat) (w : Wave) : SampleBuf :=
  if (s.chan c).wave.id = w.id then s.sb c else (s.sb c).rebound c (bpsOf w.bits.toNat)

/-- Channel `x` at the start of waveform `w`, but for its lengths and pointer. -/
def Channel.latched (x : Channel) (w : Wave) (rate : Word) : Channel :=
  { x with wave := w, desc := x.desc.started (stepOf w.freq rate (bpsOf w.bits.toNat)) (bpsOf w.bits.toNat) }

/-- The waveform's fields are latched already, its handle last of all, where the buffer is bound. -/
theorem rebind_latched {s : State} {c : Nat} (hc : c < 32) (w : Wave) :
    (if (s.chan c).wave.id = w.id then pure () else rebind c (bpsOf w.bits.toNat) w.id : Act Unit)
        (s.modChan c fun x => { x with wave := { w with id := (s.chan c).wave.id } }) =
      .ok () (s.withChannel c { s.chan c with wave := w } (s.playBuf c w)) := by
  rw [modChan_eq_withChannel, State.playBuf]
  split
  · next hsame => rw [hsame]; rfl
  · exact rebind_apply hc _ _ _ _

/-! ### The descriptor (R219, R220, R252) -/

theorem latched_bps (x : Channel) (w : Wave) (rate : Word) : (x.latched w rate).desc.bps = bpsOf w.bits.toNat := by
  show (flagsOf (bpsOf w.bits.toNat)).toNat % 4 = bpsOf w.bits.toNat
  rw [bpsOf]
  split <;> decide

theorem latched_scale (x : Channel) (w : Wave) (rate : Word) : (x.latched w rate).desc.scale = 2 ^ (12 + bpsOf w.bits.toNat) := by
  rw [Desc.scale, latched_bps]

theorem flagsOf_bpsOf (bits : Nat) : flagsOf (bpsOf bits) = if bpsOf bits = 1 then 5 else 0 := by
  rw [bpsOf]
  split <;> rfl

/-- The channel that plays, field by field. -/
theorem latched_fetched (x : Channel) (w : Wave) (rate : Word) (b : SampleBuf) :
    let k := bpsOf w.bits.toNat
    (x.latched w rate).fetched b = { x with
      wave := w
      desc := {
        pos := 0, step := stepOf w.freq rate k, flags := if k = 1 then 5 else 0
        ptr := b.preAdjusted k
        len :=
          if w.loop = 0 then w32 (min (w.len.toNat * 2 ^ (12 + k)) 0xFFFFFFFF)
          else if w.loop.toNat + 80 ≤ b.size then w32 (w.len.toNat * 2 ^ (12 + k)) else 0xFFFFFFFF
        loopLen := if w.loop ≠ 0 ∧ w.loop.toNat + 80 ≤ b.size then w32 (w.loop.toNat * 2 ^ (12 + k)) else 0 } } := by
  intro k
  rw [Channel.fetched, Channel.withLengths, latched_bps, latched_scale, ← flagsOf_bpsOf]
  by_cases hloop : w.loop = 0
  · simp only [Channel.latched, Desc.started, hloop, if_true]
    rfl
  · have hiff : (w.loop ≠ 0 ∧ w.loop.toNat + 80 ≤ b.size) ↔ w.loop.toNat + 80 ≤ b.size := and_iff_right hloop
    simp only [Channel.latched, Desc.started, if_neg hloop, hiff]
    rfl

/-! ### The command (R218, R219) -/

theorem ensureBuffers_there {s : State} (h : s.mx.bufMem ≠ 0) : ensureBuffers s = .ok () s := by
  rw [ensureBuffers, act_get_bind, if_pos h, act_pure]

/-- A statement that is passed over where a condition holds, and what follows in both cases. -/
theorem unless_bind {α : Type} (p : Prop) [Decidable p] (x : Act Unit) (f : Unit → Act α) (s : State) :
    (if p then f () else x >>= f) s = ((if p then pure () else x) >>= f) s := by
  split <;> rfl

/-- The descriptor starts over, and gets its lengths and its pointer. -/
theorem startPlay_ok {s : State} {c : Nat} {w : Wave} {b : SampleBuf} (hc : c < 32) (x : Channel)
    (hfit : (x.latched w s.mx.rate).LengthsFit b.size) (hptr : b.preAdjusted (bpsOf w.bits.toNat) ≠ 0) :
    (do modify fun s => s.modDesc c fun d => d.started (stepOf w.freq s.mx.rate (bpsOf w.bits.toNat)) (bpsOf w.bits.toNat)
        descLengths c
        setPtr c : Act Unit) (s.withChannel c { x with wave := w } b) =
      .ok () (s.withChannel c ((x.latched w s.mx.rate).fetched b) b) := by
  have hlengths : descLengths c (s.withChannel c (x.latched w s.mx.rate) b) = _ := descLengths_fits hc hfit
  rw [← latched_bps x w s.mx.rate] at hptr
  rw [act_modify_bind, withChannel_modDesc _ _ hc]
  refine (act_bind_ok hlengths).trans ?_
  rw [setPtr_points (x := (x.latched w s.mx.rate).withLengths b.size) hc hptr]
  rfl

/-- Behind its checks the command latches and binds the waveform, and starts the descriptor. -/
theorem chPlay_ready {s : State} {ch : Byte} {wave : Word} (h : s.channelReady (.chPlay ch wave)) (hc : ch.toNat < 32)
    (hwave : wave ≠ 0) (hmem : wave.toNat + 0x1C ≤ s.memBytes) (hlegal : s.waveLegal wave)
    (hlimits : (s.chan ch.toNat).limits.admits (s.waveAt wave)) (hbufs : s.mx.bufMem ≠ 0) :
    let w := s.waveAt wave
    let x := (s.chan ch.toNat).latched w s.mx.rate
    let b := s.playBuf ch.toNat w
    x.LengthsFit b.size → b.preAdjusted (bpsOf w.bits.toNat) ≠ 0 →
      chPlay ch wave (s.begin (.chPlay ch wave)) = .ok () ((s.begin (.chPlay ch wave)).withChannel ch.toNat (x.fetched b) b) := by
  intro w x b hfit hptr
  let s₀ := s.begin (.chPlay ch wave)
  have hbound := rebind_latched (s := s₀) hc w
  rw [chPlay, act_bind_ok (chanChecks_ready (ch := ch) h rfl), ensure_bind, if_pos hwave, act_get_bind, ensure_bind, begin_memBytes, if_pos hmem,
    ensure_bind, if_pos (show s₀.waveLegal wave from hlegal), ensure_bind, begin_chan,
    if_pos (show (s.chan ch.toNat).limits.admits (s₀.waveAt wave) from hlimits), act_bind_ok (ensureBuffers_there (s := s₀) hbufs),
    act_modify_bind]
  exact (unless_bind _ _ _ _).trans ((act_bind_ok hbound).trans (startPlay_ok hc _ hfit hptr))

/-- Settles O40: the checks pass, and the command writes the channel and its buffer. -/
theorem chPlayEffect : Obligations.ChPlayEffect := by
  intro s ch wave c w b sb k h hc hwave hmem hlegal hlimits hbufs hfit hptr
  have hb : bpsOf w.bits.toNat = b := bpsOf_byte w.bits
  have hsb : s.playBuf c w = sb := by
    rw [State.playBuf, hb, SampleBuf.rebound, show w32 c = ch.setWidth 32 from BitVec.ofNat_toNat 32 ch]
    rfl
  let y := ((s.chan c).latched w s.mx.rate).fetched sb
  have hy := latched_fetched (s.chan c) w s.mx.rate sb
  rw [hb] at hy
  have hbody := chPlay_ready h hc hwave hmem hlegal hlimits hbufs
    (fun hloop hsize => by rw [latched_scale, hb]; exact hfit hloop (hsb ▸ hsize)) (by rw [hb, hsb]; exact hptr)
  rw [hsb] at hbody
  refine ⟨_, command_replyNone h.1.1 hbody, rfl, ?_, fun i hi => ⟨?_, ?_⟩, ?_⟩
  · exact withChannel_sb (s := s) y sb hc
  · exact Table.at_put_other s.sbs sb hi
  · exact Table.at_put_other s.chans y hi
  · exact (withChannel_chan (s := s) y sb hc).trans hy

end Sys2Proof.Machine
end

section
/-!
SUPPORT. The engine's dispatch in an environment that does nothing meanwhile, and the interrupt handler that runs it
(spec/44_mixer_exec.md R275, R276; spec/60_exceptions.md R343, R344, R347).
-/

namespace Sys2Proof.Machine

set_option Elab.async false

/-! ### Retiring (R275) -/

/-- The ring without the blocks that a device with `held` transfers no longer holds, the oldest first. -/
def Ring.retired (r : Ring) (held : Nat) : Ring := { r with inflight := r.inflight.drop (r.inflight.length - held) }

theorem Ring.retired_of_le {r : Ring} {held : Nat} (h : r.inflight.length ≤ held) : r.retired held = r := by
  rw [Ring.retired, Nat.sub_eq_zero_of_le h, List.drop_zero]

theorem Ring.retired_tail {r : Ring} {held : Nat} (h : held < r.inflight.length) :
    Ring.retired { r with inflight := r.inflight.tail } held = r.retired held := by
  obtain ⟨x, rest, hx⟩ := List.exists_cons_of_length_pos (Nat.zero_lt_of_lt h)
  rw [hx, List.length_cons] at h
  rw [Ring.retired, Ring.retired, hx, List.tail_cons, List.length_cons, Nat.succ_sub (Nat.le_of_lt_succ h), List.drop_succ_cons]

theorem Ring.retired_inflight_length (r : Ring) (held : Nat) : (r.retired held).inflight.length ≤ held := by
  rw [Ring.retired, List.length_drop]
  omega

/-- The loop retires every block that the device no longer holds. -/
theorem mxRetireLoop_quiet {fuel : Nat} {s : State} (hq : s.quiet) (hfifo : s.ai.fifo.length ≤ 2)
    (hfuel : s.ring.inflight.length - s.ai.fifo.length < fuel) :
    mxRetireLoop fuel s = .ok () (s.modRing fun r => r.retired s.ai.fifo.length) := by
  induction fuel generalizing s with
  | zero => exact absurd hfuel (Nat.not_lt_zero _)
  | succ fuel ih =>
    rw [mxRetireLoop, act_bind_ok (deviceBoundary_quiet hq), act_get_bind, act_ite, hwCount_eq hfifo]
    split
    · next hmore =>
      let rest : State := s.modRing fun r => { r with inflight := r.inflight.tail }
      have hlength : rest.ring.inflight.length = s.ring.inflight.length - 1 := List.length_tail
      have hrest : mxRetireLoop fuel rest = .ok () (rest.modRing fun r => r.retired s.ai.fifo.length) :=
        ih hq hfifo (by rw [hlength]; show _ - s.ai.fifo.length < fuel; omega)
      rw [act_modify_bind, hrest]
      exact congrArg (fun r => EStateM.Result.ok () (s.modRing fun _ => r)) (Ring.retired_tail hmore)
    · next hnone =>
      rw [act_pure, State.modRing, Ring.retired_of_le (Nat.not_lt.mp hnone)]

/-! ### Queueing the pending block (R275) -/

/-- The device with block `x` queued. -/
def AiDevice.queued (d : AiDevice) (x : Xfer) : AiDevice :=
  { d with addr := x.addr &&& 0xFFFFFFF8, fifo := d.fifo ++ [⟨x.addr &&& 0xFFFFFFF8, x.len &&& 0x3FFF8⟩] }

/-- The ring with its pending block `x` queued. -/
def Ring.queued (r : Ring) (x : Xfer) : Ring := { r with inflight := r.inflight ++ [x], pending := none }

section
variable {s : State} (hq : s.quiet)
include hq

theorem mxCommitPending_none (h : s.ring.pending = none) : mxCommitPending s = .ok () s := by
  rw [mxCommitPending, act_bind_ok (deviceBoundary_quiet hq), act_get_bind, h]
  rfl

theorem mxCommitPending_some {x : Xfer} (h : s.ring.pending = some x) : mxCommitPending s =
    (if s.ai.full = true ∨ 2 ≤ s.ring.inflight.length then pure ()
      else do
        enqueue x.addr x.len
        modify fun s => s.modRing fun r => { r with inflight := r.inflight ++ [x], pending := none } : Act Unit) s := by
  rw [mxCommitPending, act_bind_ok (deviceBoundary_quiet hq), act_get_bind, h]

theorem mxCommitPending_full {x : Xfer} (h : s.ring.pending = some x) (hfull : s.ai.fifo.length = 2) :
    mxCommitPending s = .ok () s := by
  have hdevice : s.ai.full = true := by simp [AiDevice.full, hfull]
  rw [mxCommitPending_some hq h, if_pos (.inl hdevice), act_pure]

theorem mxCommitPending_room {x : Xfer} (h : s.ring.pending = some x) (hroom : s.ai.fifo.length < 2)
    (hinflight : s.ring.inflight.length < 2) : mxCommitPending s = .ok () { s with ai := s.ai.queued x, ring := s.ring.queued x } := by
  have hopen : ¬ (s.ai.full = true ∨ 2 ≤ s.ring.inflight.length) := by
    simp only [AiDevice.full, beq_iff_eq]
    omega
  rw [mxCommitPending_some hq h, if_neg hopen, act_bind_ok (enqueue_ok hroom), act_modify]
  rfl

end

/-! ### The dispatch (R275) -/

/-- The pending block, if the device has room for it. -/
def State.queueable (s : State) : Option Xfer := if s.ai.fifo.length = 2 then none else s.ring.pending

/-- The state behind the engine's dispatch. -/
def State.mxDispatched (s : State) : State :=
  let r := s.ring.retired s.ai.fifo.length
  { s with ai := s.queueable.elim s.ai s.ai.queued, ring := s.queueable.elim r r.queued }

theorem mxDispatched_stays {s : State} (h : s.queueable = none) :
    s.mxDispatched = { s with ring := s.ring.retired s.ai.fifo.length } := by
  rw [State.mxDispatched, h]
  rfl

theorem mxDispatched_queues {s : State} {x : Xfer} (h : s.queueable = some x) :
    s.mxDispatched = { s with ai := s.ai.queued x, ring := (s.ring.retired s.ai.fifo.length).queued x } := by
  rw [State.mxDispatched, h]
  rfl

theorem queueable_none {s : State} (h : s.ring.pending = none) : s.queueable = none := by rw [State.queueable, h, ite_self]

theorem queueable_full {s : State} (h : s.ai.fifo.length = 2) : s.queueable = none := if_pos h

theorem queueable_room {s : State} (h : s.ai.fifo.length ≠ 2) : s.queueable = s.ring.pending := if_neg h

theorem mxDispatchBody_quiet {s : State} (hq : s.quiet) (hfifo : s.ai.fifo.length ≤ 2) :
    (do let s ← get; mxRetireLoop (s.ring.inflight.length + 1); mxCommitPending : Act Unit) s = .ok () s.mxDispatched := by
  let t : State := s.modRing fun r => r.retired s.ai.fifo.length
  have hretire : mxRetireLoop (s.ring.inflight.length + 1) s = .ok () t :=
    mxRetireLoop_quiet hq hfifo (Nat.lt_succ_of_le (Nat.sub_le _ _))
  rw [act_get_bind, act_bind_ok hretire]
  cases h : s.ring.pending with
  | none => exact (mxCommitPending_none (s := t) hq h).trans (congrArg _ (mxDispatched_stays (queueable_none h)).symm)
  | some x =>
    by_cases hfull : s.ai.fifo.length = 2
    · exact (mxCommitPending_full (s := t) hq h hfull).trans (congrArg _ (mxDispatched_stays (queueable_full hfull)).symm)
    · have hroom : s.ai.fifo.length < 2 := lt_of_le_of_ne hfifo hfull
      rw [mxDispatched_queues ((queueable_room hfull).trans h)]
      exact mxCommitPending_room (s := t) hq h hroom ((Ring.retired_inflight_length _ _).trans_lt hroom)

/-- The engine's dispatch while nothing else moves. -/
theorem mxDispatch_quiet {s : State} (hq : s.quiet) (hd : s.dispatchable) : mxDispatch s = .ok () s.mxDispatched := by
  obtain ⟨hfifo, hdepth⟩ := hd
  exact critical_ok hdepth (mxDispatchBody_quiet (s := { s with irqDepth := s.irqDepth + 1 }) hq hfifo) rfl

/-! ### The interrupt handler (R276, R344) -/

/-- The handler of the engine: it acknowledges the device, dispatches one level deeper, and returns to the preempted context. -/
theorem takeAiIrq_engine {s : State} (hq : s.quiet) (he : s.irqEligible) (ho : s.owner = .engine) (hon : s.mx.on = true)
    (hfifo : s.ai.fifo.length ≤ 2) : takeAiIrq s = .ok () s.acked.mxDispatched := by
  let entered : State := s.acked.irqEntry
  have hdepth : entered.irqDepth = 0 + 1 := congrArg (· + 1) he.2.1
  have hack : aiWrite .status 0 s.irqEntry = .ok () entered := rfl
  have hdispatch : mxDispatch entered = .ok () entered.mxDispatched :=
    mxDispatch_quiet hq ⟨hfifo, by rw [hdepth]; decide⟩
  have hhandler : mxIrq s.irqEntry = .ok () entered.mxDispatched := by
    rw [mxIrq, act_bind_ok hack, act_get_bind, if_pos (show entered.mx.on = true from hon), hdispatch]
  have howner : ¬ s.owner = .driver := by rw [ho]; decide
  have hreturn : entered.mxDispatched.irqReturn s.ctx s.cmd = s.acked.mxDispatched := by
    have hdepth' : entered.mxDispatched.irqDepth - 1 = s.irqDepth := by
      show entered.irqDepth - 1 = s.irqDepth
      rw [hdepth, he.2.1]
      rfl
    rw [State.irqReturn, hdepth']
    rfl
  rw [takeAiIrq, act_get_bind, if_pos he, if_neg howner, interrupt, act_get_bind, act_set_bind, act_bind_ok hhandler, act_modify, hreturn]

/-- Settles O14: the handler is the dispatch behind the acknowledgement, whatever the pending block and the room for it. -/
theorem engineInterrupt : Obligations.EngineInterrupt := by
  intro s he ho hon hq hfifo kept
  rw [takeAiIrq_engine hq he ho hon hfifo]
  cases h : s.ring.pending with
  | none => rw [mxDispatched_stays (queueable_none (s := s.acked) h)]; rfl
  | some x =>
    by_cases hfull : s.ai.fifo.length = 2
    · rw [mxDispatched_stays (queueable_full (s := s.acked) hfull)]
      exact congrArg _ (if_pos hfull).symm
    · rw [mxDispatched_queues ((queueable_room (s := s.acked) hfull).trans h)]
      exact congrArg _ (if_neg hfull).symm

end Sys2Proof.Machine
end

section
/-!
SUPPORT. The positions of the mix job (spec/44_mixer_exec.md R262 (c), R265 to R267): what the job writes back into the job block, and the
channels behind the read-back and the post-check.
-/

namespace Sys2Proof.Machine

set_option Elab.async false

/-! ### Bytes of coprocessor memory (R70, R124) -/

theorem Memory.bytes_congr {m m' : Memory} {a n : Nat} (h : ∀ k < n, m.read (a + k) = m'.read (a + k)) : m.bytes a n = m'.bytes a n := by
  refine List.ext_getElem (by rw [Memory.bytes_length, Memory.bytes_length]) fun k hk hk' => ?_
  rw [Memory.bytes_getElem, Memory.bytes_getElem]
  exact h k (by rwa [Memory.bytes_length] at hk)

theorem jobWord_congr {m m' : Memory} {a : Nat} (h : ∀ k < 4, m.read (a + k) = m'.read (a + k)) : jobWord m a = jobWord m' a := by
  rw [jobWord, jobWord, Memory.bytes_congr h]

/-- A descriptor is its 24 bytes. -/
theorem jobDesc_congr {m m' : Memory} {c : Nat} (h : ∀ k < 24, m.read (jobDescAt c + k) = m'.read (jobDescAt c + k)) :
    jobDesc m c = jobDesc m' c := by
  have word : ∀ a, a + 4 ≤ 24 → jobWord m (jobDescAt c + a) = jobWord m' (jobDescAt c + a) := fun a ha => by
    refine jobWord_congr fun k hk => ?_
    rw [Nat.add_assoc]
    exact h (a + k) (by omega)
  have hpos : jobWord m (jobDescAt c) = jobWord m' (jobDescAt c) := word 0 (by decide)
  simp only [jobDesc, hpos, word 4 (by decide), word 8 (by decide), word 12 (by decide), word 16 (by decide), word 20 (by decide)]

theorem jobWord_put_same (m : Memory) (a : Nat) (w : Word) : jobWord (Memory.put m a (be32 w)) a = w := by
  have hbytes : (Memory.put m a (be32 w)).bytes a 4 = be32 w := by
    refine List.ext_getElem (Memory.bytes_length _ _ _) fun k hk hk' => ?_
    have hk4 : k < 4 := hk'
    rw [Memory.bytes_getElem, Memory.read_put, be32_length, if_pos ⟨Nat.le_add_right _ _, by omega⟩, Nat.add_sub_cancel_left,
      List.getD_eq_getElem _ _ hk']
  rw [jobWord, hbytes, beWord_be32]

theorem jobDescAt_lt {i c : Nat} (h : i < c) : jobDescAt i + 24 ≤ jobDescAt c := by
  rw [jobDescAt, jobDescAt]
  omega

/-! ### The positions written back (R262 (c), R265) -/

/-- What the job writes for the descriptor of channel `c`: its final position, if it is active. -/
def putPosition (n c : Nat) (m : Memory) : Memory :=
  if (jobDesc m c).ptr = 0 then m else Memory.put m (jobDescAt c) (be32 ((jobDesc m c).finalPos n))

theorem writePositions_succ (n c k : Nat) (m : Memory) :
    writePositions n c (k + 1) m = writePositions n (c + 1) k (putPosition n c m) := rfl

theorem read_putPosition {n c x : Nat} (h : x < jobDescAt c ∨ jobDescAt c + 4 ≤ x) (m : Memory) :
    (putPosition n c m).read x = m.read x := by
  unfold putPosition
  split
  · rfl
  · rw [Memory.read_put, be32_length, if_neg (by omega)]

/-- The descriptors in front of channel `c` keep their bytes. -/
theorem read_writePositions {n c k x : Nat} (h : x < jobDescAt c) (m : Memory) : (writePositions n c k m).read x = m.read x := by
  induction k generalizing c m with
  | zero => rfl
  | succ k ih =>
    have hnext : jobDescAt c + 24 ≤ jobDescAt (c + 1) := jobDescAt_lt (Nat.lt_succ_self c)
    rw [writePositions_succ, ih (by omega), read_putPosition (.inl h)]

theorem jobDesc_putPosition_other {n c i : Nat} (h : c < i) (m : Memory) : jobDesc (putPosition n c m) i = jobDesc m i := by
  have hafter := jobDescAt_lt h
  exact jobDesc_congr fun k _ => read_putPosition (.inr (by omega)) m

theorem pos_putPosition (n c : Nat) (m : Memory) :
    (jobDesc (putPosition n c m) c).pos = if (jobDesc m c).ptr = 0 then (jobDesc m c).pos else (jobDesc m c).finalPos n := by
  unfold putPosition
  split
  · rfl
  · exact jobWord_put_same m (jobDescAt c) _

/-- The position that stands in the descriptor of channel `i` behind the job. -/
theorem pos_writePositions {n c k i : Nat} (hci : c ≤ i) (hik : i < c + k) (m : Memory) :
    (jobDesc (writePositions n c k m) i).pos = if (jobDesc m i).ptr = 0 then (jobDesc m i).pos else (jobDesc m i).finalPos n := by
  induction k generalizing c m with
  | zero => omega
  | succ k ih =>
    rw [writePositions_succ]
    rcases Nat.eq_or_lt_of_le hci with rfl | hlt
    · have hnext : jobDescAt c + 24 ≤ jobDescAt (c + 1) := jobDescAt_lt (Nat.lt_succ_self c)
      have hkept : jobDesc (writePositions n (c + 1) k (putPosition n c m)) c = jobDesc (putPosition n c m) c :=
        jobDesc_congr fun j hj => read_writePositions (by omega) _
      rw [hkept, pos_putPosition]
    · rw [ih hlt (by omega), jobDesc_putPosition_other hlt]

/-! ### The hand-off as a whole (R263 to R267) -/

/-- The engine's job, uploaded and triggered. -/
def State.triggered (s : State) (out n : Nat) : State := s.acquired.upload out n

/-- Channel `x` behind the read-back of position `p` and the post-check (R266, R267). -/
def Channel.advanced (x : Channel) (p : Word) : Channel :=
  if x.desc.ptr = 0 then x
  else { x with desc := { x.desc with
    pos := p, ptr := if x.wave.loop = 0 ∧ x.wave.len.toNat ≤ p.toNat / x.desc.scale then 0 else x.desc.ptr } }

/-- What the post-check does to one channel (R267). -/
def Channel.postChecked (x : Channel) : Channel := if x.ended then { x with desc := x.desc.deactivated } else x

/-- What the read-back of position `p` does to one channel (R266). -/
def Channel.readBack (x : Channel) (p : Word) : Channel := if x.desc.ptr = 0 then x else { x with desc := { x.desc with pos := p } }

theorem Channel.readBack_postChecked (x : Channel) (p : Word) : (x.readBack p).postChecked = x.advanced p := by
  unfold Channel.readBack Channel.advanced
  by_cases hidle : x.desc.ptr = 0
  · have hnot : ¬ x.ended := fun h => h.1 hidle
    rw [if_pos hidle, if_pos hidle, Channel.postChecked, if_neg hnot]
  · rw [if_neg hidle, if_neg hidle, Channel.postChecked]
    by_cases hend : x.wave.loop = 0 ∧ x.wave.len.toNat ≤ p.toNat / x.desc.scale
    · obtain ⟨hloop, hlen⟩ := hend
      have hended : Channel.ended { x with desc := { x.desc with pos := p } } := ⟨hidle, hloop, hlen⟩
      rw [if_pos hended, if_pos ⟨hloop, hlen⟩]
      rfl
    · have hgoes : ¬ Channel.ended { x with desc := { x.desc with pos := p } } := fun h => hend h.2
      rw [if_neg hgoes, if_neg hend]

section
variable (s : State) {out n : Nat}

theorem triggered_desc {c : Nat} (hc : c < s.mx.nch.toNat) (hnch : s.mx.nch.toNat ≤ 32) :
    jobDesc (s.triggered out n).coproc.mem c = s.desc c :=
  (jobDesc_upload s.acquired out n (hc.trans_le hnch)).trans (if_pos hc)

theorem readBack_chans : s.readBack.chans =
    Table.mapBelow s.chans s.mx.nch.toNat fun c x => x.readBack (jobDesc s.coproc.mem c).pos := rfl

theorem postCheck_chans : s.postCheck.chans = Table.mapBelow s.chans s.mx.nch.toNat fun _ x => x.postChecked := rfl

theorem readBack_chan {c : Nat} (hc : c < 32) : s.readBack.chan c =
    if c < s.mx.nch.toNat then (s.chan c).readBack (jobDesc s.coproc.mem c).pos else s.chan c := by
  rw [State.chan, readBack_chans, Table.at_mapBelow _ _ _ hc, State.chan]

theorem postCheck_chan {c : Nat} (hc : c < 32) : s.postCheck.chan c =
    if c < s.mx.nch.toNat then (s.chan c).postChecked else s.chan c := by
  rw [State.chan, postCheck_chans, Table.at_mapBelow _ _ _ hc, State.chan]

variable (hn : n < 2 ^ 32)
include hn

/-- Where the job leaves the position of a channel that is Playing. -/
theorem runJob_pos {c : Nat} (hc : c < s.mx.nch.toNat) (hnch : s.mx.nch.toNat ≤ 32) (hp : (s.desc c).ptr ≠ 0) :
    (jobDesc (s.triggered out n).runJob.coproc.mem c).pos = (s.desc c).finalPos n := by
  show (jobDesc (writePositions (jobFrames _) 0 (jobChannels _) (s.triggered out n).coproc.mem) c).pos = _
  rw [State.triggered, jobFrames_upload _ _ _ hn, jobChannels_upload, pos_writePositions (Nat.zero_le c) (by rw [Nat.zero_add]; exact hc)]
  rw [← State.triggered, triggered_desc s hc hnch, if_neg hp]

/-- Every channel behind the hand-off. -/
theorem mixed_chan {c : Nat} (hnch : s.mx.nch.toNat ≤ 32) (hc : c < 32) : (s.mixed out n).chan c =
    if c < s.mx.nch.toNat then (s.chan c).advanced ((s.desc c).finalPos n) else s.chan c := by
  have hread := readBack_chan (s.triggered out n).runJob hc
  have hcheck := postCheck_chan (s.triggered out n).runJob.readBack hc
  show (s.triggered out n).runJob.readBack.postCheck.chan c = _
  rw [hcheck, hread]
  show (if c < s.mx.nch.toNat then (if c < s.mx.nch.toNat then (s.chan c).readBack _ else _).postChecked
    else if c < s.mx.nch.toNat then _ else s.chan c) = _
  split
  · next hlt =>
    rw [Channel.readBack_postChecked]
    by_cases hp : (s.desc c).ptr = 0
    · have hidle : (s.chan c).desc.ptr = 0 := hp
      rw [Channel.advanced, Channel.advanced, if_pos hidle, if_pos hidle]
    · rw [runJob_pos s hn hlt hnch hp]
  · rfl

end

/-! ### The wrap (R262 (c)) -/

theorem Desc.wrap_before {d : Desc} {p : Nat} (h : d.loopLen = 0 ∨ p < d.len.toNat) : d.wrap p = p := if_pos h

/-- At or past the length, one loop less wraps to the same position. -/
theorem Desc.wrap_sub_loop {d : Desc} {p : Nat} (hloop : d.loopLen ≠ 0) (hle : d.loopLen.toNat ≤ d.len.toNat) (hp : d.len.toNat ≤ p) :
    d.wrap p = d.wrap (p - d.loopLen.toNat) := by
  have hpos : 0 < d.loopLen.toNat := Nat.pos_of_ne_zero fun h => hloop (BitVec.eq_of_toNat_eq h)
  have hpast : ¬ (d.loopLen = 0 ∨ p < d.len.toNat) := not_or.mpr ⟨hloop, Nat.not_lt.mpr hp⟩
  rw [Desc.wrap, if_neg hpast]
  by_cases hlast : p - d.loopLen.toNat < d.len.toNat
  · have hzero : (p - d.len.toNat) / d.loopLen.toNat = 0 := Nat.div_eq_of_lt (by omega)
    rw [Desc.wrap_before (.inr hlast), hzero, Nat.zero_add, Nat.mul_one]
  · have hagain : ¬ (d.loopLen = 0 ∨ p - d.loopLen.toNat < d.len.toNat) := not_or.mpr ⟨hloop, hlast⟩
    have hquot : (p - d.len.toNat) / d.loopLen.toNat = (p - d.loopLen.toNat - d.len.toNat) / d.loopLen.toNat + 1 := by
      rw [← Nat.add_div_right _ hpos]
      congr 1
      omega
    rw [Desc.wrap, if_neg hagain, hquot, Nat.mul_succ]
    omega

/-- Settles O46: the job writes each active descriptor's final position, and the read-back and the post-check treat every channel alone. -/
theorem handoffAdvancesPositions : Obligations.HandoffAdvancesPositions := by
  refine ⟨?_, fun d => ⟨rfl, fun _ => rfl, fun p => ⟨Desc.wrap_before, Desc.wrap_sub_loop⟩⟩⟩
  intro s out n c hnch _ hn hc x p
  rw [mixed_chan s hn hnch hc]
  by_cases hlt : c < s.mx.nch.toNat
  · rw [if_pos hlt]
    by_cases hidle : (s.chan c).desc.ptr = 0
    · exact (if_pos hidle).trans (if_neg fun ⟨_, hplaying⟩ => hplaying hidle).symm
    · exact (if_neg hidle).trans (if_pos ⟨hlt, hidle⟩).symm
  · exact (if_neg hlt).trans (if_neg fun ⟨hin, _⟩ => hlt hin).symm

end Sys2Proof.Machine
end

section
/-!
SUPPORT. The length of a sub-run (spec/44_mixer_exec.md R273; spec/45_event_scheduler.md R292, R298 (a)).
-/

namespace Sys2Proof.Machine

set_option Elab.async false

/-- No tick is ∞ exactly where there is no event. -/
theorem nextTick_none {events : List Event} : nextTick events = none ↔ events = [] := by
  rw [nextTick, List.min?_eq_none_iff, List.map_eq_nil_iff]

/-- The next tick is an event's, and no event's is before it (R292). -/
theorem nextTick_some {events : List Event} {t : Nat} (h : nextTick events = some t) :
    (∃ e ∈ events, e.tick.toNat = t) ∧ ∀ e ∈ events, t ≤ e.tick.toNat := by
  obtain ⟨hmem, hleast⟩ := List.min?_eq_some_iff.mp h
  exact ⟨List.mem_map.mp hmem, fun e he => hleast _ (List.mem_map_of_mem he)⟩

/-- When nothing is due, every event's tick is still to come (R293). -/
theorem dueEvents_nil {s : State} (h : s.dueEvents = []) {e : Event} (he : e ∈ s.events) : s.mx.ticks.toNat < e.tick.toNat := by
  have hnot := List.filter_eq_nil_iff.mp h e he
  exact Nat.not_le.mp fun hle => hnot (decide_eq_true hle)

theorem subRunLength_none {s : State} (h : s.events = []) (left : Nat) : s.subRunLength left = left := by
  rw [State.subRunLength, nextTick_none.mpr h]

theorem subRunLength_some {s : State} {t : Nat} (h : nextTick s.events = some t) (left : Nat) :
    s.subRunLength left = min left (t - s.mx.ticks.toNat) := by
  rw [State.subRunLength, h]

/-- Settles O52: without an event a sub-run is all that is left; otherwise it ends at the least tick at the latest, which lies ahead. -/
theorem subRunBounds : Obligations.SubRunBounds := by
  intro s left hleft hdue
  cases h : nextTick s.events with
  | none =>
    have hnone := nextTick_none.mp h
    rw [subRunLength_none hnone, hnone]
    exact ⟨hleft, le_rfl, nofun, .inl rfl⟩
  | some t =>
    obtain ⟨⟨e, he, rfl⟩, hleast⟩ := nextTick_some h
    have hahead := dueEvents_nil hdue he
    rw [subRunLength_some h]
    refine ⟨by omega, Nat.min_le_left _ _, fun x hx => ?_, ?_⟩
    · have hx := hleast x hx
      omega
    · by_cases hall : left ≤ e.tick.toNat - s.mx.ticks.toNat
      · exact .inl (Nat.min_eq_left hall)
      · exact .inr ⟨e, he, by omega⟩

end Sys2Proof.Machine
end

section
/-!
SUPPORT. `MX_POLL` in an environment that does nothing meanwhile (spec/44_mixer_exec.md R268 to R275): the output of its job, the reference
backend's frames, and the run of one sub-run from the checks to the queued block.
-/

namespace Sys2Proof.Machine

set_option Elab.async false

/-! ### What a sub-run leaves alone -/

section
variable (s : State)

@[simp] theorem runJob_irqDepth : s.runJob.irqDepth = s.irqDepth := rfl
@[simp] theorem runJob_ai : s.runJob.ai = s.ai := rfl
@[simp] theorem runJob_mx : s.runJob.mx = s.mx := rfl
@[simp] theorem runJob_ring : s.runJob.ring = s.ring := rfl

@[simp] theorem mixed_irqDepth (out n : Nat) : (s.mixed out n).irqDepth = s.irqDepth := by simp [State.mixed]
@[simp] theorem mixed_ai (out n : Nat) : (s.mixed out n).ai = s.ai := by simp [State.mixed]
@[simp] theorem mixed_mx (out n : Nat) : (s.mixed out n).mx = s.mx := by simp [State.mixed]
@[simp] theorem mixed_ring (out n : Nat) : (s.mixed out n).ring = s.ring := by simp [State.mixed]

theorem mixed_quiet {s : State} (h : s.quiet) (out n : Nat) : (s.mixed out n).quiet := h

@[simp] theorem windowsUpTo_irqDepth (n m : Nat) : (s.windowsUpTo n m).irqDepth = s.irqDepth := by simp only [State.windowsUpTo]
@[simp] theorem windowsUpTo_ai (n m : Nat) : (s.windowsUpTo n m).ai = s.ai := by simp only [State.windowsUpTo]
@[simp] theorem windowsUpTo_mx (n m : Nat) : (s.windowsUpTo n m).mx = s.mx := by simp only [State.windowsUpTo]
@[simp] theorem windowsUpTo_mem (n m : Nat) : (s.windowsUpTo n m).mem = s.mem := by simp only [State.windowsUpTo]
@[simp] theorem windowsUpTo_params (n m : Nat) : (s.windowsUpTo n m).params = s.params := by simp only [State.windowsUpTo]
@[simp] theorem windowsUpTo_memBytes (n m : Nat) : (s.windowsUpTo n m).memBytes = s.memBytes := by
  rw [State.memBytes, State.memBytes, windowsUpTo_params]
@[simp] theorem windowsUpTo_ring (n m : Nat) : (s.windowsUpTo n m).ring = s.ring := by simp only [State.windowsUpTo]

end

/-! ### The job's output (R265) -/

theorem frameBytes_length (f : Frame) : (frameBytes f).length = 4 := rfl

theorem mixOutput_length (s : State) : s.mixOutput.length = 4 * jobFrames s.coproc.mem := by
  unfold State.mixOutput
  split
  · exact flatMap_range_length (fun k => frameBytes_length (s.mixFrame s.coproc.mem k)) _
  · rw [List.length_map, List.length_range]

section
variable (s : State) {out n : Nat} (hout : out < 2 ^ 32) (hn : n < 2 ^ 32)

include hout in
/-- The job writes its output at its output address, as far as memory reaches. -/
theorem mixed_mem : (s.mixed out n).mem = Memory.put s.mem out ((s.triggered out n).mixOutput.take (s.memBytes - out)) := by
  have hjob : jobOut (s.triggered out n).coproc.mem = out := jobOut_upload s.acquired out n hout
  show Memory.put s.mem (jobOut (s.triggered out n).coproc.mem)
    ((s.triggered out n).mixOutput.take (s.memBytes - jobOut (s.triggered out n).coproc.mem)) = _
  rw [hjob]

include hn in
theorem triggered_mixOutput_length : (s.triggered out n).mixOutput.length = 4 * n := by
  rw [mixOutput_length, State.triggered, jobFrames_upload _ _ _ hn]

include hout hn

/-- No byte outside the block changes. -/
theorem mixed_read_outside {x : Nat} (h : x < out ∨ out + 4 * n ≤ x) : (s.mixed out n).mem.read x = s.mem.read x := by
  have hmost : ((s.triggered out n).mixOutput.take (s.memBytes - out)).length ≤ 4 * n := by
    rw [List.length_take, triggered_mixOutput_length s hn]
    exact Nat.min_le_right _ _
  rw [mixed_mem s hout, Memory.read_put, if_neg (by omega)]

/-- Inside the block and inside memory stands the output. -/
theorem mixed_read_inside {i : Nat} (hi : i < 4 * n) (hmem : out + i < s.memBytes) :
    (s.mixed out n).mem.read (out + i) = (s.triggered out n).mixOutput.getD i 0 := by
  have htake : i < ((s.triggered out n).mixOutput.take (s.memBytes - out)).length := by
    rw [List.length_take, triggered_mixOutput_length s hn]
    omega
  rw [mixed_mem s hout, Memory.read_put, if_pos (by omega), Nat.add_sub_cancel_left, List.getD_eq_getElem _ _ htake, List.getElem_take,
    List.getD_eq_getElem]

end

/-! ### The reference backend (R268) -/

theorem StandsAt.getD {bs field : List Byte} {a i : Nat} (h : StandsAt bs a field) (hi : i < field.length) (b : Byte) :
    bs.getD (a + i) b = field.getD i b := by
  obtain ⟨pre, post, rfl, rfl⟩ := h
  rw [List.append_assoc, List.getD_append_right _ _ _ _ (Nat.le_add_right _ _), Nat.add_sub_cancel_left, List.getD_append _ _ _ _ hi]

/-- The frames follow each other in the output. -/
theorem mixOutput_reference {s : State} (h : s.params.backend = .reference) {k j : Nat} (hk : k < jobFrames s.coproc.mem) (hj : j < 4) :
    s.mixOutput.getD (4 * k + j) 0 = (frameBytes (s.mixFrame s.coproc.mem k)).getD j 0 := by
  have hframes : s.mixOutput = (List.range (jobFrames s.coproc.mem)).flatMap fun k => frameBytes (s.mixFrame s.coproc.mem k) := by
    rw [State.mixOutput, h]
  have hstands : StandsAt s.mixOutput (4 * k) (frameBytes (s.mixFrame s.coproc.mem k)) := by
    rw [hframes]
    exact standsAt_flatMap (f := fun k => frameBytes (s.mixFrame s.coproc.mem k)) (fun k => frameBytes_length _) hk
  exact hstands.getD hj 0

/-- A byte of the left one of two halves. -/
theorem byte_append_left (x y : Half) (k : Nat) : ((x ++ y) >>> (k + 16)).setWidth 8 = x.extractLsb' k 8 := by
  ext i hi
  have hhigh : ¬ k + 16 + i < 16 := by omega
  have hplace : k + 16 + i - 16 = k + i := by omega
  rw [BitVec.getElem_setWidth, BitVec.getLsbD_ushiftRight, BitVec.getLsbD_append, if_neg hhigh, hplace, BitVec.getElem_extractLsb']

/-- A byte of the right one. -/
theorem byte_append_right (x y : Half) {k : Nat} (hk : k + 8 ≤ 16) : ((x ++ y) >>> k).setWidth 8 = y.extractLsb' k 8 := by
  ext i hi
  have hlow : k + i < 16 := by omega
  rw [BitVec.getElem_setWidth, BitVec.getLsbD_ushiftRight, BitVec.getLsbD_append, if_pos hlow, BitVec.getElem_extractLsb']

/-- A frame's bytes are the left side's and then the right side's, most significant first (R70, R125). -/
theorem frameBytes_getD (f : Frame) {j : Nat} (hj : j < 4) :
    (frameBytes f).getD j 0 = ((f.l ++ f.r : BitVec 32) >>> (8 * (3 - j))).setWidth 8 := by
  match j, hj with
  | 0, _ => exact (byte_append_left f.l f.r 8).symm
  | 1, _ => exact (byte_append_left f.l f.r 0).symm
  | 2, _ => exact (byte_append_right f.l f.r (by decide)).symm
  | 3, _ => exact (byte_append_right f.l f.r (by decide)).symm

theorem silentAt_iff (d : Desc) (k : Nat) : d.silentAt k = true ↔ d.loopLen = 0 ∧ d.len.toNat ≤ d.wrap (d.posAt k) := by
  rw [Desc.silentAt, Bool.and_eq_true, beq_iff_eq, decide_eq_true_iff]

/-- The sample that the backend reads is the one of the statements. -/
theorem sampleAt_eq (s : State) (d : Desc) (k : Nat) : s.sampleAt d k = s.referenceSample d k := by
  rw [State.sampleAt]
  by_cases hptr : d.ptr = 0
  · exact (if_pos hptr).trans (if_pos (.inl hptr)).symm
  by_cases hsilent : d.loopLen = 0 ∧ d.len.toNat ≤ d.wrap (d.posAt k)
  · exact (if_neg hptr).trans ((if_pos ((silentAt_iff d k).mpr hsilent)).trans (if_pos (.inr hsilent)).symm)
  · rw [if_neg hptr, if_neg (mt (silentAt_iff d k).mp hsilent), State.referenceSample, if_neg (not_or.mpr ⟨hptr, hsilent⟩)]
    have hnext : (d.sampleAddr k 0 + 1) % 2 ^ 32 =
        (d.ptr.toNat + d.wrap (d.posAt k) / 2 ^ (12 + d.flags.toNat % 4) * 2 ^ (d.flags.toNat % 4) + 1) % 2 ^ 32 :=
      Nat.mod_add_mod _ _ _
    simp only [hnext]
    rfl

theorem referenceSample_idle {s : State} {d : Desc} (h : d.ptr = 0) (k : Nat) : s.referenceSample d k = 0 := if_pos (.inl h)

/-- The frame of the job that the engine triggers is the one of the statements. -/
theorem mixFrame_triggered {s : State} (hnch : s.mx.nch.toNat ≤ 32) (out n k : Nat) :
    (s.triggered out n).mixFrame (s.triggered out n).coproc.mem k = ⟨s.referenceSide k Volume.l, s.referenceSide k Volume.r⟩ := by
  have hside : ∀ side : Volume → Half,
      ((List.range (jobChannels (s.triggered out n).coproc.mem)).map fun c =>
        (s.triggered out n).sampleAt (jobDesc (s.triggered out n).coproc.mem c) k *
          ((side (jobVolume (s.triggered out n).coproc.mem c)).toNat : Int)) =
      (List.range s.mx.nch.toNat).map fun c => s.referenceSample (s.desc c) k * ((side (s.chan c).vol).toNat : Int) := by
    intro side
    have hchannels : jobChannels (s.triggered out n).coproc.mem = s.mx.nch.toNat := jobChannels_upload s.acquired out n
    rw [hchannels]
    refine List.map_congr_left fun c hc => ?_
    have hlt : c < s.mx.nch.toNat := List.mem_range.mp hc
    have hsample : (s.triggered out n).sampleAt (s.desc c) k = s.referenceSample (s.desc c) k := sampleAt_eq s (s.desc c) k
    rw [triggered_desc s hlt hnch, hsample]
    by_cases hp : (s.desc c).ptr = 0
    · rw [referenceSample_idle hp, Int.zero_mul, Int.zero_mul]
    · have hvol : jobVolume (s.triggered out n).coproc.mem c = (s.chan c).vol :=
        (jobVolume_upload s.acquired out n (hlt.trans_le hnch)).trans (if_pos ⟨hlt, hp⟩)
      rw [hvol]
  have hmaster : jobMaster (s.triggered out n).coproc.mem = s.mx.master := jobMaster_upload s.acquired out n
  simp only [State.mixFrame, hside, hmaster]
  rfl

/-- With no Playing channel every side is 0. -/
theorem referenceSide_silent {s : State} (h : ∀ c < s.mx.nch.toNat, (s.desc c).ptr = 0) (k : Nat) (side : Volume → Half) :
    s.referenceSide k side = 0 := by
  have hsum : ((List.range s.mx.nch.toNat).map fun c => s.referenceSample (s.desc c) k * ((side (s.chan c).vol).toNat : Int)).sum = 0 := by
    refine List.sum_eq_zero fun x hx => ?_
    obtain ⟨c, hc, rfl⟩ := List.mem_map.mp hx
    rw [referenceSample_idle (h c (List.mem_range.mp hc)), Int.zero_mul]
  rw [State.referenceSide, hsum, Int.zero_ediv, Int.zero_mul, Int.zero_ediv]
  rfl

/-- Byte `j` of frame `k`. -/
theorem mixed_read_reference {s : State} {out n k j : Nat} (h : s.params.backend = .reference) (hnch : s.mx.nch.toNat ≤ 32)
    (hout : out < 2 ^ 32) (hn : n < 2 ^ 32) (hk : k < n) (hj : j < 4) (hmem : out + 4 * k + j < s.memBytes) :
    (s.mixed out n).mem.read (out + 4 * k + j) =
      ((s.referenceSide k Volume.l ++ s.referenceSide k Volume.r : BitVec 32) >>> (8 * (3 - j))).setWidth 8 := by
  have hframes : k < jobFrames (s.triggered out n).coproc.mem := by rwa [State.triggered, jobFrames_upload _ _ _ hn]
  rw [Nat.add_assoc] at hmem ⊢
  rw [mixed_read_inside s hout hn (by omega) hmem, mixOutput_reference (s := s.triggered out n) h hframes hj, mixFrame_triggered hnch,
    frameBytes_getD _ hj]

theorem mixed_read_silent {s : State} {out n x : Nat} (h : s.params.backend = .reference) (hnch : s.mx.nch.toNat ≤ 32)
    (hout : out < 2 ^ 32) (hn : n < 2 ^ 32) (hidle : ∀ c < s.mx.nch.toNat, (s.desc c).ptr = 0) (hx : out ≤ x)
    (hx' : x < out + 4 * n) (hmem : x < s.memBytes) : (s.mixed out n).mem.read x = 0 := by
  have hsplit : x = out + 4 * ((x - out) / 4) + (x - out) % 4 := by omega
  rw [hsplit] at hmem ⊢
  rw [mixed_read_reference h hnch hout hn (by omega) (Nat.mod_lt _ (by decide)) hmem, referenceSide_silent hidle,
    referenceSide_silent hidle]
  exact (congrArg (BitVec.setWidth 8) (BitVec.zero_ushiftRight (w := 32))).trans rfl

/-! ### The commit (R274, R275) -/

/-- The state behind `Commit(off, n)`, with its block queued at once and the poll over. -/
def State.pollDone (s : State) (off n : Nat) : State :=
  { s with
    ai := s.ai.queued ⟨w32 (s.ring.base.toNat + off), w32 (4 * n)⟩
    ring := (s.ring.committed off n).queued ⟨w32 (s.ring.base.toNat + off), w32 (4 * n)⟩
    mx := { s.mx with inPoll := false } }

/-- With room in the device a committed block is queued at once. -/
theorem pollCommit_room {s : State} (hq : s.quiet) (hdepth : s.irqDepth ≠ 0xFFFFFFFF) (hroom : s.ai.fifo.length < 2)
    (hinflight : s.ring.inflight.length ≤ s.ai.fifo.length) (off n : Nat) :
    pollCommit off n s = .ok (.done []) (s.pollDone off n) := by
  let t : State := s.modRing fun r => r.committed off n
  have hcommit : critical (modify fun s => s.modRing fun r => r.committed off n) s = .ok () t := critical_modify hdepth rfl
  have hqueue : t.queueable = some ⟨w32 (s.ring.base.toNat + off), w32 (4 * n)⟩ := queueable_room hroom.ne
  have hdispatch : mxDispatch t = .ok () t.mxDispatched := mxDispatch_quiet hq ⟨hroom.le, hdepth⟩
  have hkept : t.ring.retired t.ai.fifo.length = t.ring := Ring.retired_of_le hinflight
  rw [pollCommit, act_bind_ok hcommit, act_bind_ok (boundary_quiet (s := t) hq), act_bind_ok hdispatch, act_modify_bind, act_pure,
    mxDispatched_queues hqueue, hkept]
  rfl

/-! ### One sub-run (R273) -/

/-- The end of a sub-run: `TICKS` is written, and no sub-run is open. -/
def State.clocked (s : State) (ticks : Dword) : State := { s with mx := { s.mx with ticks := ticks, subRun := false } }

@[simp] theorem clocked_irqDepth (s : State) (ticks : Dword) : (s.clocked ticks).irqDepth = s.irqDepth := rfl
@[simp] theorem clocked_ai (s : State) (ticks : Dword) : (s.clocked ticks).ai = s.ai := rfl
@[simp] theorem clocked_ring (s : State) (ticks : Dword) : (s.clocked ticks).ring = s.ring := rfl

/-- The state in which `n` frames have been mixed in one sub-run at `out`, the windows having been taken. -/
def State.subRunDone (s : State) (out n : Nat) : State :=
  (((s.modMx Mixer.opened).windowsUpTo n s.mx.nch.toNat).mixed out n).clocked (BitVec.ofNat 64 (s.mx.ticks.toNat + n))

section
variable (s : State) (out n : Nat)

@[simp] theorem subRunDone_irqDepth : (s.subRunDone out n).irqDepth = s.irqDepth := by simp [State.subRunDone]
@[simp] theorem subRunDone_ai : (s.subRunDone out n).ai = s.ai := by simp [State.subRunDone]
@[simp] theorem subRunDone_ring : (s.subRunDone out n).ring = s.ring := by simp [State.subRunDone]

theorem subRunDone_quiet {s : State} (h : s.quiet) : (s.subRunDone out n).quiet := h

end

/-- A poll's first pass mixes all its frames where there is no event, every window is held and the coprocessor is free. -/
theorem pollLoop_subRun {s : State} {off n : Nat} (hq : s.quiet) (hpos : 0 < n) (hevents : s.events = [])
    (hheld : ∀ c < s.mx.nch.toNat, s.playing c → s.windowHeld c n) (hfree : s.coproc.jobBusy = false)
    (hticks : s.mx.ticks.toNat + n < 2 ^ 64) (fuel : Nat) :
    pollLoop off n (fuel + 1) 0 s = pollLoop off n fuel n (s.subRunDone (s.ring.base.toNat + off) n) := by
  let out := s.ring.base.toNat + off
  let opened := s.modMx Mixer.opened
  let taken := opened.windowsUpTo n s.mx.nch.toNat
  have hnotDue : ¬ s.dueEvents ≠ [] := not_not.mpr (by rw [State.dueEvents, hevents, List.filter_nil])
  have hlength : s.subRunLength n = n := subRunLength_none hevents n
  have hrun : mxExecRun out n opened = .ok .over (taken.mixed out n) :=
    (mxExecRun_held (s := opened) hheld out).trans (tryHandoff_free (s := taken) hq hfree out n)
  have hclose : closeSubRun n (taken.mixed out n) = .ok () (s.subRunDone out n) := by
    rw [closeSubRun, act_get_bind, mixed_mx]
    exact act_bind_ok (laterTick_fits hticks _)
  rw [pollLoop, if_neg (Nat.not_le.mpr hpos), act_bind_ok (boundary_quiet hq), act_get_bind, if_neg hnotDue, act_modify_bind]
  simp only [Nat.sub_zero, Nat.mul_zero, Nat.add_zero, Nat.zero_add, hlength]
  rw [act_bind_ok hrun]
  exact act_bind_ok hclose

theorem pollCommit_subRunDone {s : State} (hq : s.quiet) (hdepth : s.irqDepth ≠ 0xFFFFFFFF) (hroom : s.ai.fifo.length < 2)
    (hinflight : s.ring.inflight.length ≤ s.ai.fifo.length) (out off n : Nat) :
    pollCommit off n (s.subRunDone out n) = .ok (.done []) ((s.subRunDone out n).pollDone off n) := by
  refine pollCommit_room (subRunDone_quiet out n hq) ?_ ?_ ?_ off n
  · rwa [subRunDone_irqDepth]
  · rwa [subRunDone_ai]
  · rwa [subRunDone_ring, subRunDone_ai]

theorem pollLoop_end (off n fuel : Nat) (s : State) : pollLoop off n (fuel + 1) n s = pollCommit off n s := by
  rw [pollLoop, if_pos le_rfl]

/-! ### The command (R269 to R275) -/

/-- The state in which a poll that passed its checks looks for its place in the ring. -/
def State.pollOpened (s : State) (n : Word) : State :=
  { s with
    cmd := ⟨(Instr.mxPoll n).opcode, (Instr.mxPoll n).chField⟩, res := [], pending := none, mx := { s.mx with inPoll := true } }

/-- The state in which that poll mixes a sub-run. -/
def State.inSubRun (s : State) (n : Word) : State :=
  { s with
    cmd := ⟨(Instr.mxPoll n).opcode, (Instr.mxPoll n).chField⟩, res := [], pending := none
    mx := { s.mx with inPoll := true, subRun := true } }

theorem modMx_pollOpened (s : State) (n : Word) :
    ((s.begin (.mxPoll n)).modMx fun m => { m with inPoll := true }) = s.pollOpened n := rfl

theorem pollOpened_opened (s : State) (n : Word) : (s.pollOpened n).modMx Mixer.opened = s.inSubRun n := rfl

/-! What belongs to the poll is no concern of the windows, the job, the read-back and the post-check. -/

section
variable (s : State) (n : Word)

theorem windowsUpTo_inSubRun (k m : Nat) : (s.inSubRun n).windowsUpTo k m = (s.windowsUpTo k m).inSubRun n := rfl

theorem acquired_inSubRun : (s.inSubRun n).acquired = s.acquired.inSubRun n := rfl

theorem upload_inSubRun (out k : Nat) : (s.inSubRun n).upload out k = (s.upload out k).inSubRun n := rfl

theorem runJob_inSubRun : (s.inSubRun n).runJob = s.runJob.inSubRun n := rfl

theorem readBack_inSubRun : (s.inSubRun n).readBack = s.readBack.inSubRun n := rfl

theorem postCheck_inSubRun : (s.inSubRun n).postCheck = s.postCheck.inSubRun n := rfl

theorem mixed_inSubRun (out k : Nat) : (s.inSubRun n).mixed out k = (s.mixed out k).inSubRun n := by
  rw [State.mixed, State.mixed, acquired_inSubRun, upload_inSubRun, runJob_inSubRun, readBack_inSubRun, postCheck_inSubRun]

theorem pollOpened_mx : (s.pollOpened n).mx = { s.mx with inPoll := true } := rfl

theorem pollOpened_chan (c : Nat) : (s.pollOpened n).chan c = s.chan c := rfl

theorem pollOpened_sb (c : Nat) : (s.pollOpened n).sb c = s.sb c := rfl

theorem subRunDone_pollOpened (out k : Nat) : (s.pollOpened n).subRunDone out k =
    (((s.windowsUpTo k s.mx.nch.toNat).mixed out k).inSubRun n).clocked (BitVec.ofNat 64 (s.mx.ticks.toNat + k)) := by
  rw [State.subRunDone, pollOpened_opened, pollOpened_mx, windowsUpTo_inSubRun, mixed_inSubRun]

theorem pollOpened_windowHeld {c k : Nat} (h : s.windowHeld c k) : (s.pollOpened n).windowHeld c k :=
  windowHeld_congr (pollOpened_chan s n c) (pollOpened_sb s n c) h

end

/-- A block that starts at the ring's offset ends inside the ring (R272). -/
theorem Ring.offset_fits (r : Ring) {n : Nat} (h : n ≤ r.nf.toNat) : r.offset n + 4 * n ≤ 4 * r.nf.toNat := by
  unfold Ring.offset
  split
  · omega
  · omega

/-- A block that is committed and queued at once leaves none pending, as there was none before. -/
theorem Ring.committed_queued {r : Ring} (h : r.pending = none) (off n : Nat) (x : Xfer) :
    (r.committed off n).queued x = { r with w := w32 (off + 4 * n), inflight := r.inflight ++ [x] } := by
  obtain ⟨base, nf, w, pending, inflight⟩ := r
  obtain rfl : pending = none := h
  rfl

theorem Mixer.clocked_inPoll {m : Mixer} (h : m.inPoll = false) (t : Dword) :
    ({ m with inPoll := false, ticks := t, subRun := false } : Mixer) = { m with ticks := t, subRun := false } := by
  obtain ⟨on, nch, rate, master, ticks, bufMem, inPoll, subRun⟩ := m
  obtain rfl : inPoll = false := h
  rfl

/-- The end of a poll of `s` whose sub-run has ended in `x`: time has passed, and the block is queued. -/
theorem pollDone_finish {s x : State} (hmx : x.mx = s.mx) (hring : x.ring = s.ring) (hai : x.ai = s.ai) (hp : s.mx.inPoll = false)
    (hpending : s.ring.pending = none) (n : Word) (ticks : Dword) (off k : Nat) :
    (((x.inSubRun n).clocked ticks).pollDone off k).finish [] =
      ({ x with
        mx := { s.mx with ticks := ticks, subRun := false }
        ring := { s.ring with
          w := w32 (off + 4 * k)
          inflight := s.ring.inflight ++ [Xfer.mk (w32 (s.ring.base.toNat + off)) (w32 (4 * k))] }
        ai := s.ai.queued ⟨w32 (s.ring.base.toNat + off), w32 (4 * k)⟩ }).finish [] := by
  rw [← Ring.committed_queued hpending, ← Mixer.clocked_inPoll hp, ← hmx, ← hring, ← hai]
  rfl

/-- A poll that needs one sub-run alone: its checks pass, its range is ready, no event and no window keeps it, the coprocessor is free, and the
device has room. -/
structure State.PollsAtOnce (s : State) (n : Word) : Prop where
  runs : s.mayRun (.mxPoll n)
  on : s.mx.on = true
  outside : s.mx.inPoll = false
  even : n.toNat % 2 = 0
  some : 0 < n.toNat
  fits : n.toNat ≤ s.ring.nf.toNat
  quiet : s.quiet
  depth : s.irqDepth ≠ 0xFFFFFFFF
  held : ∀ c < s.mx.nch.toNat, s.playing c → s.windowHeld c n.toNat
  eventless : s.events = []
  free : s.coproc.jobBusy = false
  room : s.ai.fifo.length < 2
  pending : s.ring.pending = none
  inflight : s.ring.inflight.length ≤ s.ai.fifo.length
  ready : s.ring.ready (s.ring.offset n.toNat) n.toNat
  ticks : s.mx.ticks.toNat + n.toNat < 2 ^ 64

/-- The state that such a poll leaves, with its block at `out`, which is offset `off` of the ring. -/
def State.polled (s : State) (n : Word) (out off : Nat) : State :=
  ({ (s.windowsUpTo n.toNat s.mx.nch.toNat).mixed out n.toNat with
    mx := { s.mx with ticks := s.mx.ticks + BitVec.setWidth 64 n, subRun := false }
    ring := { s.ring with w := w32 (off + 4 * n.toNat), inflight := s.ring.inflight ++ [Xfer.mk (w32 out) (w32 (4 * n.toNat))] }
    ai := s.ai.queued ⟨w32 out, w32 (4 * n.toNat)⟩ }).finish []

theorem polled_mem (s : State) (n : Word) (out off : Nat) :
    (s.polled n out off).mem = ((s.windowsUpTo n.toNat s.mx.nch.toNat).mixed out n.toNat).mem := by rw [State.polled, State.finish_mem]

section
variable {s : State} {n : Word} (h : s.PollsAtOnce n)
include h

/-- Behind its checks the poll comes to its sub-runs at once (R269 to R272). -/
theorem mxPoll_ready : mxPoll n (s.begin (.mxPoll n)) =
    pollLoop (s.ring.offset n.toNat) n.toNat stepPasses 0 (s.pollOpened n) := by
  have hne : n ≠ 0 := fun h0 => absurd h.some (by rw [h0]; decide)
  have hopened : (s.pollOpened n).ring.ready ((s.pollOpened n).ring.offset n.toNat) n.toNat := h.ready
  rw [mxPoll_begin h.runs h.on h.outside, if_pos ⟨h.even, h.fits⟩, if_neg hne, modMx_pollOpened, pollPlaceSpin, act_get_bind, if_pos hopened]
  rfl

/-- The command is one sub-run and the commit (R273, R274). -/
theorem exec_mxPoll_commits : exec (.mxPoll n) s = .next
    ((((s.pollOpened n).subRunDone (s.ring.base.toNat + s.ring.offset n.toNat) n.toNat).pollDone (s.ring.offset n.toNat) n.toNat).finish
      []) := by
  let off := s.ring.offset n.toNat
  let v := (s.pollOpened n).subRunDone (s.ring.base.toNat + off) n.toNat
  -- of the 256 passes of a step (`stepPasses`) the poll needs two: one mixes, one commits
  have hmix : pollLoop off n.toNat (254 + 1 + 1) 0 (s.pollOpened n) = pollLoop off n.toNat (254 + 1) n.toNat v :=
    pollLoop_subRun (s := s.pollOpened n) h.quiet h.some h.eventless (fun c hc hp => pollOpened_windowHeld s n (h.held c hc hp)) h.free
      h.ticks (254 + 1)
  have hcommit : pollCommit off n.toNat v = .ok (.done []) (v.pollDone off n.toNat) :=
    pollCommit_subRunDone (s := s.pollOpened n) h.quiet h.depth h.room h.inflight _ off n.toNat
  rw [exec_eq_command, command_running h.runs.1, commandBody, mxPoll_ready h]
  show settle (pollLoop off n.toNat (254 + 1 + 1) 0 (s.pollOpened n)) = _
  rw [hmix, pollLoop_end, hcommit, settle_done]

/-- The poll as a whole: the windows and the job, time, the ring and the device. -/
theorem exec_mxPoll_atOnce : exec (.mxPoll n) s = .next (s.polled n (s.ring.base.toNat + s.ring.offset n.toNat) (s.ring.offset n.toNat)) := by
  refine (exec_mxPoll_commits h).trans (congrArg Host.Outcome.next ?_)
  rw [State.polled, subRunDone_pollOpened, ← tick_eq_add]
  refine pollDone_finish ?_ ?_ ?_ h.outside h.pending n _ _ _
  · rw [mixed_mx, windowsUpTo_mx]
  · rw [mixed_ring, windowsUpTo_ring]
  · rw [mixed_ai, windowsUpTo_ai]

end

/-- Taking the windows starts no channel. -/
theorem windowsTaken_idle {s u : State} {n : Nat} (h : s.windowsTaken u n) (hnch : u.mx.nch.toNat ≤ 32)
    (hidle : ∀ c < s.mx.nch.toNat, (s.desc c).ptr = 0) : ∀ c < u.mx.nch.toNat, (u.desc c).ptr = 0 := by
  obtain ⟨hu, hchannels⟩ := h
  have hmx : u.mx = s.mx := by rw [hu]
  intro c hc
  have hptr : (s.chan c).desc.ptr = 0 := hidle c (hmx ▸ hc)
  obtain ⟨hchan, -⟩ : u.chan c = s.chan c ∧ u.sb c = s.sb c :=
    (if_neg fun ⟨_, hplaying⟩ => hplaying hptr).mp (hchannels c (hc.trans_le hnch))
  rw [State.desc, hchan, hptr]

/-- Settles O49: the poll is one sub-run and a commit, and the bytes of memory are the job's output. -/
theorem mxPollEffect : Obligations.MxPollEffect := by
  intro s n off out block hrun hon hp hnch heven hpos hle hq hdepth hheld hevents hfree hroom hpending hinflight hready hbase hticks
  have h : s.PollsAtOnce n :=
    ⟨hrun, hon, hp, heven, hpos, hle, hq, hdepth, hheld, hevents, hfree, hroom, hpending, hinflight, hready, hticks⟩
  let u : State := s.windowsUpTo n.toNat s.mx.nch.toNat
  have htaken : s.windowsTaken u n.toNat := windowsUpTo_windowsTaken s n.toNat
  have hmem : (s.polled n out off).mem = (u.mixed out n.toNat).mem := polled_mem s n out off
  have hout : out < 2 ^ 32 := by
    have hfits : off + 4 * n.toNat ≤ 4 * s.ring.nf.toNat := s.ring.offset_fits hle
    show s.ring.base.toNat + off < 2 ^ 32
    omega
  have huMx : u.mx = s.mx := windowsUpTo_mx s _ _
  have huParams : u.params = s.params := windowsUpTo_params s _ _
  have huBytes : u.memBytes = s.memBytes := windowsUpTo_memBytes s _ _
  rw [← huMx] at hnch
  rw [← huParams, ← huBytes]
  refine ⟨u, s.polled n out off, htaken, exec_mxPoll_atOnce h, rfl, fun x hx => ?_, fun hbackend k hk j hj hin => ?_,
    fun hbackend hidle x hx hx' hin => ?_⟩
  · rw [hmem, mixed_read_outside u hout n.isLt hx, windowsUpTo_mem]
  · rw [hmem, mixed_read_reference hbackend hnch hout n.isLt hk hj hin]
  · rw [hmem, mixed_read_silent hbackend hnch hout n.isLt (windowsTaken_idle htaken hnch hidle) hx hx' hin]

end Sys2Proof.Machine
end

section
/-!
SUPPORT. Firing one event whose callback only returns, or never returns (spec/45_event_scheduler.md R293 to R295; R360, R380): which record is
called, what the call leaves behind, and what its return does to the list.
-/

namespace Sys2Proof.Machine

set_option Elab.async false

/-! ### Choosing the record (R293, R294) -/

theorem mem_dueEvents {s : State} {e : Event} : e ∈ s.dueEvents ↔ e ∈ s.events ∧ e.tick ≤ s.mx.ticks := by
  rw [State.dueEvents, List.mem_filter, decide_eq_true_iff]

theorem mem_firstDue {s : State} {e : Event} :
    e ∈ s.firstDue ↔ e ∈ s.dueEvents ∧ some e.tick.toNat = nextTick s.dueEvents := by
  rw [State.firstDue, List.mem_filter, beq_iff_eq]

/-- No due record has a lesser tick than one of those first due (R294). -/
theorem firstDue_least {s : State} {e x : Event} (he : e ∈ s.firstDue) (hx : x ∈ s.dueEvents) : e.tick ≤ x.tick := by
  obtain ⟨-, hnext⟩ := mem_firstDue.mp he
  obtain ⟨-, hleast⟩ := nextTick_some hnext.symm
  exact BitVec.le_def.mpr (hleast x hx)

/-- Where a record is due, one is first due. -/
theorem firstDue_ne_nil {s : State} (h : s.dueEvents ≠ []) : s.firstDue ≠ [] := by
  obtain ⟨t, ht⟩ := Option.ne_none_iff_exists'.mp (mt nextTick_none.mp h)
  obtain ⟨⟨e, he, rfl⟩, -⟩ := nextTick_some ht
  exact List.ne_nil_of_mem (mem_firstDue.mpr ⟨he, ht.symm⟩)

/-- Whatever the choice, it falls on one of the events. -/
theorem pickEvent_mem {es : List Event} (h : es ≠ []) (choice : Nat) : ∃ e ∈ es, pickEvent es choice = some e := by
  have hin : choice % es.length < es.length := Nat.mod_lt _ (List.length_pos_iff.mpr h)
  exact ⟨_, List.getElem_mem hin, List.getElem?_eq_getElem hin⟩

theorem drawTie_none {s : State} (hfree : s.oracle.free = false) (hties : s.oracle.ties = []) : drawTie s = .ok 0 s := by
  rw [drawTie, hties, hfree]
  rfl

/-! ### The call (R293, R360) -/

/-- The next callback does nothing of its own: it returns `ret`, or never returns. -/
def State.nextCallGives (s : State) (ret : Option Word) : Prop :=
  s.oracle.free = false ∧ (s.oracle.runs = [] ∧ ret = some 0 ∨ s.oracle.runs = [⟨[], ret⟩])

/-- A callback has been called that did nothing of its own. -/
def State.called (s : State) (fn : Word) (args : List Nat) : State :=
  { s with calls := s.calls ++ [Call.mk fn args], oracle := { s.oracle with runs := [] } }

theorem drawRun_idle {s : State} {ret : Option Word} (h : s.nextCallGives ret) :
    drawRun s = .ok ⟨[], ret⟩ { s with oracle := { s.oracle with runs := [] } } := by
  obtain ⟨hfree, ⟨hruns, rfl⟩ | hruns⟩ := h
  · have hsame : s = { s with oracle := { s.oracle with runs := [] } } := by rw [← hruns]
    rw [drawRun, hruns, hfree]
    exact congrArg _ hsame
  · rw [drawRun, hruns]

section
variable (issue : Packet → Act Unit) (b : Act Unit) (ctx : Ctx) (fn : Word) (args : List Nat)

/-- A callback that returns is one more entry in the trace of calls; the caller's context is back in place. -/
theorem callHost_returns {s : State} {r : Word} (h : s.nextCallGives (some r)) :
    callHost issue b ctx fn args s = .ok r (s.called fn args) := by
  have hdraw := drawRun_idle (s := { s with ctx := ctx, calls := s.calls ++ [Call.mk fn args] }) h
  rw [callHost, act_get_bind, act_set_bind, act_bind_ok hdraw]
  simp only [runActs, act_pure_bind, act_get_bind, ensure_bind, if_true, act_modify_bind, act_pure]
  rfl

/-- A callback that never returns leaves the block stuck, in the callback's context (R360). -/
theorem callHost_sticks {s : State} (h : s.nextCallGives none) :
    callHost issue b ctx fn args s = .error .stuck { s.called fn args with ctx := ctx } := by
  have hdraw := drawRun_idle (s := { s with ctx := ctx, calls := s.calls ++ [Call.mk fn args] }) h
  rw [callHost, act_get_bind, act_set_bind, act_bind_ok hdraw]
  rfl

end

/-! ### The return (R295) -/

/-- The records around `e` have other identities. -/
def OnlyBetween (e : Event) (before after : List Event) : Prop := (∀ x ∈ before, x.id ≠ e.id) ∧ ∀ x ∈ after, x.id ≠ e.id

theorem onlyBetween_of_nodup {before after : List Event} {e : Event} (h : ((before ++ e :: after).map Event.id).Nodup) :
    OnlyBetween e before after := by
  rw [List.map_append, List.map_cons, List.nodup_middle, List.nodup_cons, List.mem_append, not_or] at h
  obtain ⟨⟨hbefore, hafter⟩, -⟩ := h
  exact ⟨fun x hx he => hbefore (he ▸ List.mem_map_of_mem hx), fun x hx he => hafter (he ▸ List.mem_map_of_mem hx)⟩

/-- What becomes of a record whose callback returned `r` at time `now` (R295). -/
def Event.afterReturn (e : Event) (now : Dword) (r : Word) : List Event :=
  if r = 0 then [] else [{ e with tick := now + BitVec.setWidth 64 r }]

theorem eraseP_of_onlyBetween {before after : List Event} {e : Event} (h : OnlyBetween e before after) :
    (before ++ e :: after).eraseP (fun x => x.id == e.id) = before ++ after := by
  rw [List.eraseP_append_right _ (fun x hx => by simpa using h.1 x hx), List.eraseP_cons_of_pos (by simp)]

/-- An update of the record with `e`'s identity reaches no other. -/
theorem map_of_onlyBetween {before after : List Event} {e : Event} (h : OnlyBetween e before after) (f : Event → Event) :
    (before ++ e :: after).map (fun x => if x.id = e.id then f x else x) = before ++ f e :: after := by
  have hkept : ∀ l : List Event, (∀ x ∈ l, x.id ≠ e.id) → l.map (fun x => if x.id = e.id then f x else x) = l :=
    fun l hl => (List.map_congr_left fun x hx => if_neg (hl x hx)).trans (List.map_id l)
  rw [List.map_append, List.map_cons, hkept _ h.1, hkept _ h.2, if_pos rfl]

/-- `ReturnHandling`: the record is removed, or is due again at its place. -/
theorem returnHandling_at {s : State} {before after : List Event} {e : Event} {r : Word} (hlist : s.events = before ++ e :: after)
    (honly : OnlyBetween e before after) (hfit : s.mx.ticks.toNat + r.toNat < 2 ^ 64) :
    returnHandling e.id r s = .ok () { s with events := before ++ e.afterReturn s.mx.ticks r ++ after } := by
  have hin : s.events.any (fun x => x.id == e.id) = true := by simp [hlist]
  rw [returnHandling, act_get_bind, if_pos hin, Event.afterReturn]
  by_cases hr : r = 0
  · rw [if_pos hr, if_pos hr, act_modify, hlist, eraseP_of_onlyBetween honly, List.append_nil]
  · rw [if_neg hr, if_neg hr, act_bind_ok (laterTick_fits hfit s), act_modify, hlist, tick_eq_add,
      map_of_onlyBetween honly fun x => { x with tick := s.mx.ticks + BitVec.setWidth 64 r }, List.append_assoc]
    rfl

/-! ### `FireOne` (R293 to R295) -/

/-- Where an event is due, firing is the call of one of those first due, and the handling of its return. -/
theorem fireOne_calls {s : State} (hfree : s.oracle.free = false) (hties : s.oracle.ties = []) (hdue : s.dueEvents ≠ []) :
    ∃ e ∈ s.firstDue, fireOne s = (callHost eventIssue boundary .event e.cb [e.ctx.toNat] >>= returnHandling e.id) s := by
  obtain ⟨e, he, hpick⟩ := pickEvent_mem (firstDue_ne_nil hdue) 0
  refine ⟨e, he, ?_⟩
  rw [fireOne, act_bind_ok (drawTie_none hfree hties), act_get_bind, hpick]

/-- A block stuck in a callback that does nothing more stays there (R360, R380). -/
theorem callbackGoesOn_quiet {s : State} (h : s.quiet) : callbackGoesOn s = .ok (.wait .callback) s := by
  rw [callbackGoesOn, act_get_bind, act_bind_ok (drawRun_quiet h)]
  rfl

/-- Settles O51: the record called is one of those first due, and then the call either never returns or its return is handled. -/
theorem fireOneEffect : Obligations.FireOneEffect := by
  refine ⟨fun s ret hfree _ hties hruns hdue hids hfit => ?_, fun s => ⟨settle_stuck s, callbackGoesOn_quiet⟩⟩
  obtain ⟨e, he, hfire⟩ := fireOne_calls hfree hties hdue
  obtain ⟨hin, hpast⟩ := mem_dueEvents.mp (mem_firstDue.mp he).1
  obtain ⟨before, after, hlist⟩ := List.append_of_mem hin
  refine ⟨e, before, after, hlist, hpast, fun x hx hxdue => firstDue_least he (mem_dueEvents.mpr ⟨hx, hxdue⟩), hfire.trans ?_⟩
  cases ret with
  | none => exact act_bind_error (callHost_sticks _ _ _ _ _ ⟨hfree, hruns⟩)
  | some r =>
    have honly : OnlyBetween e before after := onlyBetween_of_nodup (hlist ▸ hids)
    rw [act_bind_ok (callHost_returns _ _ _ _ _ ⟨hfree, hruns⟩)]
    exact returnHandling_at (s := s.called _ _) hlist honly (hfit r rfl)

end Sys2Proof.Machine
end

section
/-!
SUPPORT. VideoSync (spec/46_videosync.md R310 to R315): what a frame count is, what stands for one that does not fit its result, what the four
commands do, and the counter and the counts over any number of frames.
-/

namespace Sys2Proof.Machine

set_option Elab.async false

/-! ### A frame count (R312) -/

theorem evenFrames_even (q : ℚ) : evenFrames q % 2 = 0 := by
  rw [evenFrames, roundUpEven]
  omega

theorem ceil_le_evenFrames (q : ℚ) : ⌈q⌉ ≤ evenFrames q := le_add_of_nonneg_right (Int.emod_nonneg _ two_ne_zero)

theorem evenFrames_le_ceil (q : ℚ) : evenFrames q ≤ ⌈q⌉ + 1 := by
  rw [evenFrames, roundUpEven]
  omega

theorem le_evenFrames (q : ℚ) : q ≤ evenFrames q := Int.ceil_le.mp (ceil_le_evenFrames q)

theorem evenFrames_lt (q : ℚ) : (evenFrames q : ℚ) < q + 2 := by
  have hround : (evenFrames q : ℚ) ≤ (⌈q⌉ : ℚ) + 1 := by exact_mod_cast evenFrames_le_ceil q
  have hceil : (⌈q⌉ : ℚ) < q + 1 := Int.ceil_lt_add_one q
  linarith

theorem two_le_evenFrames {q : ℚ} (h : 0 < q) : 2 ≤ evenFrames q := by
  have hceil : 0 < ⌈q⌉ := Int.ceil_pos.mpr h
  have hle := ceil_le_evenFrames q
  have heven := evenFrames_even q
  omega

/-- A counter in the range of R315 is counted as the whole frame is, or as 2 samples less. -/
theorem evenFrames_of_near {c q : ℚ} (hlo : q - 2 < c) (hhi : c ≤ q) : evenFrames c = evenFrames q ∨ evenFrames c = evenFrames q - 2 := by
  have hle : ⌈c⌉ ≤ ⌈q⌉ := Int.ceil_le_ceil hhi
  have hge : ⌈q⌉ - 2 ≤ ⌈c⌉ := by
    rw [← Int.ceil_sub_ofNat]
    exact Int.ceil_le_ceil hlo.le
  simp only [evenFrames, roundUpEven]
  omega

/-! ### The words that stand for a count and for a suggested size (R312, R314) -/

theorem countWord_fits {n : Nat} (h : n < 2 ^ 32) : countWord n = w32 n := if_pos h

theorem countWord_toNat (n : Nat) :
    (countWord n).toNat = if n < 2 ^ 32 then n else 2 * (Config.freeCount n % (2 ^ 31 - 1) + 1) := by
  rw [countWord]
  split
  case isTrue h => exact w32_toNat_of_lt h
  case isFalse => exact w32_toNat_of_lt (by omega)

theorem countWord_even {n : Nat} (h : n % 2 = 0) : (countWord n).toNat % 2 = 0 := by
  rw [countWord_toNat]
  split
  · exact h
  · exact Nat.mul_mod_right _ _

theorem two_le_countWord {n : Nat} (h : 2 ≤ n) : 2 ≤ (countWord n).toNat := by
  rw [countWord_toNat]
  split
  · exact h
  · omega

/-- A suggested size is the larger of the words of its two counts. -/
theorem sizeWord_toNat (n : Nat) : (sizeWord n).toNat = max (countWord n).toNat (countWord (n - 2)).toNat := by
  rw [sizeWord]
  split
  case isTrue h => exact (max_eq_left (BitVec.le_def.mp h)).symm
  case isFalse h => exact (max_eq_right (BitVec.lt_def.mp (BitVec.not_le.mp h)).le).symm

theorem sizeWord_fits {n : Nat} (h : n < 2 ^ 32) : sizeWord n = w32 n := by
  have hsmaller : n - 2 < 2 ^ 32 := (Nat.sub_le n 2).trans_lt h
  apply BitVec.eq_of_toNat_eq
  rw [sizeWord_toNat, countWord_fits h, countWord_fits hsmaller, w32_toNat_of_lt h, w32_toNat_of_lt hsmaller]
  exact max_eq_left (Nat.sub_le n 2)

/-! ### What the readers answer -/

/-- The response of `VS_CURRENT_FRAME_SAMPLES`. -/
def VideoSync.count (v : VideoSync) : Word := countWord (evenFrames v.counter).toNat

/-- The response of `VS_SUGGESTED_BUFFER_SIZE`. -/
def VideoSync.size (v : VideoSync) : Word := sizeWord (evenFrames v.spf).toNat

theorem VideoSync.count_even (v : VideoSync) : v.count.toNat % 2 = 0 := by
  have heven := evenFrames_even v.counter
  exact countWord_even (by omega)

theorem VideoSync.two_le_count {v : VideoSync} (h : 0 < v.counter) : 2 ≤ v.count.toNat := by
  have htwo := two_le_evenFrames h
  exact two_le_countWord (by omega)

theorem VideoSync.two_le_size {v : VideoSync} (h : 0 < v.spf) : 2 ≤ v.size.toNat := by
  have htwo := two_le_evenFrames h
  have hword : 2 ≤ (countWord (evenFrames v.spf).toNat).toNat := two_le_countWord (by omega)
  rw [VideoSync.size, sizeWord_toNat]
  exact hword.trans (le_max_left _ _)

/-- The count is one of the two that the size is the larger of. -/
theorem VideoSync.count_le_size {v : VideoSync} (hlo : v.spf - 2 < v.counter) (hhi : v.counter ≤ v.spf) :
    v.count.toNat ≤ v.size.toNat := by
  rw [VideoSync.count, VideoSync.size, sizeWord_toNat]
  rcases evenFrames_of_near hlo hhi with hsame | hless
  · rw [hsame]
    exact le_max_left _ _
  · have hword : (evenFrames v.spf - 2).toNat = (evenFrames v.spf).toNat - 2 := by omega
    rw [hless, hword]
    exact le_max_right _ _

/-! ### The commands (R310 to R314) -/

theorem samplesPerFrame_mul (r : Word) {fps : Word} (h : fps ≠ 0) :
    samplesPerFrame r fps * (fps.toNat : ℚ) = (r.toNat : ℚ) * 65536 := by
  have hne : (fps.toNat : ℚ) ≠ 0 := Nat.cast_ne_zero.mpr (BitVec.toNat_pos_of_ne_zero h).ne'
  rw [samplesPerFrame, div_mul_cancel₀ _ hne]
  norm_cast

theorem two_le_samplesPerFrame {r fps : Word} (h : fps ≠ 0) (hrate : 2 * fps.toNat ≤ r.toNat * 65536) :
    2 ≤ samplesPerFrame r fps := by
  have hpos : (0 : ℚ) < fps.toNat := Nat.cast_pos.mpr (BitVec.toNat_pos_of_ne_zero h)
  rw [samplesPerFrame, le_div_iff₀ hpos]
  exact_mod_cast hrate

theorem vsInit_begin {s : State} {fps rate r : Word} (hr : r = if rate = 0 then s.mx.rate else rate)
    (hrun : s.mayRun (.vsInit fps rate)) (hfps : fps ≠ 0) (hon : rate = 0 → s.mx.on = true)
    (hrate : 2 * fps.toNat ≤ r.toNat * 65536) : vsInit fps rate (s.begin (.vsInit fps rate)) =
      .ok () { s.begin (.vsInit fps rate) with vs := ⟨true, fps, r, samplesPerFrame r fps, samplesPerFrame r fps⟩ } := by
  subst hr
  have hsource : rate ≠ 0 ∨ (s.begin (.vsInit fps rate)).mx.on = true := (em (rate = 0)).symm.imp_right hon
  rw [vsInit, act_bind_ok (checkIssuer_begin hrun), ensure_bind, if_pos hfps, act_get_bind, ensureState_bind, if_pos hsource]
  exact (ensure_bind _ _ _ _ _).trans (if_pos (two_le_samplesPerFrame hfps hrate))

/-- Settles O54: the three checks pass, and the exact quotient is stored. -/
theorem vsInitEffect : Obligations.VsInitEffect := by
  intro s fps rate r hrun hfps hon hrate
  exact ⟨samplesPerFrame r fps, samplesPerFrame_mul r hfps, (command_replyNone hrun.1 (vsInit_begin rfl hrun hfps hon hrate)).trans rfl⟩

section
variable {s : State} (hon : s.vs.on = true)
include hon

theorem vsCurrentFrameSamples_begin (h : s.mayRun .vsCurrentFrameSamples) :
    vsCurrentFrameSamples (s.begin .vsCurrentFrameSamples) = .ok [s.vs.count] (s.begin .vsCurrentFrameSamples) := by
  rw [vsCurrentFrameSamples, act_bind_ok (vsOn_begin h hon), act_get_bind, act_pure]
  rfl

theorem vsSuggestedBufferSize_begin (h : s.mayRun .vsSuggestedBufferSize) :
    vsSuggestedBufferSize (s.begin .vsSuggestedBufferSize) = .ok [s.vs.size] (s.begin .vsSuggestedBufferSize) := by
  rw [vsSuggestedBufferSize, act_bind_ok (vsOn_begin h hon), act_get_bind, act_pure]
  rfl

theorem vsNextFrame_begin (h : s.mayRun .vsNextFrame) :
    vsNextFrame (s.begin .vsNextFrame) = .ok () { s.begin .vsNextFrame with vs := s.vs.advanced } := by
  rw [vsNextFrame, act_bind_ok (vsOn_begin h hon), act_modify]
  rfl

end

/-- Settles O55: the readers answer `VideoSync.count` and `VideoSync.size`, whose words have the bounds of R312 and R314. -/
theorem vsFrameEffect : Obligations.VsFrameEffect := by
  refine ⟨VideoSync.count, VideoSync.size, fun s hon => ⟨fun h => ?_, fun h => ?_, fun h => ?_⟩, fun v =>
    ⟨countWord_fits, sizeWord_fits, v.count_even, VideoSync.two_le_count, VideoSync.two_le_size, fun _ => VideoSync.count_le_size⟩⟩
  · exact (command_reply h.1 (vsCurrentFrameSamples_begin hon h)).trans rfl
  · exact (command_reply h.1 (vsSuggestedBufferSize_begin hon h)).trans rfl
  · exact (command_replyNone h.1 (vsNextFrame_begin hon h)).trans rfl

/-! ### Frame after frame (R313, R315) -/

@[simp] theorem VideoSync.advanced_spf (v : VideoSync) : v.advanced.spf = v.spf := rfl

theorem VideoSync.advanced_counter (v : VideoSync) : v.advanced.counter = v.counter - evenFrames v.counter + v.spf := rfl

/-- The counter is in (`VS_SPF` − 2, `VS_SPF`]. -/
structure VideoSync.InRange (v : VideoSync) : Prop where
  low : v.spf - 2 < v.counter
  high : v.counter ≤ v.spf

/-- A frame leaves the counter in its range wherever it was, since a count exceeds the counter by less than 2. -/
theorem VideoSync.advanced_inRange (v : VideoSync) : v.advanced.InRange where
  low := by
    rw [VideoSync.advanced_spf, VideoSync.advanced_counter]
    linarith [evenFrames_lt v.counter]
  high := by
    rw [VideoSync.advanced_spf, VideoSync.advanced_counter]
    linarith [le_evenFrames v.counter]

theorem VideoSync.inRange_of_start {v : VideoSync} (h : v.counter = v.spf) : v.InRange := ⟨by linarith, h.le⟩

/-- VideoSync after `k` frames. -/
def VideoSync.afterFrames (v : VideoSync) (k : Nat) : VideoSync := VideoSync.advanced^[k] v

theorem VideoSync.afterFrames_zero (v : VideoSync) : v.afterFrames 0 = v := rfl

theorem VideoSync.afterFrames_succ (v : VideoSync) (k : Nat) : v.afterFrames (k + 1) = (v.afterFrames k).advanced :=
  Function.iterate_succ_apply' _ _ _

@[simp] theorem VideoSync.afterFrames_spf (v : VideoSync) (k : Nat) : (v.afterFrames k).spf = v.spf := by
  induction k with
  | zero => rfl
  | succ k ih => rw [v.afterFrames_succ, VideoSync.advanced_spf, ih]

theorem VideoSync.afterFrames_counter_succ (v : VideoSync) (k : Nat) :
    (v.afterFrames (k + 1)).counter = (v.afterFrames k).counter - evenFrames (v.afterFrames k).counter + v.spf := by
  rw [v.afterFrames_succ, VideoSync.advanced_counter, v.afterFrames_spf]

theorem VideoSync.afterFrames_inRange {v : VideoSync} (h : v.counter = v.spf) (k : Nat) : (v.afterFrames k).InRange := by
  cases k with
  | zero => exact VideoSync.inRange_of_start h
  | succ k =>
    rw [v.afterFrames_succ]
    exact VideoSync.advanced_inRange _

/-- The counter after any number of frames is less than 2 below the samples per frame, and never above. -/
theorem VideoSync.afterFrames_bounds {v : VideoSync} (h : v.counter = v.spf) (k : Nat) :
    v.spf - 2 < (v.afterFrames k).counter ∧ (v.afterFrames k).counter ≤ v.spf := by
  obtain ⟨hlow, hhigh⟩ := VideoSync.afterFrames_inRange h k
  rw [v.afterFrames_spf] at hlow hhigh
  exact ⟨hlow, hhigh⟩

/-- The counts of the `frames` frames from frame `k` on, added up. -/
def VideoSync.total (v : VideoSync) (frames k : Nat) : ℚ :=
  ∑ j ∈ Finset.range frames, (evenFrames (v.afterFrames (k + j)).counter : ℚ)

/-- Every frame owes `VS_SPF`, and what is not counted stays in the counter. -/
theorem VideoSync.total_eq (v : VideoSync) (frames k : Nat) :
    v.total frames k = frames * v.spf + (v.afterFrames k).counter - (v.afterFrames (k + frames)).counter := by
  induction frames with
  | zero => simp [VideoSync.total]
  | succ frames ih =>
    have hnext : (v.afterFrames (k + (frames + 1))).counter =
        (v.afterFrames (k + frames)).counter - evenFrames (v.afterFrames (k + frames)).counter + v.spf :=
      v.afterFrames_counter_succ (k + frames)
    have hsum : v.total (frames + 1) k = v.total frames k + evenFrames (v.afterFrames (k + frames)).counter :=
      Finset.sum_range_succ _ _
    rw [hsum, ih, hnext, Nat.cast_succ]
    ring

theorem VideoSync.total_start {v : VideoSync} (h : v.counter = v.spf) (frames : Nat) :
    v.total frames 0 = frames * v.spf + v.spf - (v.afterFrames frames).counter := by
  rw [v.total_eq, v.afterFrames_zero, h, Nat.zero_add]

/-- Settles O56: each frame keeps the counter in its range, and a total differs from the ideal one by what the counter lost. -/
theorem frameCountBounds : Obligations.FrameCountBounds := by
  intro v frames hstart at_ total
  have hbounds := VideoSync.afterFrames_bounds hstart
  have hfirst : total 0 = frames * v.spf + v.spf - (v.afterFrames frames).counter := VideoSync.total_start hstart frames
  obtain ⟨hendLow, hendHigh⟩ := hbounds frames
  refine ⟨fun k => ⟨v.afterFrames_spf k, v.afterFrames_counter_succ k, (hbounds k).1, (hbounds k).2, evenFrames_even _, le_evenFrames _,
    evenFrames_lt _⟩, hfirst, ?_, ?_, fun k => ?_⟩
  · linarith
  · linarith
  · have htotal : total k = frames * v.spf + (v.afterFrames k).counter - (v.afterFrames (k + frames)).counter := v.total_eq frames k
    obtain ⟨hfromLow, hfromHigh⟩ := hbounds k
    obtain ⟨htoLow, htoHigh⟩ := hbounds (k + frames)
    constructor <;> linarith

end Sys2Proof.Machine
end

section
/-!
SUPPORT. Faults and the critical-section commands (spec/60_exceptions.md R330, R331, R340 to R342), and the registers of the AI DMA device
(R350 to R352).
-/

namespace Sys2Proof.Machine

set_option Elab.async false

/-! ### A FAULTED block (R331) -/

theorem step_halted {s : State} (h : s.fault.isSome = true) : step s = .fault .halted := if_pos h

theorem exec_halted {s : State} (h : s.fault.isSome = true) (i : Instr) : exec i s = .fault .halted :=
  (exec_eq_command i s).trans (command_halted h)

/-- Settles O7: a step and a command look at the fault record first. -/
theorem faultedIsTerminal : Obligations.FaultedIsTerminal := by
  intro s hfault
  have hsome : s.fault.isSome = true := Option.isSome_iff_ne_none.mpr hfault
  exact ⟨step_halted hsome, exec_halted hsome⟩

/-- Settles O9: raising stops the computation in the FAULTED state, which is the step's next state. -/
theorem faultEntry : Obligations.FaultEntry := by
  intro s code info
  rw [raise_apply, settle_fatal, State.enterFaulted]

/-! ### `IRQ_DISABLE` and `IRQ_ENABLE` (R340 to R342) -/

theorem irqDisable_begin {s : State} (h : s.mayRun .irqDisable) :
    irqDisable (s.begin .irqDisable) =
      if s.irqDepth ≠ 0xFFFFFFFF then .ok () { s.begin .irqDisable with irqDepth := s.irqDepth + 1 }
      else .error .fatal ((s.begin .irqDisable).enterFaulted .irqUnbalanced 0) := by
  rw [irqDisable, act_bind_ok (checkIssuer_begin h), disableIrq_apply, State.begin_irqDepth]

theorem irqEnable_begin {s : State} (h : s.mayRun .irqEnable) :
    irqEnable (s.begin .irqEnable) =
      if s.irqDepth ≠ 0 then .ok () { s.begin .irqEnable with irqDepth := s.irqDepth - 1 }
      else .error .fatal ((s.begin .irqEnable).enterFaulted .irqUnbalanced 0) := by
  rw [irqEnable, act_bind_ok (checkIssuer_begin h), enableIrq_apply, State.begin_irqDepth]

/-- Settles O11: behind the issuer check each command is one test of the depth and one move of it. -/
theorem irqCommandsEffect : Obligations.IrqCommandsEffect := by
  intro s
  refine ⟨fun i hi hf hrefused => ?_, fun hrun => ?_, fun hrun => ?_⟩
  · refine issuerViolationFaults i s hf hrefused ?_ ?_
    · rintro out n rfl
      rcases hi with hi | hi <;> cases hi
    · rintro n rfl
      rcases hi with hi | hi <;> cases hi
  · rw [exec_eq_command, commandBody, command_replyNone_ite hrun.1 (irqDisable_begin hrun), ite_not, apply_ite Host.Outcome.next]
    rfl
  · rw [exec_eq_command, commandBody, command_replyNone_ite hrun.1 (irqEnable_begin hrun), ite_not, apply_ite Host.Outcome.next]
    rfl

/-! ### The device's registers (R26, R350 to R352) -/

/-- A mask that holds the bits from bit 3 up to bit `hi` keeps the word modulo 2^`hi`, rounded down to a multiple of 8. -/
theorem and_mask_eq (v m : Word) {hi : Nat} (hm : ∀ i < 32, m.getLsbD i = decide (3 ≤ i ∧ i < hi)) :
    v &&& m = w32 (v.toNat % 2 ^ hi / 8 * 8) := by
  refine BitVec.eq_of_getLsbD_eq fun i hi32 => ?_
  have hplace : 3 ≤ i → i - 3 + 3 = i := Nat.sub_add_cancel
  rw [BitVec.getLsbD_and, hm i hi32, w32, BitVec.getLsbD_ofNat, show (8 : Nat) = 2 ^ 3 from rfl, Nat.testBit_mul_two_pow,
    Nat.testBit_div_two_pow, Nat.testBit_mod_two_pow]
  by_cases hlow : 3 ≤ i
  · simp only [hi32, hlow, hplace hlow, decide_true, true_and, Bool.true_and]
    exact Bool.and_comm _ _
  · simp [hlow]

theorem addr_mask (v : Word) : v &&& 0xFFFFFFF8 = w32 (v.toNat / 8 * 8) := by
  rw [and_mask_eq v 0xFFFFFFF8 (hi := 32) (by decide), Nat.mod_eq_of_lt v.isLt]

theorem len_mask (v : Word) : v &&& 0x3FFF8 = w32 (v.toNat % 2 ^ 18 / 8 * 8) := and_mask_eq v 0x3FFF8 (hi := 18) (by decide)

/-- FULL in bit 31 and BUSY in bit 30, by the number of queued transfers (R352). -/
theorem status_eq {d : AiDevice} (h : d.fifo.length ≤ 2) :
    d.status = if d.fifo.length = 2 then 0xC0000000 else if d.fifo.length = 1 then 0x40000000 else 0 := by
  have hcount : d.fifo.length = 0 ∨ d.fifo.length = 1 ∨ d.fifo.length = 2 := by omega
  rcases hcount with hcount | hcount | hcount
  all_goals
    rw [AiDevice.status, AiDevice.full, AiDevice.busy, hcount]
    rfl

theorem aiRead_status (s : State) : aiRead .status s = .ok s.ai.status s := rfl

theorem aiWrite_status (v : Word) (s : State) : aiWrite .status v s = .ok () { s with ai := { s.ai with irq := false } } := rfl

theorem aiWrite_dramAddr (v : Word) (s : State) :
    aiWrite .dramAddr v s = .ok () { s with ai := { s.ai with addr := v &&& 0xFFFFFFF8 } } := rfl

/-- Settles O15: each register's own rule, with the masks as roundings. -/
theorem aiDeviceRegisters : Obligations.AiDeviceRegisters := by
  intro s v hfifo
  refine ⟨hwCount_eq hfifo, ?_, aiWrite_status v s, ?_, ?_⟩
  · rw [aiRead_status, status_eq hfifo]
  · rw [aiWrite_dramAddr, addr_mask]
  · split
    · next hfull => exact aiWrite_len_full hfull.ge
    · next hroom => rw [aiWrite_len_ok (Nat.lt_of_le_of_ne hfifo hroom), len_mask]

end Sys2Proof.Machine
end

section
/-!
SUPPORT. The drain step (spec/60_exceptions.md R353, R354) and the fairness of the choice of the agent that moves (spec/70_reset_and_hazards.md
R391, spec/44_mixer_exec.md R263).
-/

namespace Sys2Proof.Machine

set_option Elab.async false

/-! ### The frames of a transfer (R125, R354) -/

/-- The frame whose four bytes stand at `a`. -/
def frameAt (f : Nat → Byte) (a : Nat) : Frame := ⟨f a ++ f (a + 1), f (a + 2) ++ f (a + 3)⟩

/-- A half's bytes are the two it was made of. -/
theorem be16_append (x y : Byte) : be16 (x ++ y) = [x, y] := by
  have hhigh : (x ++ y).extractLsb' 8 8 = x := BitVec.extractLsb'_append_eq_left
  have hlow : (x ++ y).extractLsb' 0 8 = y := BitVec.extractLsb'_append_eq_right
  rw [be16, hhigh, hlow]

theorem frameBytes_frameAt (f : Nat → Byte) (a : Nat) : frameBytes (frameAt f a) = bytesBy f a 4 := by
  rw [frameBytes, frameAt, be16_append, be16_append]
  rfl

theorem bytesBy_succ (f : Nat → Byte) (a n : Nat) : bytesBy f a (n + 1) = f a :: bytesBy f (a + 1) n := by
  rw [bytesBy, List.range_succ_eq_map, List.map_cons, List.map_map]
  refine congrArg (f a :: ·) (List.map_congr_left fun j _ => congrArg f ?_)
  exact (Nat.add_assoc a 1 j).trans (congrArg (a + ·) (Nat.add_comm 1 j)) |>.symm

/-- The frames of consecutive bytes: one for every four of them, in order. -/
theorem framesOf_bytesBy (f : Nat → Byte) (a : Nat) : ∀ n, framesOf (bytesBy f a n) = (List.range (n / 4)).map fun k => frameAt f (a + 4 * k)
  | 0 => rfl
  | 1 => rfl
  | 2 => rfl
  | 3 => rfl
  | n + 4 => by
    have hnext : ∀ k, a + 4 * (k + 1) = a + 4 + 4 * k := fun k => by omega
    have hframes : framesOf (bytesBy f a (n + 4)) = frameAt f a :: framesOf (bytesBy f (a + 4) n) := by
      simp only [bytesBy_succ]
      rfl
    rw [hframes, framesOf_bytesBy f (a + 4) n, Nat.add_div_right n (by decide : 0 < 4), List.range_succ_eq_map]
    simp only [List.map_cons, List.map_map, Function.comp_def, Nat.succ_eq_add_one, hnext, Nat.mul_zero, Nat.add_zero]

/-! ### A drain step (R353, R354) -/

theorem due_drain {s : State} {x : Xfer} {rest : List Xfer} (hdma : s.ai.dmaEn = true) (hfifo : s.ai.fifo = x :: rest) :
    s.due .drain = true := by
  rw [State.due, hdma, AiDevice.busy, hfifo]
  rfl

theorem aiDmaMove_drains {s : State} {x : Xfer} {rest : List Xfer} (hdma : s.ai.dmaEn = true) (hfifo : s.ai.fifo = x :: rest) :
    aiDmaMove s = drainHead s x rest := by
  rw [aiDmaMove, if_pos hdma, hfifo]

/-- All a drain step does: of memory's record of races it drops what lies in no queued transfer any more. -/
theorem drainHead_eq (s : State) (x : Xfer) (rest : List Xfer) :
    drainHead s x rest = { s with
      output := s.output ++ ((List.range (x.len.toNat / 4)).map fun k => frameAt s.dmaByte (x.addr.toNat + 4 * k)).map OutItem.frame
      ai := { s.ai with fifo := rest, irq := true }
      race := (drainHead s x rest).race, oracle := { s.oracle with draws := s.oracle.draws + 1 } } := by
  rw [← framesOf_bytesBy]
  rfl

theorem drain_plays {s : State} {x : Xfer} {rest : List Xfer} (hdma : s.ai.dmaEn = true) (hfifo : s.ai.fifo = x :: rest) :
    ∃ frames : List Frame, frames.length = x.len.toNat / 4 ∧
      (∀ k < x.len.toNat / 4, ∀ f, frames[k]? = some f →
        frameBytes f = (List.range 4).map fun j => s.dmaByte (x.addr.toNat + 4 * k + j)) ∧
      agentMove .aiDma s = .ok () { s with
        output := s.output ++ frames.map OutItem.frame
        ai := { s.ai with fifo := rest, irq := true }
        race := (aiDmaMove s).race, oracle := { s.oracle with draws := s.oracle.draws + 1 } } := by
  have hmove : agentMove .aiDma s = .ok () (aiDmaMove s) := rfl
  refine ⟨(List.range (x.len.toNat / 4)).map fun k => frameAt s.dmaByte (x.addr.toNat + 4 * k), ?_, fun k hk f hf => ?_, ?_⟩
  · rw [List.length_map, List.length_range]
  · rw [List.getElem?_map, List.getElem?_range hk, Option.map_some, Option.some_inj] at hf
    rw [← hf, frameBytes_frameAt, bytesBy]
  · rw [hmove, aiDmaMove_drains hdma hfifo]
    exact congrArg _ (drainHead_eq s x rest)

/-! ### What a turn leaves of every patience (R391) -/

theorem drawWait_patience (s : State) : s.drawWait.2.oracle.patience = s.oracle.patience := by
  unfold State.drawWait
  split
  · rfl
  · rfl

/-- The clients' count aside, `passClients` leaves every patience. -/
theorem passClients_of (s : State) (d : Duty) : s.passClients.oracle.patience.of d = s.oracle.patience.of d := by
  unfold State.passClients
  split
  · split
    · rfl
    · rw [← drawWait_patience s]
      cases d <;> rfl
  · rfl

/-- No number of clients is drawn while the engine waits. -/
theorem passClients_awaiting {s : State} (h : s.awaitsCoproc = true) : s.passClients = s := by
  unfold State.passClients
  split
  · exact if_pos h
  · rfl

theorem passDuties_of (s : State) (a : Agent) : ∃ wait, ∀ d, (s.passDuties a).oracle.patience.of d = s.patienceLeft a wait d := by
  unfold State.passDuties
  exact ⟨_, fun d => by cases d <;> rfl⟩

theorem passDuties_client (s : State) (a : Agent) : (s.passDuties a).oracle.patience.client = s.oracle.patience.client := by
  have hdraw : s.drawWait.2.oracle.patience.client = s.oracle.patience.client := congrArg Patience.client (drawWait_patience s)
  unfold State.passDuties
  split
  · exact hdraw
  · rfl

theorem passDuties_pending (s : State) (a : Agent) : (s.passDuties a).pending = s.pending := by
  have hdraw : s.drawWait.2.pending = s.pending := by
    unfold State.drawWait
    split
    · rfl
    · rfl
  unfold State.passDuties
  split
  · exact hdraw
  · rfl

theorem passTurn_of (s : State) (a : Agent) : ∃ wait, ∀ d, (s.passTurn a).oracle.patience.of d = s.patienceLeft a wait d := by
  obtain ⟨wait, hleft⟩ := passDuties_of s a
  exact ⟨wait, fun d => (passClients_of _ d).trans (hleft d)⟩

theorem awaitsCoproc_congr {s t : State} (h : t.pending = s.pending) : t.awaitsCoproc = s.awaitsCoproc := by
  rw [State.awaitsCoproc, State.awaitsCoproc, h]

theorem passTurn_client {s : State} (h : s.awaitsCoproc = true) (a : Agent) :
    (s.passTurn a).oracle.patience.client = s.oracle.patience.client := by
  have hwaits : (s.passDuties a).awaitsCoproc = true := (awaitsCoproc_congr (passDuties_pending s a)).trans h
  rw [State.passTurn, passClients_awaiting hwaits, passDuties_client]

/-! ### The agent that moves -/

/-- Choosing an agent uses up choices of the environment, and no patience. -/
theorem chosen_state (s : State) : ∃ o, s.chosen.2 = { s with oracle := o } ∧ o.patience = s.oracle.patience := by
  unfold State.chosen
  split
  · exact ⟨_, rfl, rfl⟩
  · split
    · exact ⟨_, rfl, rfl⟩
    · exact ⟨s.oracle, rfl, rfl⟩

theorem nextAgent_overdue {s : State} {d : Duty} (h : s.overdue = some d) :
    s.nextAgent = (s.dutyMove d, s.passTurn (s.dutyMove d)) := by
  rw [State.nextAgent, h]

theorem nextAgent_chosen {s : State} (h : s.overdue = none) : s.nextAgent = (s.chosen.1, s.chosen.2.passTurn s.chosen.1) := by
  rw [State.nextAgent, h]

/-- Whoever moves, every patience is the one that `patienceLeft` says. -/
theorem nextAgent_patience (s : State) : ∃ wait, ∀ d, s.nextAgent.2.oracle.patience.of d = s.patienceLeft s.nextAgent.1 wait d := by
  cases hdue : s.overdue with
  | some d =>
    rw [nextAgent_overdue hdue]
    exact passTurn_of s _
  | none =>
    obtain ⟨o, hstate, hpatience⟩ := chosen_state s
    obtain ⟨wait, hleft⟩ := passTurn_of s.chosen.2 s.chosen.1
    rw [nextAgent_chosen hdue]
    refine ⟨wait, fun d => (hleft d).trans ?_⟩
    have hdue : ∀ d, ({ s with oracle := o }).due d = s.due d := fun d => by cases d <;> rfl
    have hserves : ∀ a d, ({ s with oracle := o }).serves a d = s.serves a d := fun _ _ => rfl
    rw [hstate, State.patienceLeft, State.patienceLeft, hdue, hserves, hpatience]

theorem nextAgent_client {s : State} (h : s.awaitsCoproc = true) : s.nextAgent.2.oracle.patience.client = s.oracle.patience.client := by
  cases hdue : s.overdue with
  | some d =>
    rw [nextAgent_overdue hdue]
    exact passTurn_client h _
  | none =>
    obtain ⟨o, hstate, hpatience⟩ := chosen_state s
    rw [nextAgent_chosen hdue, passTurn_client (by rw [hstate]; exact h), hstate]
    exact congrArg Patience.client hpatience

/-- The move of a duty does it. -/
theorem serves_dutyMove (s : State) (d : Duty) : s.serves (s.dutyMove d) d = true := by
  cases d with
  | drain => rfl
  | irq => rfl
  | host => rfl
  | job =>
    rw [State.dutyMove]
    split
    · next hclient => exact hclient
    · next hclient => exact Bool.not_eq_true' _ |>.mpr (Bool.eq_false_iff.mpr hclient)

theorem mem_duties (d : Duty) : d ∈ duties := by cases d <;> decide

/-- The duty that comes first is due and can wait no longer. -/
theorem overdue_some {s : State} {d : Duty} (h : s.overdue = some d) : s.due d = true ∧ s.oracle.patience.of d = 0 := by
  have hfound := List.find?_some h
  rwa [Bool.and_eq_true, beq_iff_eq] at hfound

/-- A duty that is due and can wait no longer makes one come first. -/
theorem overdue_of_due {s : State} {d : Duty} (hdue : s.due d = true) (hnone : s.oracle.patience.of d = 0) :
    ∃ d', s.overdue = some d' := by
  refine Option.isSome_iff_exists.mp (List.find?_isSome.mpr ⟨d, mem_duties d, ?_⟩)
  rw [hdue, hnone]
  rfl

theorem patienceLeft_served {s : State} {a : Agent} {d : Duty} (hdue : s.due d = true) (hserves : s.serves a d = true) (wait : Nat) :
    s.patienceLeft a wait d = wait + 4 := by
  rw [State.patienceLeft, if_pos hdue, if_pos hserves]
  rfl

theorem patienceLeft_passed {s : State} {a : Agent} {d : Duty} (hdue : s.due d = true) (hserves : s.serves a d = false) (wait : Nat) :
    s.patienceLeft a wait d = s.oracle.patience.of d - 1 := by
  rw [State.patienceLeft, if_pos hdue, hserves]
  rfl

/-- A duty that is due is done; or one turn more of its wait is over; or it is overdue, and another that is overdue too is done first and gets
a wait of at least as many turns as there are duties. -/
theorem duty_progress {s : State} {d : Duty} (hdue : s.due d = true) :
    s.serves s.nextAgent.1 d = true ∨
      (0 < s.oracle.patience.of d ∧ s.nextAgent.2.oracle.patience.of d = s.oracle.patience.of d - 1) ∨
      ∃ d', d' ≠ d ∧ s.due d' = true ∧ s.oracle.patience.of d' = 0 ∧ s.serves s.nextAgent.1 d' = true ∧
        4 ≤ s.nextAgent.2.oracle.patience.of d' := by
  obtain ⟨wait, hleft⟩ := nextAgent_patience s
  by_cases hdone : s.serves s.nextAgent.1 d = true
  · exact .inl hdone
  right
  rcases Nat.eq_zero_or_pos (s.oracle.patience.of d) with hnone | hmore
  · obtain ⟨d', hfirst⟩ := overdue_of_due hdue hnone
    obtain ⟨hdue', hnone'⟩ := overdue_some hfirst
    have hserves : s.serves s.nextAgent.1 d' = true := by
      rw [nextAgent_overdue hfirst]
      exact serves_dutyMove s d'
    refine .inr ⟨d', ?_, hdue', hnone', hserves, ?_⟩
    · rintro rfl
      exact hdone hserves
    · rw [hleft, patienceLeft_served hdue' hserves]
      exact Nat.le_add_left 4 wait
  · exact .inl ⟨hmore, (hleft d).trans (patienceLeft_passed hdue (Bool.eq_false_iff.mpr hdone) wait)⟩

/-! ### Other clients (R263, R357, R391) -/

/-- A client that comes ahead of a waiting engine uses up one of the times it may. -/
theorem clientStart_awaiting {s : State} (h : s.awaitsCoproc = true) :
    (clientStart s).coproc = s.coproc ∨ (clientStart s).oracle.patience.client < s.oracle.patience.client := by
  by_cases hbusy : s.coproc.jobBusy = true
  · rw [clientStart, if_pos hbusy]
    exact .inl rfl
  · rw [clientStart, if_neg hbusy, if_pos h]
    split
    · exact .inl rfl
    · next k hclient =>
      right
      rw [hclient]
      exact Nat.lt_succ_self k

/-- Settles O16: the bytes of the head transfer in fours; what a turn leaves of each patience, whoever moves; and the clients' count. -/
theorem drainStep : Obligations.DrainStep :=
  ⟨fun _ _ _ hdma hfifo => ⟨due_drain hdma hfifo, drain_plays hdma hfifo⟩, fun _ _ hdue => duty_progress hdue,
    fun _ hwaits => ⟨clientStart_awaiting hwaits, nextAgent_client hwaits⟩⟩

end Sys2Proof.Machine
end

section
/-!
SUPPORT. Taking the AI interrupt (spec/60_exceptions.md R343, R344): in any environment, what a handler that returns leaves of the state it
preempted.
-/

namespace Sys2Proof.Machine

set_option Elab.async false

/-! ### What a handler leaves alone -/

/-- The parts of the state that no handler touches before it returns; the depth, the context and the executing command's name are the business
of the entry and the return. -/
structure Sheltered where
  owner : Owner
  fault : Option FaultRecord
  res : List Word
  pending : Option Pending
  host : List HostAct
  mx : Mixer
  sbs : Table SampleBuf
  chans : Table Channel
  events : List Event
  vs : VideoSync
  allocs : List (Nat × Nat)
  params : Params

/-- Those parts of a state. -/
def State.sheltered (s : State) : Sheltered :=
  ⟨s.owner, s.fault, s.res, s.pending, s.host, s.mx, s.sbs, s.chans, s.events, s.vs, s.allocs, s.params⟩

/-- Where the computation answers, it has left those parts as they were. -/
def Shelters {α : Type} (x : Act α) : Prop := ∀ ⦃s a t⦄, x s = .ok a t → t.sheltered = s.sheltered

section
variable {α β : Type}

/-! ### Combinators -/

theorem shelters_pure (a : α) : Shelters (pure a : Act α) := by
  intro s _ t h
  cases h
  rfl

theorem shelters_bind {x : Act α} {f : α → Act β} (hx : Shelters x) (hf : ∀ a, Shelters (f a)) : Shelters (x >>= f) := by
  intro s _ u h
  obtain ⟨a, t, hfirst, hrest⟩ := act_bind_ok_iff.mp h
  exact (hf a hrest).trans (hx hfirst)

theorem shelters_read {f : State → Act β} (h : ∀ s, Shelters (f s)) : Shelters ((get : Act State) >>= f) := fun s _ _ e => h s e

theorem shelters_update {g : State → State} (h : ∀ s, (g s).sheltered = s.sheltered := by exact fun _ => rfl) :
    Shelters (modify g : Act PUnit) := by
  intro s _ t e
  cases e
  exact h s

/-- A computation that replaces the state it reads. -/
theorem shelters_readSet {g : State → State} {f : State → PUnit → Act β} (h : ∀ s, (g s).sheltered = s.sheltered)
    (hf : ∀ s a, Shelters (f s a)) : Shelters ((get : Act State) >>= fun s => (set (g s) : Act PUnit) >>= f s) :=
  fun s _ _ e => (hf s ⟨⟩ e).trans (h s)

theorem shelters_ite {p : Prop} [Decidable p] {x y : Act α} (hx : Shelters x) (hy : Shelters y) : Shelters (if p then x else y) := by
  split
  · exact hx
  · exact hy

theorem shelters_raise (c : FaultCode) (v : Word) : Shelters (raise c v : Act α) := fun _ _ _ => nofun

theorem shelters_raiseBadState : Shelters (raiseBadState : Act α) := fun _ _ _ => nofun

theorem shelters_stick : Shelters (stick : Act α) := fun _ _ _ => nofun

theorem shelters_ensure (p : Prop) [Decidable p] (c : FaultCode) (v : Word) : Shelters (ensure p c v) :=
  shelters_ite (shelters_pure ()) (shelters_raise c v)

theorem shelters_forList {f : α → Act Unit} (h : ∀ x, Shelters (f x)) (xs : List α) : Shelters (forList f xs) := by
  induction xs with
  | nil => exact shelters_pure ()
  | cons x xs ih => exact shelters_bind (h x) fun _ => ih

theorem shelters_draw {x : Act α} (h : ∀ s, ∃ a o, x s = .ok a { s with oracle := o }) : Shelters x := by
  intro s _ t e
  obtain ⟨a, o, hdraw⟩ := h s
  rw [hdraw] at e
  cases e
  rfl

theorem shelters_critical {body : Act Unit} (h : Shelters body) : Shelters (critical body) := by
  have hmove {p : State → Prop} [∀ s, Decidable (p s)] {g : State → State} (hg : ∀ s, (g s).sheltered = s.sheltered) :
      Shelters ((get : Act State) >>= fun s => ensure (p s) .irqUnbalanced 0 >>= fun _ => modify g) :=
    shelters_read fun _ => shelters_bind (shelters_ensure _ _ _) fun _ => shelters_update hg
  have hdisable : Shelters disableIrq := hmove fun _ => rfl
  have henable : Shelters enableIrq := hmove fun _ => rfl
  exact shelters_bind hdisable fun _ => shelters_bind h fun _ => henable

end

/-! ### Moves of the hardware agents (R265, R354 to R357) -/

theorem foldl_sheltered {α : Type} {g : State → α → State} (h : ∀ s a, (g s a).sheltered = s.sheltered) (xs : List α) (s : State) :
    (xs.foldl g s).sheltered = s.sheltered :=
  List.foldlRecOn (motive := fun t => t.sheltered = s.sheltered) xs g rfl fun t ht a _ => (h t a).trans ht

theorem aiDmaMove_sheltered (s : State) : (aiDmaMove s).sheltered = s.sheltered := by
  unfold aiDmaMove
  split
  · split
    · rfl
    · rfl
  · rfl

theorem coprocMove_sheltered (s : State) : (coprocMove s).sheltered = s.sheltered := by
  unfold coprocMove
  split
  · rfl
  · rfl

theorem clientStart_sheltered (s : State) : (clientStart s).sheltered = s.sheltered := by
  rcases clientStart_cases s with hsame | ⟨-, o, hheld⟩
  · rw [hsame]
  · rw [hheld]
    rfl

theorem clientWrite_sheltered (s : State) (c : Nat × Byte) : (clientWrite s c).sheltered = s.sheltered := by
  unfold clientWrite
  split
  · rfl
  · rfl

theorem clientDone_sheltered (s : State) (ws : List (Nat × Byte)) : (clientDone s ws).sheltered = s.sheltered := by
  unfold clientDone
  split
  · exact foldl_sheltered clientWrite_sheltered ws s
  · rfl

theorem deviceMove_sheltered (a : Agent) (s : State) : (deviceMove a s).sheltered = s.sheltered := by
  cases a with
  | host => rfl
  | irq => rfl
  | aiDma => exact aiDmaMove_sheltered s
  | coproc => exact coprocMove_sheltered s
  | clientStart => exact clientStart_sheltered s
  | clientDone ws => exact clientDone_sheltered s ws

theorem deviceBoundary_shelters : Shelters deviceBoundary :=
  shelters_bind (shelters_draw fun s => (draws_answer s).1 []) fun moves =>
    shelters_forList (fun a => shelters_update (deviceMove_sheltered a)) moves

/-! ### A fill callback (R146, R360): host code that may issue no command -/

theorem hostAccess_shelters (a : HostAct) : Shelters (hostAccess a) := by
  cases a with
  | issue p => exact shelters_pure ()
  | write cached w a v =>
    intro s _ t h
    replace h : (if _ then _ else _) = _ := h
    split at h
    · cases h
      cases cached with
      | true => rfl
      | false => rfl
    · cases h
  | read cached w a =>
    intro s _ t h
    replace h : (if _ then _ else _) = _ := h
    split at h
    · cases h
      rfl
    · cases h
  | writeback a n =>
    exact shelters_update fun s => foldl_sheltered (g := fun t (c : Host.Cell) => t.cpuPut c.1 [c.2]) (fun _ _ => rfl) _ s
  | invalidate a n => exact shelters_update

/-- A refused packet has no answer. -/
theorem refusePacket_shelters (p : Packet) : Shelters (refusePacket p) := by
  refine shelters_readSet (fun _ => rfl) fun s _ => ?_
  split
  · exact shelters_ite (shelters_raise _ _) shelters_raiseBadState
  · exact shelters_raise _ _
  · exact shelters_raiseBadState
  · exact shelters_raise _ _
  · exact shelters_raise _ _

theorem fillActs_shelters (acts : List HostAct) : Shelters (runActs refusePacket deviceBoundary acts) := by
  induction acts with
  | nil => exact shelters_pure ()
  | cons a acts ih =>
    have rest : Shelters (do deviceBoundary; runActs refusePacket deviceBoundary acts) := shelters_bind deviceBoundary_shelters fun _ => ih
    cases a with
    | issue p => exact shelters_bind (refusePacket_shelters p) fun _ => rest
    | write cached w a v => exact shelters_bind (hostAccess_shelters _) fun _ => rest
    | read cached w a => exact shelters_bind (hostAccess_shelters _) fun _ => rest
    | writeback a n => exact shelters_bind (hostAccess_shelters _) fun _ => rest
    | invalidate a n => exact shelters_bind (hostAccess_shelters _) fun _ => rest

theorem fillCall_shelters (fn : Word) (args : List Nat) : Shelters (callHost refusePacket deviceBoundary .fill fn args) := by
  refine shelters_readSet (fun _ => rfl) fun s _ => shelters_bind (shelters_draw fun s => (draws_answer s).2.1) fun run =>
    shelters_bind (fillActs_shelters run.acts) fun _ => ?_
  cases run.ret with
  | none => exact shelters_stick
  | some r =>
    exact shelters_read fun _ => shelters_bind (shelters_ensure _ _ _) fun _ => shelters_bind shelters_update fun _ => shelters_pure r

theorem blockZero_shelters (a n : Nat) : Shelters (blockZero a n) := by
  intro s _ t h
  unfold blockZero at h
  split at h
  · cases h
    rfl
  · cases h

theorem fillRegion_shelters : Shelters fillRegion :=
  shelters_read fun _ => shelters_ite (blockZero_shelters _ _) (shelters_bind (fillCall_shelters _ _) fun _ => shelters_pure ())

/-! ### The device's registers -/

theorem aiWrite_shelters (r : AiReg) (v : Word) : Shelters (aiWrite r v) := by
  cases r with
  | len => exact shelters_read fun _ => shelters_bind (shelters_ensure _ _ _) fun _ => shelters_update
  | dramAddr => exact shelters_update
  | control => exact shelters_update
  | status => exact shelters_update
  | dacrate => exact shelters_update
  | bitrate => exact shelters_update

theorem enqueue_shelters (a v : Word) : Shelters (enqueue a v) := shelters_bind (aiWrite_shelters _ _) fun _ => aiWrite_shelters _ _

/-! ### The driver's handler (R144 to R148) -/

theorem drvRetireLoop_shelters (fuel : Nat) : Shelters (drvRetireLoop fuel) := by
  induction fuel with
  | zero => exact shelters_pure ()
  | succ fuel ih =>
    exact shelters_bind deviceBoundary_shelters fun _ => shelters_read fun _ =>
      shelters_ite (shelters_bind shelters_update fun _ => ih) (shelters_pure ())

theorem drvRefillLoop_shelters (fuel : Nat) : Shelters (drvRefillLoop fuel) := by
  induction fuel with
  | zero => exact shelters_pure ()
  | succ fuel ih =>
    exact shelters_read fun _ =>
      shelters_ite (shelters_bind fillRegion_shelters fun _ => shelters_bind shelters_update fun _ => ih) (shelters_pure ())

theorem drvCommitLoop_shelters (fuel : Nat) : Shelters (drvCommitLoop fuel) := by
  induction fuel with
  | zero => exact shelters_pure ()
  | succ fuel ih =>
    exact shelters_bind deviceBoundary_shelters fun _ => shelters_read fun _ =>
      shelters_ite (shelters_bind (enqueue_shelters _ _) fun _ => shelters_bind shelters_update fun _ => ih) (shelters_pure ())

theorem drvDispatch_shelters : Shelters drvDispatch :=
  shelters_critical (shelters_bind (shelters_read fun _ => drvRetireLoop_shelters _) fun _ =>
    shelters_bind (drvRefillLoop_shelters _) fun _ => drvCommitLoop_shelters _)

theorem drvIrq_shelters : Shelters drvIrq :=
  shelters_bind (aiWrite_shelters _ _) fun _ => shelters_read fun _ => shelters_ite drvDispatch_shelters (shelters_pure ())

/-! ### The engine's handler (R275, R276) -/

theorem mxRetireLoop_shelters (fuel : Nat) : Shelters (mxRetireLoop fuel) := by
  induction fuel with
  | zero => exact shelters_pure ()
  | succ fuel ih =>
    exact shelters_bind deviceBoundary_shelters fun _ => shelters_read fun _ =>
      shelters_ite (shelters_bind shelters_update fun _ => ih) (shelters_pure ())

theorem mxCommitPending_shelters : Shelters mxCommitPending := by
  refine shelters_bind deviceBoundary_shelters fun _ => shelters_read fun s => ?_
  cases s.ring.pending with
  | none => exact shelters_pure ()
  | some x => exact shelters_ite (shelters_pure ()) (shelters_bind (enqueue_shelters _ _) fun _ => shelters_update)

theorem mxDispatch_shelters : Shelters mxDispatch :=
  shelters_critical (shelters_read fun _ => shelters_bind (mxRetireLoop_shelters _) fun _ => mxCommitPending_shelters)

theorem mxIrq_shelters : Shelters mxIrq :=
  shelters_bind (aiWrite_shelters _ _) fun _ => shelters_read fun _ => shelters_ite mxDispatch_shelters (shelters_pure ())

/-! ### The interrupt (R343, R344) -/

/-- The interrupt is not taken where R343 does not allow it. -/
theorem takeAiIrq_idle {s : State} (h : ¬ s.irqEligible) : takeAiIrq s = .ok () s := by
  rw [takeAiIrq, act_get_bind, if_neg h, act_pure]

/-- The return restores the context and the name of the executing command, whatever the handler did to them. -/
theorem interrupt_resumes {handler : Act Unit} (h : Shelters handler) {s t : State} (hrun : interrupt handler s = .ok () t) :
    t.ctx = s.ctx ∧ t.cmd = s.cmd ∧ t.sheltered = s.sheltered := by
  rw [interrupt, act_get_bind, act_set_bind] at hrun
  obtain ⟨_, u, hhandler, hreturn⟩ := act_bind_ok_iff.mp hrun
  have hsame : u.sheltered = s.irqEntry.sheltered := h hhandler
  cases hreturn
  exact ⟨rfl, rfl, hsame⟩

theorem takeAiIrq_resumes {s t : State} (h : takeAiIrq s = .ok () t) : t.ctx = s.ctx ∧ t.cmd = s.cmd ∧ t.sheltered = s.sheltered := by
  by_cases heligible : s.irqEligible
  · rw [takeAiIrq, act_get_bind, if_pos heligible] at h
    exact interrupt_resumes (shelters_ite drvIrq_shelters mxIrq_shelters) h
  · rw [takeAiIrq_idle heligible] at h
    cases h
    exact ⟨rfl, rfl, rfl⟩

/-- The interrupt returns to the depth it was taken at. -/
theorem takeAiIrq_depth {s t : State} (h : takeAiIrq s = .ok () t) : t.irqDepth = s.irqDepth := by
  have hdepth := takeAiIrq_obeys (depthContract_sound True) s
  rw [ObeysAt, h] at hdepth
  exact hdepth trivial

theorem not_irqEligible {s : State} (h : s.ai.irq = false ∨ s.irqDepth ≠ 0 ∨ s.owner = .none ∨ s.fault ≠ none) : ¬ s.irqEligible := by
  rintro ⟨hirq, hdepth, howner, hfault⟩
  rcases h with h | h | h | h
  · rw [hirq] at h
    cases h
  · exact h hdepth
  · exact howner h
  · exact h hfault

/-- Settles O13: where the interrupt is not allowed nothing happens; where it is taken, no elementary update of a handler that returns
touches the sheltered parts, its critical section is balanced, and the return restores the rest. -/
theorem interruptIsPrecise : Obligations.InterruptIsPrecise := by
  intro s t
  refine ⟨fun h => takeAiIrq_idle (not_irqEligible h), fun h => ?_⟩
  obtain ⟨hctx, hcmd, hsame⟩ := takeAiIrq_resumes h
  exact ⟨hctx, hcmd, takeAiIrq_depth h, congrArg Sheltered.res hsame, congrArg Sheltered.pending hsame, congrArg Sheltered.host hsame,
    congrArg Sheltered.owner hsame, congrArg Sheltered.fault hsame, congrArg Sheltered.mx hsame, congrArg Sheltered.sbs hsame,
    congrArg Sheltered.chans hsame, congrArg Sheltered.events hsame, congrArg Sheltered.vs hsame, congrArg Sheltered.allocs hsame,
    congrArg Sheltered.params hsame⟩

end Sys2Proof.Machine
end
